-- ==== Sys2Proof/Word.lean ====
section
/-!
DEFINITION. The word and byte types of the Azgor, and nothing more: every helper over them that a test could
show wrong stands under Machine/ or in Decode.lean.
-/
namespace Sys2Proof

/-- A 64-bit scalar register, address or status word (00_scope.md R2, R5). -/
abbrev Word := BitVec 64

/-- The smallest unit of storage (R5). -/
abbrev Byte := BitVec 8

end Sys2Proof
end

