-- ==== Sys2Proof/Config.lean ====
section
/-!
DEFINITION. Values the spec leaves open, as constants without a body: nothing can be proved of them but what holds for every
value. `State.fresh` counts the uses.
-/
namespace Sys2Proof.Config

/-- A free value for each use (log entry 2). -/
opaque freeWord : Nat → Word

/-- Does a public key hash under SHA-384 to the value fused in the device (R454)? -/
opaque keyFused : List Byte → Bool

/-- The fused minimum of the version of an image (R454). -/
opaque minVersion : Nat

end Sys2Proof.Config
end

