-- ==== Sys2Proof/Syntax.lean ====
section
/-!
DEFINITION. The words of the Azgor as terms: the operand records of the seven instruction formats (R194 to R208), the
operands of the device events, and Instr, one constructor per row of the opcode table. Nothing here has a meaning.
-/
namespace Sys2Proof

/-! ### Fields every instruction shares -/

/-- The field LEN of a legal instruction (R192). -/
inductive Len
  | w64 | w96 | w128
deriving DecidableEq, Repr

/-- Bits [11:0] of the first word (R194, R195, R196): length, hint version, hints, predicate and its sense. -/
structure Frame where
  len : Len
  hv : Fin 4
  hint : Fin 16
  pr : Fin 8
  pn : Bool
deriving DecidableEq, Repr

/-- The scalar type codes 000 to 101 of TY (R204). -/
inductive Ty
  | i64 | i32 | f16 | bf16 | f32 | f64
deriving DecidableEq, Repr

/-- The rounding codes 000 to 100 (R172). -/
inductive Rnd
  | rne | rz | ru | rd | sr
deriving DecidableEq, Repr

/-- The access sizes of SZ, 000 to 110 (R199). -/
inductive Sz
  | byte | half | word | dword | byteSx | halfSx | wordSx
deriving DecidableEq, Repr

/-- The conditions of COND, 0000 to 0111 (R200). -/
inductive Cond
  | always | never | eq | ne | lt | ge | ltu | geu
deriving DecidableEq, Repr

/-- The destination domain DM, 00 to 10 (R202). -/
inductive Dm
  | nfm | ext | fin
deriving DecidableEq, Repr

/-- The element formats of R205. The argument of a binary8 format is its precision less one. -/
inductive Fmt
  | b8 (p : Fin 7) | ub8 (p : Fin 7)
  | i8 | ui8 | i16 | i32 | f16 | bf16 | f32 | f64
  | mxi8 | mxb8 (p : Fin 7)
deriving DecidableEq, Repr

/-! ### The formats -/

/-- Format R (R197). -/
structure FmtR where
  var : Fin 32
  sc : Fin 32
  ty : Ty
  rnd : Rnd
  c : Fin 64
  b : Fin 64
  a : Fin 64
  d : Fin 64
deriving DecidableEq, Repr

/-- Format I (R198); `imm` is the immediate of the form used, sign-extended to 64 bits. -/
structure FmtI where
  var : Fin 32
  sc : Fin 32
  imm : Word
  a : Fin 64
  d : Fin 64
deriving DecidableEq, Repr

/-- Format M (R199); `off` is the offset of the form used, sign-extended to 64 bits. -/
structure FmtM where
  sc : Fin 32
  sp : Fin 8
  sz : Sz
  off : Word
  a : Fin 64
  d : Fin 64
deriving DecidableEq, Repr

/-- Format B (R200). -/
structure FmtB where
  off : BitVec 26
  cond : Cond
  b : Fin 64
  a : Fin 64
deriving DecidableEq, Repr

/-- Format W (R201). -/
structure FmtW where
  nc : Fin 16
  np : Fin 64
  nr : Fin 64
  nb : Fin 256
deriving DecidableEq, Repr

/-- Format T (R202); a format field that holds 0x00 is none. `rowsm1` and `colsm1` are zero in an instruction
that creates no shape. -/
structure FmtT where
  var : Fin 32
  sat : Bool
  rnd : Rnd
  dm : Dm
  fd : Option Fmt
  fa : Option Fmt
  ga : Fin 64
  tc : Fin 16
  tb : Fin 16
  ta : Fin 16
  td : Fin 16
  rowsm1 : Fin 32
  colsm1 : Fin 128
deriving DecidableEq, Repr

/-- Format TM (R203); `off` is OFF32, 0 in the 64-bit form. -/
structure FmtTM where
  cols : Fin 128
  rows : Fin 32
  var : Fin 4
  rr : Bool
  sat : Bool
  rnd : Rnd
  dm : Dm
  fm : Option Fmt
  gb : Fin 64
  ga : Fin 64
  t : Fin 16
  off : BitVec 32
  first : Fin 32
  last : Fin 32
deriving DecidableEq, Repr

/-! ### Operands of the device events -/

/-- One of the 256 contexts: a core (R366 numbering) and a context of it. -/
structure CtxId where
  core : Fin 128
  cx : Fin 2
deriving DecidableEq, Repr

/-- A request packet of a slice to a stack controller (R62), without OP. `reserved` says that some reserved field is
not zero. -/
structure MemReq where
  tag : Fin 8
  src : Fin 128
  tc : Fin 4
  gaddr : BitVec 31
  mask : BitVec 64
  data : List Byte
  reserved : Bool
deriving DecidableEq, Repr

/-- An indirection-table request (R100), without ITOP. -/
structure ItReq where
  tag : Fin 8
  src : Fin 128
  tc : Fin 4
  gaddr : BitVec 31
  dframe : Fin 1048576
  reserved : Bool
deriving DecidableEq, Repr

/-- The operations of AMO and RED (R270). -/
inductive AtomicOp
  | add | and | or | xor | min | max | minu | maxu | swap | cas
deriving DecidableEq, Repr

/-- An operation that a peer sends over a Wenpen link to this device (R144): addresses are device-physical. -/
inductive RemoteOp
  | read (pa : Nat) (n : Nat)
  | write (pa : Nat) (bytes : List Byte)
  | atomic (op : AtomicOp) (w32 : Bool) (pa : Nat) (b c : Word)
  | exactAdd (pa : Nat) (fmt : Fmt) (ext : Bool) (v : Word)
  | exactRead (pa : Nat) (ty : Ty) (rnd : Rnd)
  | exactClear (pa : Nat)
deriving DecidableEq, Repr

/-- An access of the host over the host link (R108, R451). -/
inductive HostAccess
  | memRead (pa : Nat) (n : Nat)
  | memWrite (pa : Nat) (bytes : List Byte)
  | bar0Read (off : Nat)
  | bar0Write (off : Nat) (w : Word)
  | bar2Read (off : Nat)
  | bar2Write (off : Nat) (w : Word)
  | msixRead (off : Nat)
  | msixWrite (off : Nat) (w : Word)
deriving DecidableEq, Repr

/-- The eight words of a launch packet (R369). -/
structure Packet where
  ctl : Word
  pc : Word
  argp : Word
  cnt : Word
  shape : Word
  crec : Word
  stamp : Word
  deadline : Word
deriving DecidableEq, Repr

/-- The levels a cancel at the launch unit names (R368). -/
inductive CancelLevel
  | lnch | graph | phase | job
deriving DecidableEq, Repr

/-- A cancel (R352, R381). `asid` is the job of the caller, none for the host. -/
structure CancelReq where
  level : CancelLevel
  value : Word
  asid : Option (Fin 4096)
deriving DecidableEq, Repr

/-- The typed buffers (R18). -/
inductive Buf
  | w | a | c
deriving DecidableEq, Repr

/-- Where a soft error strikes (R409, R410). -/
inductive ErrorSite
  | scalar (c : CtxId) (r : Fin 64)
  | pred (c : CtxId) (r : Fin 8)
  | tile (c : CtxId) (t : Fin 16)
  | slot (core : Fin 128) (b : Buf) (n : Fin 64) (off : Fin 4096)
  /-- the cortex of a slot, by its 32-bit word -/
  | slotCortex (core : Fin 128) (b : Buf) (n : Fin 64) (word : Fin 160)
  | l1 (core : Fin 128) (va : Word)
  | icache (core : Fin 128) (line : Nat)
  | storeBuffer (core : Fin 128) (n : Nat)
  | l2 (slice : Fin 128) (line : Nat)
  | tlb (sorus : Fin 16) (n : Nat)
  | dram (st : Fin 8) (granule : Nat)
  | side (slice : Fin 128) (set : Nat)
  /-- the cortex of a tile, by its 32-bit word -/
  | cortex (c : CtxId) (t : Fin 16) (word : Fin 160)
  /-- an element of a tile in flight between structures, out of reach of ECC -/
  | flight (c : CtxId) (t : Fin 16) (row : Fin 32) (col : Fin 128) (bit : Fin 64)
  /-- an element of a slot of a typed buffer, out of reach of ECC -/
  | inBuffer (core : Fin 128) (b : Buf) (n : Fin 64) (row : Fin 32) (col : Fin 128) (bit : Fin 64)
  /-- the scalar and address datapath of a context -/
  | datapath (c : CtxId)
  /-- the matrix engine's datapath: an output of a context's next matrix instruction -/
  | matrix (c : CtxId) (row : Fin 32) (col : Fin 128) (mask : Word)
deriving DecidableEq, Repr

/-- The instructions and the device events, one constructor per row of the opcode table. -/
inductive Instr
  /-- ADD (R234). Adds two registers modulo 2^W and writes the sign-extended result. -/
  | add (f : Frame) (r : FmtR)
  /-- SUB (R234). Subtracts gB from gA modulo 2^W. -/
  | sub (f : Frame) (r : FmtR)
  /-- MUL (R234). Writes the low W bits of the product. -/
  | mul (f : Frame) (r : FmtR)
  /-- MULH (R234). Writes the high W bits of the signed product. -/
  | mulh (f : Frame) (r : FmtR)
  /-- MULHU (R234). Writes the high W bits of the unsigned product. -/
  | mulhu (f : Frame) (r : FmtR)
  /-- DIV (R234). Signed division truncated toward zero, with the fixed results of R236. -/
  | div (f : Frame) (r : FmtR)
  /-- DIVU (R234). Unsigned division, with the fixed results of R236. -/
  | divu (f : Frame) (r : FmtR)
  /-- REM (R234). Signed remainder taking the sign of a. -/
  | rem (f : Frame) (r : FmtR)
  /-- REMU (R234). Unsigned remainder. -/
  | remu (f : Frame) (r : FmtR)
  /-- AND (R234). Bitwise AND of two registers. -/
  | andR (f : Frame) (r : FmtR)
  /-- OR (R234). Bitwise OR of two registers. -/
  | orR (f : Frame) (r : FmtR)
  /-- XOR (R234). Bitwise XOR of two registers. -/
  | xorR (f : Frame) (r : FmtR)
  /-- ANDN (R234). a AND NOT b. -/
  | andn (f : Frame) (r : FmtR)
  /-- SHL (R234). Shift left by b mod W. -/
  | shl (f : Frame) (r : FmtR)
  /-- SHR (R234). Logical shift right by b mod W. -/
  | shr (f : Frame) (r : FmtR)
  /-- SAR (R234). Arithmetic shift right by b mod W. -/
  | sar (f : Frame) (r : FmtR)
  /-- ROT (R234). Rotate left by b mod W. -/
  | rot (f : Frame) (r : FmtR)
  /-- MIN (R234). Smaller of two values, signed. -/
  | minR (f : Frame) (r : FmtR)
  /-- MAX (R234). Larger of two values, signed. -/
  | maxR (f : Frame) (r : FmtR)
  /-- MINU (R234). Smaller of two values, unsigned. -/
  | minu (f : Frame) (r : FmtR)
  /-- MAXU (R234). Larger of two values, unsigned. -/
  | maxu (f : Frame) (r : FmtR)
  /-- ADD_IMM (R235). Immediate form of ADD. -/
  | addImm (f : Frame) (r : FmtI)
  /-- SUB_IMM (R235). Immediate form of SUB. -/
  | subImm (f : Frame) (r : FmtI)
  /-- MUL_IMM (R235). Immediate form of MUL. -/
  | mulImm (f : Frame) (r : FmtI)
  /-- MULH_IMM (R235). Immediate form of MULH. -/
  | mulhImm (f : Frame) (r : FmtI)
  /-- MULHU_IMM (R235). Immediate form of MULHU. -/
  | mulhuImm (f : Frame) (r : FmtI)
  /-- DIV_IMM (R235). Immediate form of DIV. -/
  | divImm (f : Frame) (r : FmtI)
  /-- DIVU_IMM (R235). Immediate form of DIVU. -/
  | divuImm (f : Frame) (r : FmtI)
  /-- REM_IMM (R235). Immediate form of REM. -/
  | remImm (f : Frame) (r : FmtI)
  /-- REMU_IMM (R235). Immediate form of REMU. -/
  | remuImm (f : Frame) (r : FmtI)
  /-- AND_IMM (R235). Immediate form of AND. -/
  | andImm (f : Frame) (r : FmtI)
  /-- OR_IMM (R235). Immediate form of OR. -/
  | orImm (f : Frame) (r : FmtI)
  /-- XOR_IMM (R235). Immediate form of XOR. -/
  | xorImm (f : Frame) (r : FmtI)
  /-- ANDN_IMM (R235). Immediate form of ANDN. -/
  | andnImm (f : Frame) (r : FmtI)
  /-- SHL_IMM (R235). Immediate form of SHL. -/
  | shlImm (f : Frame) (r : FmtI)
  /-- SHR_IMM (R235). Immediate form of SHR. -/
  | shrImm (f : Frame) (r : FmtI)
  /-- SAR_IMM (R235). Immediate form of SAR. -/
  | sarImm (f : Frame) (r : FmtI)
  /-- ROT_IMM (R235). Immediate form of ROT. -/
  | rotImm (f : Frame) (r : FmtI)
  /-- MIN_IMM (R235). Immediate form of MIN. -/
  | minImm (f : Frame) (r : FmtI)
  /-- MAX_IMM (R235). Immediate form of MAX. -/
  | maxImm (f : Frame) (r : FmtI)
  /-- MINU_IMM (R235). Immediate form of MINU. -/
  | minuImm (f : Frame) (r : FmtI)
  /-- MAXU_IMM (R235). Immediate form of MAXU. -/
  | maxuImm (f : Frame) (r : FmtI)
  /-- CLZ (R237). Counts leading zeros in the low W bits. -/
  | clz (f : Frame) (r : FmtR)
  /-- CTZ (R237). Counts trailing zeros in the low W bits. -/
  | ctz (f : Frame) (r : FmtR)
  /-- POPC (R237). Counts one bits in the low W bits. -/
  | popc (f : Frame) (r : FmtR)
  /-- SEXT (R238). Sign-extends the low 8, 16 or 32 bits. -/
  | sext (f : Frame) (r : FmtR)
  /-- ZEXT (R238). Zero-extends the low 8, 16 or 32 bits. -/
  | zext (f : Frame) (r : FmtR)
  /-- SEL (R239). Selects gA or gB by a predicate. -/
  | sel (f : Frame) (r : FmtR)
  /-- CMP (R240). Sets a predicate from a register comparison. -/
  | cmp (f : Frame) (r : FmtR)
  /-- CMP_IMM (R240). Sets a predicate from a comparison with an immediate. -/
  | cmpImm (f : Frame) (r : FmtI)
  /-- PLOGIC (R241). Combines two predicates by a 4-bit truth table. -/
  | plogic (f : Frame) (r : FmtR)
  /-- FMIN (R245). Smaller floating operand, NaN-avoiding. -/
  | fmin (f : Frame) (r : FmtR)
  /-- FMAX (R245). Larger floating operand, NaN-avoiding. -/
  | fmax (f : Frame) (r : FmtR)
  /-- FCMP (R246). Sets a predicate from a floating comparison. -/
  | fcmp (f : Frame) (r : FmtR)
  /-- FADD (R244). Correctly rounded floating addition. -/
  | fadd (f : Frame) (r : FmtR)
  /-- FSUB (R244). Correctly rounded floating subtraction. -/
  | fsub (f : Frame) (r : FmtR)
  /-- FMUL (R244). Correctly rounded floating multiplication. -/
  | fmul (f : Frame) (r : FmtR)
  /-- FFMA (R244). Fused multiply-add rounded once. -/
  | ffma (f : Frame) (r : FmtR)
  /-- FDIV (R244). Correctly rounded floating division. -/
  | fdiv (f : Frame) (r : FmtR)
  /-- FSQRT (R244). Correctly rounded square root. -/
  | fsqrt (f : Frame) (r : FmtR)
  /-- LI (R242). Loads an immediate into a register. -/
  | li (f : Frame) (r : FmtI)
  /-- LEA (R242). Computes a PC-relative or register-relative address. -/
  | lea (f : Frame) (r : FmtI)
  /-- FCVT (R247). Converts a scalar between floating and integer types. -/
  | fcvt (f : Frame) (r : FmtR)
  /-- FCLASS (R248). Writes a one-hot class of a floating value. -/
  | fclass (f : Frame) (r : FmtR)
  /-- LD (R265). Loads bytes from global memory into a register. -/
  | ld (f : Frame) (r : FmtM)
  /-- LD_ACQ (R125). Load followed by an acquire at a scope. -/
  | ldAcq (f : Frame) (r : FmtM)
  /-- ST (R265). Stores register bytes to global memory after retirement. -/
  | st (f : Frame) (r : FmtM)
  /-- ST_REL (R126). Release at a scope followed by a store at home. -/
  | stRel (f : Frame) (r : FmtM)
  /-- LD_EV (R267). Reads an event-unit word, waiting on a wait word. -/
  | ldEv (f : Frame) (r : FmtM)
  /-- ST_EV (R267). Supervisor store of an event-unit state word. -/
  | stEv (f : Frame) (r : FmtM)
  /-- LDL (R268). Loads from the core's own typed buffer. -/
  | ldl (f : Frame) (r : FmtM)
  /-- STL (R28). Stores into an A slot and updates its checks. -/
  | stl (f : Frame) (r : FmtM)
  /-- PREF (R269). Prefetches a line into the L1 without faulting. -/
  | pref (f : Frame) (r : FmtM)
  /-- AMO (R271). Returning atomic performed at the home slice. -/
  | amo (f : Frame) (r : FmtR)
  /-- RED (R272). Non-returning atomic reduction at home. -/
  | red (f : Frame) (r : FmtR)
  /-- REDE (R273). Adds a value exactly into an exact cell. -/
  | rede (f : Frame) (r : FmtR)
  /-- RDE (R273). Rounds an exact cell into a register. -/
  | rde (f : Frame) (r : FmtR)
  /-- CLRE (R273). Clears an exact cell to zero. -/
  | clre (f : Frame) (r : FmtR)
  /-- NOP (R259). Does nothing. -/
  | nop (f : Frame) (r : FmtR)
  /-- B (R251). Unconditional PC-relative branch. -/
  | b (f : Frame) (r : FmtB)
  /-- BC (R251). Branch on a predicate's sense. -/
  | bc (f : Frame) (r : FmtB)
  /-- BCMP (R251). Branch on a register comparison. -/
  | bcmp (f : Frame) (r : FmtB)
  /-- CALL (R252). PC-relative call writing a link register. -/
  | call (f : Frame) (r : FmtB)
  /-- CALLR (R252). Register-indirect call writing a link register. -/
  | callr (f : Frame) (r : FmtR)
  /-- RET (R252). Jumps to the return address in a register. -/
  | ret (f : Frame) (r : FmtR)
  /-- JMPR (R252). Jumps to an address in a register. -/
  | jmpr (f : Frame) (r : FmtR)
  /-- REPT (R255). Sets the pass state that replays the next k instructions. -/
  | rept (f : Frame) (r : FmtI)
  /-- TRAP (R260). Retires and raises TRAPINST. -/
  | trap (f : Frame) (r : FmtI)
  /-- TEND (R261). Completes engines, releases, decrements the join cell and ends the task. -/
  | tend (f : Frame) (r : FmtR)
  /-- CSRR (R353). Reads a status register at the head. -/
  | csrr (f : Frame) (r : FmtI)
  /-- CSRW (R353). Writes a status register at the head. -/
  | csrw (f : Frame) (r : FmtI)
  /-- CSRX_SWAP (R353). Swaps a status register with a register. -/
  | csrxSwap (f : Frame) (r : FmtI)
  /-- CSRX_SET (R353). Sets bits of a status register, returning the old value. -/
  | csrxSet (f : Frame) (r : FmtI)
  /-- CSRX_CLR (R353). Clears bits of a status register, returning the old value. -/
  | csrxClr (f : Frame) (r : FmtI)
  /-- ECALL (R354). Retires and raises ECALLU or ECALLS. -/
  | ecall (f : Frame) (r : FmtI)
  /-- ERET (R403). Returns from a trap or ends the task when ENDF is set. -/
  | eret (f : Frame) (r : FmtR)
  /-- TLBI_ALL (R355). Removes every TLB entry and pointer cache device-wide. -/
  | tlbiAll (f : Frame) (r : FmtR)
  /-- TLBI_ASID (R355). Removes the non-global entries of one ASID. -/
  | tlbiAsid (f : Frame) (r : FmtR)
  /-- TLBI_VA (R355). Removes the entries mapping one address. -/
  | tlbiVa (f : Frame) (r : FmtR)
  /-- L1INV_I (R356). Invalidates the instruction cache and refetches. -/
  | l1invI (f : Frame) (r : FmtR)
  /-- L1INV_D (R356). Clears clean bytes of L1 lines in a range. -/
  | l1invD (f : Frame) (r : FmtR)
  /-- L1WB (R356). Writes back dirty L1 bytes in a range. -/
  | l1wb (f : Frame) (r : FmtR)
  /-- HARVEST_ALL (R357). Waits until every dirty log is merged. -/
  | harvestAll (f : Frame) (r : FmtR)
  /-- HARVEST_SOR (R357). Waits until the dirty logs of one sorus are merged. -/
  | harvestSor (f : Frame) (r : FmtR)
  /-- PHASE (R358). Records a pending mode, memory and clock command. -/
  | phase (f : Frame) (r : FmtI)
  /-- PHASE_NOW (R358). Steps core clocks at once with a relock. -/
  | phaseNow (f : Frame) (r : FmtI)
  /-- BKPT (R360). Debug stop, or BKPTF when debug is disabled. -/
  | bkpt (f : Frame) (r : FmtI)
  /-- DBGINJ (R361). Arms or applies a test error injection. -/
  | dbginj (f : Frame) (r : FmtR)
  /-- FENCE_ACQ (R127). Acquire fence at a scope. -/
  | fenceAcq (f : Frame) (r : FmtR)
  /-- FENCE_REL (R127). Release fence at a scope. -/
  | fenceRel (f : Frame) (r : FmtR)
  /-- FENCE_FULL (R127). Release then acquire, ordering stores before loads. -/
  | fenceFull (f : Frame) (r : FmtR)
  /-- FENCE_ENG (R140). Completes engine work, then releases and acquires. -/
  | fenceEng (f : Frame) (r : FmtR)
  /-- WAITCNT (R275). Waits until outstanding counts fall to limits, acquiring completed copies. -/
  | waitcnt (f : Frame) (r : FmtW)
  /-- WAITA (R276). Parks on a word at home while it holds a value. -/
  | waita (f : Frame) (r : FmtR)
  /-- WAKE (R277). Wakes the oldest waiters of a line. -/
  | wake (f : Frame) (r : FmtR)
  /-- BAR (R282). Arrives at a barrier and waits for its phase. -/
  | bar (f : Frame) (r : FmtR)
  /-- BARA (R282). Arrives at a barrier and returns the token. -/
  | bara (f : Frame) (r : FmtR)
  /-- BARW (R282). Waits for a token's phase without arriving. -/
  | barw (f : Frame) (r : FmtR)
  /-- EVSIG (R284). Adds signals to an event line. -/
  | evsig (f : Frame) (r : FmtR)
  /-- EVWAIT (R284). Takes one signal, waiting while none is pending. -/
  | evwait (f : Frame) (r : FmtR)
  /-- MTXL (R283). Takes a mutex or queues for it. -/
  | mtxl (f : Frame) (r : FmtR)
  /-- MTXU (R283). Releases a mutex to the oldest queued context. -/
  | mtxu (f : Frame) (r : FmtR)
  /-- CHS (R287). Sends a flit to a receive channel. -/
  | chs (f : Frame) (r : FmtR)
  /-- CHR (R288). Takes a flit, waiting while the channel is empty. -/
  | chr (f : Frame) (r : FmtR)
  /-- CHP (R288). Takes a flit if present and sets a predicate. -/
  | chp (f : Frame) (r : FmtR)
  /-- RGBEGIN (R291). Opens a strict or elastic region with a checkpoint. -/
  | rgbegin (f : Frame) (r : FmtI)
  /-- RGEND (R292). Commits the open region. -/
  | rgend (f : Frame) (r : FmtR)
  /-- RGABORT (R292). Aborts the open region with cause EXPLICIT. -/
  | rgabort (f : Frame) (r : FmtI)
  /-- RGBOUND (R292). Raises the region's lower bound. -/
  | rgbound (f : Frame) (r : FmtR)
  /-- TSPAWN (R352). Arms a cell with a count and continuation. -/
  | tspawn (f : Frame) (r : FmtR)
  /-- TDEC (R352). Releases and sends a decrement to a cell. -/
  | tdec (f : Frame) (r : FmtR)
  /-- TJOIN (R352). Waits for a cell and returns its status. -/
  | tjoin (f : Frame) (r : FmtR)
  /-- TCANCEL_CELL (R352). Sets CANCELLED in a cell of the issuing core. -/
  | tcancelCell (f : Frame) (r : FmtR)
  /-- TCANCEL_LNCH (R352). Hands a cancel of one launch to the launch unit. -/
  | tcancelLnch (f : Frame) (r : FmtR)
  /-- TCANCEL_GRAPH (R352). Hands a cancel of a graph to the launch unit. -/
  | tcancelGraph (f : Frame) (r : FmtR)
  /-- TCANCEL_PHASE (R352). Hands a supervisor cancel of a phase to the launch unit. -/
  | tcancelPhase (f : Frame) (r : FmtR)
  /-- TCANCEL_JOB (R352). Hands a supervisor cancel of an ASID to the launch unit. -/
  | tcancelJob (f : Frame) (r : FmtR)
  /-- LNCH (R352). Releases and submits a launch packet. -/
  | lnch (f : Frame) (r : FmtR)
  /-- TLD (R297). Loads a tile from global memory and computes its cortex. -/
  | tld (f : Frame) (r : FmtTM)
  /-- TST (R300). Verifies and stores a tile to global memory. -/
  | tst (f : Frame) (r : FmtTM)
  /-- TLDL (R303). Loads a tile whole from a typed-buffer slot. -/
  | tldl (f : Frame) (r : FmtTM)
  /-- TSTL (R303). Stores a tile whole into a typed-buffer slot. -/
  | tstl (f : Frame) (r : FmtTM)
  /-- TREDE (R304). Adds each tile element into an exact cell. -/
  | trede (f : Frame) (r : FmtTM)
  /-- TRDE (R305). Rounds exact cells into a tile. -/
  | trde (f : Frame) (r : FmtTM)
  /-- TZERO (R306). Creates a zero tile of a shape. -/
  | tzero (f : Frame) (r : FmtT)
  /-- TFILL (R306). Creates a tile filled with a scalar encoding. -/
  | tfill (f : Frame) (r : FmtT)
  /-- TMOV (R306). Copies a tile unchanged. -/
  | tmov (f : Frame) (r : FmtT)
  /-- TRETAG (R306). Changes a tile's format tag without converting. -/
  | tretag (f : Frame) (r : FmtT)
  /-- TGET (R307). Reads one element's encoding into a register. -/
  | tget (f : Frame) (r : FmtT)
  /-- TSETE (R307). Replaces one element and updates its checks. -/
  | tsete (f : Frame) (r : FmtT)
  /-- CPY (R344). Reads a descriptor and hands a copy to the engine. -/
  | cpy (f : Frame) (r : FmtR)
  /-- CPYL (R343). Hands a linear global copy to the engine. -/
  | cpyl (f : Frame) (r : FmtR)
  /-- CPYC (R343). Copy that decrements a cell on completion. -/
  | cpyc (f : Frame) (r : FmtR)
  /-- COLL (R347). Issues this core's share of a collective. -/
  | coll (f : Frame) (r : FmtR)
  /-- MMA (R309). Dense matrix multiply-accumulate with arithmetic check. -/
  | mma (f : Frame) (r : FmtT)
  /-- MMASP (R310). 2:4 sparse matrix multiply-accumulate. -/
  | mmasp (f : Frame) (r : FmtT)
  /-- MMAMX (R309). Block-scaled matrix multiply-accumulate. -/
  | mmamx (f : Frame) (r : FmtT)
  /-- MMAX (R309). FP32-input matrix multiply-accumulate on X cores. -/
  | mmax (f : Frame) (r : FmtT)
  /-- TCHK (R313). Verifies a tile's checks and reports a status. -/
  | tchk (f : Frame) (r : FmtT)
  /-- TCHK_FIX (R313). Verifies and repairs one element or faults. -/
  | tchkFix (f : Frame) (r : FmtT)
  /-- TCFIX (R313). Verifies and repairs one element without faulting. -/
  | tcfix (f : Frame) (r : FmtT)
  /-- TCGEN (R316). Recomputes every check of a tile. -/
  | tcgen (f : Frame) (r : FmtT)
  /-- TCRD (R316). Reads one stored row or column check. -/
  | tcrd (f : Frame) (r : FmtT)
  /-- TADD (R324). Elementwise addition of tiles. -/
  | tadd (f : Frame) (r : FmtT)
  /-- TSUB (R324). Elementwise subtraction of tiles. -/
  | tsub (f : Frame) (r : FmtT)
  /-- TMUL (R324). Elementwise multiplication of tiles. -/
  | tmul (f : Frame) (r : FmtT)
  /-- TFMA (R324). Elementwise fused multiply-add. -/
  | tfma (f : Frame) (r : FmtT)
  /-- TMIN (R326). Elementwise minimum. -/
  | tmin (f : Frame) (r : FmtT)
  /-- TMAX (R326). Elementwise maximum. -/
  | tmax (f : Frame) (r : FmtT)
  /-- TABS (R327). Elementwise absolute value. -/
  | tabs (f : Frame) (r : FmtT)
  /-- TNEG (R327). Elementwise negation. -/
  | tneg (f : Frame) (r : FmtT)
  /-- TSCALE (R327). Multiplies every element by a scalar. -/
  | tscale (f : Frame) (r : FmtT)
  /-- TRCP (R328). Elementwise reciprocal. -/
  | trcp (f : Frame) (r : FmtT)
  /-- TRSQ (R328). Elementwise reciprocal square root. -/
  | trsq (f : Frame) (r : FmtT)
  /-- TEXP2 (R328). Elementwise base-2 exponential. -/
  | texp2 (f : Frame) (r : FmtT)
  /-- TLOG2 (R328). Elementwise base-2 logarithm. -/
  | tlog2 (f : Frame) (r : FmtT)
  /-- TCVT (R329). Converts a tile between formats, including MX. -/
  | tcvt (f : Frame) (r : FmtT)
  /-- TAND (R331). Bitwise AND of encodings. -/
  | tand (f : Frame) (r : FmtT)
  /-- TOR (R331). Bitwise OR of encodings. -/
  | tor (f : Frame) (r : FmtT)
  /-- TXOR (R331). Bitwise XOR of encodings. -/
  | txor (f : Frame) (r : FmtT)
  /-- TSHL (R332). Shifts integer elements left. -/
  | tshl (f : Frame) (r : FmtT)
  /-- TSHR (R332). Shifts integer elements right. -/
  | tshr (f : Frame) (r : FmtT)
  /-- TCMP (R333). Compares elements into a UINT8 mask tile. -/
  | tcmp (f : Frame) (r : FmtT)
  /-- TSEL (R334). Selects elements by a mask tile. -/
  | tsel (f : Frame) (r : FmtT)
  /-- TTRN (R335). Transposes a tile. -/
  | ttrn (f : Frame) (r : FmtT)
  /-- TREDR (R338). Reduces each row to one value. -/
  | tredr (f : Frame) (r : FmtT)
  /-- TREDC (R338). Reduces each column to one value. -/
  | tredc (f : Frame) (r : FmtT)
  /-- TBROW (R336). Broadcasts a row to g rows. -/
  | tbrow (f : Frame) (r : FmtT)
  /-- TBCOL (R336). Broadcasts a column to g columns. -/
  | tbcol (f : Frame) (r : FmtT)
  /-- TIOTA (R337). Creates a tile of counting values. -/
  | tiota (f : Frame) (r : FmtT)
  -- The device events of the table: they have no encoding; each names the agent or the message it handles.
  /-- EVENT_ENTRY (R401). Takes a pending event at a retirement boundary or at a blocking wait. -/
  | eventEntry (c : CtxId)
  /-- REGION_ABORT (R154). Aborts a region at its next retirement boundary and restores its checkpoint. -/
  | regionAbort (c : CtxId)
  /-- REGION_REGISTRATION (R148). Registers a region's read or write at a line's home slice and narrows intervals. -/
  | regionRegistration (c : CtxId) (va : Word) (write : Bool)
  /-- NARROWING_MESSAGE (R150). Applies a narrowing of ERLO or ERHI at the core. -/
  | narrowingMessage (n : Nat)
  /-- REGION_COMMIT_MESSAGE (R153). Applies a region's commit at a slice and narrows other registrants. -/
  | regionCommitMessage (c : CtxId) (slice : Fin 128)
  /-- REGION_COMMIT_ACK (R153). Last slice acknowledgement lets RGEND retire. -/
  | regionCommitAck (c : CtxId)
  /-- HOME_ATOMIC (R130). Performs an atomic, reduction or exact operation at the home slice. -/
  | homeAtomic (core : Fin 128) (n : Nat)
  /-- REDUCTION_ACK (R132). Home acknowledgement lowers the pending-reduction count. -/
  | reductionAck (core : Fin 128)
  /-- HOME_FILL (R52). Serves an L1 fill or read at the home slice. -/
  | homeFill (c : CtxId) (va : Word)
  /-- HOME_WRITEBACK (R46). Merges a masked write-back at the home slice. -/
  | homeWriteback (core : Fin 128) (n : Nat) (evict : Bool)
  /-- HOME_STORE (R107). Performs an at-home store or SO access at the slice. -/
  | homeStore (core : Fin 128) (n : Nat)
  /-- REPLICA_REQUEST (R54). Home sets REPL and returns a line for a victim replica. -/
  | replicaRequest (core : Fin 128) (line : Nat)
  /-- REPLICA_INVALIDATION (R56). A slice drops its replica of a line and acknowledges. -/
  | replicaInvalidation (slice : Fin 128) (line : Nat)
  /-- RD32 (R62). Controller reads one 32-byte granule. -/
  | rd32 (st : Fin 8) (q : MemReq)
  /-- RD64 (R62). Controller reads one 64-byte line. -/
  | rd64 (st : Fin 8) (q : MemReq)
  /-- WRT32 (R62). Controller writes one granule with fresh ECC. -/
  | wrt32 (st : Fin 8) (q : MemReq)
  /-- WRT64 (R62). Controller writes one line with fresh ECC. -/
  | wrt64 (st : Fin 8) (q : MemReq)
  /-- WRTM (R66). Controller applies a masked write granule by granule. -/
  | wrtm (st : Fin 8) (q : MemReq)
  /-- IT_READ (R100). Returns an indirection-table entry. -/
  | itRead (st : Fin 8) (q : ItReq)
  /-- IT_MOVE (R101). Starts moving a device frame to another DRAM frame. -/
  | itMove (st : Fin 8) (q : ItReq)
  /-- IT_MOVE_RETIRE (R101). Moves a device frame and retires the old DRAM frame. -/
  | itMoveRetire (st : Fin 8) (q : ItReq)
  /-- MOVE_LINE_COPY (R101). Completes the copy of one line of a moving frame. -/
  | moveLineCopy (st : Fin 8) (n : Nat)
  /-- READ_DATA (R63). A read-data reply reaches the slice and frees its tag. -/
  | readData (st : Fin 8) (n : Nat)
  /-- WRITE_ACKNOWLEDGEMENT (R63). A write acknowledgement reaches the slice and frees its tag. -/
  | writeAcknowledgement (st : Fin 8) (n : Nat)
  /-- ERROR_REPLY (R63). An error reply is reported as a firmware-group fault. -/
  | errorReply (st : Fin 8) (n : Nat)
  /-- RETREQ_READ (R439). Reading RETREQ removes the oldest retirement request. -/
  | retreqRead (st : Fin 8)
  /-- REFRESH_DUE (R69). A bank falls due and is refreshed, postponed or forces REFab. -/
  | refreshDue (st : Fin 8) (pc : Fin 64)
  /-- REFRESH_DONE (R68). A refresh ends and the next owed REFpb or request proceeds. -/
  | refreshDone (st : Fin 8) (pc : Fin 64) (bank : Fin 64)
  /-- BANK_IDLE_TIMEOUT (R69). A bank stops being busy 250 ns after service and repays owed refreshes. -/
  | bankIdleTimeout (st : Fin 8) (pc : Fin 64) (bank : Fin 64)
  /-- RETRAIN_DONE (R71). Controllers resume after retraining. -/
  | retrainDone
  /-- RELOCK_HOLD_END (R59). The 768 ns FIFO hold of a clock step ends. -/
  | relockHoldEnd (die : Fin 2)
  /-- PAGE_TABLE_WALK (R77). Walker reads an entry at home and advances or finishes the walk. -/
  | pageTableWalk (c : CtxId) (va : Word)
  /-- PAGE_RESPONSE_SUCCESS (R97). A Success response makes the walker walk again from the root. -/
  | pageResponseSuccess (n : Nat)
  /-- PAGE_RESPONSE_INVALID (R97). An Invalid Request response gives NOTPRESENT with PRIFAIL. -/
  | pageResponseInvalid (n : Nat)
  /-- PAGE_RESPONSE_FAILURE (R97). A Response Failure faults and stops page requests device-wide. -/
  | pageResponseFailure (n : Nat)
  /-- ATS_TRANSLATION_COMPLETION (R91). An ATS translation is kept in the TLB entry. -/
  | atsTranslationCompletion (sorus : Fin 16) (n : Nat) (frame : Nat)
  /-- ATS_INVALIDATE_REQUEST (R91). Removes matching host translations and completes after their requests. -/
  | atsInvalidateRequest (asid : Nat) (va : Word)
  /-- FORWARDED_COMPLETION (R93). An owner answers a forwarded line request. -/
  | forwardedCompletion (n : Nat) (err : Bool) (bytes : List Byte)
  /-- MIGRATION_HINT (R94). Forward counts reach THRESH and a hint record is appended. -/
  | migrationHint (sorus : Fin 16) (n : Nat)
  /-- DIRTY_LOG_MERGE (R88). At 512 waiting entries the agent merges them into D bits. -/
  | dirtyLogMerge (core : Fin 128)
  /-- WENPEN_REMOTE_ACCESS (R145). A target port performs or replays a tagged remote operation. -/
  | wenpenRemoteAccess (port : Fin 4) (tag : BitVec 16) (op : RemoteOp)
  /-- WENPEN_RESEND (R145). Resends unanswered operations with their tags after a replay. -/
  | wenpenResend (port : Fin 4)
  /-- LINK_RESET (R146). Clears tag tables and settles outstanding remote operations. -/
  | linkReset (port : Fin 4)
  /-- HOST_LINK_ACCESS (R108). A host read or write lands on device memory at home. -/
  | hostLinkAccess (acc : HostAccess)
  /-- COPY_COMPLETE (R138). The last write of a copy is acknowledged. -/
  | copyComplete (core : Fin 128) (n : Nat)
  /-- COPY_ENGINE_FAULT (R345). The engine stops a copy and records CPYERR. -/
  | copyEngineFault (core : Fin 128) (n : Nat) (cause : Nat) (addr : Word)
  /-- COLL_MESSAGE (R348). A collective message reaches a participant and is checked and applied. -/
  | collMessage (dst src : Fin 128) (id : Nat)
  /-- COLL_WITHDRAWAL (R348). A withdrawal message completes or marks a collective ID. -/
  | collWithdrawal (core : Fin 128) (id : Nat)
  /-- CELL_DECREMENT (R350). Applies a decrement to a task cell at its home. -/
  | cellDecrement (n : Nat)
  /-- CELL_COUNT_ZERO (R350). A cell reaches DONE, places its continuation and wakes its crozier. -/
  | cellCountZero (core : Fin 128) (cell : Fin 256)
  /-- BARRIER_REPORT (R281). A report raises DONE at the root unit. -/
  | barrierReport (n : Nat)
  /-- BARRIER_PHASE_COMPLETE (R281). A unit completes a phase and releases its waits. -/
  | barrierPhaseComplete (sorus b : Fin 16)
  /-- BARRIER_STATE_WRITE (R280). A supervisor write replaces a barrier word and discards held reports. -/
  | barrierStateWrite (sorus b : Fin 16) (w : Word)
  /-- MUTEX_STATE_WRITE (R283). A supervisor write sets mutex ownership and wakes queued waiters. -/
  | mutexStateWrite (sorus m : Fin 16) (w : Word)
  /-- CLREV (R285). Sets every event line's PENDING to 0. -/
  | clrev (sorus : Fin 16)
  /-- CLRMTX (R285). Frees the named mutexes. -/
  | clrmtx (sorus : Fin 16) (mask : BitVec 16)
  /-- CLRBAR (R285). Resets the named barriers. -/
  | clrbar (sorus : Fin 16) (mask : BitVec 16)
  /-- CHANNEL_FLIT_ARRIVAL (R287). A flit is accepted into its channel or refused. -/
  | channelFlitArrival (n : Nat)
  /-- CHANNEL_READY (R287). A ready message makes a refused sender send again. -/
  | channelReady (core : Fin 128) (chan : Fin 8)
  /-- HOST_WINDOW_PACKET (R371). A 64-byte packet written to a window slot is accepted or refused. -/
  | hostWindowPacket (slot : Fin 8) (p : Packet)
  /-- MAILBOX_PACKET (R421). Firmware places a launch through its mailbox slot. -/
  | mailboxPacket (p : Packet)
  /-- LAUNCH_DISPATCH (R373). The arbiter chooses the first eligible packet for fan-out. -/
  | launchDispatch
  /-- FANOUT_FLIT_ARRIVAL (R377). A start stub forwards fan-out flits and places a range entry. -/
  | fanoutFlitArrival (n : Nat)
  /-- SPILL_RETURN (R378). A spilled entry returns to its core as a slot frees. -/
  | spillReturn (core : Fin 128)
  /-- TASK_START (R379). An idle context takes a run-list entry and starts or resumes a task. -/
  | taskStart (c : CtxId)
  /-- LAUNCH_COMPLETION (R374). A launch counter reaches 0 and the completion record is written. -/
  | launchCompletion (ctr : Fin 256)
  /-- LAUNCH_UNIT_CANCEL (R381). The launch unit applies a cancel to the levels it names. -/
  | launchUnitCancel (l : CancelReq)
  /-- TASK_KILL (R381). A cancelled task is killed at its next retirement boundary. -/
  | taskKill (c : CtxId)
  /-- EVICTION (R385). A blocked context-0 task is saved and its context takes another entry. -/
  | eviction (c : CtxId)
  /-- MIGRATION (R386). A task with an X instruction moves to the sorus's X core. -/
  | migration (c : CtxId)
  /-- PHASE_BOUNDARY (R375). Applies the pending PHASE command and makes a new phase current. -/
  | phaseBoundary
  /-- DEADLOCK (R390). The launch unit traps DEADLOCK when every core is parked. -/
  | deadlock
  /-- HARD_EVENT_LIMIT (R412). A sorus's hard-event count reaches 4 and SORUSFAIL is raised. -/
  | hardEventLimit (sorus : Fin 16)
  /-- UNCOREUE (R410). An uncorrectable error in ownerless uncore state aborts and wakes its users. -/
  | uncoreue (slice : Fin 128) (set : Nat)
  /-- CONTAINMENT_FENCE (R415). Fences a rectangle of sori and kills its tasks. -/
  | containmentFence (e : Fin 16)
  /-- CONTAINMENT_RESET (R414). Resets and self-tests a fenced rectangle. -/
  | containmentReset (e : Fin 16)
  /-- SELF_TEST_DONE (R414). The self-test ends and the entry becomes held or failed. -/
  | selfTestDone (e : Fin 16) (pass : Bool)
  /-- CONTAINMENT_RELEASE (R414). Releases a held rectangle to rejoin at a phase boundary. -/
  | containmentRelease (e : Fin 16)
  /-- CONTAINMENT_CLEAR_COUNTS (R413). CMD 00 clears the hard-event counts of the sori inside. -/
  | containmentClearCounts (e : Fin 16)
  /-- BUFPART_WRITE (R34). Waits for buffer accesses and installs a new partition. -/
  | bufpartWrite (core : Fin 128) (w : Word)
  /-- BUFV_CLEAR (R35). Clears the named typed-buffer slots. -/
  | bufvClear (core : Fin 128) (buf : Buf) (mask : Word)
  /-- GQUERY (R438). Selects the graph counter to read. -/
  | gquery (w : Word)
  /-- DEBUG_HALT (R441). Writing HALT 1 requests a debug stop. -/
  | debugHalt (core : Fin 128)
  /-- DEBUG_RESUME (R441). Writing HALT 0 resumes a stopped context. -/
  | debugResume (core : Fin 128)
  /-- DEBUG_STEP (R442). Resumes and stops after one retired instruction. -/
  | debugStep (core : Fin 128)
  /-- DEBUG_STOP (R441). Takes a debug stop at a retirement boundary. -/
  | debugStop (core : Fin 128)
  /-- DEBUG_WINDOW_ACCESS (R441). Reads or writes a stopped context's state through the window. -/
  | debugWindowAccess (core : Fin 128) (off : Nat) (w : Option Word)
  /-- SPMC_SEL_WRITE (R443). Writing SEL selects an event and clears COUNT. -/
  | spmcSelWrite (sorus n : Fin 16) (w : Word)
  /-- HASH_PASS (R449). Hashes the dirty pages of an ASID after a launch completes. -/
  | hashPass (asid : Nat)
  /-- HOST_DOORBELL (R454). Host rings the host-to-firmware doorbell. -/
  | hostDoorbell
  /-- ATTESTATION_REQUEST (R454). Firmware answers a nonce with a signed attestation report. -/
  | attestationRequest (nonce : List Byte)
  /-- BOOT_COUNTER_CLEAR (R456). A host write clears the failed-start counter. -/
  | bootCounterClear
  /-- BOOTOK (R455). Writing BOOTOK marks the start successful and clears the counter. -/
  | bootok
  /-- BOOT_WATCHDOG (R456). BOOTOK not written within 2 s counts a failed start. -/
  | bootWatchdog
  /-- DEVICE_RESET (R456). Reset release starts the device, in minimal mode after three failures. -/
  | deviceReset
  /-- CLAMP_STEP_DOWN (R459). Steps a core clock down 100 MHz every 50 µs while over a clamp. -/
  | clampStepDown (die : Fin 2)
  /-- CLAMP_STEP_UP (R459). Steps a core clock back up 100 MHz each 1 ms once clear. -/
  | clampStepUp (die : Fin 2)
  /-- THERMAL_TRIP (R459). The package powers off at 105 °C. -/
  | thermalTrip
  /-- REGISTER_WRITE (R353). Writes a register that has no behaviour of its own. -/
  | registerWrite (c : CtxId) (num : Nat) (w : Word)
  /-- POWER_LOSS (R456). Loss of power clears the always-on counter of failed starts, which survives every reset but this. -/
  | powerLoss
  /-- PAGE_REQUESTS_ENABLED (R97). The host driver enables page requests again on the host link after a Response Failure stopped them device-wide. -/
  | pageRequestsEnabled
  /-- SOFT_ERROR (R409). A bit of an SRAM word, a DRAM granule or a datapath value flips of itself. -/
  | softError (site : ErrorSite) (double : Bool)
  /-- REPLICA_INVALIDATION_ACKNOWLEDGEMENT (R56). The last of the 64 replica-invalidation acknowledgements reaches home, which then
  performs the held write and clears REPL. -/
  | replicaInvalidationAcknowledgement (slice : Fin 128) (line : Nat)
  /-- RETURNING_OPERATION_REPLY (R132). The reply of an AMO, RDE or TRDE reaches the core, which writes the destination and lets the operation retire. -/
  | returningOperationReply (c : CtxId)
deriving DecidableEq, Repr

end Sys2Proof
end

