-- ==== Sys2Proof/WellFormed.lean ====
section
/-!
DEFINITION. Which instructions are legal encodings: the field rules of R192, R193, R196, R198 to R208, R219 and of each
instruction's own description (step 6 of R218), with the rule R257 on REPT blocks apart, which depends on the state.
A rule on the VALUE of a register belongs to the instruction's meaning.
-/
namespace Sys2Proof

/-! ### Formats of elements -/

/-- Width of an element in bits (R205). -/
def Fmt.width : Fmt → Nat
  | .i16 | .f16 | .bf16 => 16
  | .i32 | .f32 => 32
  | .f64 => 64
  | _ => 8

/-- Width of an element in bytes (R205). -/
def Fmt.bytes (f : Fmt) : Nat := f.width / 8

/-- A block-scaled format (R169). -/
def Fmt.isMx : Fmt → Bool
  | .mxi8 | .mxb8 _ => true
  | _ => false

/-- A binary8 or MX binary8 code: the formats that have a domain (R205). -/
def Fmt.hasDomain : Fmt → Bool
  | .b8 _ | .ub8 _ | .mxb8 _ => true
  | _ => false

/-- Signed or unsigned binary8 of any precision. -/
def Fmt.isB8 : Fmt → Bool
  | .b8 _ | .ub8 _ => true
  | _ => false

/-- INT8, UINT8, INT16, INT32: the integer formats of R325. -/
def Fmt.isInt : Fmt → Bool
  | .i8 | .ui8 | .i16 | .i32 => true
  | _ => false

/-- The floating formats of R324. -/
def Fmt.isFloat (f : Fmt) : Bool :=
  f.isB8 || f == .f16 || f == .bf16 || f == .f32 || f == .f64

/-- FP16, BF16 and FP32: what RDE, TRDE and the floating matrix instructions deliver. -/
def Fmt.isAcc (f : Fmt) : Bool := f == .f16 || f == .bf16 || f == .f32

/-- A shape of `rows` by `cols` elements is legal in the format (R206). -/
def Fmt.shapeOk (f : Fmt) (rows cols : Nat) : Bool :=
  1 ≤ rows && rows ≤ 32 && 1 ≤ cols && cols * f.bytes ≤ 128 && (!f.isMx || cols % 32 == 0)

/-- DM other than 00 only where the governed format has a domain (R205). -/
def Dm.okFor (dm : Dm) (f : Fmt) : Bool := dm == .nfm || f.hasDomain

/-! ### Field groups that must be zero -/

/-- A predicate named in a 6-bit register field has bits [5:3] zero (R232). -/
def isPred (x : Fin 64) : Bool := x.val < 8

/-- Integer type codes of format R (R233). -/
def Ty.isInt (t : Ty) : Bool := t == .i64 || t == .i32

/-- The type codes that REDE and RDE accept (R273). -/
def Ty.isCell (t : Ty) : Bool := t == .f16 || t == .bf16 || t == .f32

namespace FmtR

/-- VAR, SC, TY and RND all zero. -/
def plain (r : FmtR) : Bool := r.var == 0 && r.sc == 0 && r.ty == .i64 && r.rnd == .rne

/-- SC, TY and RND zero; VAR is the instruction's. -/
def plainVar (r : FmtR) : Bool := r.sc == 0 && r.ty == .i64 && r.rnd == .rne

/-- Only the named register fields may be other than zero. -/
def regs (r : FmtR) (d a b c : Bool) : Bool :=
  (d || r.d == 0) && (a || r.a == 0) && (b || r.b == 0) && (c || r.c == 0)

/-- An integer operation of R234: TY 000 or 001, VAR, SC and RND zero. -/
def int (r : FmtR) : Bool := r.var == 0 && r.sc == 0 && r.ty.isInt && r.rnd == .rne

/-- A floating operation that rounds: TY 010 to 101, SC only with .sr (R244). -/
def float (r : FmtR) : Bool := !r.ty.isInt && (r.rnd == .sr || r.sc == 0)

/-- A floating operation without rounding: SC and RND zero. -/
def floatExact (r : FmtR) : Bool := !r.ty.isInt && r.sc == 0 && r.rnd == .rne

end FmtR

namespace FmtI

/-- An immediate integer form (R235). -/
def alu (r : FmtI) : Bool := r.var.val ≤ 1 && r.sc == 0

/-- Only the immediate and VAR are used. -/
def immOnly (r : FmtI) : Bool := r.sc == 0 && r.a == 0 && r.d == 0

/-- A status-register number in the immediate (R219), VAR as given, A and D as named. -/
def csr (r : FmtI) (var : Fin 32) (d a : Bool) : Bool :=
  r.imm.toNat < 4096 && r.var == var && r.sc == 0 && (d || r.d == 0) && (a || r.a == 0)

end FmtI

/-- The condition codes 0010 to 0111 of CMP and BCMP (R240, R251). -/
def isCmpCond (n : Nat) : Bool := 2 ≤ n && n ≤ 7

/-- The condition codes of FCMP and of TCMP on floating formats (R246). -/
def isFcmpCond (n : Nat) : Bool := n == 2 || n == 3 || n == 4 || n == 5 || n == 8

/-- A sign-extended SZ code. -/
def Sz.isSx : Sz → Bool
  | .byteSx | .halfSx | .wordSx => true
  | _ => false

/-- Format TM: the rules every instruction of R296 shares, for its accepted formats. -/
def FmtTM.ok (f : Frame) (r : FmtTM) (accepts : Fmt → Bool) (stride : Bool) : Bool :=
  match r.fm with
  | none => false
  | some fm =>
    accepts fm && fm.shapeOk (r.rows.val + 1) (r.cols.val + 1) && r.dm.okFor fm && !r.sat &&
    (stride || r.gb == 0) && (f.len != .w64 || r.off == 0) &&
    (if r.rr then f.len == .w128 && r.first ≤ r.last && r.last ≤ r.rows else r.first == 0 && r.last == 0)

namespace FmtT

/-- No shape is created: ROWSM1 and COLSM1 are zero (R202). -/
def noShape (r : FmtT) : Bool := r.rowsm1 == 0 && r.colsm1 == 0

/-- Only the named tile fields may be other than zero (R208). -/
def tiles (r : FmtT) (td ta tb tc : Bool) : Bool :=
  (td || r.td == 0) && (ta || r.ta == 0) && (tb || r.tb == 0) && (tc || r.tc == 0)

/-- VAR, SAT, RND and DM zero. -/
def exact (r : FmtT) : Bool := !r.sat && r.rnd == .rne

/-- No format field is used. -/
def noFmt (r : FmtT) : Bool := r.fd == none && r.fa == none && r.dm == .nfm

/-- A shape is created in FD, in a form that has the extension word (R202, R206). -/
def makes (f : Frame) (r : FmtT) : Bool :=
  match r.fd with
  | none => false
  | some fd => f.len != .w64 && fd.shapeOk (r.rowsm1.val + 1) (r.colsm1.val + 1) && r.dm.okFor fd

/-- FA and FD are used and satisfy `p fa fd`; DM is governed by FD. -/
def fmts (r : FmtT) (p : Fmt → Fmt → Bool) : Bool :=
  match r.fa, r.fd with
  | some fa, some fd => p fa fd && r.dm.okFor fd
  | _, _ => false

/-- GA is used for a seed only: zero unless .sr (R321). -/
def seedOnly (r : FmtT) : Bool := r.rnd == .sr || r.ga == 0

/-- GA holds a value: with .sr the seed is in the next register (R321). -/
def valueSeed (r : FmtT) : Bool := r.rnd != .sr || r.ga != 63

/-- The .bs bit of VAR[0] chooses a scalar in GA in place of TB (R318). -/
def bs (r : FmtT) : Bool := r.var == 1

/-- VAR[0] is .bs, and TB and GA are used as it says. -/
def bsOk (r : FmtT) : Bool :=
  r.var.val ≤ 1 && (if r.bs then r.tb == 0 && r.valueSeed else r.seedOnly)

/-- FA and FD of the arithmetic of R324 and R325: floating formats, or one integer format with RND 000. -/
def arith (r : FmtT) : Bool :=
  r.fmts fun fa fd => (fa.isFloat && fd.isFloat) || (fa.isInt && fd == fa && r.rnd == .rne)

/-- FA and FD are one format that satisfies `p`. -/
def same (r : FmtT) (p : Fmt → Bool) : Bool := r.fmts fun fa fd => p fa && fd == fa

/-- FA and FD of MMA and MMASP (R308). -/
def mma (r : FmtT) : Bool :=
  r.fmts (fun fa fd =>
    (((fa.isB8 || fa == .f16 || fa == .bf16) && fd.isAcc) || ((fa == .i8 || fa == .ui8) && fd == .i32)) &&
    (r.var == 0 || (r.var == 1 && (fa.isB8 || fa == .i8 || fa == .ui8)))) &&
  r.dm == .nfm && r.seedOnly && r.noShape

/-- The operation, formats and rounding of TREDR and TREDC (R338). -/
def red (r : FmtT) : Bool :=
  r.tiles true true false false && r.ga == 0 && r.noShape &&
  r.fmts fun fa fd =>
    match r.var.val with
    | 0 => r.rnd != .sr &&
        ((fa.isFloat && fa != .f64 && fd == .f32) || (fa == .f64 && fd == .f64) || (fa.isInt && fd == .i32))
    | 1 | 2 => r.exact && fd == fa && (fa.isFloat || fa.isInt)
    | 3 => r.exact && fd == fa && fa.isFloat
    | _ => false

/-- TRCP, TRSQ, TEXP2, TLOG2 (R318, R328). -/
def func (r : FmtT) : Bool :=
  r.var == 0 && r.tiles true true false false && r.seedOnly && r.noShape &&
  r.fmts fun fa fd => fa.isFloat && fd.isFloat

/-- The copying forms of R320: TTRN, TBROW, TBCOL, and TSEL beside its own tiles. -/
def copies (r : FmtT) : Bool :=
  r.var == 0 && r.exact && r.noShape && r.same (fun _ => true) && r.dm == .nfm

/-- A bit operation (R331). -/
def bitop (r : FmtT) : Bool :=
  r.tiles true true true false && r.exact && r.noShape && r.var.val ≤ 1 &&
  (if r.bs then r.tb == 0 else r.ga == 0) &&
  r.fmts fun fa fd => !fa.isMx && !fd.isMx && fa.width == fd.width

/-- A shift (R332). -/
def shift (r : FmtT) : Bool :=
  r.var == 0 && r.tiles true true false false && r.exact && r.noShape && r.same Fmt.isInt

end FmtT

/-! ### The body of an instruction -/

/-- The format body of an instruction: one of the seven formats of R197 to R203. -/
inductive Body
  | r (x : FmtR) | i (x : FmtI) | m (x : FmtM) | b (x : FmtB) | w (x : FmtW) | t (x : FmtT) | tm (x : FmtTM)
deriving DecidableEq, Repr

/-- The immediate or offset of formats I and M stands in the field that the length gives (R193, R198, R199). -/
def Body.fits (len : Len) : Body → Bool
  | .i x => match len with
    | .w64 => x.imm == (x.imm.truncate 18).signExtend 64
    | .w96 => x.imm == (x.imm.truncate 32).signExtend 64
    | .w128 => true
  | .m x => match len with
    | .w64 => x.off == (x.off.truncate 12).signExtend 64
    | _ => x.off == (x.off.truncate 32).signExtend 64
  | _ => true

namespace Instr

/-- The field rules of each instruction's own description; a device event has no encoding and no field rule. -/
def fieldsOk : Instr → Bool
  -- R234, R235
  | .add _ r | .sub _ r | .mul _ r | .mulh _ r | .mulhu _ r | .div _ r | .divu _ r | .rem _ r | .remu _ r
  | .andR _ r | .orR _ r | .xorR _ r | .andn _ r | .shl _ r | .shr _ r | .sar _ r | .rot _ r
  | .minR _ r | .maxR _ r | .minu _ r | .maxu _ r => r.int && r.regs true true true false
  | .addImm _ r | .subImm _ r | .mulImm _ r | .mulhImm _ r | .mulhuImm _ r | .divImm _ r | .divuImm _ r
  | .remImm _ r | .remuImm _ r | .andImm _ r | .orImm _ r | .xorImm _ r | .andnImm _ r | .shlImm _ r
  | .shrImm _ r | .sarImm _ r | .rotImm _ r | .minImm _ r | .maxImm _ r | .minuImm _ r | .maxuImm _ r => r.alu
  -- R237 to R241
  | .clz _ r | .ctz _ r | .popc _ r => r.int && r.regs true true false false
  | .sext _ r | .zext _ r => r.plainVar && r.var.val ≤ 2 && r.regs true true false false
  | .sel _ r => r.plain && isPred r.c
  | .cmp _ r => r.sc == 0 && r.ty.isInt && r.rnd == .rne && isCmpCond r.var.val && isPred r.d && r.regs true true true false
  | .cmpImm _ r => r.sc == 0 && isCmpCond (r.var.val % 16) && isPred r.d
  | .plogic _ r => r.plainVar && r.var.val < 16 && isPred r.a && isPred r.b && isPred r.d && r.c == 0
  -- R245, R246, R244
  | .fmin _ r | .fmax _ r => r.var == 0 && r.floatExact && r.regs true true true false
  | .fcmp _ r => r.floatExact && isFcmpCond r.var.val && isPred r.d && r.regs true true true false
  | .fadd _ r | .fsub _ r | .fmul _ r | .fdiv _ r => r.var == 0 && r.float && r.regs true true true false
  | .ffma _ r => r.var == 0 && r.float
  | .fsqrt _ r => r.var == 0 && r.float && r.regs true true false false
  -- R242
  | .li _ r => r.var == 0 && r.sc == 0 && r.a == 0
  | .lea _ r => r.sc == 0 && (r.var == 1 || (r.var == 0 && r.a == 0))
  -- R247, R248
  | .fcvt _ r => r.regs true true false false && (r.rnd == .sr || r.sc == 0) && r.var.val % 8 ≤ 5 &&
      !(r.ty.isInt && r.var.val % 8 ≤ 1) && (r.var.val / 16 == 0 || r.ty.isInt || r.var.val % 8 ≤ 1) &&
      (r.var.val / 8 % 2 == 0 || r.ty.isInt)
  | .fclass _ r => r.var == 0 && r.floatExact && r.regs true true false false
  -- R265 to R269
  | .ld _ r => r.sp == 0 && r.sc == 0
  | .ldAcq _ r => r.sp == 1
  | .st _ r => r.sp == 0 && r.sc == 0 && !r.sz.isSx
  | .stRel _ r => r.sp == 1 && !r.sz.isSx
  | .ldEv _ r | .stEv _ r => r.sp == 2 && r.sc == 0 && !r.sz.isSx
  | .ldl _ r => r.sp.val ≤ 2 && r.sc == 0
  | .stl _ r => r.sp.val ≤ 2 && r.sc == 0 && !r.sz.isSx
  | .pref _ r => r.sp == 0 && r.sc == 0 && r.sz == .byte && r.d == 0
  -- R270 to R273
  | .amo _ r => r.sc == 0 && r.ty.isInt && r.rnd == .rne && r.var.val ≤ 9 && (r.var == 9 || r.c == 0)
  | .red _ r => r.sc == 0 && r.ty.isInt && r.rnd == .rne && r.var.val ≤ 7 && r.regs false true true false
  | .rede _ r => r.var == 0 && r.sc == 0 && r.ty.isCell && r.rnd == .rne && r.regs false true true false
  | .rde _ r => r.var == 0 && r.sc == 0 && r.ty.isCell && r.rnd != .sr && r.regs true true false false
  | .clre _ r => r.plain && r.regs false true false false
  -- R259, R251, R252, R254, R260, R261
  | .nop f r => f.pr == 0 && !f.pn && r.plain && r.regs false false false false
  | .b _ r => r.cond == .always && r.a == 0 && r.b == 0
  | .bc _ r => (r.cond == .always || r.cond == .never) && isPred r.a && r.b == 0
  | .bcmp _ r => r.cond != .always && r.cond != .never
  | .call _ r => r.cond == .always && r.b == 0
  | .callr _ r => r.plain && r.regs true true false false
  | .ret _ r | .jmpr _ r => r.plain && r.regs false true false false
  | .rept _ r => r.var.val < 16 && r.sc.val < 16 && r.d == 0
  | .trap _ r => r.var == 0 && r.immOnly
  | .tend _ r => r.plain && r.regs false false false false
  -- R353, R354
  | .csrr _ r => r.csr 0 true false
  | .csrw _ r => r.csr 0 false true
  | .csrxSwap _ r => r.csr 0 true true
  | .csrxSet _ r => r.csr 1 true true
  | .csrxClr _ r => r.csr 2 true true
  | .ecall _ r => r.var == 0 && r.immOnly
  | .eret _ r => r.plain && r.regs false false false false
  -- R355 to R361
  | .tlbiAll _ r => r.plain && r.regs false false false false
  | .tlbiAsid _ r => r.plainVar && r.var == 1 && r.regs false true false false
  | .tlbiVa _ r => r.plainVar && r.var == 2 && r.regs false true true false
  | .l1invI _ r => r.plain && r.regs false false false false
  | .l1invD _ r => r.plainVar && r.var == 1 && r.regs false true true false
  | .l1wb _ r => r.plain && r.regs false true true false
  | .harvestAll _ r => r.plain && r.regs false false false false
  | .harvestSor _ r => r.plainVar && r.var == 1 && r.regs false true false false
  | .phase _ r => r.var == 0 && r.sc == 0 && r.imm == 0 && r.d == 0
  | .phaseNow _ r => r.var == 1 && r.sc == 0 && r.imm == 0 && r.d == 0
  | .bkpt _ r => r.var == 0 && r.immOnly
  | .dbginj _ r => r.plain && r.regs false true true false
  -- R274 to R277
  | .fenceAcq _ r => r.var == 0 && r.ty == .i64 && r.rnd == .rne && r.regs false false false false
  | .fenceRel _ r => r.var == 1 && r.ty == .i64 && r.rnd == .rne && r.regs false false false false
  | .fenceFull _ r => r.var == 2 && r.ty == .i64 && r.rnd == .rne && r.regs false false false false
  | .fenceEng _ r => r.var == 3 && r.ty == .i64 && r.rnd == .rne && r.regs false false false false
  | .waitcnt _ _ => true
  | .waita _ r | .wake _ r => r.int && r.regs true true true false
  -- R279 to R284
  | .bar _ r | .bara _ r | .evwait _ r => r.plain && r.regs true true false false
  | .barw _ r => r.plainVar && r.var.val ≤ 1 && r.regs true true true false
  | .evsig _ r => r.plain && r.regs false true true false
  | .mtxl _ r | .mtxu _ r => r.plain && r.regs false true false false
  -- R287, R288
  | .chs _ r => r.plainVar && r.var.val < 4 && r.b.val + r.var.val ≤ 63 && r.regs false true true false
  | .chr _ r => r.plainVar && r.var.val < 4 && r.d.val + r.var.val ≤ 63 && r.regs true true false false
  | .chp _ r => r.plainVar && r.var.val < 4 && r.d.val + r.var.val ≤ 63 && isPred r.c && r.b == 0
  -- R291, R292
  | .rgbegin _ r => r.var.val ≤ 1 && r.imm.toNat % 4 == 0 && r.immOnly
  | .rgend _ r => r.plain && r.regs false false false false
  | .rgabort _ r => r.var == 0 && r.imm.toNat < 65536 && r.immOnly
  | .rgbound _ r => r.plain && r.regs false true false false
  -- R352
  | .tspawn _ r => r.plain && r.regs false true true true
  | .tdec _ r => r.plain && r.regs false true true false
  | .tjoin _ r | .lnch _ r => r.plain && r.regs true true false false
  | .tcancelCell _ r => r.plainVar && r.var == 0 && r.regs false true false false
  | .tcancelLnch _ r => r.plainVar && r.var == 1 && r.regs false true false false
  | .tcancelGraph _ r => r.plainVar && r.var == 2 && r.regs false true false false
  | .tcancelPhase _ r => r.plainVar && r.var == 3 && r.regs false true false false
  | .tcancelJob _ r => r.plainVar && r.var == 4 && r.regs false true false false
  -- R296
  | .tld f r => r.ok f (fun _ => true) true && r.var == 0 && r.rnd == .rne
  | .tst f r => r.ok f (fun _ => true) true && r.var == 0 && r.rnd == .rne && r.dm == .nfm && !r.rr
  | .tldl f r | .tstl f r => r.ok f (fun _ => true) false && r.var.val ≤ 2 && r.rnd == .rne && r.dm == .nfm && !r.rr
  | .trede f r => r.ok f (fun fm => fm.isB8 || fm.isAcc) true && r.var == 0 && r.rnd == .rne && r.dm == .nfm && !r.rr
  | .trde f r => r.ok f Fmt.isAcc true && r.var == 0 && r.rnd != .sr && r.dm == .nfm && !r.rr
  -- R306, R307
  | .tzero f r => r.makes f && r.var == 0 && r.exact && r.fa == none && r.ga == 0 && r.tiles true false false false
  | .tfill f r => r.makes f && r.var == 0 && r.exact && r.fa == none && r.tiles true false false false
  | .tmov _ r => r.var == 0 && r.exact && r.noFmt && r.noShape && r.ga == 0 && r.tiles true true false false
  | .tretag _ r => r.var == 0 && r.exact && r.noShape && r.ga == 0 && r.tiles true true false false && r.fa == none &&
      (match r.fd with | none => false | some fd => r.dm.okFor fd)
  | .tget _ r => r.var == 0 && r.exact && r.noFmt && r.noShape && r.ga != 63 && r.tiles false true false false
  | .tsete _ r => r.var == 0 && r.exact && r.noFmt && r.noShape && r.ga != 63 && r.tiles true true false false
  -- R343, R347
  | .cpy _ r | .coll _ r => r.plain && r.regs false true false false
  | .cpyl _ r => r.plain && r.regs false true true true
  | .cpyc _ r => r.plain && r.regs false true true false
  -- R308
  | .mma _ r => r.mma && r.tiles true true true false
  | .mmasp _ r => r.mma && r.tiles true true true true
  | .mmamx _ r => r.fmts (fun fa fd => fa.isMx && fd.isAcc) && r.var == 0 && r.dm == .nfm && r.seedOnly && r.noShape
  | .mmax _ r => r.fmts (fun fa fd => fa == .f32 && fd == .f32) && r.var == 0 && r.dm == .nfm && r.seedOnly &&
      r.noShape && r.tiles true true true false
  -- R313, R316
  | .tchk _ r => r.var == 0 && r.exact && r.noFmt && r.noShape && r.tiles false true false false
  | .tchkFix _ r => r.var == 1 && r.exact && r.noFmt && r.noShape && r.tiles true true false false
  | .tcfix _ r => r.var == 0 && r.exact && r.noFmt && r.noShape && r.tiles true true false false
  | .tcgen _ r => r.var == 0 && r.exact && r.noFmt && r.noShape && r.ga == 0 && r.tiles true true false false
  | .tcrd _ r => r.var.val ≤ 1 && r.exact && r.noFmt && r.noShape && r.ga != 63 && r.tiles false true false false
  -- R318
  | .tadd _ r | .tsub _ r | .tmul _ r => r.arith && r.bsOk && r.noShape && r.tiles true true true false
  | .tfma _ r => r.fmts (fun fa fd => fa.isFloat && fd.isFloat) && r.var == 0 && r.seedOnly && r.noShape
  | .tmin _ r | .tmax _ r => r.same (fun fa => fa.isFloat || fa.isInt) && r.exact && r.noShape && r.var.val ≤ 1 &&
      (if r.bs then r.tb == 0 else r.ga == 0) && r.tiles true true true false
  | .tabs _ r | .tneg _ r => r.arith && r.var == 0 && r.seedOnly && r.noShape && r.tiles true true false false
  | .tscale _ r => r.arith && r.var == 0 && r.valueSeed && r.noShape && r.tiles true true false false
  | .trcp _ r | .trsq _ r | .texp2 _ r | .tlog2 _ r => r.func
  | .tcvt _ r => r.var == 0 && r.noShape && r.seedOnly && r.tiles true true false true &&
      r.fmts fun fa fd => !(fa.isMx && fd.isMx) && (fa.isMx || r.tc == 0) && !(fd.isMx && (r.sat || !fa.isFloat))
  | .tand _ r | .tor _ r | .txor _ r => r.bitop
  | .tshl _ r | .tshr _ r => r.shift
  | .tcmp _ r => r.exact && r.noShape && r.tiles true true true false &&
      (if r.var.val ≥ 16 then r.tb == 0 else r.ga == 0) &&
      r.fmts fun fa fd => fd == .ui8 &&
        ((fa.isFloat && isFcmpCond (r.var.val % 16)) || (fa.isInt && 2 ≤ r.var.val % 16 && r.var.val % 16 ≤ 5))
  | .tsel _ r => r.copies && r.ga == 0
  | .ttrn _ r => r.copies && r.ga == 0 && r.tiles true true false false
  | .tbrow _ r | .tbcol _ r => r.copies && r.tiles true true false false
  | .tredr _ r | .tredc _ r => r.red
  | .tiota f r => r.makes f && r.fa == none && r.var.val ≤ 2 && r.valueSeed && r.tiles true false false false &&
      (match r.fd with | none => false | some fd => !fd.isMx)
  -- device events
  | .eventEntry _ | .regionAbort _ | .regionRegistration _ _ _ | .narrowingMessage _ | .regionCommitMessage _ _
  | .regionCommitAck _ | .homeAtomic _ _ | .reductionAck _ | .homeFill _ _ | .homeWriteback _ _ _
  | .homeStore _ _ | .replicaRequest _ _ | .replicaInvalidation _ _ | .rd32 _ _ | .rd64 _ _ | .wrt32 _ _
  | .wrt64 _ _ | .wrtm _ _ | .itRead _ _ | .itMove _ _ | .itMoveRetire _ _ | .moveLineCopy _ _ | .readData _ _
  | .writeAcknowledgement _ _ | .errorReply _ _ | .retreqRead _ | .refreshDue _ _ | .refreshDone _ _ _
  | .bankIdleTimeout _ _ _ | .retrainDone | .relockHoldEnd _ | .pageTableWalk _ _ | .pageResponseSuccess _
  | .pageResponseInvalid _ | .pageResponseFailure _ | .atsTranslationCompletion _ _ _
  | .atsInvalidateRequest _ _ | .forwardedCompletion _ _ _ | .migrationHint _ _ | .dirtyLogMerge _
  | .wenpenRemoteAccess _ _ _ | .wenpenResend _ | .linkReset _ | .hostLinkAccess _ | .copyComplete _ _
  | .copyEngineFault _ _ _ _ | .collMessage _ _ _ | .collWithdrawal _ _ | .cellDecrement _ | .cellCountZero _ _
  | .barrierReport _ | .barrierPhaseComplete _ _ | .barrierStateWrite _ _ _ | .mutexStateWrite _ _ _ | .clrev _
  | .clrmtx _ _ | .clrbar _ _ | .channelFlitArrival _ | .channelReady _ _ | .hostWindowPacket _ _
  | .mailboxPacket _ | .launchDispatch | .fanoutFlitArrival _ | .spillReturn _ | .taskStart _
  | .launchCompletion _ | .launchUnitCancel _ | .taskKill _ | .eviction _ | .migration _ | .phaseBoundary
  | .deadlock | .hardEventLimit _ | .uncoreue _ _ | .containmentFence _ | .containmentReset _
  | .selfTestDone _ _ | .containmentRelease _ | .containmentClearCounts _ | .bufpartWrite _ _ | .bufvClear _ _ _
  | .gquery _ | .debugHalt _ | .debugResume _ | .debugStep _ | .debugStop _ | .debugWindowAccess _ _ _
  | .spmcSelWrite _ _ _ | .hashPass _ | .hostDoorbell | .attestationRequest _ | .bootCounterClear | .bootok
  | .bootWatchdog | .deviceReset | .clampStepDown _ | .clampStepUp _ | .thermalTrip | .registerWrite _ _ _
  | .powerLoss | .pageRequestsEnabled | .softError _ _ | .replicaInvalidationAcknowledgement _ _
  | .returningOperationReply _ => true

/-- The frame and the format body of an instruction; a device event has none. -/
def parts? : Instr → Option (Frame × Body)
  | .add f r | .sub f r | .mul f r | .mulh f r | .mulhu f r | .div f r | .divu f r | .rem f r | .remu f r
  | .andR f r | .orR f r | .xorR f r | .andn f r | .shl f r | .shr f r | .sar f r | .rot f r | .minR f r
  | .maxR f r | .minu f r | .maxu f r => some (f, .r r)
  | .addImm f r | .subImm f r | .mulImm f r | .mulhImm f r | .mulhuImm f r | .divImm f r | .divuImm f r
  | .remImm f r | .remuImm f r | .andImm f r | .orImm f r | .xorImm f r | .andnImm f r | .shlImm f r
  | .shrImm f r | .sarImm f r | .rotImm f r | .minImm f r | .maxImm f r | .minuImm f r | .maxuImm f r => some (f, .i r)
  | .clz f r | .ctz f r | .popc f r | .sext f r | .zext f r | .sel f r | .cmp f r => some (f, .r r)
  | .cmpImm f r => some (f, .i r)
  | .plogic f r | .fmin f r | .fmax f r | .fcmp f r | .fadd f r | .fsub f r | .fmul f r | .ffma f r | .fdiv f r
  | .fsqrt f r => some (f, .r r)
  | .li f r | .lea f r => some (f, .i r)
  | .fcvt f r | .fclass f r => some (f, .r r)
  | .ld f r | .ldAcq f r | .st f r | .stRel f r | .ldEv f r | .stEv f r | .ldl f r | .stl f r | .pref f r => some (f, .m r)
  | .amo f r | .red f r | .rede f r | .rde f r | .clre f r | .nop f r => some (f, .r r)
  | .b f r | .bc f r | .bcmp f r | .call f r => some (f, .b r)
  | .callr f r | .ret f r | .jmpr f r => some (f, .r r)
  | .rept f r | .trap f r => some (f, .i r)
  | .tend f r => some (f, .r r)
  | .csrr f r | .csrw f r | .csrxSwap f r | .csrxSet f r | .csrxClr f r | .ecall f r => some (f, .i r)
  | .eret f r | .tlbiAll f r | .tlbiAsid f r | .tlbiVa f r | .l1invI f r | .l1invD f r | .l1wb f r
  | .harvestAll f r | .harvestSor f r => some (f, .r r)
  | .phase f r | .phaseNow f r | .bkpt f r => some (f, .i r)
  | .dbginj f r | .fenceAcq f r | .fenceRel f r | .fenceFull f r | .fenceEng f r => some (f, .r r)
  | .waitcnt f r => some (f, .w r)
  | .waita f r | .wake f r | .bar f r | .bara f r | .barw f r | .evsig f r | .evwait f r | .mtxl f r | .mtxu f r
  | .chs f r | .chr f r | .chp f r => some (f, .r r)
  | .rgbegin f r => some (f, .i r)
  | .rgend f r => some (f, .r r)
  | .rgabort f r => some (f, .i r)
  | .rgbound f r | .tspawn f r | .tdec f r | .tjoin f r | .tcancelCell f r | .tcancelLnch f r
  | .tcancelGraph f r | .tcancelPhase f r | .tcancelJob f r | .lnch f r => some (f, .r r)
  | .tld f r | .tst f r | .tldl f r | .tstl f r | .trede f r | .trde f r => some (f, .tm r)
  | .tzero f r | .tfill f r | .tmov f r | .tretag f r | .tget f r | .tsete f r => some (f, .t r)
  | .cpy f r | .cpyl f r | .cpyc f r | .coll f r => some (f, .r r)
  | .mma f r | .mmasp f r | .mmamx f r | .mmax f r | .tchk f r | .tchkFix f r | .tcfix f r | .tcgen f r
  | .tcrd f r | .tadd f r | .tsub f r | .tmul f r | .tfma f r | .tmin f r | .tmax f r | .tabs f r | .tneg f r
  | .tscale f r | .trcp f r | .trsq f r | .texp2 f r | .tlog2 f r | .tcvt f r | .tand f r | .tor f r | .txor f r
  | .tshl f r | .tshr f r | .tcmp f r | .tsel f r | .ttrn f r | .tredr f r | .tredc f r | .tbrow f r
  | .tbcol f r | .tiota f r => some (f, .t r)
  | .eventEntry _ | .regionAbort _ | .regionRegistration _ _ _ | .narrowingMessage _ | .regionCommitMessage _ _
  | .regionCommitAck _ | .homeAtomic _ _ | .reductionAck _ | .homeFill _ _ | .homeWriteback _ _ _
  | .homeStore _ _ | .replicaRequest _ _ | .replicaInvalidation _ _ | .rd32 _ _ | .rd64 _ _ | .wrt32 _ _
  | .wrt64 _ _ | .wrtm _ _ | .itRead _ _ | .itMove _ _ | .itMoveRetire _ _ | .moveLineCopy _ _ | .readData _ _
  | .writeAcknowledgement _ _ | .errorReply _ _ | .retreqRead _ | .refreshDue _ _ | .refreshDone _ _ _
  | .bankIdleTimeout _ _ _ | .retrainDone | .relockHoldEnd _ | .pageTableWalk _ _ | .pageResponseSuccess _
  | .pageResponseInvalid _ | .pageResponseFailure _ | .atsTranslationCompletion _ _ _
  | .atsInvalidateRequest _ _ | .forwardedCompletion _ _ _ | .migrationHint _ _ | .dirtyLogMerge _
  | .wenpenRemoteAccess _ _ _ | .wenpenResend _ | .linkReset _ | .hostLinkAccess _ | .copyComplete _ _
  | .copyEngineFault _ _ _ _ | .collMessage _ _ _ | .collWithdrawal _ _ | .cellDecrement _ | .cellCountZero _ _
  | .barrierReport _ | .barrierPhaseComplete _ _ | .barrierStateWrite _ _ _ | .mutexStateWrite _ _ _ | .clrev _
  | .clrmtx _ _ | .clrbar _ _ | .channelFlitArrival _ | .channelReady _ _ | .hostWindowPacket _ _
  | .mailboxPacket _ | .launchDispatch | .fanoutFlitArrival _ | .spillReturn _ | .taskStart _
  | .launchCompletion _ | .launchUnitCancel _ | .taskKill _ | .eviction _ | .migration _ | .phaseBoundary
  | .deadlock | .hardEventLimit _ | .uncoreue _ _ | .containmentFence _ | .containmentReset _
  | .selfTestDone _ _ | .containmentRelease _ | .containmentClearCounts _ | .bufpartWrite _ _ | .bufvClear _ _ _
  | .gquery _ | .debugHalt _ | .debugResume _ | .debugStep _ | .debugStop _ | .debugWindowAccess _ _ _
  | .spmcSelWrite _ _ _ | .hashPass _ | .hostDoorbell | .attestationRequest _ | .bootCounterClear | .bootok
  | .bootWatchdog | .deviceReset | .clampStepDown _ | .clampStepUp _ | .thermalTrip | .registerWrite _ _ _
  | .powerLoss | .pageRequestsEnabled | .softError _ _ | .replicaInvalidationAcknowledgement _ _
  | .returningOperationReply _ => none

/-- A row of the table that is no instruction: it has no encoding. -/
def isEvent (i : Instr) : Bool := i.parts?.isNone

/-- A legal instruction: a frame that R196 allows, an immediate or offset that its length holds (R193), and fields
that its description allows. -/
def wf (i : Instr) : Bool :=
  match i.parts? with
  | none => true
  | some (f, bd) => !(f.pr == 0 && f.pn) && bd.fits f.len && i.fieldsOk

end Instr

end Sys2Proof
end

