-- ==== Sys2Proof/Decode.lean ====
section
/-!
DEFINITION. From bytes to instructions and back (R191 to R219). `decode` reads the fields of the format an opcode has,
refuses what R218 step 3, 5 and 6 refuse, and answers the instruction; `encode` writes the bytes of an instruction from
the same field tables.
-/
namespace Sys2Proof

/-! ### Fields -/

/-- Fields laid side by side, the first at bit 0: widths and values. -/
def pack : List (Nat × Nat) → Nat
  | [] => 0
  | (n, v) :: t => v % 2 ^ n + 2 ^ n * pack t

/-- The values of fields of the given widths, the first at bit 0. -/
def unpack : List Nat → Nat → List Nat
  | [], _ => []
  | n :: t, w => w % 2 ^ n :: unpack t (w / 2 ^ n)

/-- The little-endian bytes of a number (R5). -/
def leBytes : Nat → Nat → List Byte
  | 0, _ => []
  | n + 1, w => BitVec.ofNat 8 w :: leBytes n (w / 256)

/-- The number that little-endian bytes stand for (R5). -/
def leNat : List Byte → Nat
  | [] => 0
  | b :: t => b.toNat + 256 * leNat t

/-- Length in bytes (R191, R192). -/
def Len.bytes : Len → Nat
  | .w64 => 8
  | .w96 => 12
  | .w128 => 16

/-- The LEN code (R192). -/
def Len.code : Len → Nat
  | .w64 => 0
  | .w96 => 1
  | .w128 => 2

def lenOf : Nat → Option Len
  | 0 => some .w64
  | 1 => some .w96
  | 2 => some .w128
  | _ => none

/-- TY codes (R204). -/
def Ty.code : Ty → Nat
  | .i64 => 0 | .i32 => 1 | .f16 => 2 | .bf16 => 3 | .f32 => 4 | .f64 => 5

def tyOf : Nat → Option Ty
  | 0 => some .i64 | 1 => some .i32 | 2 => some .f16 | 3 => some .bf16 | 4 => some .f32 | 5 => some .f64
  | _ => none

/-- RND codes (R172). -/
def Rnd.code : Rnd → Nat
  | .rne => 0 | .rz => 1 | .ru => 2 | .rd => 3 | .sr => 4

def rndOf : Nat → Option Rnd
  | 0 => some .rne | 1 => some .rz | 2 => some .ru | 3 => some .rd | 4 => some .sr
  | _ => none

/-- SZ codes (R199). -/
def Sz.code : Sz → Nat
  | .byte => 0 | .half => 1 | .word => 2 | .dword => 3 | .byteSx => 4 | .halfSx => 5 | .wordSx => 6

def szOf : Nat → Option Sz
  | 0 => some .byte | 1 => some .half | 2 => some .word | 3 => some .dword
  | 4 => some .byteSx | 5 => some .halfSx | 6 => some .wordSx
  | _ => none

/-- COND codes (R200). -/
def Cond.code : Cond → Nat
  | .always => 0 | .never => 1 | .eq => 2 | .ne => 3 | .lt => 4 | .ge => 5 | .ltu => 6 | .geu => 7

def condOf : Nat → Option Cond
  | 0 => some .always | 1 => some .never | 2 => some .eq | 3 => some .ne
  | 4 => some .lt | 5 => some .ge | 6 => some .ltu | 7 => some .geu
  | _ => none

/-- DM codes (R202). -/
def Dm.code : Dm → Nat
  | .nfm => 0 | .ext => 1 | .fin => 2

def dmOf : Nat → Option Dm
  | 0 => some .nfm | 1 => some .ext | 2 => some .fin
  | _ => none

/-- Element format codes (R205). -/
def Fmt.code : Fmt → Nat
  | .b8 p => p.val + 1
  | .ub8 p => p.val + 9
  | .i8 => 0x10 | .ui8 => 0x11 | .i16 => 0x12 | .i32 => 0x13
  | .f16 => 0x14 | .bf16 => 0x15 | .f32 => 0x16 | .f64 => 0x17 | .mxi8 => 0x18
  | .mxb8 p => p.val + 0x19

/-- The element format of a code; none for 0x00, 0x08 and numbers that are no code. -/
def fmtOf (n : Nat) : Option Fmt :=
  if n == 0x10 then some .i8 else if n == 0x11 then some .ui8
  else if n == 0x12 then some .i16 else if n == 0x13 then some .i32
  else if n == 0x14 then some .f16 else if n == 0x15 then some .bf16
  else if n == 0x16 then some .f32 else if n == 0x17 then some .f64
  else if n == 0x18 then some .mxi8
  else if h : 1 ≤ n ∧ n ≤ 7 then some (.b8 ⟨n - 1, by omega⟩)
  else if h : 9 ≤ n ∧ n ≤ 15 then some (.ub8 ⟨n - 9, by omega⟩)
  else if h : 0x19 ≤ n ∧ n ≤ 0x1f then some (.mxb8 ⟨n - 0x19, by omega⟩)
  else none

/-- A format field: 0x00 is none; 0x08 is illegal (R205). -/
def optFmtOf (n : Nat) : Option (Option Fmt) :=
  if n == 0 then some none else (fmtOf n).map some

def optFmtCode : Option Fmt → Nat
  | none => 0
  | some f => f.code

/-! ### The opcode map -/

/-- The seven formats (R197 to R203). -/
inductive Form
  | r | i | m | b | w | t | tm
deriving DecidableEq, Repr

/-- CLASS and OPC of an instruction (R209 to R215), as 64 × CLASS + OPC; a device event has none. -/
def Instr.code : Instr → Nat
  | .add _ _ => 0x000
  | .sub _ _ => 0x001
  | .mul _ _ => 0x002
  | .mulh _ _ => 0x003
  | .mulhu _ _ => 0x004
  | .div _ _ => 0x005
  | .divu _ _ => 0x006
  | .rem _ _ => 0x007
  | .remu _ _ => 0x008
  | .andR _ _ => 0x009
  | .orR _ _ => 0x00a
  | .xorR _ _ => 0x00b
  | .andn _ _ => 0x00c
  | .shl _ _ => 0x00d
  | .shr _ _ => 0x00e
  | .sar _ _ => 0x00f
  | .rot _ _ => 0x010
  | .minR _ _ => 0x011
  | .maxR _ _ => 0x012
  | .minu _ _ => 0x013
  | .maxu _ _ => 0x014
  | .addImm _ _ => 0x020
  | .subImm _ _ => 0x021
  | .mulImm _ _ => 0x022
  | .mulhImm _ _ => 0x023
  | .mulhuImm _ _ => 0x024
  | .divImm _ _ => 0x025
  | .divuImm _ _ => 0x026
  | .remImm _ _ => 0x027
  | .remuImm _ _ => 0x028
  | .andImm _ _ => 0x029
  | .orImm _ _ => 0x02a
  | .xorImm _ _ => 0x02b
  | .andnImm _ _ => 0x02c
  | .shlImm _ _ => 0x02d
  | .shrImm _ _ => 0x02e
  | .sarImm _ _ => 0x02f
  | .rotImm _ _ => 0x030
  | .minImm _ _ => 0x031
  | .maxImm _ _ => 0x032
  | .minuImm _ _ => 0x033
  | .maxuImm _ _ => 0x034
  | .clz _ _ => 0x015
  | .ctz _ _ => 0x016
  | .popc _ _ => 0x017
  | .sext _ _ => 0x018
  | .zext _ _ => 0x019
  | .sel _ _ => 0x01a
  | .cmp _ _ => 0x01b
  | .cmpImm _ _ => 0x03b
  | .plogic _ _ => 0x01c
  | .fmin _ _ => 0x01d
  | .fmax _ _ => 0x01e
  | .fcmp _ _ => 0x01f
  | .fadd _ _ => 0x035
  | .fsub _ _ => 0x036
  | .fmul _ _ => 0x037
  | .ffma _ _ => 0x038
  | .fdiv _ _ => 0x039
  | .fsqrt _ _ => 0x03a
  | .li _ _ => 0x03c
  | .lea _ _ => 0x03d
  | .fcvt _ _ => 0x03e
  | .fclass _ _ => 0x03f
  | .ld _ _ => 0x040
  | .ldAcq _ _ => 0x040
  | .st _ _ => 0x041
  | .stRel _ _ => 0x041
  | .ldEv _ _ => 0x040
  | .stEv _ _ => 0x041
  | .ldl _ _ => 0x042
  | .stl _ _ => 0x043
  | .pref _ _ => 0x044
  | .amo _ _ => 0x045
  | .red _ _ => 0x046
  | .rede _ _ => 0x047
  | .rde _ _ => 0x048
  | .clre _ _ => 0x049
  | .nop _ _ => 0x080
  | .b _ _ => 0x081
  | .bc _ _ => 0x082
  | .bcmp _ _ => 0x083
  | .call _ _ => 0x084
  | .callr _ _ => 0x085
  | .ret _ _ => 0x086
  | .jmpr _ _ => 0x087
  | .rept _ _ => 0x088
  | .trap _ _ => 0x089
  | .tend _ _ => 0x08a
  | .csrr _ _ => 0x090
  | .csrw _ _ => 0x091
  | .csrxSwap _ _ => 0x092
  | .csrxSet _ _ => 0x092
  | .csrxClr _ _ => 0x092
  | .ecall _ _ => 0x093
  | .eret _ _ => 0x094
  | .tlbiAll _ _ => 0x095
  | .tlbiAsid _ _ => 0x095
  | .tlbiVa _ _ => 0x095
  | .l1invI _ _ => 0x096
  | .l1invD _ _ => 0x096
  | .l1wb _ _ => 0x097
  | .harvestAll _ _ => 0x098
  | .harvestSor _ _ => 0x098
  | .phase _ _ => 0x099
  | .phaseNow _ _ => 0x099
  | .bkpt _ _ => 0x09a
  | .dbginj _ _ => 0x09b
  | .fenceAcq _ _ => 0x0c0
  | .fenceRel _ _ => 0x0c0
  | .fenceFull _ _ => 0x0c0
  | .fenceEng _ _ => 0x0c0
  | .waitcnt _ _ => 0x0c1
  | .waita _ _ => 0x0c2
  | .wake _ _ => 0x0c3
  | .bar _ _ => 0x0c4
  | .bara _ _ => 0x0c5
  | .barw _ _ => 0x0c6
  | .evsig _ _ => 0x0c7
  | .evwait _ _ => 0x0c8
  | .mtxl _ _ => 0x0c9
  | .mtxu _ _ => 0x0ca
  | .chs _ _ => 0x0d0
  | .chr _ _ => 0x0d1
  | .chp _ _ => 0x0d2
  | .rgbegin _ _ => 0x0d8
  | .rgend _ _ => 0x0d9
  | .rgabort _ _ => 0x0da
  | .rgbound _ _ => 0x0db
  | .tspawn _ _ => 0x0e0
  | .tdec _ _ => 0x0e1
  | .tjoin _ _ => 0x0e2
  | .tcancelCell _ _ => 0x0e3
  | .tcancelLnch _ _ => 0x0e3
  | .tcancelGraph _ _ => 0x0e3
  | .tcancelPhase _ _ => 0x0e3
  | .tcancelJob _ _ => 0x0e3
  | .lnch _ _ => 0x0e4
  | .tld _ _ => 0x100
  | .tst _ _ => 0x101
  | .tldl _ _ => 0x102
  | .tstl _ _ => 0x103
  | .trede _ _ => 0x104
  | .trde _ _ => 0x105
  | .tzero _ _ => 0x108
  | .tfill _ _ => 0x109
  | .tmov _ _ => 0x10a
  | .tretag _ _ => 0x10b
  | .tget _ _ => 0x10c
  | .tsete _ _ => 0x10d
  | .cpy _ _ => 0x110
  | .cpyl _ _ => 0x111
  | .cpyc _ _ => 0x112
  | .coll _ _ => 0x113
  | .mma _ _ => 0x140
  | .mmasp _ _ => 0x141
  | .mmamx _ _ => 0x142
  | .mmax _ _ => 0x143
  | .tchk _ _ => 0x148
  | .tchkFix _ _ => 0x148
  | .tcfix _ _ => 0x149
  | .tcgen _ _ => 0x14a
  | .tcrd _ _ => 0x14b
  | .tadd _ _ => 0x180
  | .tsub _ _ => 0x181
  | .tmul _ _ => 0x182
  | .tfma _ _ => 0x183
  | .tmin _ _ => 0x184
  | .tmax _ _ => 0x185
  | .tabs _ _ => 0x186
  | .tneg _ _ => 0x187
  | .tscale _ _ => 0x188
  | .trcp _ _ => 0x189
  | .trsq _ _ => 0x18a
  | .texp2 _ _ => 0x18b
  | .tlog2 _ _ => 0x18c
  | .tcvt _ _ => 0x18d
  | .tand _ _ => 0x18e
  | .tor _ _ => 0x18f
  | .txor _ _ => 0x190
  | .tshl _ _ => 0x191
  | .tshr _ _ => 0x192
  | .tcmp _ _ => 0x193
  | .tsel _ _ => 0x194
  | .ttrn _ _ => 0x195
  | .tredr _ _ => 0x196
  | .tredc _ _ => 0x197
  | .tbrow _ _ => 0x198
  | .tbcol _ _ => 0x199
  | .tiota _ _ => 0x19a
  | .eventEntry _ | .regionAbort _ | .regionRegistration _ _ _ | .narrowingMessage _ | .regionCommitMessage _ _
  | .regionCommitAck _ | .homeAtomic _ _ | .reductionAck _ | .homeFill _ _ | .homeWriteback _ _ _
  | .homeStore _ _ | .replicaRequest _ _ | .replicaInvalidation _ _ | .rd32 _ _ | .rd64 _ _ | .wrt32 _ _
  | .wrt64 _ _ | .wrtm _ _ | .itRead _ _ | .itMove _ _ | .itMoveRetire _ _ | .moveLineCopy _ _ | .readData _ _
  | .writeAcknowledgement _ _ | .errorReply _ _ | .retreqRead _ | .refreshDue _ _ | .refreshDone _ _ _
  | .bankIdleTimeout _ _ _ | .retrainDone | .relockHoldEnd _ | .pageTableWalk _ _ | .pageResponseSuccess _
  | .pageResponseInvalid _ | .pageResponseFailure _ | .atsTranslationCompletion _ _ _
  | .atsInvalidateRequest _ _ | .forwardedCompletion _ _ _ | .migrationHint _ _ | .dirtyLogMerge _
  | .wenpenRemoteAccess _ _ _ | .wenpenResend _ | .linkReset _ | .hostLinkAccess _ | .copyComplete _ _
  | .copyEngineFault _ _ _ _ | .collMessage _ _ _ | .collWithdrawal _ _ | .cellDecrement _ | .cellCountZero _ _
  | .barrierReport _ | .barrierPhaseComplete _ _ | .barrierStateWrite _ _ _ | .mutexStateWrite _ _ _ | .clrev _
  | .clrmtx _ _ | .clrbar _ _ | .channelFlitArrival _ | .channelReady _ _ | .hostWindowPacket _ _
  | .mailboxPacket _ | .launchDispatch | .fanoutFlitArrival _ | .spillReturn _ | .taskStart _
  | .launchCompletion _ | .launchUnitCancel _ | .taskKill _ | .eviction _ | .migration _ | .phaseBoundary
  | .deadlock | .hardEventLimit _ | .uncoreue _ _ | .containmentFence _ | .containmentReset _
  | .selfTestDone _ _ | .containmentRelease _ | .containmentClearCounts _ | .bufpartWrite _ _ | .bufvClear _ _ _
  | .gquery _ | .debugHalt _ | .debugResume _ | .debugStep _ | .debugStop _ | .debugWindowAccess _ _ _
  | .spmcSelWrite _ _ _ | .hashPass _ | .hostDoorbell | .attestationRequest _ | .bootCounterClear | .bootok
  | .bootWatchdog | .deviceReset | .clampStepDown _ | .clampStepUp _ | .thermalTrip | .registerWrite _ _ _
  | .powerLoss | .pageRequestsEnabled | .softError _ _ | .replicaInvalidationAcknowledgement _ _
  | .returningOperationReply _ => 0x1c0

/-- The format of each opcode (R210 to R215); none for an unlisted one. -/
def formOf : Nat → Option Form
  | 0x000 | 0x001 | 0x002 | 0x003 | 0x004 | 0x005 | 0x006 | 0x007 | 0x008 | 0x009 | 0x00a | 0x00b | 0x00c
  | 0x00d | 0x00e | 0x00f | 0x010 | 0x011 | 0x012 | 0x013 | 0x014 | 0x015 | 0x016 | 0x017 | 0x018 | 0x019
  | 0x01a | 0x01b | 0x01c | 0x01d | 0x01e | 0x01f | 0x035 | 0x036 | 0x037 | 0x038 | 0x039 | 0x03a | 0x03e
  | 0x03f | 0x045 | 0x046 | 0x047 | 0x048 | 0x049 | 0x080 | 0x085 | 0x086 | 0x087 | 0x08a | 0x094 | 0x095
  | 0x096 | 0x097 | 0x098 | 0x09b | 0x0c0 | 0x0c2 | 0x0c3 | 0x0c4 | 0x0c5 | 0x0c6 | 0x0c7 | 0x0c8 | 0x0c9
  | 0x0ca | 0x0d0 | 0x0d1 | 0x0d2 | 0x0d9 | 0x0db | 0x0e0 | 0x0e1 | 0x0e2 | 0x0e3 | 0x0e4 | 0x110 | 0x111
  | 0x112 | 0x113 => some .r
  | 0x020 | 0x021 | 0x022 | 0x023 | 0x024 | 0x025 | 0x026 | 0x027 | 0x028 | 0x029 | 0x02a | 0x02b | 0x02c
  | 0x02d | 0x02e | 0x02f | 0x030 | 0x031 | 0x032 | 0x033 | 0x034 | 0x03b | 0x03c | 0x03d | 0x088 | 0x089
  | 0x090 | 0x091 | 0x092 | 0x093 | 0x099 | 0x09a | 0x0d8 | 0x0da => some .i
  | 0x040 | 0x041 | 0x042 | 0x043 | 0x044 => some .m
  | 0x081 | 0x082 | 0x083 | 0x084 => some .b
  | 0x0c1 => some .w
  | 0x100 | 0x101 | 0x102 | 0x103 | 0x104 | 0x105 => some .tm
  | 0x108 | 0x109 | 0x10a | 0x10b | 0x10c | 0x10d | 0x140 | 0x141 | 0x142 | 0x143 | 0x148 | 0x149 | 0x14a
  | 0x14b | 0x180 | 0x181 | 0x182 | 0x183 | 0x184 | 0x185 | 0x186 | 0x187 | 0x188 | 0x189 | 0x18a | 0x18b
  | 0x18c | 0x18d | 0x18e | 0x18f | 0x190 | 0x191 | 0x192 | 0x193 | 0x194 | 0x195 | 0x196 | 0x197 | 0x198
  | 0x199 | 0x19a => some .t
  | _ => none

/-- The instructions of format R by opcode; where a variant field selects the instruction, by that field too. -/
def buildR (code : Nat) (f : Frame) (r : FmtR) : Option Instr :=
  match code with
  | 0x000 => some (.add f r)
  | 0x001 => some (.sub f r)
  | 0x002 => some (.mul f r)
  | 0x003 => some (.mulh f r)
  | 0x004 => some (.mulhu f r)
  | 0x005 => some (.div f r)
  | 0x006 => some (.divu f r)
  | 0x007 => some (.rem f r)
  | 0x008 => some (.remu f r)
  | 0x009 => some (.andR f r)
  | 0x00a => some (.orR f r)
  | 0x00b => some (.xorR f r)
  | 0x00c => some (.andn f r)
  | 0x00d => some (.shl f r)
  | 0x00e => some (.shr f r)
  | 0x00f => some (.sar f r)
  | 0x010 => some (.rot f r)
  | 0x011 => some (.minR f r)
  | 0x012 => some (.maxR f r)
  | 0x013 => some (.minu f r)
  | 0x014 => some (.maxu f r)
  | 0x015 => some (.clz f r)
  | 0x016 => some (.ctz f r)
  | 0x017 => some (.popc f r)
  | 0x018 => some (.sext f r)
  | 0x019 => some (.zext f r)
  | 0x01a => some (.sel f r)
  | 0x01b => some (.cmp f r)
  | 0x01c => some (.plogic f r)
  | 0x01d => some (.fmin f r)
  | 0x01e => some (.fmax f r)
  | 0x01f => some (.fcmp f r)
  | 0x035 => some (.fadd f r)
  | 0x036 => some (.fsub f r)
  | 0x037 => some (.fmul f r)
  | 0x038 => some (.ffma f r)
  | 0x039 => some (.fdiv f r)
  | 0x03a => some (.fsqrt f r)
  | 0x03e => some (.fcvt f r)
  | 0x03f => some (.fclass f r)
  | 0x045 => some (.amo f r)
  | 0x046 => some (.red f r)
  | 0x047 => some (.rede f r)
  | 0x048 => some (.rde f r)
  | 0x049 => some (.clre f r)
  | 0x080 => some (.nop f r)
  | 0x085 => some (.callr f r)
  | 0x086 => some (.ret f r)
  | 0x087 => some (.jmpr f r)
  | 0x08a => some (.tend f r)
  | 0x094 => some (.eret f r)
  | 0x095 => match r.var.val with
    | 0 => some (.tlbiAll f r)
    | 1 => some (.tlbiAsid f r)
    | 2 => some (.tlbiVa f r)
    | _ => none
  | 0x096 => match r.var.val with
    | 0 => some (.l1invI f r)
    | 1 => some (.l1invD f r)
    | _ => none
  | 0x097 => some (.l1wb f r)
  | 0x098 => match r.var.val with
    | 0 => some (.harvestAll f r)
    | 1 => some (.harvestSor f r)
    | _ => none
  | 0x09b => some (.dbginj f r)
  | 0x0c0 => match r.var.val with
    | 0 => some (.fenceAcq f r)
    | 1 => some (.fenceRel f r)
    | 2 => some (.fenceFull f r)
    | 3 => some (.fenceEng f r)
    | _ => none
  | 0x0c2 => some (.waita f r)
  | 0x0c3 => some (.wake f r)
  | 0x0c4 => some (.bar f r)
  | 0x0c5 => some (.bara f r)
  | 0x0c6 => some (.barw f r)
  | 0x0c7 => some (.evsig f r)
  | 0x0c8 => some (.evwait f r)
  | 0x0c9 => some (.mtxl f r)
  | 0x0ca => some (.mtxu f r)
  | 0x0d0 => some (.chs f r)
  | 0x0d1 => some (.chr f r)
  | 0x0d2 => some (.chp f r)
  | 0x0d9 => some (.rgend f r)
  | 0x0db => some (.rgbound f r)
  | 0x0e0 => some (.tspawn f r)
  | 0x0e1 => some (.tdec f r)
  | 0x0e2 => some (.tjoin f r)
  | 0x0e3 => match r.var.val with
    | 0 => some (.tcancelCell f r)
    | 1 => some (.tcancelLnch f r)
    | 2 => some (.tcancelGraph f r)
    | 3 => some (.tcancelPhase f r)
    | 4 => some (.tcancelJob f r)
    | _ => none
  | 0x0e4 => some (.lnch f r)
  | 0x110 => some (.cpy f r)
  | 0x111 => some (.cpyl f r)
  | 0x112 => some (.cpyc f r)
  | 0x113 => some (.coll f r)
  | _ => none

/-- The instructions of format I by opcode; where a variant field selects the instruction, by that field too. -/
def buildI (code : Nat) (f : Frame) (r : FmtI) : Option Instr :=
  match code with
  | 0x020 => some (.addImm f r)
  | 0x021 => some (.subImm f r)
  | 0x022 => some (.mulImm f r)
  | 0x023 => some (.mulhImm f r)
  | 0x024 => some (.mulhuImm f r)
  | 0x025 => some (.divImm f r)
  | 0x026 => some (.divuImm f r)
  | 0x027 => some (.remImm f r)
  | 0x028 => some (.remuImm f r)
  | 0x029 => some (.andImm f r)
  | 0x02a => some (.orImm f r)
  | 0x02b => some (.xorImm f r)
  | 0x02c => some (.andnImm f r)
  | 0x02d => some (.shlImm f r)
  | 0x02e => some (.shrImm f r)
  | 0x02f => some (.sarImm f r)
  | 0x030 => some (.rotImm f r)
  | 0x031 => some (.minImm f r)
  | 0x032 => some (.maxImm f r)
  | 0x033 => some (.minuImm f r)
  | 0x034 => some (.maxuImm f r)
  | 0x03b => some (.cmpImm f r)
  | 0x03c => some (.li f r)
  | 0x03d => some (.lea f r)
  | 0x088 => some (.rept f r)
  | 0x089 => some (.trap f r)
  | 0x090 => some (.csrr f r)
  | 0x091 => some (.csrw f r)
  | 0x092 => match r.var.val with
    | 0 => some (.csrxSwap f r)
    | 1 => some (.csrxSet f r)
    | 2 => some (.csrxClr f r)
    | _ => none
  | 0x093 => some (.ecall f r)
  | 0x099 => match r.var.val with
    | 0 => some (.phase f r)
    | 1 => some (.phaseNow f r)
    | _ => none
  | 0x09a => some (.bkpt f r)
  | 0x0d8 => some (.rgbegin f r)
  | 0x0da => some (.rgabort f r)
  | _ => none

/-- The instructions of format M by opcode; where a variant field selects the instruction, by that field too. -/
def buildM (code : Nat) (f : Frame) (r : FmtM) : Option Instr :=
  match code with
  | 0x040 => match r.sp.val with
    | 0 => some (.ld f r)
    | 1 => some (.ldAcq f r)
    | 2 => some (.ldEv f r)
    | _ => none
  | 0x041 => match r.sp.val with
    | 0 => some (.st f r)
    | 1 => some (.stRel f r)
    | 2 => some (.stEv f r)
    | _ => none
  | 0x042 => some (.ldl f r)
  | 0x043 => some (.stl f r)
  | 0x044 => some (.pref f r)
  | _ => none

/-- The instructions of format B by opcode; where a variant field selects the instruction, by that field too. -/
def buildB (code : Nat) (f : Frame) (r : FmtB) : Option Instr :=
  match code with
  | 0x081 => some (.b f r)
  | 0x082 => some (.bc f r)
  | 0x083 => some (.bcmp f r)
  | 0x084 => some (.call f r)
  | _ => none

/-- The instructions of format W by opcode; where a variant field selects the instruction, by that field too. -/
def buildW (code : Nat) (f : Frame) (r : FmtW) : Option Instr :=
  match code with
  | 0x0c1 => some (.waitcnt f r)
  | _ => none

/-- The instructions of format T by opcode; where a variant field selects the instruction, by that field too. -/
def buildT (code : Nat) (f : Frame) (r : FmtT) : Option Instr :=
  match code with
  | 0x108 => some (.tzero f r)
  | 0x109 => some (.tfill f r)
  | 0x10a => some (.tmov f r)
  | 0x10b => some (.tretag f r)
  | 0x10c => some (.tget f r)
  | 0x10d => some (.tsete f r)
  | 0x140 => some (.mma f r)
  | 0x141 => some (.mmasp f r)
  | 0x142 => some (.mmamx f r)
  | 0x143 => some (.mmax f r)
  | 0x148 => match r.var.val with
    | 0 => some (.tchk f r)
    | 1 => some (.tchkFix f r)
    | _ => none
  | 0x149 => some (.tcfix f r)
  | 0x14a => some (.tcgen f r)
  | 0x14b => some (.tcrd f r)
  | 0x180 => some (.tadd f r)
  | 0x181 => some (.tsub f r)
  | 0x182 => some (.tmul f r)
  | 0x183 => some (.tfma f r)
  | 0x184 => some (.tmin f r)
  | 0x185 => some (.tmax f r)
  | 0x186 => some (.tabs f r)
  | 0x187 => some (.tneg f r)
  | 0x188 => some (.tscale f r)
  | 0x189 => some (.trcp f r)
  | 0x18a => some (.trsq f r)
  | 0x18b => some (.texp2 f r)
  | 0x18c => some (.tlog2 f r)
  | 0x18d => some (.tcvt f r)
  | 0x18e => some (.tand f r)
  | 0x18f => some (.tor f r)
  | 0x190 => some (.txor f r)
  | 0x191 => some (.tshl f r)
  | 0x192 => some (.tshr f r)
  | 0x193 => some (.tcmp f r)
  | 0x194 => some (.tsel f r)
  | 0x195 => some (.ttrn f r)
  | 0x196 => some (.tredr f r)
  | 0x197 => some (.tredc f r)
  | 0x198 => some (.tbrow f r)
  | 0x199 => some (.tbcol f r)
  | 0x19a => some (.tiota f r)
  | _ => none

/-- The instructions of format TM by opcode; where a variant field selects the instruction, by that field too. -/
def buildTM (code : Nat) (f : Frame) (r : FmtTM) : Option Instr :=
  match code with
  | 0x100 => some (.tld f r)
  | 0x101 => some (.tst f r)
  | 0x102 => some (.tldl f r)
  | 0x103 => some (.tstl f r)
  | 0x104 => some (.trede f r)
  | 0x105 => some (.trde f r)
  | _ => none

/-! ### Widths of the fields, from bit 0 (R194, R197 to R203) -/

/-- LEN, HV, HINT, PR, PN. -/
def frameWidths : List Nat := [2, 2, 4, 3, 1]

/-- The body of each format, from bit 12 to bit 54. -/
def Form.widths : Form → List Nat
  | .r => [6, 6, 6, 6, 3, 3, 5, 5, 3]
  | .i => [6, 6, 18, 5, 5, 3]
  | .m => [6, 6, 12, 3, 3, 5, 8]
  | .b => [6, 6, 4, 26, 1]
  | .w => [8, 6, 6, 4, 19]
  | .t => [4, 4, 4, 4, 6, 5, 5, 2, 3, 1, 5]
  | .tm => [4, 6, 6, 5, 2, 3, 1, 1, 2, 5, 7, 1]

/-- The extension words of each format, from bit 64. -/
def Form.extWidths : Form → List Nat
  | .t => [5, 7, 20, 32]
  | .tm => [32, 5, 5, 22]
  | _ => [32, 32]

/-- All fields of an instruction of a format, from bit 0 of its first byte. -/
def Form.all (x : Form) : List Nat := frameWidths ++ x.widths ++ [6, 3] ++ x.extWidths

/-! ### Decoding -/

/-- Why bytes are no instruction: every one of these is ILLEGAL (R218). -/
inductive DecodeError
  | len11      -- LEN = 11 (R192)
  | classX     -- CLASS = 111 (R216)
  | unlisted   -- an OPC that R210 to R215 do not list
  | field      -- a field that R196, R199 to R208 or the description makes illegal
  | short      -- fewer bytes than LEN gives
deriving DecidableEq, Repr

/-- The immediate of format I (R193, R198): in the long forms IMM18 is zero. -/
def immOf (len : Len) (imm18 e0 e1 : Nat) : Option Word :=
  match len with
  | .w64 => some ((BitVec.ofNat 18 imm18).signExtend 64)
  | .w96 => if imm18 == 0 then some ((BitVec.ofNat 32 e0).signExtend 64) else none
  | .w128 => if imm18 == 0 then some (BitVec.ofNat 64 (e0 + 2 ^ 32 * e1)) else none

/-- The offset of format M (R193, R199): in the long forms OFF12 is zero and bits [127:96] are reserved. -/
def offOf (len : Len) (off12 e0 e1 : Nat) : Option Word :=
  match len with
  | .w64 => some ((BitVec.ofNat 12 off12).signExtend 64)
  | _ => if off12 == 0 && e1 == 0 then some ((BitVec.ofNat 32 e0).signExtend 64) else none

/-- The body that the fields after the frame stand for; none where a reserved field is not zero or a code has no
meaning (R208). -/
def bodyOf (x : Form) (len : Len) (fs : List Nat) : Option Body :=
  match x, fs with
  | .r, [d, a, b, c, rnd, ty, sc, var, z, _, _, e0, e1] =>
    if z == 0 && e0 == 0 && e1 == 0 then do
      let rnd ← rndOf rnd
      let ty ← tyOf ty
      some (.r ⟨Fin.ofNat 32 var, Fin.ofNat 32 sc, ty, rnd, Fin.ofNat 64 c, Fin.ofNat 64 b, Fin.ofNat 64 a, Fin.ofNat 64 d⟩)
    else none
  | .i, [d, a, imm, sc, var, z, _, _, e0, e1] =>
    if z == 0 then do
      let imm ← immOf len imm e0 e1
      some (.i ⟨Fin.ofNat 32 var, Fin.ofNat 32 sc, imm, Fin.ofNat 64 a, Fin.ofNat 64 d⟩)
    else none
  | .m, [d, a, off, sz, sp, sc, z, _, _, e0, e1] =>
    if z == 0 then do
      let off ← offOf len off e0 e1
      let sz ← szOf sz
      some (.m ⟨Fin.ofNat 32 sc, Fin.ofNat 8 sp, sz, off, Fin.ofNat 64 a, Fin.ofNat 64 d⟩)
    else none
  | .b, [a, b, cond, off, z, _, _, e0, e1] =>
    if z == 0 && e0 == 0 && e1 == 0 then do
      let cond ← condOf cond
      some (.b ⟨BitVec.ofNat 26 off, cond, Fin.ofNat 64 b, Fin.ofNat 64 a⟩)
    else none
  | .w, [nb, nr, np, nc, z, _, _, e0, e1] =>
    if z == 0 && e0 == 0 && e1 == 0 then
      some (.w ⟨Fin.ofNat 16 nc, Fin.ofNat 64 np, Fin.ofNat 64 nr, Fin.ofNat 256 nb⟩)
    else none
  | .t, [td, ta, tb, tc, ga, fa, fd, dm, rnd, sat, var, _, _, rows, cols, e0, e1] =>
    if e0 == 0 && e1 == 0 then do
      let fa ← optFmtOf fa
      let fd ← optFmtOf fd
      let dm ← dmOf dm
      let rnd ← rndOf rnd
      some (.t ⟨Fin.ofNat 32 var, sat == 1, rnd, dm, fd, fa, Fin.ofNat 64 ga, Fin.ofNat 16 tc, Fin.ofNat 16 tb,
        Fin.ofNat 16 ta, Fin.ofNat 16 td, Fin.ofNat 32 rows, Fin.ofNat 128 cols⟩)
    else none
  | .tm, [t, ga, gb, fm, dm, rnd, sat, rr, var, rows, cols, z, _, _, off, first, last, e1] =>
    if z == 0 && e1 == 0 then do
      let fm ← optFmtOf fm
      let dm ← dmOf dm
      let rnd ← rndOf rnd
      some (.tm ⟨Fin.ofNat 128 cols, Fin.ofNat 32 rows, Fin.ofNat 4 var, rr == 1, sat == 1, rnd, dm, fm,
        Fin.ofNat 64 gb, Fin.ofNat 64 ga, Fin.ofNat 16 t, BitVec.ofNat 32 off, Fin.ofNat 32 first, Fin.ofNat 32 last⟩)
    else none
  | _, _ => none

/-- The instruction of an opcode and a body. -/
def build (code : Nat) (f : Frame) : Body → Option Instr
  | .r r => buildR code f r
  | .i r => buildI code f r
  | .m r => buildM code f r
  | .b r => buildB code f r
  | .w r => buildW code f r
  | .t r => buildT code f r
  | .tm r => buildTM code f r

/-- The legality that decoding checks (step 6 of R218, R257 apart). -/
def Instr.legal (i : Instr) : Bool := i.wf

/-- The bytes of a first word give CLASS and OPC. -/
def codeOfWord (w : Nat) : Nat := w / 2 ^ 55 % 2 ^ 9

/-- Decode the bits of an instruction whose length is known (R218, steps 5 and 6). -/
def decodeBits (len : Len) (w : Nat) : Except DecodeError Instr :=
  let code := codeOfWord w
  if code ≥ 0x1c0 then .error .classX
  else match formOf code with
  | none => .error .unlisted
  | some form =>
    match unpack form.all w with
    | _ :: hv :: hint :: pr :: pn :: fs =>
      let f : Frame := ⟨len, Fin.ofNat 4 hv, Fin.ofNat 16 hint, Fin.ofNat 8 pr, pn == 1⟩
      match bodyOf form len fs with
      | none => .error .field
      | some b =>
        match build code f b with
        | none => .error .field
        | some i => if i.legal then .ok i else .error .field
    | _ => .error .field

/-- Decode the instruction at the head of a list of bytes; the length is the first byte's LEN (R191, R192). -/
def decode (bs : List Byte) : Except DecodeError Instr :=
  match bs with
  | [] => .error .short
  | b :: _ =>
    match lenOf (b.toNat % 4) with
    | none => .error .len11
    | some len =>
      if bs.length < len.bytes then .error .short
      else decodeBits len (leNat (bs.take len.bytes))

/-! ### Encoding -/

def Bool.bit (b : Bool) : Nat := if b then 1 else 0

/-- The body fields and the extension fields of a body. -/
def bodyFields (len : Len) : Body → Form × List Nat × List Nat
  | .r x => (.r, [x.d.val, x.a.val, x.b.val, x.c.val, x.rnd.code, x.ty.code, x.sc.val, x.var.val, 0], [0, 0])
  | .i x =>
    let short := len == .w64
    (.i, [x.d.val, x.a.val, if short then (x.imm.truncate 18).toNat else 0, x.sc.val, x.var.val, 0],
      [if short then 0 else (x.imm.truncate 32).toNat, if len == .w128 then x.imm.toNat / 2 ^ 32 else 0])
  | .m x =>
    let short := len == .w64
    (.m, [x.d.val, x.a.val, if short then (x.off.truncate 12).toNat else 0, x.sz.code, x.sp.val, x.sc.val, 0],
      [if short then 0 else (x.off.truncate 32).toNat, 0])
  | .b x => (.b, [x.a.val, x.b.val, x.cond.code, x.off.toNat, 0], [0, 0])
  | .w x => (.w, [x.nb.val, x.nr.val, x.np.val, x.nc.val, 0], [0, 0])
  | .t x => (.t, [x.td.val, x.ta.val, x.tb.val, x.tc.val, x.ga.val, optFmtCode x.fa, optFmtCode x.fd, x.dm.code,
      x.rnd.code, Bool.bit x.sat, x.var.val], [x.rowsm1.val, x.colsm1.val, 0, 0])
  | .tm x => (.tm, [x.t.val, x.ga.val, x.gb.val, optFmtCode x.fm, x.dm.code, x.rnd.code, Bool.bit x.sat, Bool.bit x.rr,
      x.var.val, x.rows.val, x.cols.val, 0], [x.off.toNat, x.first.val, x.last.val, 0])

/-- LEN, HV, HINT, PR and PN as field values. -/
def frameFields (f : Frame) : List Nat := [f.len.code, f.hv.val, f.hint.val, f.pr.val, Bool.bit f.pn]

/-- The bits of an instruction, bit 0 the least significant bit of its first byte. -/
def encodeBits (i : Instr) : Nat :=
  match i.parts? with
  | none => 0
  | some (f, b) =>
    let (form, fs, es) := bodyFields f.len b
    pack (form.all.zip (frameFields f ++ fs ++ [i.code % 64, i.code / 64] ++ es))

/-- The bytes of an instruction (R191); a device event has none. -/
def encode (i : Instr) : List Byte :=
  match i.parts? with
  | none => []
  | some (f, _) => leBytes f.len.bytes (encodeBits i)

/-- The host's question on a table row: the instruction read from `nbits` bits, every later bit zero. -/
def decodeTableWord (nbits w : Nat) : Option Instr :=
  match decode (leBytes 16 (w % 2 ^ nbits)) with
  | .ok i => some i
  | .error _ => none

end Sys2Proof
end

