-- ==== Sys2Proof/Machine/Bits.lean ====
section
/-!
DEFINITION. Bit-field, sign-extension and byte-order helpers, the integer arithmetic of R234 to R241, and the operations of
atomics (R270). Plain functions on numbers and words, no state.
-/
namespace Sys2Proof

/-! ### Fields of a word -/

/-- Bits [lo + n − 1 : lo] of a word, as a number. -/
def fieldOf (w : Word) (lo n : Nat) : Nat := w.toNat / 2 ^ lo % 2 ^ n

/-- Bit i of a word. -/
def bitOf (w : Word) (i : Nat) : Bool := w.getLsbD i

/-- A word with a number put at bit `lo`. -/
def atBit (lo v : Nat) : Word := BitVec.ofNat 64 (v * 2 ^ lo)

/-- A word from a truth value. -/
def wordOfBool (b : Bool) : Word := if b then 1 else 0

/-- A number as a 64-bit word. -/
def wordOf (n : Nat) : Word := BitVec.ofNat 64 n

/-- The word with bits of `mask` taken from `new` and the others from `old`. -/
def mergeMask (mask new old : Word) : Word := (new &&& mask) ||| (old &&& ~~~mask)

/-- The mask of bits [lo + n − 1 : lo]. -/
def maskOf (lo n : Nat) : Word := BitVec.ofNat 64 ((2 ^ n - 1) * 2 ^ lo)

/-- A little-endian word from bytes; missing bytes read as zero (R5). -/
def wordOfBytes (bs : List Byte) : Word := BitVec.ofNat 64 (leNat bs)

/-- The two's complement reading of the low `w` bits of a number. -/
def signedOf (w n : Nat) : Int :=
  let m := n % 2 ^ w
  if m < 2 ^ (w - 1) then (m : Int) else (m : Int) - (2 ^ w : Nat)

/-- The low `w` bits of an integer, as a number. -/
def unsignedOf (w : Nat) (x : Int) : Nat := (x % ((2 ^ w : Nat) : Int)).toNat

/-- The low `w` bits of a number sign-extended to 64 bits. -/
def sextNat (w n : Nat) : Word := BitVec.ofInt 64 (signedOf w n)

/-- Number of bits of a number: 0 for 0. -/
def bitLen (n : Nat) : Nat := if n = 0 then 0 else n.log2 + 1

/-- Number of one bits among the low `w` bits. -/
def popCount : Nat → Nat → Nat
  | 0, _ => 0
  | w + 1, n => n % 2 + popCount w (n / 2)

/-- Number of zeros below the lowest one bit of the low `w` bits; `w` when all are zero (R237). -/
def countTrailing : Nat → Nat → Nat
  | 0, _ => 0
  | w + 1, n => if n % 2 = 1 then 0 else 1 + countTrailing w (n / 2)

/-- Integer square root by bits: `isqrtAux k r n` adds to `r` every bit below `k` that keeps the square at most `n`. -/
def isqrtAux : Nat → Nat → Nat → Nat
  | 0, r, _ => r
  | k + 1, r, n => let r' := r + 2 ^ k; isqrtAux k (if r' * r' ≤ n then r' else r) n

/-- The largest number whose square is at most `n`. -/
def isqrt (n : Nat) : Nat := isqrtAux (bitLen n / 2 + 1) 0 n

/-! ### Integer arithmetic -/

/-- The width that TY or a VAR bit gives: 32 or 64 (R234, R235). -/
def widthOf (w32 : Bool) : Nat := if w32 then 32 else 64

/-- The 21 operations of R234. -/
inductive AluOp
  | add | sub | mul | mulh | mulhu | div | divu | rem | remu | and | or | xor | andn | shl | shr | sar | rot
  | min | max | minu | maxu
deriving DecidableEq, Repr

/-- r of R234 on a and b taken mod 2^W, with the fixed results of R236; the caller takes it mod 2^W. -/
def AluOp.eval (op : AluOp) (w a b : Nat) : Nat :=
  let sa := signedOf w a
  let sb := signedOf w b
  let s := b % w
  match op with
  | .add => (a + b) % 2 ^ w
  | .sub => (a + 2 ^ w - b) % 2 ^ w
  | .mul => a * b % 2 ^ w
  | .mulh => unsignedOf w (Int.fdiv (sa * sb) ((2 ^ w : Nat) : Int))
  | .mulhu => a * b / 2 ^ w
  | .div => if b = 0 then 2 ^ w - 1 else unsignedOf w (Int.tdiv sa sb)
  | .divu => if b = 0 then 2 ^ w - 1 else a / b
  | .rem => if b = 0 then a else unsignedOf w (Int.tmod sa sb)
  | .remu => if b = 0 then a else a % b
  | .and => a &&& b
  | .or => a ||| b
  | .xor => a ^^^ b
  | .andn => a &&& (2 ^ w - 1 - b)
  | .shl => a * 2 ^ s % 2 ^ w
  | .shr => a / 2 ^ s
  | .sar => unsignedOf w (Int.fdiv sa ((2 ^ s : Nat) : Int))
  | .rot => a * 2 ^ s % 2 ^ w + a / 2 ^ (w - s)
  | .min => if sa ≤ sb then a else b
  | .max => if sa ≥ sb then a else b
  | .minu => if a ≤ b then a else b
  | .maxu => if a ≥ b then a else b

/-- gD of R234: the result on the low W bits of two words, sign-extended from bit W−1. -/
def aluWord (op : AluOp) (w32 : Bool) (a b : Word) : Word :=
  let w := widthOf w32
  sextNat w (op.eval w (a.toNat % 2 ^ w) (b.toNat % 2 ^ w))

/-- The counts of R237. -/
inductive CountOp
  | clz | ctz | popc
deriving DecidableEq, Repr

/-- The count within the low W bits (R237). -/
def CountOp.eval (op : CountOp) (w a : Nat) : Nat :=
  match op with
  | .clz => w - bitLen a
  | .ctz => countTrailing w a
  | .popc => popCount w a

/-- The conditions of R200 between two W-bit values. -/
def Cond.holds (c : Cond) (w a b : Nat) : Bool :=
  match c with
  | .always => true
  | .never => false
  | .eq => a == b
  | .ne => a != b
  | .lt => signedOf w a < signedOf w b
  | .ge => signedOf w a ≥ signedOf w b
  | .ltu => a < b
  | .geu => a ≥ b

/-- The condition between the low W bits of two words. -/
def condWord (c : Cond) (w32 : Bool) (a b : Word) : Bool :=
  let w := widthOf w32
  c.holds w (a.toNat % 2 ^ w) (b.toNat % 2 ^ w)

/-- The operation of an AMO or RED by its VAR code (R270). -/
def atomicOf : Nat → AtomicOp
  | 0 => .add | 1 => .and | 2 => .or | 3 => .xor | 4 => .min | 5 => .max | 6 => .minu | 7 => .maxu | 8 => .swap
  | _ => .cas

/-- The value m that replaces the old value o, none where nothing is written (R270, R271). -/
def AtomicOp.eval (op : AtomicOp) (w o b c : Nat) : Option Nat :=
  match op with
  | .add => some ((o + b) % 2 ^ w)
  | .and => some (o &&& b)
  | .or => some (o ||| b)
  | .xor => some (o ^^^ b)
  | .min => some (if signedOf w o ≤ signedOf w b then o else b)
  | .max => some (if signedOf w o ≥ signedOf w b then o else b)
  | .minu => some (if o ≤ b then o else b)
  | .maxu => some (if o ≥ b then o else b)
  | .swap => some b
  | .cas => if o = c then some b else none

/-- Bytes of an access of SZ (R199). -/
def Sz.bytes : Sz → Nat
  | .byte | .byteSx => 1
  | .half | .halfSx => 2
  | .word | .wordSx => 4
  | .dword => 8

/-- The register value of loaded bytes: zero- or sign-extended (R265). -/
def loadValue (sz : Sz) (bs : List Byte) : Word :=
  if sz.isSx then sextNat (8 * sz.bytes) (leNat bs) else wordOf (leNat bs)

/-- Does [a, a + n) meet [b, b + k)? -/
def rangesMeet (a n b k : Nat) : Bool := a < b + k && b < a + n && 0 < n && 0 < k

end Sys2Proof
end

