-- ==== Sys2Proof/Machine/Flags.lean ====
section
/-!
DEFINITION. The flags that an instruction gathers for FPSR (R176, R177): SAT, IV, DZ, OF, UF, NX in bits 5 to 0.
-/
namespace Sys2Proof

/-- The six flags of FPSR (R176). -/
abbrev Flags := BitVec 6

namespace Flags

def none : Flags := 0
def nx : Flags := 1
def uf : Flags := 2
def ovf : Flags := 4
def dz : Flags := 8
def iv : Flags := 16
def sat : Flags := 32

/-- A flag where a condition holds. -/
def when (b : Bool) (f : Flags) : Flags := if b then f else 0

/-- The OR of the flags of all elements (R177). -/
def all (l : List Flags) : Flags := l.foldl (· ||| ·) 0

end Flags

end Sys2Proof
end

