-- ==== Sys2Proof/Machine/Numbers.lean ====
section
/-!
DEFINITION. Values of the number formats (R161 to R171), exact arithmetic on them, and the one rounding of R172 to R175. A
computation is exact (or carries a sticky mark that says a non-zero rest was cut off below its last bit) until it is
rounded once into its destination.
-/
namespace Sys2Proof

/-- An exact value. `fin neg m e sticky` stands for ±m·2^e, or, with `sticky`, for a value whose magnitude lies strictly
between m·2^e and (m+1)·2^e; `m` has then far more bits than any destination. -/
inductive Val
  | nan (sig : Bool)
  | inf (neg : Bool)
  | zero (neg : Bool)
  | fin (neg : Bool) (m : Nat) (e : Int) (sticky : Bool)
deriving DecidableEq, Repr

namespace Val

/-- ±m·2^e, a zero of the given sign when m is 0. -/
def mk (neg : Bool) (m : Nat) (e : Int) : Val := if m = 0 then .zero neg else .fin neg m e false

def ofInt (x : Int) : Val := mk (x < 0) x.natAbs 0

def isNan : Val → Bool
  | nan _ => true
  | _ => false

/-- A signalling NaN sets IV (R168). -/
def sigFlag : Val → Flags
  | nan true => Flags.iv
  | _ => 0

def neg : Val → Val
  | nan s => nan s
  | inf n => inf !n
  | zero n => zero !n
  | fin n m e s => fin (!n) m e s

def abs : Val → Val
  | nan s => nan s
  | inf _ => inf false
  | zero _ => zero false
  | fin _ m e s => fin false m e s

def isNeg : Val → Bool
  | nan _ => false
  | inf n | zero n | fin n _ _ _ => n

/-- A value times 2^k. -/
def shift (v : Val) (k : Int) : Val :=
  match v with
  | fin n m e s => fin n m (e + k) s
  | v => v

/-- ±m as an integer at exponent `e0`, for a finite value whose exponent is at least `e0`. -/
def scaled (e0 : Int) : Val → Int
  | fin n m e _ => (if n then -1 else 1) * ((m * 2 ^ (e - e0).toNat : Nat) : Int)
  | _ => 0

/-- The exponent of a finite value. -/
def expOf : Val → Int
  | fin _ _ e _ => e
  | _ => 0

/-- Exact sum of two values (R244, R324): Inf − Inf gives NaN and IV; an exact zero takes the sign of R244. -/
def add (rd : Bool) : Val → Val → Val × Flags
  | nan a, b => (nan false, sigFlag (nan a) ||| sigFlag b)
  | a, nan b => (nan false, sigFlag a ||| sigFlag (nan b))
  | inf a, inf b => if a == b then (inf a, 0) else (nan false, Flags.iv)
  | inf a, _ => (inf a, 0)
  | _, inf b => (inf b, 0)
  | zero a, zero b => (zero (if a == b then a else rd), 0)
  | zero _, b => (b, 0)
  | a, zero _ => (a, 0)
  | a, b =>
    let e := min a.expOf b.expOf
    let s := a.scaled e + b.scaled e
    (if s = 0 then zero rd else mk (s < 0) s.natAbs e, 0)

/-- Exact product: 0 × Inf gives NaN and IV. -/
def mul : Val → Val → Val × Flags
  | nan a, b => (nan false, sigFlag (nan a) ||| sigFlag b)
  | a, nan b => (nan false, sigFlag a ||| sigFlag (nan b))
  | inf _, zero _ | zero _, inf _ => (nan false, Flags.iv)
  | inf a, b => (inf (a != b.isNeg), 0)
  | a, inf b => (inf (a.isNeg != b), 0)
  | zero a, b => (zero (a != b.isNeg), 0)
  | a, zero b => (zero (a.isNeg != b), 0)
  | fin a m e _, fin b n f _ => (fin (a != b) (m * n) (e + f) false, 0)

/-- Bits that a quotient or a root is carried to before its sticky mark. -/
def carryBits : Nat := 192

/-- Exact quotient (R244). -/
def div : Val → Val → Val × Flags
  | nan a, b => (nan false, sigFlag (nan a) ||| sigFlag b)
  | a, nan b => (nan false, sigFlag a ||| sigFlag (nan b))
  | inf _, inf _ | zero _, zero _ => (nan false, Flags.iv)
  | inf a, b => (inf (a != b.isNeg), 0)
  | a, inf b => (zero (a.isNeg != b), 0)
  | zero a, b => (zero (a != b.isNeg), 0)
  | a, zero b => (inf (a.isNeg != b), Flags.dz)
  | fin a m e _, fin b n f _ =>
    let k := carryBits + bitLen n
    let q := m * 2 ^ k / n
    (fin (a != b) q (e - f - k) (m * 2 ^ k % n != 0), 0)

/-- Square root (R244). -/
def sqrt : Val → Val × Flags
  | nan a => (nan false, sigFlag (nan a))
  | zero a => (zero a, 0)
  | inf false => (inf false, 0)
  | inf true => (nan false, Flags.iv)
  | fin true _ _ _ => (nan false, Flags.iv)
  | fin false m e _ =>
    let odd := e % 2 != 0
    let m' := (if odd then 2 * m else m) * 2 ^ (2 * carryBits)
    let r := isqrt m'
    (fin false r ((if odd then e - 1 else e) / 2 - carryBits) (r * r != m'), 0)

/-- Reciprocal square root of a positive finite value: floor(2^k / √m) with its rest. -/
def rsqrtFin (m : Nat) (e : Int) : Val :=
  let odd := e % 2 != 0
  let m' := if odd then 2 * m else m
  let h := (if odd then e - 1 else e) / 2
  let k := carryBits + bitLen m'
  let r := isqrt (2 ^ (2 * k) / m')
  fin false r (-h - k) (r * r * m' != 2 ^ (2 * k))

/-- Comparison of two values that are not NaN, with zeros equal. -/
def cmp (a b : Val) : Ordering :=
  match a, b with
  | inf false, inf false | inf true, inf true => .eq
  | inf n, _ => if n then .lt else .gt
  | _, inf n => if n then .gt else .lt
  | a, b =>
    let e := min a.expOf b.expOf
    compare (a.scaled e) (b.scaled e)

end Val

/-! ### Formats -/

/-- What rounding and encoding need of a floating format. Magnitude codes rise with the magnitude they stand for. -/
structure FloatSpec where
  /-- significand bits, the implicit one included -/
  p : Nat
  bias : Int
  /-- bit of the sign, none for an unsigned format -/
  sign : Option Nat
  /-- magnitude code of the largest finite value (R163) -/
  maxCode : Nat
  /-- magnitude code of infinity, where the format and domain have one -/
  infCode : Option Nat
  nanCode : Nat
  /-- an IEEE format: it has −0, and NaNs that are quiet or signalling -/
  ieee : Bool
deriving DecidableEq, Repr

/-- The signed binary8pP format in a domain (R161, R163). -/
def specB8 (p : Nat) (ext : Bool) : FloatSpec :=
  ⟨p, 2 ^ (7 - p), some 7, if ext then 0x7e else 0x7f, if ext then some 0x7f else none, 0x80, false⟩

/-- The unsigned binary8pP format in a domain (R162, R163). -/
def specUb8 (p : Nat) (ext : Bool) : FloatSpec :=
  ⟨p, 2 ^ (8 - p), none, if ext then 0xfd else 0xfe, if ext then some 0xfe else none, 0xff, false⟩

def specF16 : FloatSpec := ⟨11, 15, some 15, 0x7bff, some 0x7c00, 0x7e00, true⟩
def specBf16 : FloatSpec := ⟨8, 127, some 15, 0x7f7f, some 0x7f80, 0x7fc0, true⟩
def specF32 : FloatSpec := ⟨24, 127, some 31, 0x7f7fffff, some 0x7f800000, 0x7fc00000, true⟩
def specF64 : FloatSpec :=
  ⟨53, 1023, some 63, 0x7fefffffffffffff, some 0x7ff0000000000000, 0x7ff8000000000000, true⟩

/-- The floating format of an element format in a domain; none for integers (R167). -/
def Fmt.float? (f : Fmt) (ext : Bool) : Option FloatSpec :=
  match f with
  | .b8 p | .mxb8 p => some (specB8 (p.val + 1) ext)
  | .ub8 p => some (specUb8 (p.val + 1) ext)
  | .f16 => some specF16
  | .bf16 => some specBf16
  | .f32 => some specF32
  | .f64 => some specF64
  | _ => none

/-- Width and signedness of an integer format (R167). -/
def Fmt.int? : Fmt → Option (Nat × Bool)
  | .i8 => some (8, true)
  | .ui8 => some (8, false)
  | .i16 => some (16, true)
  | .i32 => some (32, true)
  | _ => none

namespace FloatSpec

/-- Exponent of the least quantum: 2 − P − bias (R161). -/
def qmin (s : FloatSpec) : Int := 2 - s.p - s.bias

/-- The magnitude that a magnitude code stands for, as n·2^q (R161). -/
def magOf (s : FloatSpec) (code : Nat) : Nat × Int :=
  let e := code / 2 ^ (s.p - 1)
  let t := code % 2 ^ (s.p - 1)
  if e = 0 then (t, s.qmin) else (2 ^ (s.p - 1) + t, (e : Int) - s.bias - s.p + 1)

/-- The magnitude code of n·2^q, for n below 2^p and q at least `qmin`, n below 2^(p−1) only at `qmin`. -/
def codeOf (s : FloatSpec) (n : Nat) (q : Int) : Nat :=
  if n < 2 ^ (s.p - 1) then n else (q + s.bias + s.p - 1).toNat * 2 ^ (s.p - 1) + (n - 2 ^ (s.p - 1))

/-- A magnitude code with a sign. -/
def signed (s : FloatSpec) (neg : Bool) (code : Nat) : Nat :=
  match s.sign with
  | some b => if neg then code + 2 ^ b else code
  | none => code

/-- The value of an encoding (R161, R162, R167). -/
def value (s : FloatSpec) (enc : Nat) : Val :=
  let neg := match s.sign with | some b => enc / 2 ^ b % 2 == 1 | none => false
  let mag := match s.sign with | some b => enc % 2 ^ b | none => enc
  if s.ieee then
    match s.infCode with
    | none => .nan false
    | some inf =>
      if mag > inf then .nan (mag / 2 ^ (s.p - 2) % 2 == 0)
      else if mag == inf then .inf neg
      else let (n, q) := s.magOf mag; .mk neg n q
  else if enc == s.nanCode then .nan false
  else if some mag == s.infCode then .inf neg
  else if mag == 0 then .zero false
  else let (n, q) := s.magOf mag; .mk neg n q

end FloatSpec

/-! ### Rounding -/

/-- The 32 random bits of stochastic rounding (R173). -/
def srBits (seed : Word) (i : Nat) : Nat :=
  let x := seed ^^^ (BitVec.ofNat 64 i * 0x9E3779B97F4A7C15#64)
  let x := (x ^^^ (x >>> 30)) * 0xBF58476D1CE4E5B9#64
  let x := (x ^^^ (x >>> 27)) * 0x94D049BB133111EB#64
  let x := x ^^^ (x >>> 31)
  x.toNat / 2 ^ 32

/-- The magnitude m·2^e (and a rest) as a multiple of 2^q: the count and whether it is inexact (R172, R173). `r` is the
random number of .sr. -/
def roundAt (rnd : Rnd) (r : Nat) (neg : Bool) (m : Nat) (e : Int) (sticky : Bool) (q : Int) : Nat × Bool :=
  if q ≤ e then (m * 2 ^ (e - q).toNat, sticky)
  else
    let k := (q - e).toNat
    let n := m / 2 ^ k
    let rest := m % 2 ^ k
    if rest = 0 && !sticky then (n, false)
    else
      let up := match rnd with
        | .rne => rest > 2 ^ (k - 1) || (rest == 2 ^ (k - 1) && (sticky || n % 2 == 1))
        | .rz => false
        | .ru => !neg
        | .rd => neg
        | .sr => r < rest * 2 ^ 32 / 2 ^ k
      (if up then n + 1 else n, true)

/-- Round to `p` bits with the quantum at least 2^qmin (none: unbounded below): n·2^q and whether it is inexact. -/
def roundBits (rnd : Rnd) (r : Nat) (p : Nat) (qmin : Option Int) (neg : Bool) (m : Nat) (e : Int) (sticky : Bool) :
    Nat × Int × Bool :=
  let top := e + (bitLen m : Int) - p
  let q := match qmin with | some lo => max top lo | none => top
  let (n, inexact) := roundAt rnd r neg m e sticky q
  if n ≥ 2 ^ p then (n / 2, q + 1, inexact) else (n, q, inexact)

/-- The result of an overflow (R174): magnitude code, or none for the NaN of a finite domain. -/
def FloatSpec.overflow (s : FloatSpec) (rnd : Rnd) (sat neg : Bool) : Option Nat :=
  let largest := sat || (match rnd with
    | .rz => true
    | .ru => neg
    | .rd => !neg
    | _ => false)
  if largest then some s.maxCode else s.infCode

/-- Encode a value, rounded once (R172 to R175, R323): the encoding and the flags. -/
def FloatSpec.encode (s : FloatSpec) (rnd : Rnd) (r : Nat) (sat : Bool) (v : Val) : Nat × Flags :=
  match v with
  | .nan sig => (s.nanCode, Flags.when sig Flags.iv)
  | .zero neg => (if s.ieee then s.signed neg 0 else 0, 0)
  | .inf neg =>
    if neg && s.sign.isNone then (if sat then (0, Flags.sat) else (s.nanCode, Flags.iv))
    else match s.infCode with
      | some c => (s.signed neg c, 0)
      | none => if sat then (s.signed neg s.maxCode, Flags.sat) else (s.nanCode, Flags.ovf)
  | .fin neg m e sticky =>
    if neg && s.sign.isNone then (if sat then (0, Flags.sat) else (s.nanCode, Flags.iv))
    else
      let (n, q, inexact) := roundBits rnd r s.p (some s.qmin) neg m e sticky
      let code := s.codeOf n q
      if code > s.maxCode then
        match s.overflow rnd sat neg with
        | some c => (s.signed neg c, Flags.ovf ||| Flags.nx ||| Flags.when sat Flags.sat)
        | none => (s.nanCode, Flags.ovf ||| Flags.nx)
      else
        let (n', q', _) := roundBits rnd r s.p none neg m e sticky
        -- tiny: below the smallest normal 2^(1 − bias), rounded with an unbounded exponent (R174)
        let tiny := (bitLen n' : Int) + q' - 1 < 1 - s.bias
        (if n = 0 then (if s.ieee then s.signed neg 0 else 0) else s.signed neg code,
          Flags.when inexact Flags.nx ||| Flags.when (inexact && tiny) Flags.uf)

/-- Did the rounded value overflow? (R174; the arithmetic check of R188 skips such columns.) -/
def FloatSpec.overflows (s : FloatSpec) (rnd : Rnd) (r : Nat) (v : Val) : Bool :=
  match v with
  | .fin neg m e sticky =>
    let (n, q, _) := roundBits rnd r s.p (some s.qmin) neg m e sticky
    s.codeOf n q > s.maxCode
  | _ => false

/-- The limits of an integer of `w` bits. -/
def intMin (w : Nat) (signed : Bool) : Int := if signed then -((2 ^ (w - 1) : Nat) : Int) else 0
def intMax (w : Nat) (signed : Bool) : Int :=
  if signed then ((2 ^ (w - 1) : Nat) : Int) - 1 else ((2 ^ w : Nat) : Int) - 1

/-- Clamp an integer into `w` bits: the number that remains and whether it was clamped. -/
def clampInt (w : Nat) (signed : Bool) (x : Int) : Int × Bool :=
  if x < intMin w signed then (intMin w signed, true)
  else if x > intMax w signed then (intMax w signed, true)
  else (x, false)

/-- Deliver an exact integer under .wrap or .sat (R175, R325). -/
def deliverInt (w : Nat) (signed sat : Bool) (x : Int) : Nat × Flags :=
  if sat then
    let (y, c) := clampInt w signed x
    (unsignedOf w y, Flags.when c Flags.sat)
  else (unsignedOf w x, 0)

/-- Convert a floating value to an integer of `w` bits (R175). -/
def floatToInt (w : Nat) (signed : Bool) (rnd : Rnd) (r : Nat) (sat : Bool) (v : Val) : Nat × Flags :=
  match v with
  | .nan _ => (0, Flags.iv)
  | .zero _ => (0, 0)
  | .inf neg =>
    (unsignedOf w (if neg then intMin w signed else intMax w signed), if sat then Flags.sat else Flags.iv)
  | .fin neg m e sticky =>
    let (n, inexact) := roundAt rnd r neg m e sticky 0
    let x : Int := if neg then -(n : Int) else n
    let (y, c) := clampInt w signed x
    (unsignedOf w y, if c then (if sat then Flags.sat else Flags.iv) else Flags.when inexact Flags.nx)

/-! ### Elements of tiles -/

/-- The value of an element of a format that is no MX format, read under a domain (R165). -/
def Fmt.value (f : Fmt) (ext : Bool) (enc : Nat) : Val :=
  match f.float? ext with
  | some s => s.value enc
  | none => match f.int? with
    | some (w, signed) => .ofInt (if signed then signedOf w enc else enc)
    | none => .mk (signedOf 8 enc < 0) (signedOf 8 enc).natAbs (-6)   -- MXINT8: q / 64 (R170)

/-- The integer that an element of an integer format holds. -/
def Fmt.intValue (f : Fmt) (enc : Nat) : Int :=
  match f.int? with
  | some (w, true) => signedOf w enc
  | _ => enc

/-- Encode an exact value into a non-MX format under RND and SAT (R175). A source that is an integer format and an integer
destination go through `deliverInt` instead. -/
def Fmt.encode (f : Fmt) (ext : Bool) (rnd : Rnd) (r : Nat) (sat : Bool) (v : Val) : Nat × Flags :=
  match f.float? ext with
  | some s => s.encode rnd r sat v
  | none => match f.int? with
    | some (w, signed) => floatToInt w signed rnd r sat v
    | none =>
      -- MXINT8: q / 64, always saturating, −127 to 127 (R170, R171)
      match v with
      | .nan _ => (0, Flags.iv)
      | .zero _ => (0, 0)
      | .inf neg => (if neg then 0x81 else 0x7f, Flags.sat)
      | .fin neg m e sticky =>
        let (n, inexact) := roundAt rnd r neg m e sticky (-6)
        let c := n > 127
        let n := if c then 127 else n
        (unsignedOf 8 (if neg then -(n : Int) else n), Flags.when (inexact || c) Flags.nx |||
          Flags.when c (Flags.ovf ||| Flags.sat))

/-- The canonical NaN of a format; 0 for an integer (R167, R168). -/
def Fmt.nan (f : Fmt) : Nat :=
  match f.float? false with
  | some s => s.nanCode
  | none => 0

/-- floor(log2) of a format's largest finite value; 0 for MXINT8 (R171). -/
def Fmt.emax (f : Fmt) (ext : Bool) : Int :=
  match f.float? ext with
  | some s => let (n, q) := s.magOf s.maxCode; (bitLen n : Int) - 1 + q
  | none => 0

/-! ### Comparison and selection -/

/-- Are the operands unordered? -/
def unordered (a b : Val) : Bool := a.isNan || b.isNan

/-- The condition of FCMP and TCMP by its code, and its flags (R246). -/
def fcond (code : Nat) (a b : Val) : Bool × Flags :=
  let u := unordered a b
  let any := Flags.when u Flags.iv
  let sig := a.sigFlag ||| b.sigFlag
  match code with
  | 2 => (!u && Val.cmp a b == .eq, sig)
  | 3 => (u || Val.cmp a b != .eq, sig)
  | 4 => (!u && Val.cmp a b == .lt, any)
  | 5 => (!u && Val.cmp a b != .lt, any)
  | _ => (u, sig)

/-- Does FMIN or FMAX choose its first operand? NaNs apart; −0 is ordered below +0 (R245). -/
def picksFirst (big : Bool) (a b : Val) : Bool :=
  match Val.cmp a b with
  | .lt => !big
  | .gt => big
  | .eq => if big then !a.isNeg || b.isNeg else a.isNeg || !b.isNeg

end Sys2Proof
end

