-- ==== Sys2Proof/Machine/Elementary.lean ====
section
/-!
DEFINITION. The functions of TRCP, TRSQ, TEXP2 and TLOG2 (R328) as exact values to be rounded once. Reciprocals and
reciprocal roots are exact integer arithmetic. 2^a and log2 a of an argument whose result is not a dyadic number are
evaluated in fixed point with `fxBits` bits; every error made is far below the last bit that is handed on, and the sticky
mark stands for the rest (the log entry on these functions says what that leaves open).
-/
namespace Sys2Proof

/-- Bits of the fixed point after the binary point. -/
def fxBits : Nat := 512

/-- Bits of a result handed to the rounding. -/
def fxOut : Nat := 384

/-- Terms of the series below: each gains more than three bits. -/
def fxTerms : Nat := 190

/-- Σ z^(2i+1)/(2i+1) from the term at `i` on: `pw` holds z^(2i+1), `z2` holds z², all in fixed point. -/
def atanhSum : Nat → Nat → Nat → Nat → Nat
  | 0, _, _, acc => acc
  | k + 1, pw, z2, acc =>
    let i := fxTerms - (k + 1)
    atanhSum k (pw * z2 / 2 ^ fxBits) z2 (acc + pw / (2 * i + 1))

/-- ln(n/d) in fixed point, for 1 ≤ n/d ≤ 2: twice the atanh of (n − d)/(n + d). -/
def fxLn (n d : Nat) : Nat :=
  let z := (n - d) * 2 ^ fxBits / (n + d)
  2 * atanhSum fxTerms z (z * z / 2 ^ fxBits) 0

/-- ln 2 in fixed point. -/
def fxLn2 : Nat := fxLn 2 1

/-- Σ x^i/i! from the term at `i` on: `t` holds x^i/i!. -/
def expSum : Nat → Nat → Nat → Nat → Nat
  | 0, _, _, acc => acc
  | k + 1, x, t, acc =>
    let i := fxTerms - (k + 1)
    expSum k x (t * x / 2 ^ fxBits / (i + 1)) (acc + t)

/-- 2^f in fixed point, for 0 ≤ f < 1 given in fixed point. -/
def fxExp2 (f : Nat) : Nat := expSum fxTerms (f * fxLn2 / 2 ^ fxBits) (2 ^ fxBits) 0

/-- The largest |a| for which 2^a is formed as it stands; beyond it every destination overflows or is tiny alike. -/
def expClamp : Nat := 16384

/-- 2^a for a = ±m·2^e (R328). -/
def exp2Fin (neg : Bool) (m : Nat) (e : Int) : Val :=
  if 0 ≤ e then
    let k := if e.toNat + bitLen m > 16 then expClamp else min (m * 2 ^ e.toNat) expClamp
    .fin false 1 (if neg then -(k : Int) else k) false
  else
    let s := (-e).toNat
    if m / 2 ^ s ≥ expClamp then .fin false (2 ^ fxOut) ((if neg then -(expClamp : Int) else expClamp) - fxOut) true
    else if s ≥ fxBits + bitLen m then
      -- |a| is below the fixed point: 2^a is 1 and a rest, above or below
      if neg then .fin false (2 ^ fxOut - 1) (-(fxOut : Int)) true else .fin false (2 ^ fxOut) (-(fxOut : Int)) true
    else
      let i := m / 2 ^ s
      let rest := m % 2 ^ s
      if rest = 0 then .fin false 1 (if neg then -(i : Int) else i) false
      else
        -- a = i + rest/2^s, or −a = i + 1 − (2^s − rest)/2^s
        let num := if neg then 2 ^ s - rest else rest
        let k : Int := if neg then -((i : Int) + 1) else i
        let y := fxExp2 (num * 2 ^ fxBits / 2 ^ s)
        .fin false (y / 2 ^ (fxBits - fxOut)) (k - fxOut) true

/-- log2 a for a = m·2^e (R328): exact for a power of two. -/
def log2Fin (m : Nat) (e : Int) : Val :=
  let b := bitLen m - 1
  let k : Int := e + b
  if m = 2 ^ b then .ofInt k
  else
    -- a = 2^k · (m / 2^b) with 1 < m/2^b < 2
    let y := fxLn m (2 ^ b) * 2 ^ fxBits / fxLn2
    let x : Int := k * ((2 ^ fxBits : Nat) : Int) + y
    let cut : Nat := 2 ^ (fxBits - fxOut)
    if 0 ≤ x then .fin false (x.natAbs / cut) (-(fxOut : Int)) true
    else .fin true (x.natAbs / cut) (-(fxOut : Int)) true

/-- The four functions of R328. -/
inductive Func
  | rcp | rsq | exp2 | log2
deriving DecidableEq, Repr

/-- The function value and its flags, special values as R328's table gives. -/
def Func.eval (f : Func) (v : Val) : Val × Flags :=
  match v with
  | .nan sig => (.nan false, Flags.when sig Flags.iv)
  | .zero neg => match f with
    | .rcp | .rsq => (.inf neg, Flags.dz)
    | .exp2 => (.fin false 1 0 false, 0)
    | .log2 => (.inf true, Flags.dz)
  | .inf false => match f with
    | .rcp | .rsq => (.zero false, 0)
    | .exp2 | .log2 => (.inf false, 0)
  | .inf true => match f with
    | .rcp => (.zero true, 0)
    | .rsq | .log2 => (.nan false, Flags.iv)
    | .exp2 => (.zero false, 0)
  | .fin neg m e s => match f with
    | .rcp => Val.div (.fin false 1 0 false) (.fin neg m e s)
    | .rsq => if neg then (.nan false, Flags.iv) else (Val.rsqrtFin m e, 0)
    | .exp2 => (exp2Fin neg m e, 0)
    | .log2 => if neg then (.nan false, Flags.iv) else (log2Fin m e, 0)

end Sys2Proof
end

