-- ==== Sys2Proof/Machine/State.lean ====
section
/-!
DEFINITION. The state of the Azgor as plain data, and its value at reset. A table (`Tab`) lists the entries that differ from a
default, by key; the default of each table is named beside the reading operation that uses it (Machine/Store.lean).
-/
namespace Sys2Proof.Machine

/-- A sparse table: keys rising, one entry a key; a key it does not list has the table's default. -/
abbrev Tab (α : Type) := List (Nat × α)

/-- Modes of a context (R399). -/
inductive Mode
  | user | supervisor | firmware
deriving DecidableEq, Repr

/-! ### Tiles -/

/-- A tile register, or a slot of a typed buffer (R18 to R21, R294). `elems` holds the encodings of the shape's elements, row by
row; padding is zero and not stored. `rowck` and `colck` are the cortex; a check beyond a list's end is zero. `ue` lists the
offsets of 64-bit words that hold an uncorrectable flip (R410). -/
structure Tile where
  valid : Bool
  rows : Nat
  cols : Nat
  fmt : Option Fmt
  dom : Bool
  elems : List Nat
  rowck : List (BitVec 32)
  colck : List (BitVec 32)
  ue : List Nat
deriving DecidableEq, Repr

/-- A tile with VALID = 0 and everything zero (R22, R295). -/
def Tile.empty : Tile := ⟨false, 0, 0, none, false, [], [], [], []⟩

/-! ### Waiting -/

/-- A context, or the evicted task of a context with its save slot (R385): who a wait stands for. -/
structure Who where
  core : Nat
  cx : Nat
  /-- ASID and slot of the save region that hold an evicted task -/
  slot : Option (Nat × Nat)
deriving DecidableEq, Repr

/-- What a context waits for (R263, R384). -/
inductive WaitKind
  | barrier (sorus b tok : Nat)  -- BAR, BARW, LD.ev of a barrier's wait word; the token that BAR returns
  | mutex (sorus m : Nat)        -- MTXL, LD.ev of a mutex's wait word
  | evline (sorus e : Nat)       -- EVWAIT, LD.ev of an event line's wait word
  | addr (pa : Nat)              -- WAITA
  | cell (k : Nat)               -- TJOIN
  | channel (n : Nat)            -- CHR on an empty channel
  | forward (id : Nat)           -- a load from a forwarded page
  | remote (id : Nat)            -- the reply of an AMO, RDE or TRDE sent to an owner (R132); no blocking point
  | pageReq (va : Nat)           -- a page request for the 4 KiB page at va (R97)
  | migrate                      -- an X instruction on an S core (R386)
  | other                        -- a wait that is no blocking point: it tests its condition again
deriving DecidableEq, Repr

/-- How a registered wait ended: a value, or an error of its own. -/
inductive Fired
  | value (w : Word)
  | bytes (bs : List Byte)
  | contained                    -- R416
  | fwdFail                      -- R93
  | unknown                      -- R146
  | pageOk | pageInvalid | pageFail   -- R97
  | again                        -- R283: woken with the mutex held, to queue again
deriving DecidableEq, Repr

/-- The wait of a context: what for, at which PC, and how it ended if it did. -/
structure Wait where
  kind : WaitKind
  pc : Word
  fired : Option Fired
deriving DecidableEq, Repr

/-! ### Contexts -/

/-- A register image restored by an abort (R147, R154), with the uncorrectable flips that its registers hold (R410). -/
structure Checkpoint where
  g : Tab Word
  p : BitVec 8
  gue : BitVec 64
  pue : BitVec 8
  tiles : Tab Tile
  fpsr : Word
  mec0 : Word
  mec1 : Word
  mec2 : Word
  mec3 : Word
  handler : Word
deriving DecidableEq, Repr

/-- The commit of a region in progress (R153): slices that have not applied it, slices whose acknowledgements are on their way, the bytes of its SPEC lines
as they were sent, by line, and the length in bytes of the RGEND that waits. -/
structure Commit where
  pos : Word
  slices : List Nat
  acks : List Nat
  writes : List (Nat × List (Nat × Byte))
  len : Nat
deriving DecidableEq, Repr

/-- The pinned rows of a faulted TLD (R299). -/
structure Pin where
  pc : Word
  asid : Nat
  ea : Word
  stride : Word
  rows : Nat
  cols : Nat
  fmt : Fmt
  dm : Dm
  rr : Bool
  first : Nat
  last : Nat
  done : List Nat
  elems : List (Nat × List Nat)
deriving DecidableEq, Repr

/-- One pending slot of an event (R401). -/
structure PendingEvent where
  code : Nat
  more : Bool
  faddr : Word
deriving DecidableEq, Repr

/-- The task a context runs (R368, R379): its job, its launch counter (none for a continuation), its index, and whether it was
placed by the firmware (R421). -/
structure Task where
  asid : Nat
  lctr : Option Nat
  index : Nat
  urg : Bool
  fw : Bool
  gfail : Bool
deriving DecidableEq, Repr

/-- An injection armed by DBGINJ (R361), or an upset of the matrix engine: the output and the bits that flip. -/
structure Injection where
  row : Nat
  col : Nat
  mask : Word
deriving DecidableEq, Repr

/-- The state of one context of a core. -/
structure Ctx where
  /-- g1 to g63; an unlisted register holds 0 -/
  g : Tab Word
  /-- bit i is p_i -/
  p : BitVec 8
  /-- t0 to t15 -/
  tiles : Tab Tile
  pc : Word
  mode : Mode
  /-- the context holds a task, or runs a handler on an idle context -/
  active : Bool
  task : Option Task
  wait : Option Wait
  /-- the registration of a wait kept over an event's handler (R463) -/
  heldWait : Option Wait
  /-- instructions the task has retired (R398, FSEQ) -/
  retired : Nat
  /-- block stepping is held from trap entry to ERET (R464) -/
  hold : Bool
  /-- trap entries since a DEADLOCK report was taken that no ERET has left (R390): none outside its handler -/
  report : Nat
  /-- registers that hold an uncorrectable flip (R410) -/
  gue : BitVec 64
  pue : BitVec 8
  /-- registers written since the last RGBEGIN: the checkpoint's rename map names other physical registers than theirs (R147) -/
  gnew : BitVec 64
  pnew : BitVec 8
  tnew : BitVec 16
  -- status registers of user code (R362)
  fpsr : Word
  tcfg : Word
  mec0 : Word
  mec1 : Word
  mec2 : Word
  mec3 : Word
  reptst : Word
  reptpc : Word
  chlast : Word
  cpyerr : Word
  cpyfa : Word
  taskjoin : Word
  erlo : Word
  erhi : Word
  erpos : Word
  erstat : Word
  -- supervisor status registers
  corectl : Word
  fcause : Word
  fpc : Word
  faddr : Word
  frow : Word
  fseq : Word
  /-- ESTAT without MODE, which `mode` holds (R399) -/
  estat : Word
  tvec : Word
  sscr : Word
  ptroot : Word
  pasidr : Word
  sctbl : Word
  -- regions
  ckpt : Option Checkpoint
  commit : Option Commit
  /-- an abort that waits for the next retirement boundary: CAUSE, CODE, FCODE (R154) -/
  abort : Option (Nat × Nat × Nat)
  /-- lines the region has registered: physical line and whether as a writer (R148) -/
  regLines : List (Nat × Bool)
  /-- registrations that reached their slice ahead of the access, which registers again: line and whether a write (R429); the model's own -/
  early : List (Nat × Bool)
  /-- events that wait to be taken (R401) -/
  events : List PendingEvent
  /-- a kill that waits for the next retirement boundary: LAST (R381, R415) -/
  kill : Option Nat
  pin : Option Pin
  injMatrix : Option Injection
  injScalar : Option Injection
  /-- an upset strikes the next matrix instruction (R409): whether its repeat too -/
  matErr : Option (Injection × Bool)
  /-- an error strikes the datapath of the next checked instruction (R409): on its first execution, or on its repeat too -/
  pathErr : Option Bool
  /-- the job of the task that an eviction has moved out, whose entry the context takes next (R385) -/
  heir : Option Nat
  /-- copies and collectives issued by the task (R346) -/
  issued : Nat
  /-- what the waiting instruction has read already and reads no second time: answers of owners (R90), ordered reads (R107) -/
  fwdGot : List (Nat × List Byte)
  /-- page requests of the waiting instruction that are answered: page base, response (R97) -/
  pageGot : List (Nat × Fired)
deriving DecidableEq, Repr

/-! ### The caches of a core -/

/-- An L1 data line (R42). `va` and `pa` are the addresses of its first byte. -/
structure L1Line where
  va : Nat
  asid : Nat
  pa : Nat
  uo : Bool
  wr : Bool
  rd : Bool
  usr : Bool
  /-- log2 of the size of the page it was filled under, and whether that page is global: what a TLBI removes (R84) -/
  size : Nat
  glob : Bool
  pres : BitVec 64
  dirty : BitVec 64
  mark : Nat
  /-- the context whose open region owns a SPEC line -/
  spec : Option Nat
  data : List Byte
deriving DecidableEq, Repr

/-- A line of the instruction cache (R49), with the size of its page and whether the page is global. -/
structure ILine where
  va : Nat
  asid : Nat
  size : Nat
  glob : Bool
  data : List Byte
deriving DecidableEq, Repr

/-- How a request to the host is tagged (R91): PASIDR.PASID, and whether its address is translated. Requests to peers carry zeros. -/
structure HostTag where
  pasid : Nat
  translated : Bool
deriving DecidableEq, Repr

/-- Where a combined line of a forwarded page goes (R90, R94): its owner (0 the host, 1 + n the peer n), its tag, the page's address. -/
structure FwdLine where
  owner : Nat
  tag : HostTag
  asid : Nat
  va : Nat
deriving DecidableEq, Repr

/-- An entry of the write-combining buffer (R111): a line of device memory, or of an owner. -/
structure WcLine where
  pa : Nat
  fwd : Option FwdLine
  mask : BitVec 64
  data : List Byte
deriving DecidableEq, Repr

/-- A page of the dirty filter (R86): the ASID that wrote it, its base, log2 of its size, whether it is global. -/
structure DirtyPage where
  asid : Nat
  va : Nat
  size : Nat
  glob : Bool
deriving DecidableEq, Repr

/-- The attributes that govern an access (R74, R106). -/
structure Attr where
  pa : Nat
  kind : Nat
  c : Bool
  fwd : Nat
  owner : Nat
  r : Bool
  w : Bool
  u : Bool
  /-- log2 of the size of the page, and whether it is global -/
  size : Nat
  glob : Bool
deriving DecidableEq, Repr

/-- A part of a store of a context that has retired and waits in the store buffer (R105): bytes of one payload of device memory. -/
structure Stored where
  cx : Nat
  asid : Nat
  va : Nat
  a : Attr
  bs : List Byte
deriving DecidableEq, Repr

/-- A part of a store on an SO page that waits for the store's earlier parts to be acknowledged (R107, R113, R114): the message that it will
be, its owner's address and tag where the page is forwarded, and whether firmware stores it. -/
structure SoPart where
  id : Nat
  va : Nat
  asid : Nat
  a : Attr
  addr : Nat
  tag : HostTag
  fw : Bool
  bs : List Byte
deriving DecidableEq, Repr

/-- One operation of a non-returning instruction on one line or cell, with its address (R132). -/
inductive HomeOp
  | atomic (op : AtomicOp) (w32 : Bool) (pa : Nat) (b : Word)
  | exactAdd (fmt : Fmt) (ext : Bool) (pa : Nat) (v : Nat)
  | exactClear (pa : Nat)
deriving DecidableEq, Repr

/-- A non-returning instruction that home has not acknowledged (R132): the operations still to be performed, and those sent to peers
(R144). -/
structure NonReturning where
  cx : Nat
  ops : List HomeOp
  /-- identifiers of its operations at peers that are not acknowledged -/
  remote : List Nat
  /-- it touches an SO page (R107) -/
  so : Bool
  /-- one of its operations goes to a slice on the other die (R59) -/
  far : Bool
  /-- sample records of its requests to home, written when it is acknowledged (R447) -/
  samples : List (List Byte)
deriving DecidableEq, Repr

/-- The translation a context or an engine uses (R77). -/
structure Xlat where
  ptroot : Word
  pasidr : Word
  mode : Mode
deriving DecidableEq, Repr

/-- A copy descriptor (R340). -/
structure CopyDesc where
  src : Word
  dst : Word
  ctl : Word
  size : List Nat
  sstr : List Word
  dstr : List Word
deriving DecidableEq, Repr

/-- What an engine operation waits for: a page response (R97), or a line that an owner sends (R90), known by the first unit of the walk that
it holds, which the owner may answer with an error. -/
inductive EngAsk
  | page (va : Nat) (ans : Option Fired)
  | line (id : Nat) (unit : Nat)
  | lost
deriving DecidableEq, Repr

/-- What an engine operation is doing: the units of its walk that have not moved, as ranges [lo, hi), what it waits for, its writes that
an owner has not acknowledged, the fault it stopped at (R345), and whether it is complete: it still counts while an older one is not
(R138). -/
structure Progress where
  left : List (Nat × Nat)
  ask : Option EngAsk
  posts : List Nat
  failed : Option (Nat × Word)
  complete : Bool
  /-- its ranges of global memory, each by its first byte and length (R114) -/
  ranges : List (Nat × Nat)
  /-- lines that owners have sent, each by the first unit of the walk that it holds (R90) -/
  got : List (Nat × List Byte)
deriving DecidableEq, Repr

/-- A copy in flight (R344). -/
structure Copy where
  cx : Nat
  seq : Nat
  xlat : Xlat
  desc : CopyDesc
  cell : Option Nat
  prog : Progress
deriving DecidableEq, Repr

/-- A participant's contribution to a collective: bytes, and the slots of a range that moves whole (R348). -/
structure Share where
  core : Nat
  bytes : List Byte
  slots : List Tile
deriving DecidableEq, Repr

/-- The stages of a participant's share: it reads its source, it waits for the contributions, it writes its destination. -/
inductive Stage
  | reading | waiting | writing
deriving DecidableEq, Repr

/-- A collective in flight (R347, R348). `nth` is its number among the core's collectives of this identifier and these participants;
`share` is what it reads and then what it writes; `got` holds the contributions received. -/
structure Coll where
  cx : Nat
  seq : Nat
  xlat : Xlat
  nfm : Bool
  src : Word
  dst : Word
  ctl : Word
  count : Nat
  cores : BitVec 128
  nth : Nat
  stage : Stage
  share : Share
  got : List Share
  prog : Progress
deriving DecidableEq, Repr

/-- Work of the copy engine, oldest first. -/
inductive EngineOp
  | copy (c : Copy)
  | coll (c : Coll)
deriving DecidableEq, Repr

/-! ### Channels and run lists -/

/-- A flit (R287). -/
structure Flit where
  src : Nat
  scx : Nat
  dst : Nat
  chan : Nat
  n : Nat
  nfm : Bool
  words : List Word
deriving DecidableEq, Repr

/-- A receive channel: its flits, and the flits refused and to be sent again, in order of refusal (R287). -/
structure Chan where
  flits : List Flit
  refused : List Flit
deriving DecidableEq, Repr

/-- The launch a range entry comes from (R377). -/
structure Range where
  pc : Word
  argp : Word
  count : Nat
  n : Nat
  next : Nat
  astride : Nat
  join : Nat
  lctr : Nat
  nfm : Bool
  fw : Bool
  gfail : Bool
deriving DecidableEq, Repr

/-- The kinds of a run-list entry (R378). -/
inductive EntryKind
  | range (r : Range)
  | cont (cpc carg : Word) (join : Nat) (nfm : Bool)
  | resume (slot : Nat) (migrated : Bool)
deriving DecidableEq, Repr

/-- A run-list entry with its job and context kind (R378). -/
structure Entry where
  asid : Nat
  urg : Bool
  kind : EntryKind
deriving DecidableEq, Repr

/-- A task counter cell (R349). `nfm` is the NFM of the task that armed it (R379), `asid` and `urg` its job and kind. -/
structure Cell where
  ctrl : Word
  status : Word
  cpc : Word
  carg : Word
  nfm : Bool
  asid : Nat
  urg : Bool
  /-- who waits in TJOIN (R352) -/
  waiter : Option Who
deriving DecidableEq, Repr

/-- A decrement on its way to a cell (R350). `kind` 0 plain, 1 FAULTED, 2 KILLED; `src` is the core that sent it (R58), none for the launch
unit and the run lists. -/
structure Decr where
  core : Nat
  cell : Nat
  n : Nat
  kind : Nat
  cause : Nat
  src : Option Nat
deriving DecidableEq, Repr

/-- A fan-out flit (R377) with its sender (R376) and its receiver. -/
structure FanFlit where
  src : Nat
  dst : Nat
  pos : Nat
  slot : Nat
  range : Range
  urg : Bool
  asid : Nat
deriving DecidableEq, Repr

/-- Who places an entry on a run list (R378). A resume entry that a wake makes waits at its own core, a port of the model's (log entry 99). -/
inductive Placer
  | cell | stub | migrating | wake
deriving DecidableEq, Repr

/-- A placement that waits at its port for a place in the spill ring (R378). -/
structure Placement where
  core : Nat
  entry : Entry
  by_ : Placer
deriving DecidableEq, Repr

/-- The state of one core beside its contexts. -/
structure Core where
  c0 : Ctx
  c1 : Ctx
  bufW : Tab Tile
  bufA : Tab Tile
  bufC : Tab Tile
  cells : Tab Cell
  /-- dirty log: entries by ring index, HEAD, TAIL, FULL (R85, R87) -/
  dlog : Tab Word
  dlHead : Nat
  dlTail : Nat
  dlFull : Bool
  /-- dirty filter (R86) -/
  dfilter : List DirtyPage
  bufpart : Word
  l1 : List L1Line
  /-- lines evicted clean whose home is on the other die: their replicas are still to be requested (R54) -/
  victims : List Nat
  icache : List ILine
  /-- parts of retired stores that are not performed, oldest first (R105) -/
  sbuf : List Stored
  /-- the stores of the core wait in the store buffer until a turn performs them; else each is performed in its step (log entry 13) -/
  holdStores : Bool
  wc : List WcLine
  /-- parts of a retired store on SO pages that are still to be performed, in order (R107) -/
  soParts : List SoPart
  nonRet : List NonReturning
  /-- stores to peers not yet acknowledged (R275): the messages of each that a peer has not acknowledged -/
  posted : List (List Nat)
  /-- channel sends not yet accepted (R275) -/
  sends : Nat
  engine : List EngineOp
  /-- destinations of complete copies not yet acquired (R138): first byte, length, translation -/
  toAcquire : List (Nat × Nat × Xlat)
  /-- withdrawal marks of collectives (R348): identifier, ASID -/
  withdrawn : List (Nat × Nat)
  /-- collectives issued, by identifier and participants, with their number and the job of the last (R348); the model's own -/
  colls : List ((Nat × BitVec 128) × Nat × Nat)
  chans : Tab Chan
  runList : List Entry
  /-- fan-out flits in the start stub (R376) -/
  stub : List FanFlit
  waitingPlace : List Placement
  cyc : Word
  ncyc : Word
  pmc : Tab Word
  pmsel : Tab Word
  dbgctl : Word
  sbase : Word
  sctl : Word
  misses : Nat
  /-- sample records of requests whose reply is outstanding, by the identifier of the message (R447) -/
  samples : List (Nat × List Byte)
  /-- contexts that debug has stopped (R440) -/
  stopped : List Nat
  /-- a step in progress (R442) -/
  stepping : Bool
deriving DecidableEq, Repr

/-! ### Cluster agents -/

/-- A cluster TLB entry (R78): the leaf's word, where it was found, its page, its counters (R94), its ATS translation (R91). -/
structure TlbEntry where
  asid : Nat
  va : Nat
  size : Nat
  leaf : Word
  leafPa : Nat
  dAtFill : Bool
  reads : Nat
  writes : Nat
  ats : Option Word
deriving DecidableEq, Repr

/-- A table pointer kept by a walker (R79): which of the eight, ASID, level, the virtual address bits it covers, the next table. -/
structure WalkPtr where
  walker : Nat
  asid : Nat
  level : Nat
  va : Nat
  table : Nat
deriving DecidableEq, Repr

/-- A waiter of a barrier: who, the token (none: waits for the next completion), and whether LD.ev waits. -/
structure BarWaiter where
  who : Who
  tok : Option Nat
  ev : Bool
deriving DecidableEq, Repr

/-- A barrier (R280). -/
structure Barrier where
  root : Nat
  nsor : Nat
  done : Nat
  span : Nat
  expect : Nat
  rpt : Bool
  arrived : Nat
  phase : Nat
  waiters : List BarWaiter
  /-- sori whose reports count in DONE -/
  reporters : List Nat
  /-- cores whose arrivals count in ARRIVED -/
  arrivers : List Nat
deriving DecidableEq, Repr

/-- A queued waiter of a mutex or an event line; `ev` for LD.ev. -/
structure QWaiter where
  who : Who
  ev : Bool
deriving DecidableEq, Repr

/-- A mutex (R283). -/
structure Mutex where
  held : Bool
  core : Nat
  cx : Nat
  queue : List QWaiter
deriving DecidableEq, Repr

/-- An event line (R284). -/
structure EvLine where
  pending : Nat
  waiters : List QWaiter
deriving DecidableEq, Repr

/-- The agents of a sorus. -/
structure Sorus where
  tlb : List TlbEntry
  ptrs : List WalkPtr
  /-- the walker that takes the next walk (log entry 83); the model's own -/
  walker : Nat
  barriers : Tab Barrier
  mutexes : Tab Mutex
  evlines : Tab EvLine
  hardEvents : Nat
  spmc : Tab Word
deriving DecidableEq, Repr

/-! ### Slices and stacks -/

/-- The tag of a slice line (R53); its bytes are the memory's own. -/
structure L2Tag where
  line : Nat
  dirty : Bool
  repl : Bool
  rcopy : Bool
deriving DecidableEq, Repr

/-- A slot of a side-array entry (R148): whether its region has registered there as a reader, and as a writer. -/
structure SideSlot where
  core : Nat
  cx : Nat
  reader : Bool
  writer : Bool
  strict : Bool
  lo : Word
  hi : Word
deriving DecidableEq, Repr

/-- An entry of a slice's side array (R148). -/
structure SideEntry where
  line : Nat
  wts : Word
  rts : Word
  slots : List SideSlot
deriving DecidableEq, Repr

/-- An entry of a slice's wait list (R276, R278). -/
structure WaitEntry where
  line : Nat
  who : Who
deriving DecidableEq, Repr

/-- What a slice sends to a controller: a request with its OP code (R62), or an indirection-table operation with its ITOP (R100);
`port` says that it came through the port of R439. -/
inductive SliceOp
  | mem (op : Nat) (q : MemReq)
  | table (itop : Nat) (port : Bool) (q : ItReq)
deriving DecidableEq, Repr

/-- A request that a slice holds for a tag (R64): stack, request, and whether it was answered with retry (R102). -/
structure SliceReq where
  st : Nat
  op : SliceOp
  retried : Bool
deriving DecidableEq, Repr

/-- A home slice (R52, R53, R64). -/
structure Slice where
  tags : List L2Tag
  side : List SideEntry
  floor : Word
  waits : List WaitEntry
  /-- stack and tag of requests sent and not answered -/
  sent : List (Nat × Nat)
  missq : List SliceReq
  /-- stack and local line of a request that is sent again: later requests to the line wait for it (R102) -/
  held : List (Nat × Nat)
  /-- replica invalidations in progress: line, slices still to acknowledge (R56) -/
  inval : List (Nat × List Nat)
  /-- banks that its requests keep busy: stack, and 64 c + b for bank b of pseudo-channel c (R69) -/
  banks : List (Nat × Nat)
  /-- granules, by device-physical address / 32, that are poisoned in DRAM below a line of the slice that is not (R52, R410) -/
  under : List Nat
deriving DecidableEq, Repr

/-- A reply of a controller (R63). -/
structure MemReply where
  op : Nat
  tag : Nat
  dest : Nat
  status : Nat
  data : List Byte
deriving DecidableEq, Repr

/-- A running move (R101): device frame, old and new DRAM frame, the line in copy, retirement, and the request to answer. -/
structure Move where
  frame : Nat
  old : Nat
  new : Nat
  line : Nat
  retire : Bool
  tag : Nat
  src : Nat
  /-- the operation came through the port of R439 -/
  port : Bool
deriving DecidableEq, Repr

/-- A stack's controller. -/
structure Stack where
  /-- indirection entries; entry f holds f unless listed (R99) -/
  it : Tab Nat
  moves : List Move
  retired : List Nat
  corrected : Tab Nat
  /-- poisoned 32-byte granules, by DRAM address / 32 (R66) -/
  poison : List Nat
  /-- granules that hold one flip, to be corrected when they are read (R67, R409) -/
  flips : List Nat
  /-- bank that falls due next in a pseudo-channel (R68) -/
  due : Tab Nat
  /-- postponed refreshes of bank b of pseudo-channel c, at 64 c + b (R69) -/
  postponed : Tab Nat
  /-- banks and pseudo-channels in refresh: 64 c + b for REFpb, 4096 + c for REFab -/
  refreshing : List Nat
  replies : List MemReply
  /-- requests answered with retry, to be sent again (R102) -/
  retry : List SliceReq
  retreq : List (Bool × Nat)
  /-- the REPLY word and whether an OP awaits its reply (R439) -/
  reply : Word
  opBusy : Bool
deriving DecidableEq, Repr

/-! ### The launch unit -/

/-- A packet accepted into a queue (R372): its place, local deadline, sequence number. -/
structure Queued where
  pkt : Packet
  queue : Nat
  ld : Nat
  seq : Nat
  fw : Bool
deriving DecidableEq, Repr

/-- A launch counter in use (R373, R374, R438). -/
structure LaunchCtr where
  seq : Nat
  left : Nat
  ended : Nat
  fcount : Nat
  last : Nat
  late : Bool
  cancelled : Bool
  faulted : Bool
  killed : Bool
  pkt : Packet
deriving DecidableEq, Repr

/-- A fan-out slot in use: its launch counter and how many targets have not placed their entry (R377). -/
structure FanSlot where
  lctr : Nat
  left : Nat
  /-- the targets as they stood at dispatch -/
  targets : List Nat
deriving DecidableEq, Repr

/-- A task whose image stands in a save slot (R385, R386): its task, its own core and context, its wait. -/
structure Saved where
  task : Option Task
  core : Nat
  cx : Nat
  wait : Option Wait
  retired : Nat
  /-- the uncorrectable flips of its registers, predicates and tiles (R410, log entry 88) -/
  gue : BitVec 64
  pue : BitVec 8
  tue : Tab (List Nat)
deriving DecidableEq, Repr

/-- What the supervisor set for an ASID: start values of R379 and the save region of R438. -/
structure Job where
  ptroot : Word
  pasidr : Word
  sctbl : Word
  save : Word
  /-- save slots in use (R406) -/
  used : Tab Saved
  /-- hash-pass enable (R449) -/
  hash : Bool
  /-- pages that await the hash pass: size code and page base -/
  hashPages : List (Nat × Nat)
  /-- launches that have completed and await their hash pass -/
  hashDue : List Nat
deriving DecidableEq, Repr

/-- The launch unit (R371 to R379, R438). -/
structure Launch where
  /-- configuration words of the queues (R371) -/
  conf : Tab Word
  queued : List Queued
  seq : Nat
  phase : Nat
  time : Word
  gquery : Word
  ctrs : Tab LaunchCtr
  slots : Tab FanSlot
  flits : List FanFlit
  spill : List Placement
  jobs : Tab Job
  hwake : Bool
  /-- DEADLOCK was reported and no line has fallen since (R390) -/
  reported : Bool
  cancels : List CancelReq
deriving DecidableEq, Repr

/-! ### The device -/

/-- A containment entry (R413). -/
structure Contain where
  err : Bool
  state : Nat
  xhi : Nat
  xlo : Nat
  yhi : Nat
  ylo : Nat
deriving DecidableEq, Repr

/-- A ring with its three words (R445, R450). -/
structure Ring where
  base : Word
  prod : Nat
  cons : Nat
  ctl : Word
deriving DecidableEq, Repr

/-- An operation sent to a peer and not answered (R144): tag, message identifier, the core and context it came from, and whether it
returns a value. -/
structure Remote where
  tag : Nat
  id : Nat
  core : Nat
  cx : Nat
  returns : Bool
  op : RemoteOp
deriving DecidableEq, Repr

/-- What a Wenpen port keeps for one partner (R144). -/
structure Partner where
  nextTag : Nat
  outstanding : List Remote
  /-- results of the last 64 tags performed for the partner -/
  results : List (Nat × List Byte)
deriving DecidableEq, Repr

/-- A Wenpen port (R144, R453): its partner now, and what it keeps for each. -/
structure Port where
  peer : Nat
  up : Bool
  rate : Nat
  lock : Bool
  partners : Tab Partner
deriving DecidableEq, Repr

/-- An operation for a peer that waits at its cluster agent for a tag (R144): its tag is still to come. -/
structure PeerWait where
  peer : Nat
  op : Remote
deriving DecidableEq, Repr

/-- What an owner is asked for: bytes, or an AtomicOp with its operands (R90, R92). -/
inductive OwnerReq
  | read
  | atomic (op : AtomicOp) (w32 : Bool) (b c : Word)
deriving DecidableEq, Repr

/-- A forwarded access that the owner has not answered (R90): identifier, who waits, the owner (0 the host, 1 + n the peer n),
address, how many bytes, what is asked, and its tag (R91). -/
structure Forwarded where
  id : Nat
  who : Who
  owner : Nat
  addr : Nat
  n : Nat
  req : OwnerReq
  tag : HostTag
deriving DecidableEq, Repr

/-- A page request outstanding (R97): ASID, page base, PASID, read and write intent, the Last bit, the contexts and engines that wait. -/
structure PageReq where
  asid : Nat
  va : Nat
  pasid : Nat
  reads : Bool
  writes : Bool
  last : Bool
  who : List (Nat × Nat)
deriving DecidableEq, Repr

/-- An ATS Translation Request outstanding (R91): the sorus and the TLB entry that asks, by ASID and page base, and the PASID. -/
structure AtsReq where
  sorus : Nat
  asid : Nat
  va : Nat
  pasid : Nat
deriving DecidableEq, Repr

/-- A write on its way to the host or a peer (R90, R123): at most one line, with a mask of its bytes. `core` is the core whose store it is,
`so` says that the page is SO (R107), `after` lists messages that must have been delivered first (R374), `msix` is the vector of an
MSI-X message (R374), `ats` the translation of the host that it waits for (R91). -/
structure Posted where
  id : Nat
  owner : Nat
  addr : Nat
  mask : BitVec 64
  bytes : List Byte
  core : Option Nat
  so : Bool
  after : List Nat
  tag : HostTag
  msix : Option Nat
  ats : Option AtsReq
deriving DecidableEq, Repr

/-- A narrowing message (R150): to a context, a new lower or upper bound; none makes its interval empty. -/
structure Narrow where
  core : Nat
  cx : Nat
  /-- the slice that sent it -/
  slice : Nat
  upper : Bool
  bound : Option Word
deriving DecidableEq, Repr

/-- A collective message (R348). -/
structure CollMsg where
  dst : Nat
  src : Nat
  id : Nat
  op : Nat
  count : Nat
  fmt : Nat
  cores : BitVec 128
  nfm : Bool
  share : Share
deriving DecidableEq, Repr

/-- A withdrawal message (R348): the identifier and participants of the collective, its number among them, the job. -/
structure Withdrawal where
  dst : Nat
  id : Nat
  cores : BitVec 128
  nth : Nat
  asid : Nat
deriving DecidableEq, Repr

/-- Where a barrier report stands (R280): prepared at its unit, on the mesh, at the root's port. -/
inductive ReportStage
  | prepared | mesh | port
deriving DecidableEq, Repr

/-- A barrier report (R281): from a sorus to the root's barrier. -/
structure Report where
  src : Nat
  dst : Nat
  b : Nat
  stage : ReportStage
deriving DecidableEq, Repr

/-- An outbound window of the host-control page (R452). -/
structure Window where
  base : Word
  size : Word
  lock : Bool
deriving DecidableEq, Repr

/-- A request of the management core that went to the host (R452): address, how many bytes, and what a write carries. -/
structure ManagementReq where
  addr : Nat
  n : Nat
  data : Option (List Byte)
deriving DecidableEq, Repr

/-- The device-wide state. -/
structure Device where
  power : Bool
  quiet : Bool
  mstep : Nat
  c0clk : Nat
  c1clk : Nat
  /-- the clocks that PHASE commanded (R459) -/
  cmd0 : Nat
  cmd1 : Nat
  pend : Bool
  cmd : Word
  /-- a clamp episode runs on die 0, die 1 (R459) -/
  clamp0 : Bool
  clamp1 : Bool
  /-- the clocks of the steps of die 0, die 1 that a relock hold ends, oldest first (R59, R432): none while no hold runs -/
  relock0 : List Nat
  relock1 : List Nat
  /-- a memory step runs (R71) -/
  retraining : Bool
  /-- the command whose core clocks are stepped once it has ended, and whether it ungated die 1 (R72) -/
  clkHeld : Option (Word × Bool)
  removed : List Nat
  /-- sori released from containment that rejoin at the next boundary (R414) -/
  rejoin : List Nat
  toposeq : Nat
  dev : Nat
  minimal : Bool
  mhbase : Word
  mhidx : Word
  mhcfg : Word
  trace : Ring
  hashRing : Ring
  scopes : Tab Byte
  contain : Tab Contain
  ports : Tab Port
  /-- operations that wait for a tag, oldest first (R144) -/
  peerq : List PeerWait
  pageReqs : List PageReq
  atsReqs : List AtsReq
  pageOn : Bool
  forwarded : List Forwarded
  posted : List Posted
  flits : List Flit
  decrs : List Decr
  reports : List Report
  /-- barrier completions on their way: sorus, barrier -/
  completions : List (Nat × Nat)
  narrows : List Narrow
  collMsgs : List CollMsg
  withdrawals : List Withdrawal
  /-- MSI-X messages sent -/
  msix : List Nat
  msixTable : Tab Word
  /-- vectors whose message waits for their mask to be cleared (R451) -/
  msixPending : List Nat
  /-- firmware events raised: code, value (R395) -/
  fwEvents : List (Nat × Word)
  mailbox : Tab Byte
  bell0 : Bool
  bell1 : Bool
  /-- the version of the image that runs on the management core, once one is accepted (R454) -/
  firmware : Option Nat
  fwctl : Word
  fails : Nat
  lastOk : Bool
  reason : Nat
  stage : Nat
  bootOk : Bool
  /-- the 2 s of this start have passed, or it has failed (R456) -/
  judged : Bool
  windows : Tab Window
  /-- requests of the management core that the windows let through to the host, and what its other reads were answered (R452) -/
  managed : List ManagementReq
  managedReads : List (List Byte)
  /-- the last answers given to the host and to peers -/
  answers : List (List Byte)
  /-- outstanding operations that a peer has answered with an error (R93) -/
  refused : List Nat
  /-- operations sent again to a peer: port, tag (R145) -/
  resent : List (Nat × Nat)
  /-- ATS invalidations not yet completed: the messages to the host that they wait for (R91) -/
  atsInv : List (List Nat)
  /-- next identifier of a message -/
  nextId : Nat
deriving DecidableEq, Repr

/-! ### Who moves next -/

/-- One move of an agent. What the clocks, the environment and the caches' replacement do, and which device event comes next, is
read from here; the model's own. -/
inductive Turn
  | run (c : CtxId)
  | dev (i : Instr)
  | coreClocks (core : Fin 128) (n : Nat)
  | localTime (n : Nat)
  | copyPart (core : Fin 128) (idx : Nat) (at_ : Nat)
  | evictL1 (core : Fin 128) (va : Nat)
  | evictTlb (sorus : Fin 16) (idx : Nat)
  | evictPtr (sorus : Fin 16) (idx : Nat)
  | walker (sorus : Fin 16) (n : Fin 8)
  | evictICache (core : Fin 128) (idx : Nat)
  | sendWc (core : Fin 128)
  | holdStores (core : Fin 128) (hold : Bool)
  | performStore (core : Fin 128) (idx : Nat)
  | evictL2 (slice : Fin 128) (line : Nat)
  | evictSide (slice : Fin 128) (idx : Nat)
  | count (core : Fin 128) (event : Nat) (cx : Fin 2) (n : Nat)
  | countSorus (sorus : Fin 16) (event : Nat) (n : Nat)
  | reportMoves (n : Nat)
  | wenpenUp (port : Fin 4) (peer : Fin 4) (up : Bool)
  | postedSent
  | peerRefuses (id : Nat)
  | startStops (reason : Fin 6) (stage : Fin 5)
  | management (addr n : Nat) (data : Option (List Byte))
  | space (host : Bool) (off : Nat) (data : Option Word)
  | image (key : List Byte) (version : Nat) (signed : Bool)
deriving DecidableEq, Repr

/-- The whole machine. -/
structure State where
  turns : List Turn
  cur : CtxId
  /-- advances with every free value used (Config) -/
  fresh : Nat
  cores : Tab Core
  sori : Tab Sorus
  slices : Tab Slice
  stackTab : Tab Stack
  /-- bytes of DRAM by stack × 2^36 + DRAM address; an unlisted byte reads as zero -/
  mem : List Host.Cell
  launch : Launch
  dev : Device
deriving DecidableEq, Repr

/-- Why the machine stops. -/
inductive Fault
  /-- Raised by step while the package is without power and no turn restores it (R459): safe, the hardware does nothing either. -/
  | poweredOff
deriving DecidableEq, Repr

/-- Why an instruction has no meaning. -/
inductive Refusal
  /-- Raised by Dispatch for an instruction that has no meaning yet: safe. -/
  | notModelled (mnemonic : String)
deriving DecidableEq, Repr

/-! ### Reset -/

/-- A context at reset: idle, every register at the value its field map gives, else zero (R9, R295, R390). -/
def Ctx.reset : Ctx where
  g := []
  p := 1
  tiles := []
  pc := 0
  mode := .user
  active := false
  task := none
  wait := none
  heldWait := none
  retired := 0
  hold := false
  report := 0
  gue := 0
  pue := 0
  gnew := 0
  pnew := 0
  tnew := 0
  fpsr := 0
  tcfg := 0
  mec0 := 0
  mec1 := 0
  mec2 := 0
  mec3 := 0
  reptst := 0
  reptpc := 0
  chlast := 0
  cpyerr := 0
  cpyfa := 0
  taskjoin := 0xFFFF
  erlo := 0
  erhi := 0xFFFFFFFFFFFFFFFF
  erpos := 0
  erstat := 0
  corectl := 0
  fcause := 0
  fpc := 0
  faddr := 0
  frow := 0
  fseq := 0
  estat := 0
  tvec := 0
  sscr := 0
  ptroot := 0
  pasidr := 0
  sctbl := 0
  ckpt := none
  commit := none
  abort := none
  regLines := []
  early := []
  events := []
  kill := none
  pin := none
  injMatrix := none
  injScalar := none
  matErr := none
  pathErr := none
  heir := none
  issued := 0
  fwdGot := []
  pageGot := []

/-- A core at reset (R22, R33, R85, R286). -/
def Core.reset : Core where
  c0 := Ctx.reset
  c1 := Ctx.reset
  bufW := []
  bufA := []
  bufC := []
  cells := []
  dlog := []
  dlHead := 0
  dlTail := 0
  dlFull := false
  dfilter := []
  bufpart := 0
  l1 := []
  victims := []
  icache := []
  sbuf := []
  holdStores := false
  wc := []
  soParts := []
  nonRet := []
  posted := []
  sends := 0
  engine := []
  toAcquire := []
  withdrawn := []
  colls := []
  chans := []
  runList := []
  stub := []
  waitingPlace := []
  cyc := 0
  ncyc := 0
  pmc := []
  pmsel := []
  dbgctl := 0
  sbase := 0
  sctl := 0
  misses := 0
  samples := []
  stopped := []
  stepping := false

/-- A barrier at reset (R280). -/
def Barrier.reset : Barrier := ⟨0, 0, 0, 0, 0, false, 0, 0, [], [], []⟩

/-- A mutex at reset (R283). -/
def Mutex.reset : Mutex := ⟨false, 0, 0, []⟩

/-- An event line at reset (R284). -/
def EvLine.reset : EvLine := ⟨0, []⟩

/-- The agents of a sorus at reset. -/
def Sorus.reset : Sorus := ⟨[], [], 0, [], [], [], 0, []⟩

/-- A slice at reset: no line, no entry, floor 0 (R148). -/
def Slice.reset : Slice := ⟨[], [], 0, [], [], [], [], [], [], []⟩

/-- A controller at reset: entry f holds f, nothing postponed (R69, R99). -/
def Stack.reset : Stack := ⟨[], [], [], [], [], [], [], [], [], [], [], [], 0, false⟩

/-- A job the supervisor has set nothing for. -/
def Job.reset : Job := ⟨0, 0, 0, 0, [], false, [], []⟩

/-- The launch unit at reset: phase 1, sequence numbers from 1 (R368, R375). -/
def Launch.reset : Launch where
  conf := []
  queued := []
  seq := 1
  phase := 1
  time := 0
  gquery := 0
  ctrs := []
  slots := []
  flits := []
  spill := []
  jobs := []
  hwake := false
  reported := false
  cancels := []

/-- A Wenpen port at reset. -/
def Port.reset : Port := ⟨0, false, 0, false, []⟩

/-- A partner that a port has had no traffic with. -/
def Partner.reset : Partner := ⟨0, [], []⟩

/-- A containment entry at reset: open (R413). -/
def Contain.reset : Contain := ⟨false, 0, 0, 0, 0, 0⟩

/-- The device at reset: full mode, memory step 3 (R70, R359), FWCTL as R455 gives. -/
def Device.reset : Device where
  power := true
  quiet := false
  mstep := 3
  c0clk := 32
  c1clk := 32
  cmd0 := 32
  cmd1 := 32
  pend := false
  cmd := 0
  clamp0 := false
  clamp1 := false
  relock0 := []
  relock1 := []
  retraining := false
  clkHeld := none
  removed := []
  rejoin := []
  toposeq := 0
  dev := 0
  minimal := false
  mhbase := 0
  mhidx := 0
  mhcfg := 0
  trace := ⟨0, 0, 0, 0⟩
  hashRing := ⟨0, 0, 0, 0⟩
  scopes := []
  contain := []
  ports := []
  peerq := []
  pageReqs := []
  atsReqs := []
  pageOn := false
  forwarded := []
  posted := []
  flits := []
  decrs := []
  reports := []
  completions := []
  narrows := []
  collMsgs := []
  withdrawals := []
  msix := []
  msixTable := []
  msixPending := []
  fwEvents := []
  mailbox := []
  bell0 := false
  bell1 := false
  firmware := none
  fwctl := 0x64E100
  fails := 0
  lastOk := false
  reason := 0
  stage := 0
  bootOk := false
  judged := false
  windows := []
  managed := []
  managedReads := []
  answers := []
  refused := []
  resent := []
  atsInv := []
  nextId := 0

/-- The machine right after reset. -/
def State.reset : State where
  turns := []
  cur := ⟨0, 0⟩
  fresh := 0
  cores := []
  sori := []
  slices := []
  stackTab := []
  mem := []
  launch := Launch.reset
  dev := Device.reset

end Sys2Proof.Machine
end

