-- ==== Sys2Proof/Machine/Store.lean ====
section
/-!
DEFINITION. Reading and writing the parts of the state: tables, contexts, cores, agents, and the bytes of memory.
-/
namespace Sys2Proof.Machine

/-! ### Tables -/

/-- The value of a key, or the table's default. -/
def tget {α : Type} (t : Tab α) (k : Nat) (d : α) : α :=
  match t with
  | [] => d
  | (i, v) :: r => if i = k then v else tget r k d

/-- Put a value at a key, keeping the keys rising. -/
def tset {α : Type} (t : Tab α) (k : Nat) (v : α) : Tab α :=
  match t with
  | [] => [(k, v)]
  | (i, x) :: r => if i < k then (i, x) :: tset r k v else if i = k then (k, v) :: r else (k, v) :: (i, x) :: r

/-- Remove a key: it has the default again. -/
def tdel {α : Type} (t : Tab α) (k : Nat) : Tab α := t.filter fun p => p.1 != k

/-! ### Parts of the state -/

namespace Core

/-- Context 0 or 1 of a core. -/
def ctx (k : Core) (cx : Nat) : Ctx := if cx = 0 then k.c0 else k.c1

def setCtx (k : Core) (cx : Nat) (c : Ctx) : Core := if cx = 0 then { k with c0 := c } else { k with c1 := c }

/-- A typed buffer's slots. -/
def buf (k : Core) (b : Buf) : Tab Tile :=
  match b with
  | .w => k.bufW
  | .a => k.bufA
  | .c => k.bufC

def setBuf (k : Core) (b : Buf) (t : Tab Tile) : Core :=
  match b with
  | .w => { k with bufW := t }
  | .a => { k with bufA := t }
  | .c => { k with bufC := t }

end Core

namespace EngineOp

/-- The progress of an engine operation. -/
def prog : EngineOp → Progress
  | .copy c => c.prog
  | .coll c => c.prog

def setProg (o : EngineOp) (p : Progress) : EngineOp :=
  match o with
  | .copy c => .copy { c with prog := p }
  | .coll c => .coll { c with prog := p }

def cx : EngineOp → Nat
  | .copy c => c.cx
  | .coll c => c.cx

/-- Its issue number (R346). -/
def seq : EngineOp → Nat
  | .copy c => c.seq
  | .coll c => c.seq

/-- The translation it uses. -/
def xlat : EngineOp → Xlat
  | .copy c => c.xlat
  | .coll c => c.xlat

def complete (o : EngineOp) : Bool := o.prog.complete

end EngineOp

namespace Progress

/-- An operation with `n` units to move. -/
def start (n : Nat) : Progress := ⟨if n = 0 then [] else [(0, n)], none, [], none, false, [], []⟩

/-- It issues no further part (R345); it becomes complete once what it issued is acknowledged. -/
def stop (p : Progress) (cause : Nat) (addr : Word) : Progress :=
  { p with left := [], ask := none, failed := some (cause, addr) }

end Progress

namespace Coll

/-- Its identifier. -/
def id (c : Coll) : Nat := fieldOf c.ctl 32 16

/-- Its job. -/
def asid (c : Coll) : Nat := fieldOf c.xlat.ptroot 0 12

end Coll

namespace State

def core (s : State) (n : Nat) : Core := tget s.cores n Core.reset
def setCore (s : State) (n : Nat) (k : Core) : State := { s with cores := tset s.cores n k }
def modCore (s : State) (n : Nat) (f : Core → Core) : State := s.setCore n (f (s.core n))

def ctxAt (s : State) (n cx : Nat) : Ctx := (s.core n).ctx cx
def setCtxAt (s : State) (n cx : Nat) (c : Ctx) : State := s.setCore n ((s.core n).setCtx cx c)
def modCtxAt (s : State) (n cx : Nat) (f : Ctx → Ctx) : State := s.setCtxAt n cx (f (s.ctxAt n cx))

/-- The core whose context acts. -/
def me (s : State) : Nat := s.cur.core.val

/-- Which of its contexts acts. -/
def mycx (s : State) : Nat := s.cur.cx.val

/-- The context that acts. -/
def ctx (s : State) : Ctx := s.ctxAt s.me s.mycx
def setCtx (s : State) (c : Ctx) : State := s.setCtxAt s.me s.mycx c
def modCtx (s : State) (f : Ctx → Ctx) : State := s.setCtx (f s.ctx)
def myCore (s : State) : Core := s.core s.me
def modMyCore (s : State) (f : Core → Core) : State := s.modCore s.me f

def sorus (s : State) (n : Nat) : Sorus := tget s.sori n Sorus.reset
def modSorus (s : State) (n : Nat) (f : Sorus → Sorus) : State := { s with sori := tset s.sori n (f (s.sorus n)) }
def slice (s : State) (n : Nat) : Slice := tget s.slices n Slice.reset
def modSlice (s : State) (n : Nat) (f : Slice → Slice) : State := { s with slices := tset s.slices n (f (s.slice n)) }
def stack (s : State) (n : Nat) : Stack := tget s.stackTab n Stack.reset
def modStack (s : State) (n : Nat) (f : Stack → Stack) : State := { s with stackTab := tset s.stackTab n (f (s.stack n)) }
def modDev (s : State) (f : Device → Device) : State := { s with dev := f s.dev }
def modLaunch (s : State) (f : Launch → Launch) : State := { s with launch := f s.launch }
def job (s : State) (asid : Nat) : Job := tget s.launch.jobs asid Job.reset
def modJob (s : State) (asid : Nat) (f : Job → Job) : State :=
  s.modLaunch fun l => { l with jobs := tset l.jobs asid (f (s.job asid)) }

/-- A new message identifier. -/
def newId (s : State) : Nat × State := (s.dev.nextId, s.modDev fun d => { d with nextId := d.nextId + 1 })

/-- A free value (log entry 2). -/
def free (s : State) : Word × State := (Config.freeWord s.fresh, { s with fresh := s.fresh + 1 })

end State

/-- One of a list by a free value: the victim that a replacement state names (log entry 80). -/
def anyOf {α : Type} (s : State) : List α → Option α × State
  | [] => (none, s)
  | x :: t =>
    let (w, s) := s.free
    ((x :: t)[w.toNat % (t.length + 1)]?, s)

/-! ### Cores, sori, dies -/

/-- The sorus of a core (R366). -/
def sorusOf (core : Nat) : Nat := core / 8

/-- The die of a core. -/
def dieOf (core : Nat) : Nat := core / 64

/-- Core 7 of each sorus executes X instructions (R1, R366). -/
def isXCore (core : Nat) : Bool := core % 8 == 7

/-- Numbers from 0 below n. -/
def upTo (n : Nat) : List Nat := List.range n

/-- The cores of a sorus. -/
def coresOf (sorus : Nat) : List Nat := (upTo 8).map (8 * sorus + ·)

/-- Is a sorus active: not gated in quiet mode, not in minimal mode beyond sorus 0, not removed (R3, R366, R456)? -/
def sorusActive (s : State) (k : Nat) : Bool :=
  k < 16 && !(s.dev.quiet && k ≥ 8) && !(s.dev.minimal && k ≥ 1) && !s.dev.removed.contains k

def coreActive (s : State) (n : Nat) : Bool := n < 128 && sorusActive s (sorusOf n)

/-- The active cores, rising. -/
def activeCores (s : State) : List Nat := (upTo 128).filter (coreActive s)

/-- The root core: core 0, or the lowest active core (R376). -/
def rootCore (s : State) : Nat := (activeCores s).headD 0

/-! ### Bytes of memory -/

/-- The byte at a memory key; an unlisted key reads as zero (log entry 5). -/
def cellGet : List Host.Cell → Nat → Byte
  | [], _ => 0
  | (a, b) :: t, k => if a = k then b else cellGet t k

/-- Write a byte, keeping the keys rising and no zero listed. -/
def cellPut : List Host.Cell → Nat → Byte → List Host.Cell
  | [], k, v => if v = 0 then [] else [(k, v)]
  | (a, b) :: t, k, v =>
    if a < k then (a, b) :: cellPut t k v
    else if a = k then (if v = 0 then t else (k, v) :: t)
    else if v = 0 then (a, b) :: t
    else (k, v) :: (a, b) :: t

/-- The canonical form of memory: addresses strictly rising, no byte equal to what an unlisted address reads as. -/
def memWf : List Host.Cell → Bool
  | [] => true
  | [(_, b)] => b != 0
  | (a, b) :: (a', b') :: t => a < a' && b != 0 && memWf ((a', b') :: t)

/-! ### Device-physical addresses (R15, R60, R61, R99) -/

/-- The stack window and the local address of a device-physical address that HBM populates. In minimal mode only stack 0 is
there (R456). -/
def hbmOf (s : State) (pa : Nat) : Option (Nat × Nat) :=
  let st := pa / 2 ^ 36
  let off := pa % 2 ^ 36
  if pa < 2 ^ 39 && off < 0xC00000000 && (st = 0 || !s.dev.minimal) then some (st, off) else none

/-! ### Tiles and memory ports (R51, R60) -/

/-- The first tile of a sorus. -/
def sorusX (k : Nat) : Nat := 8 * (k / 8) + 4 * (k % 8 % 2)
def sorusY (k : Nat) : Nat := 2 * (k % 8 / 2)

/-- The tile of a core and of its slice (R51). -/
def tileOf (core : Nat) : Nat × Nat := (sorusX (core / 8) + core % 8 % 4, sorusY (core / 8) + core % 8 / 4)

/-- The slice in a tile. -/
def sliceAt (x y : Nat) : Nat := 8 * (8 * (x / 8) + 2 * (y / 2) + x % 8 / 4) + 4 * (y % 2) + x % 4

/-- The tile of a memory port, 0 or 1, of a stack (R60). -/
def portTile (st port : Nat) : Nat × Nat := (if st < 4 then 0 else 15, 2 * (st % 4) + port)

/-- The memory port of a stack that a slice's requests take: the one whose row is nearer, the lower row on a tie (R60). -/
def portOf (st slice : Nat) : Nat := if (tileOf slice).2 ≤ 2 * (st % 4) then 0 else 1

/-- Is it device control space (R15)? -/
def isControl (pa : Nat) : Bool := 0xF000000000000 ≤ pa && pa < 0x10000000000000

/-- The move that runs on a device frame, if any (R101). -/
def moveOf (s : State) (st frame : Nat) : Option Move := (s.stack st).moves.find? fun m => m.frame == frame

/-- The DRAM address of a local address of a stack (R61, R99): while its frame moves, lines already copied are in the new frame
(R102). -/
def dramOf (s : State) (st off : Nat) : Nat :=
  let frame := off / 65536
  let line := off % 65536 / 64
  let d := match moveOf s st frame with
    | some m => if line < m.line then m.new else m.old
    | none => tget (s.stack st).it frame frame
  d * 65536 + off % 65536

/-- The memory key of a populated device-physical address. -/
def keyOf (s : State) (pa : Nat) : Option Nat :=
  (hbmOf s pa).map fun (st, off) => st * 2 ^ 36 + dramOf s st off

/-- One byte of device memory. A hole reads as zero: every caller checks first. -/
def physByte (s : State) (pa : Nat) : Byte :=
  match keyOf s pa with
  | some k => cellGet s.mem k
  | none => 0

/-- `n` bytes of device memory from an address up. -/
def physRead (s : State) (pa : Nat) : Nat → List Byte
  | 0 => []
  | n + 1 => physByte s pa :: physRead s (pa + 1) n

/-- A little-endian word of device memory. -/
def physWord (s : State) (pa : Nat) : Nat := leNat (physRead s pa 8)

/-- Write one byte of device memory. -/
def physPut (s : State) (pa : Nat) (b : Byte) : State :=
  match keyOf s pa with
  | some k => { s with mem := cellPut s.mem k b }
  | none => s

/-- Write bytes of device memory from an address up. -/
def physWrite (s : State) (pa : Nat) : List Byte → State
  | [] => s
  | b :: t => physWrite (physPut s pa b) (pa + 1) t

/-- The DRAM granule of a device-physical address, by stack and granule number (R61). -/
def granuleOf (s : State) (pa : Nat) : Option (Nat × Nat) :=
  (hbmOf s pa).map fun (st, off) => (st, dramOf s st off / 32)

/-- Is the granule of an address poisoned (R66)? -/
def poisonedAt (s : State) (pa : Nat) : Bool :=
  match granuleOf s pa with
  | some (st, g) => (s.stack st).poison.contains g
  | none => false

def setPoison (s : State) (pa : Nat) (on : Bool) : State :=
  match granuleOf s pa with
  | some (st, g) => s.modStack st fun k =>
      { k with
        poison := if on then g :: k.poison.filter (· != g) else k.poison.filter (· != g)
        flips := k.flips.filter (· != g) }
  | none => s

/-- A granule that a slice writes whole is not poisoned at home (R66). -/
def clearPoison (s : State) (pa : Nat) : State :=
  match granuleOf s pa with
  | some (st, g) => s.modStack st fun k => { k with poison := k.poison.filter (· != g) }
  | none => s

/-- The first address of a poisoned granule among `n` bytes from `pa`, as the first byte that is touched (R411). -/
def firstPoison (s : State) (pa : Nat) : Nat → Option Nat
  | 0 => none
  | n + 1 => if poisonedAt s pa then some pa else firstPoison s (pa + 1) n

/-! ### Home slices (R50) -/

/-- The home slice of a line. -/
def homeOf (pa : Nat) : Nat :=
  (pa / 2 ^ 6 % 128) ^^^ (pa / 2 ^ 13 % 128) ^^^ (pa / 2 ^ 20 % 128) ^^^ (pa / 2 ^ 27 % 128) ^^^ (pa / 2 ^ 34 % 128)
    ^^^ (pa / 2 ^ 41 % 128) ^^^ (pa / 2 ^ 48 % 16)

/-- The first byte of an address's 64-byte line. -/
def lineOf (a : Nat) : Nat := a - a % 64

end Sys2Proof.Machine
end

