-- ==== Sys2Proof/Machine/Home.lean ====
section
/-!
DEFINITION. What the home slices do (R46, R48, R52 to R56, R66, R130, R148 to R153, R276): every write performed at home goes through
`homeWrite`, which drops replicas, writes the bytes, clears poison, moves the line's position in the commit order and wakes the
line's waiters.
-/
namespace Sys2Proof.Machine

/-! ### Events (R401) -/

/-- Post an event in a context's slot for its code; a full slot takes MORE. -/
def postEvent (s : State) (core cx code : Nat) (faddr : Word) : State :=
  s.modCtxAt core cx fun c =>
    let more (e : PendingEvent) : PendingEvent := if e.code == code then { e with more := true } else e
    if c.events.any fun e => e.code == code then { c with events := c.events.map more }
    else { c with events := c.events ++ [⟨code, false, faddr⟩] }

/-- Post an event to context 0 of the root core. -/
def postRoot (s : State) (code : Nat) (faddr : Word) : State := postEvent s (rootCore s) 0 code faddr

/-! ### Reading DRAM (R66, R67, R103) -/

/-- Queue a retirement request and raise RETIREREQ when the queue was empty; the 17th is lost (R103, R439). -/
def askRetire (s : State) (st : Nat) (ue : Bool) (frame : Nat) : State :=
  let k := s.stack st
  if k.retreq.length ≥ 16 then s
  else
    let s := if k.retreq.isEmpty then postRoot s 0x65 0 else s
    s.modStack st fun k => { k with retreq := k.retreq ++ [(ue, frame)] }

/-- Reading a granule: its status, and what the controller notes (R67, R103). -/
def readGranule (s : State) (st g : Nat) : Nat × State :=
  let k := s.stack st
  let frame := g / 2048
  if k.poison.contains g then (2, askRetire s st true frame)
  else if k.flips.contains g then
    let n := tget k.corrected frame 0 + 1
    let s := s.modStack st fun k => { k with flips := k.flips.filter (· != g), corrected := tset k.corrected frame n }
    (1, if n == 16 then askRetire s st false frame else s)
  else (0, s)

/-- Writing a whole granule gives it fresh ECC (R66). -/
def freshGranule (s : State) (st g : Nat) : State :=
  s.modStack st fun k => { k with poison := k.poison.filter (· != g), flips := k.flips.filter (· != g) }

/-- The bank key of a DRAM address (R61). -/
def bankOf (dram : Nat) : Nat := dram / 64 % 64 * 64 + dram / 4096 % 64

/-- A request of a slice makes a bank busy (R69). -/
def useBank (s : State) (slice st dram : Nat) : State :=
  s.modSlice slice fun k => { k with banks := (st, bankOf dram) :: k.banks.filter (· != (st, bankOf dram)) }

/-- The same for the bank of a line. -/
def useBankOf (s : State) (line : Nat) : State :=
  match hbmOf s line with
  | some (st, off) => useBank s (homeOf line) st (dramOf s st off)
  | none => s

/-- Is a bank of a stack busy (R69)? -/
def bankBusy (s : State) (st key : Nat) : Bool := s.slices.any fun p => p.2.banks.contains (st, key)

/-- A controller reads the granule of an address for a home slice: the read counts (R67, R103). -/
def readGranuleAt (s : State) (pa : Nat) : State :=
  match granuleOf s pa with
  | some (st, g) => (readGranule s st g).2
  | none => s

/-- A controller reads a line for its home slice: both granules count (R67, R103). -/
def readLine (s : State) (line : Nat) : State :=
  (upTo 2).foldl (fun s i => readGranuleAt s (line + 32 * i)) (useBankOf s line)

/-- A write of masked bytes to one granule (R66): status 010 where the read of the read-modify-write fails. Where that read corrects an error
R66 and R67 give the acknowledgement no status, and the model answers 000 (log entry 86). -/
def writeGranule (s : State) (st pa : Nat) (wr : List (Nat × Byte)) : Nat × State :=
  let g := (granuleOf s pa).getD (st, 0)
  if wr.isEmpty then (0, s)
  else
    let (status, s) := if wr.length ≥ 32 then (0, freshGranule s st g.2) else readGranule s st g.2
    (if status == 2 then 2 else 0, wr.foldl (fun s p => physPut s p.1 p.2) s)

/-! ### Run lists (R378) -/

/-- Is an entry of a core in the spill ring? -/
def spilledFor (s : State) (core : Nat) : Bool := s.launch.spill.any fun p => p.core == core

/-- Is the entry a migration entry (R386)? -/
def Entry.migration (e : Entry) : Bool :=
  match e.kind with
  | .resume _ m => m
  | _ => false

/-- Put a spilled entry into the ring: a migration entry ahead of the core's other spilled entries (R378). -/
def spillPut (l : List Placement) (p : Placement) : List Placement :=
  if p.entry.migration then
    l.takeWhile (fun q => q.core != p.core || q.entry.migration) ++ p ::
      l.dropWhile (fun q => q.core != p.core || q.entry.migration)
  else l ++ [p]

/-- Place an entry on a core's list, or in the spill ring; none while the ring is full (R378). -/
def tryPlace (s : State) (p : Placement) : Option State :=
  if (s.core p.core).runList.length < 32 && !spilledFor s p.core then
    some (s.modCore p.core fun k => { k with runList := k.runList ++ [p.entry] })
  else if s.launch.spill.length < 4096 then some (s.modLaunch fun l => { l with spill := spillPut l.spill p })
  else none

/-- Place an entry for `core` from a port of the core `frm`: it waits there while the spill ring is full, and so do the later
placements of the same placing agent (R378). -/
def placeEntry (s : State) (frm : Nat) (p : Placement) : State :=
  let wait : State := s.modCore frm fun k => { k with waitingPlace := k.waitingPlace ++ [p] }
  if (s.core frm).waitingPlace.any fun q => q.by_ == p.by_ then wait
  else (tryPlace s p).getD wait

/-! ### Waking (R276, R385, R463) -/

/-- End a registered wait of a kind. A context that waits, or that keeps the registration over an event's handler, is marked; an
evicted task gets a resume entry on its own core (R385): a WAITA that is resumed returns reason 4 (R276). -/
def fireWho (s : State) (w : Who) (kind : WaitKind → Bool) (f : Fired) : State :=
  let mark (o : Option Wait) : Option Wait := o.map fun h => if kind h.kind then { h with fired := some f } else h
  match w.slot with
  | none => s.modCtxAt w.core w.cx fun c => { c with wait := mark c.wait, heldWait := mark c.heldWait }
  | some (asid, slot) =>
    match (s.job asid).used.lookup slot with
    | none => s
    | some v =>
      let how (h : Wait) : Fired := match h.kind, f with
        | .addr _, .value _ => .value 4
        | _, f => f
      let s := s.modJob asid fun j =>
        { j with used := tset j.used slot { v with wait := v.wait.map fun h => { h with fired := some (how h) } } }
      placeEntry s w.core ⟨w.core, ⟨asid, w.cx == 1, .resume slot false⟩, .wake⟩

/-- A WAITA on a line. -/
def WaitKind.onLine (line : Nat) : WaitKind → Bool
  | .addr pa => pa - pa % 64 == line
  | _ => false

/-- Wake every waiter of a line with reason 1, in order of entry (R276). -/
def wakeLine (s : State) (line : Nat) : State :=
  let h := homeOf line
  let (hit, rest) := (s.slice h).waits.partition fun e => e.line == line
  if hit.isEmpty then s
  else hit.foldl (fun s e => fireWho s e.who (WaitKind.onLine line) (.value 1)) (s.modSlice h fun k => { k with waits := rest })

/-! ### Replicas (R54 to R56) -/

/-- The 64 slices of the die that is not the line's home's. -/
def otherDie (home : Nat) : List Nat := (upTo 64).map fun i => if home < 64 then 64 + i else i

/-- Home drops every replica of a line before it writes or evicts it (R56). -/
def dropReplicas (s : State) (line : Nat) : State :=
  let h := homeOf line
  if (s.slice h).tags.any fun t => t.line == line && t.repl then
    let s := (otherDie h).foldl (fun s n =>
      if (s.slice n).tags.any fun t => t.line == line && t.rcopy then
        s.modSlice n fun k => { k with tags := k.tags.filter fun t => !(t.line == line && t.rcopy) }
      else s) s
    s.modSlice h fun k => { k with tags := k.tags.map fun t => if t.line == line then { t with repl := false } else t }
  else s

/-! ### The ways of a slice (R52, R278) -/

/-- The set of a line in a slice (R52). -/
def l2Set (line : Nat) : Nat := line / 64 % 2048

/-- The tags that share a line's set in a slice. -/
def l2Ways (k : Slice) (line : Nat) : List L2Tag := k.tags.filter fun t => l2Set t.line == l2Set line

/-- Does a way hold a line with waiters (R278)? -/
def Slice.waited (k : Slice) (t : L2Tag) : Bool := !t.rcopy && k.waits.any fun w => w.line == t.line

/-- A slice drops a home line: its waiters are displaced (R278). -/
def dropHome (s : State) (slice : Nat) (t : L2Tag) : State :=
  let ws := (s.slice slice).waits.filter fun w => w.line == t.line
  let s := s.modSlice slice fun k => { k with
    tags := k.tags.erase t
    waits := k.waits.filter fun w => w.line != t.line }
  ws.foldl (fun s w => fireWho s w.who (WaitKind.onLine t.line) (.value 3)) s

/-- A granule of a line leaves its slice (R52). A dirty line is written whole: fresh ECC, but a granule that the slice holds poisoned stays so
(R66). What was poisoned below a clean line shows again. -/
def settleGranule (s : State) (slice : Nat) (dirty : Bool) (pa : Nat) : State :=
  let hidden := (s.slice slice).under.contains (pa / 32)
  let s := if hidden then s.modSlice slice fun k => { k with under := k.under.filter (· != pa / 32) } else s
  if dirty then
    match granuleOf s pa with
    | some (st, g) => if (s.stack st).flips.contains g then s.modStack st fun k => { k with flips := k.flips.filter (· != g) } else s
    | none => s
  else if hidden then setPoison s pa true else s

/-- A home line leaves its slice: its bytes are the memory's own (log entry 7). -/
def settleWay (s : State) (slice : Nat) (t : L2Tag) : State :=
  (upTo 2).foldl (fun s i => settleGranule s slice t.dirty (t.line + 32 * i)) (if t.dirty then useBankOf s t.line else s)

/-- A slice evicts a way: a home line first loses its replicas (R56), and a dirty one is written to DRAM (R52). -/
def dropWay (s : State) (slice : Nat) (t : L2Tag) : State :=
  if t.rcopy then s.modSlice slice fun k => { k with tags := k.tags.erase t }
  else dropHome (settleWay (dropReplicas s t.line) slice t) slice { t with repl := false }

/-- Allocate a line in its set of sixteen ways (R52): a line with waiters is a victim only where every way holds one (R278). -/
def l2Alloc (s : State) (slice : Nat) (t : L2Tag) : State :=
  let k := s.slice slice
  let ways := l2Ways k t.line
  let s := if ways.length < 16 then s
    else
      let open_ := ways.filter fun w => !(k.waited w)
      match anyOf s (if open_.isEmpty then ways else open_) with
      | (some v, s) => dropWay s slice v
      | (none, s) => s
  s.modSlice slice fun k => { k with tags := t :: k.tags }

/-! ### Relock holds (R59, R432) -/

/-- The clock of a die. -/
def clockOf (s : State) (die : Nat) : Nat := if die == 0 then s.dev.c0clk else s.dev.c1clk

/-- The steps of a die that relock holds still have to end. -/
def holdsOf (s : State) (die : Nat) : List Nat := if die == 0 then s.dev.relock0 else s.dev.relock1

/-- Does a relock hold the core port of a core, or its die's ends of the bridges (R59)? -/
def portHeld (s : State) (core : Nat) : Bool := !(holdsOf s (dieOf core)).isEmpty

/-- Does a relock hold what crosses from one die to the other (R59)? -/
def bridgeHeld (s : State) (a b : Nat) : Bool := dieOf a != dieOf b && (!s.dev.relock0.isEmpty || !s.dev.relock1.isEmpty)

/-- Does a relock hold what a core exchanges with the home slice of an address (R59)? -/
def flitHeld (s : State) (core pa : Nat) : Bool := portHeld s core || bridgeHeld s core (homeOf (lineOf pa))

/-! ### Positions (R148, R152, R461) -/

/-- Set a pending abort of a context's open region; a region that commits can no longer abort (R153, R154). -/
def abortRegion (s : State) (core cx cause : Nat) : State :=
  s.modCtxAt core cx fun c =>
    if bitOf c.erstat 8 && c.commit.isNone && c.abort.isNone then { c with abort := some (cause, 0, 0) } else c

def wmax (a b : Word) : Word := if a.toNat ≤ b.toNat then b else a
def wmin (a b : Word) : Word := if a.toNat ≤ b.toNat then a else b

/-- The side-array set of a line (R148). -/
def sideSet (line : Nat) : Nat := line / 2 ^ 13 % 128

/-- The position of a line: its entry's wts and rts, or the floor twice. -/
def positionOf (s : State) (line : Nat) : Word × Word :=
  let k := s.slice (homeOf line)
  match k.side.find? fun e => e.line == line with
  | some e => (e.wts, e.rts)
  | none => (k.floor, k.floor)

/-- Give a line an entry if it has none (R461): none when every way of its set holds an occupied slot. An entry that is replaced
raises the floor (R148), after the new entry took its position from it (log entry 82). -/
def makeEntry (s : State) (line : Nat) : Option State :=
  let h := homeOf line
  let k := s.slice h
  if k.side.any fun e => e.line == line then some s
  else
    let fresh : SideEntry := ⟨line, k.floor, k.floor, []⟩
    let ways := k.side.filter fun e => sideSet e.line == sideSet line
    if ways.length < 16 then some (s.modSlice h fun k => { k with side := k.side ++ [fresh] })
    else match anyOf s (ways.filter fun e => e.slots.isEmpty) with
      | (none, _) => none
      | (some v, s) => some (s.modSlice h fun k =>
          { k with side := k.side.filter (fun e => e.line != v.line) ++ [fresh], floor := wmax k.floor (wmax v.wts v.rts) })

def modEntry (s : State) (line : Nat) (f : SideEntry → SideEntry) : State :=
  s.modSlice (homeOf line) fun k => { k with side := k.side.map fun e => if e.line == line then f e else e }

/-- A slice sends a narrowing to a registrant (R150); a bound of none makes its interval empty. -/
def sendNarrow (s : State) (slice core cx : Nat) (upper : Bool) (bound : Option Word) : State :=
  s.modDev fun d => { d with narrows := d.narrows ++ [⟨core, cx, slice, upper, bound⟩] }

/-- The interval of a party at a line. -/
structure Interval where
  lo : Word
  hi : Word
deriving DecidableEq, Repr

/-- The position after another: none after the last (log entry 76). -/
def posAfter (p : Word) : Option Word := if p = BitVec.allOnes 64 then none else some (p + 1)

/-- An interval with a new lower bound; none makes it empty: [its lower bound or 1, 0] (log entry 76). -/
def Interval.above (i : Interval) : Option Word → Interval
  | some b => { i with lo := wmax i.lo b }
  | none => ⟨wmax i.lo 1, 0⟩

/-- A slot with a new lower bound. -/
def SideSlot.above (w : SideSlot) (b : Option Word) : SideSlot :=
  let i := Interval.above ⟨w.lo, w.hi⟩ b
  { w with lo := i.lo, hi := i.hi }

/-- What a registrant meets when a line is written at position p: strict ones abort, readers stay below p, writers go above it
(R152, R153); one that has read the line and then written it meets both (log entry 98). Answers the slot as the slice knows it afterwards. -/
def meetWrite (s : State) (slice : Nat) (p : Word) (w : SideSlot) : State × SideSlot :=
  if w.strict then (abortRegion s w.core w.cx 2, w)
  else
    let (s, w) := if w.writer then (sendNarrow s slice w.core w.cx false (posAfter p), w.above (posAfter p)) else (s, w)
    if w.reader then (sendNarrow s slice w.core w.cx true (some (p - 1)), { w with hi := wmin w.hi (p - 1) }) else (s, w)

def meetWrites (s : State) (slice : Nat) (p : Word) : List SideSlot → State × List SideSlot
  | [] => (s, [])
  | w :: t =>
    let (s, w) := meetWrite s slice p w
    let (s, t) := meetWrites s slice p t
    (s, w :: t)

/-- A write performed at home by anything but a region commit (R152). At the last position a line stays there (R461, log entry 76). -/
def outsideWrite (s : State) (line : Nat) : State :=
  let (wts, rts) := positionOf s line
  let p := (posAfter (wmax wts rts)).getD (BitVec.allOnes 64)
  match makeEntry s line with
  | none => s.modSlice (homeOf line) fun k => { k with floor := wmax k.floor p }
  | some s =>
    let slots := match (s.slice (homeOf line)).side.find? fun e => e.line == line with
      | some e => e.slots
      | none => []
    let (s, slots) := meetWrites s (homeOf line) p slots
    modEntry s line fun e => { e with wts := p, rts := p, slots := slots }

/-! ### Writes at home -/

/-- Does a write give every byte of a granule? -/
def coversGranule (wr : List (Nat × Byte)) (g : Nat) : Bool := (upTo 32).all fun i => wr.any fun p => p.1 == 32 * g + i

/-- The granules that a write touches. -/
def granulesOf (wr : List (Nat × Byte)) : List Nat := (wr.map fun p => p.1 / 32).eraseDups

/-- Does its home slice hold a line? -/
def homeHolds (s : State) (line : Nat) : Bool := (s.slice (homeOf line)).tags.any fun t => t.line == line && !t.rcopy

/-- Write bytes of one line: a granule that is written whole loses its poison, and in DRAM it gets fresh ECC (R66). -/
def putBytes (s : State) (wr : List (Nat × Byte)) : State :=
  let s := wr.foldl (fun s p => physPut s p.1 p.2) s
  (granulesOf wr).foldl (fun s g =>
    if coversGranule wr g then (if homeHolds s (lineOf (32 * g)) then clearPoison s (32 * g) else setPoison s (32 * g) false) else s) s

/-- The home slice notes a write to a line (R52): a hit is dirty, a whole line is allocated, and anything else goes to the controller, which
reads the granules that it does not write whole (R66). -/
def noteWrite (s : State) (line : Nat) (wr : List (Nat × Byte)) : State :=
  let h := homeOf line
  if homeHolds s line then
    s.modSlice h fun k => { k with tags := k.tags.map fun t =>
      if t.line == line && !t.rcopy then { t with dirty := true } else t }
  else if wr.length ≥ 64 then l2Alloc s h ⟨line, true, false, false⟩
  else (granulesOf wr).foldl (fun s g => if coversGranule wr g then s else readGranuleAt s (32 * g)) (useBankOf s line)

/-- Bytes of one line written at home by a region's commit: no region is met here (R153). -/
def homeCommit (s : State) (line : Nat) (wr : List (Nat × Byte)) : State :=
  if wr.isEmpty then s
  else wakeLine (putBytes (noteWrite (dropReplicas s line) line wr) wr) line

/-- Bytes of one line written at home by anything else (R152, R276). -/
def homeWrite (s : State) (line : Nat) (wr : List (Nat × Byte)) : State :=
  if wr.isEmpty then s else homeCommit (outsideWrite s line) line wr

/-- Bytes at consecutive addresses as pairs. -/
def pairsFrom (pa : Nat) : List Byte → List (Nat × Byte)
  | [] => []
  | b :: t => (pa, b) :: pairsFrom (pa + 1) t

/-- Group pairs by line, keeping their order. -/
def byLine : List (Nat × Byte) → List (Nat × List (Nat × Byte))
  | [] => []
  | p :: t => match byLine t with
    | (l, ps) :: r => if l = lineOf p.1 then (l, p :: ps) :: r else (lineOf p.1, [p]) :: (l, ps) :: r
    | [] => [(lineOf p.1, [p])]

/-- Bytes at consecutive addresses written at home, line by line in ascending order. -/
def homeStore (s : State) (pa : Nat) (bs : List Byte) : State :=
  (byLine (pairsFrom pa bs)).foldl (fun s l => homeWrite s l.1 l.2) s

/-- The home slice holds a line: on a miss it reads the line from its controller and allocates it (R52, R67). -/
def fetchHome (s : State) (line : Nat) : State :=
  if homeHolds s line then s else l2Alloc (readLine s line) (homeOf line) ⟨line, false, false, false⟩

/-- A read served at home. -/
def homeRead (s : State) (pa n : Nat) : List Byte × State := (physRead s pa n, fetchHome s (lineOf pa))

/-- A read for an L1 fill, a TLD or an instruction fetch of a core: its own slice serves it where it holds a replica (R55). -/
def fillRead (s : State) (core pa n : Nat) : List Byte × State :=
  let line := lineOf pa
  if dieOf (homeOf line) != dieOf core && (s.slice core).tags.any (fun t => t.line == line && t.rcopy) then (physRead s pa n, s)
  else homeRead s pa n

/-! ### Exact cells (R182 to R184) -/

/-- An exact cell's fields. -/
structure Exact where
  value : Nat
  count : Nat
  flags : Nat
deriving DecidableEq, Repr

def exactAt (s : State) (pa : Nat) : Exact :=
  ⟨leNat (physRead s pa 40), leNat (physRead s (pa + 40) 8), leNat (physRead s (pa + 48) 8) % 16⟩

def exactBytes (c : Exact) : List Byte :=
  leBytes 40 c.value ++ leBytes 8 c.count ++ leBytes 8 c.flags ++ leBytes 8 0

/-- Set flag bits of a cell. -/
def orFlag (flags bit : Nat) : Nat := flags ||| bit

/-- Add a contribution (R183). -/
def exactAdd (c : Exact) (x : Val) : Exact :=
  let c := match x with
    | .nan _ => { c with flags := orFlag c.flags 1 }
    | .inf false => { c with flags := orFlag c.flags 2 }
    | .inf true => { c with flags := orFlag c.flags 4 }
    | v => { c with value := unsignedOf 320 ((c.value : Int) + v.scaled (-149)) }
  let n := min (c.count + 1) (2 ^ 64 - 1)
  { c with count := n, flags := if n > 2 ^ 40 then orFlag c.flags 8 else c.flags }

/-- The value of a cell before rounding, and its flags (R184). -/
def exactValue (c : Exact) : Val × Flags :=
  let nan := c.flags % 2 == 1
  let pinf := c.flags / 2 % 2 == 1
  let ninf := c.flags / 4 % 2 == 1
  let wide := c.flags / 8 % 2 == 1
  if nan then (.nan false, 0)
  else if wide then (.nan false, Flags.iv)
  else if pinf && ninf then (.nan false, Flags.iv)
  else if pinf then (.inf false, 0)
  else if ninf then (.inf true, 0)
  else
    let x := signedOf 320 c.value
    (.mk (x < 0) x.natAbs (-149), 0)

/-! ### Operations at home (R130, R270, R271) -/

/-- An atomic at home: the old value. The slice holds the line (R52, R67). -/
def homeAtomic (s : State) (op : AtomicOp) (w32 : Bool) (pa : Nat) (b c : Word) : Nat × State :=
  let w := widthOf w32
  let o := leNat (physRead s pa (w / 8))
  let s := fetchHome s (lineOf pa)
  match op.eval w o (b.toNat % 2 ^ w) (c.toNat % 2 ^ w) with
  | none => (o, s)
  | some m => (o, homeWrite s (lineOf pa) (pairsFrom pa (leBytes (w / 8) m)))

/-- One operation of a non-returning instruction performed at its home slice (R132). -/
def performHomeOp (s : State) (op : HomeOp) : State :=
  match op with
  | .atomic op w32 pa b => (homeAtomic s op w32 pa b 0).2
  | .exactAdd fmt ext pa v =>
    homeWrite (fetchHome s (lineOf pa)) (lineOf pa) (pairsFrom pa (exactBytes (exactAdd (exactAt s pa) (fmt.value ext v))))
  | .exactClear pa => homeWrite s (lineOf pa) (pairsFrom pa (List.replicate 64 0))

def HomeOp.line : HomeOp → Nat
  | .atomic _ _ pa _ | .exactAdd _ _ pa _ | .exactClear pa => lineOf pa

/-- Perform every pending operation of a core on a line, in order: a later operation of the core on that line comes after them
(R131). -/
def drainLine (s : State) (core line : Nat) : State :=
  let ops := ((s.core core).nonRet.map fun n => n.ops.filter fun o => o.line == line).flatten
  if ops.isEmpty then s
  else
    let s := s.modCore core fun k => { k with nonRet := k.nonRet.map fun n =>
      { n with ops := n.ops.filter fun o => o.line != line } }
    ops.foldl performHomeOp s

/-- Perform every pending operation of a core at home. -/
def drainAll (s : State) (core : Nat) : State :=
  (((s.core core).nonRet.map fun n => n.ops.map HomeOp.line).flatten.eraseDups).foldl (fun s line => drainLine s core line) s

end Sys2Proof.Machine
end

