-- ==== Sys2Proof/Machine/Translate.lean ====
section
/-!
DEFINITION. How an instruction can end (`Exc`), and translation: page tables, the walk, permissions, the cluster TLB and the
walkers' table pointers, missing pages (R13, R16, R73 to R80, R96, R97).
-/
namespace Sys2Proof.Machine

/-! ### How the body of an instruction can end -/

/-- A fault with what the fault registers record (R397, R398). -/
structure FaultInfo where
  code : Nat
  faddr : Word
  inner : Nat
  refault : Bool
  prifail : Bool
  frow : Word
deriving DecidableEq, Repr

/-- What stops an instruction short of its effect. -/
inductive Exc
  | fault (f : FaultInfo)
  | wait (k : WaitKind)
  | abort (cause code : Nat)
deriving DecidableEq, Repr

/-- The meaning of an instruction's body: a computation on the state that may stop. The state at a stop is kept. -/
abbrev M (α : Type) := EStateM Exc State α

/-- A fault with its code and FADDR. -/
def mkFault (code : Nat) (faddr : Word) : FaultInfo := ⟨code, faddr, 0, false, false, 0⟩

def raise {α : Type} (code : Nat) (faddr : Word) : M α := throw (.fault (mkFault code faddr))

/-- Raise a fault where a condition holds. -/
def raiseIf (b : Bool) (code : Nat) (faddr : Word) : M Unit := if b then raise code faddr else pure ()

/-- Wait and execute again (R263, R384). -/
def waitFor {α : Type} (k : WaitKind) : M α := throw (.wait k)

/-- Is a region open in the context (R147)? -/
def Ctx.regionOpen (c : Ctx) : Bool := bitOf c.erstat 8

/-- An operation that aborts an open region before it has any effect (R155). -/
def forbidInRegion : M Unit := do
  let s ← get
  if s.ctx.regionOpen then throw (.abort 4 0) else pure ()

/-! ### Entries (R74, R75) -/

/-- What an access needs of its page (R76). -/
inductive Access
  | read | write | both | fetch
deriving DecidableEq, Repr

/-- VA bits indexed at a level: lowest bit and width (R73). -/
def levelBits : Nat → Nat × Nat
  | 0 => (42, 15)
  | 1 => (29, 13)
  | 2 => (21, 8)
  | _ => (12, 9)

/-- log2 of the page that a leaf at a level maps (R73). -/
def leafSize (level : Nat) (sz : Bool) : Nat :=
  match level with
  | 1 => 29
  | 2 => if sz then 25 else 21
  | _ => if sz then 16 else 12

/-- The fields of a leaf that R75 finds malformed at a level. -/
def leafBad (level : Nat) (e : Word) : Bool :=
  let sz := bitOf e 2
  fieldOf e 58 2 != 0 || fieldOf e 3 2 == 3 || fieldOf e 54 2 == 3 || level == 0 || (level == 1 && sz) ||
  (fieldOf e 56 2 != 0 && fieldOf e 54 2 != 2) || (bitOf e 10 && bitOf e 9) || (fieldOf e 3 2 == 2 && bitOf e 5) ||
  fieldOf e 12 40 * 4096 % 2 ^ leafSize level sz != 0

/-- A table pointer that R75 finds malformed at a level. -/
def pointerBad (level : Nat) (e : Word) : Bool :=
  level == 3 || fieldOf e 52 8 != 0 || fieldOf e 2 10 != 0 || (level == 0 && fieldOf e 12 4 != 0)

/-- Bits in which the entries of one group may differ: SW, D, A (R75). -/
def groupMask : Word := maskOf 60 4 ||| maskOf 52 1 ||| maskOf 11 1

/-- Do the 16 entries of a group agree? -/
def groupAgrees (s : State) (base : Nat) (e : Word) : Bool :=
  (upTo 16).all fun i => (wordOf (physWord s (base + 8 * i)) ||| groupMask) == (e ||| groupMask)

/-- What a walk found: a leaf's word, its level, the entry (or its group's first), the page base and log2 size. -/
structure Leaf where
  word : Word
  entryPa : Nat
  va : Nat
  size : Nat
deriving DecidableEq, Repr

/-- How a walk or an access failed. -/
inductive XlatErr
  | fault (code : Nat)
  | missing (prq : Bool)
  | perm (a : Attr)      -- the leaf that refuses the access (R76)
deriving DecidableEq, Repr

/-- The walk from a level down (R77). The list holds the levels still to read; `ptrs` collects the pointers that the walker reads. -/
def walkFrom (s : State) (walker asid va table : Nat) (ptrs : List WalkPtr) : List Nat → Except XlatErr Leaf × List WalkPtr
  | [] => (.error (.fault 0x13), ptrs)
  | level :: rest =>
    let (lo, n) := levelBits level
    let ea := table + va / 2 ^ lo % 2 ^ n * 8
    if (hbmOf s ea).isNone then (.error (.fault 0x1B), ptrs)
    else if poisonedAt s ea then (.error (.fault 0x1A), ptrs)
    else
      let e := wordOf (physWord s ea)
      if !bitOf e 0 then (.error (.missing (bitOf e 1)), ptrs)
      else if bitOf e 1 then
        if leafBad level e then (.error (.fault 0x13), ptrs)
        else
          let sz := bitOf e 2
          let size := leafSize level sz
          let first := if sz then ea - ea % 128 else ea
          if sz && !groupAgrees s first e then (.error (.fault 0x13), ptrs)
          else (.ok ⟨if sz then wordOf (physWord s first) else e, first, va - va % 2 ^ size, size⟩, ptrs)
      else if pointerBad level e then (.error (.fault 0x13), ptrs)
      else
        let next := fieldOf e 12 40 * 4096
        walkFrom s walker asid va next (⟨walker, asid, level + 1, va / 2 ^ lo, next⟩ :: ptrs) rest

/-- The lines that a walk from a level down reads at their home slices. -/
def walkLines (s : State) (va table : Nat) : List Nat → List Nat
  | [] => []
  | level :: rest =>
    let (lo, n) := levelBits level
    let ea := table + va / 2 ^ lo % 2 ^ n * 8
    if (hbmOf s ea).isNone then []
    else
      let e := wordOf (physWord s ea)
      lineOf ea :: (
        if poisonedAt s ea || !bitOf e 0 then []
        else if bitOf e 1 then (if leafBad level e || !bitOf e 2 then [] else [ea - ea % 128, ea - ea % 128 + 64])
        else if pointerBad level e then [] else walkLines s va (fieldOf e 12 40 * 4096) rest)

/-- The deepest pointer kept by a walker that serves a walk (R79): the levels left and the table to read. -/
def startOf (k : Sorus) (walker asid va root : Nat) : List Nat × Nat :=
  let hit (level lo : Nat) := k.ptrs.find? fun p => p.walker == walker && p.asid == asid && p.level == level && p.va == va / 2 ^ lo
  match hit 3 21 with
  | some p => ([3], p.table)
  | none => match hit 2 29 with
    | some p => ([2, 3], p.table)
    | none => match hit 1 42 with
      | some p => ([1, 2, 3], p.table)
      | none => ([0, 1, 2, 3], root)

/-! ### Permissions and translation (R16, R76, R78, R80) -/

/-- Does a leaf allow an access in a mode (R76)? -/
def leafAllows (e : Word) (acc : Access) (m : Mode) : Bool :=
  (match acc with
    | .read => bitOf e 6
    | .write => bitOf e 7
    | .both => bitOf e 6 && bitOf e 7
    | .fetch => bitOf e 8 && fieldOf e 54 2 == 0 && (m == .user || !bitOf e 9)) &&
  (m != .user || bitOf e 9)

/-- The attributes of an address under a leaf. -/
def attrOf (e : Word) (va size : Nat) : Attr where
  pa := fieldOf e 12 40 * 4096 + va % 2 ^ size
  kind := fieldOf e 3 2
  c := bitOf e 5
  fwd := fieldOf e 54 2
  owner := fieldOf e 56 2
  r := bitOf e 6
  w := bitOf e 7
  u := bitOf e 9
  size := size
  glob := bitOf e 10

/-- A device-owned page that maps a hole, or device control space in a wrong way (R16). -/
def mapsHole (s : State) (a : Attr) : Bool :=
  a.fwd == 0 && (if isControl a.pa then a.kind != 2 || a.c else (hbmOf s a.pa).isNone)

/-- Set A in a leaf, or in the first entry of its group, at home (R80). -/
def setA (s : State) (entryPa : Nat) : State :=
  let e := wordOf (physWord s entryPa)
  if bitOf e 11 then s
  else homeWrite s (lineOf entryPa) [(entryPa + 1, BitVec.ofNat 8 (fieldOf (e ||| maskOf 11 1) 8 8))]

/-- Is the address canonical (R13)? -/
def canonical (va : Nat) : Bool := va / 2 ^ 56 % 256 == 0 || va / 2 ^ 56 % 256 == 255

/-- The job half (R14). -/
def jobHalf (va : Nat) : Bool := va / 2 ^ 56 == 0

/-- A walker keeps the pointers it has read, 64 at most (R79): any of the others makes room. -/
def keepPtrs (s : State) (sor walker : Nat) : List WalkPtr → State
  | [] => s
  | p :: t =>
    let k := s.sorus sor
    let mine := k.ptrs.filter fun q => q.walker == walker
    let (v, s) := anyOf s (if mine.length < 64 then [] else mine)
    let left := match v with
      | some q => k.ptrs.erase q
      | none => k.ptrs
    keepPtrs (s.modSorus sor fun k => { k with ptrs := p :: left }) sor walker t

/-- The contexts of a sorus that wait for a page request inside a page whose walk has returned complete from it (R79). -/
def completeMisses (s : State) (sor : Nat) (e : TlbEntry) : State :=
  if s.dev.pageReqs.isEmpty then s
  else
    let inside (q : PageReq) (w : Nat × Nat) : Bool :=
      w.2 < 2 && sorusOf w.1 == sor && (q.asid == e.asid || bitOf e.leaf 10) && q.va / 2 ^ e.size == e.va / 2 ^ e.size
    let hit := (s.dev.pageReqs.map fun q => (q.who.filter (inside q)).map fun w => (w, q.va)).flatten
    let s := hit.foldl (fun s p => fireWho s ⟨p.1.1, p.1.2, none⟩ (· == .pageReq p.2) .again) s
    s.modDev fun d => { d with pageReqs := d.pageReqs.map fun q => { q with who := q.who.filter fun w => !(inside q w) } }

/-- The set of a page in the cluster TLB: 512 sets of 16 ways (R78); which bits index it is the model's choice (log entry 7). -/
def tlbSet (e : TlbEntry) : Nat := e.va / 2 ^ e.size % 512

/-- A leaf enters its set of the cluster TLB (R78): any of its 16 ways makes room (log entry 80). -/
def keepEntry (s : State) (sor : Nat) (e : TlbEntry) : State :=
  let ways := (s.sorus sor).tlb.filter fun x => tlbSet x == tlbSet e
  let (v, s) := anyOf s (if ways.length < 16 then [] else ways)
  completeMisses (s.modSorus sor fun k => { k with tlb := e :: (match v with
    | some x => k.tlb.erase x
    | none => k.tlb) }) sor e

/-- Translate one address for a context or an engine of a sorus: TLB, else a walk. The end of a walk is in the order of R77:
permissions, A, the physical address. An access that is refused sets no A and fills no entry (R80). `fresh` walks from the root
(R97). -/
def translate (s : State) (sor : Nat) (x : Xlat) (va : Nat) (acc : Access) (fresh : Bool) : Except XlatErr Attr × State :=
  let asid := fieldOf x.ptroot 0 12
  let k := s.sorus sor
  let hit := k.tlb.find? fun e => (e.asid == asid || bitOf e.leaf 10) && va / 2 ^ e.size == e.va / 2 ^ e.size
  match hit with
  | some e =>
    let a := attrOf e.leaf va e.size
    if !leafAllows e.leaf acc x.mode then (.error (.perm a), s)
    else if mapsHole s a then (.error (.fault 0x1B), s)
    else (.ok a, s)
  | none =>
    let root := fieldOf x.ptroot 18 34 * 2 ^ 18
    let walker := k.walker
    let (levels, table) := if fresh then ([0, 1, 2, 3], root) else startOf k walker asid va root
    let (r, ptrs) := walkFrom s walker asid va table [] levels
    let s := keepPtrs ((walkLines s va table levels).foldl fetchHome s) sor walker ptrs
    match r with
    | .error e => (.error e, s)
    | .ok l =>
      let a := attrOf l.word va l.size
      if !leafAllows l.word acc x.mode then (.error (.perm a), s)
      else
        let s := setA s l.entryPa
        if mapsHole s a then (.error (.fault 0x1B), s)
        else
          let e : TlbEntry := ⟨asid, l.va, l.size, l.word ||| maskOf 11 1, l.entryPa, bitOf l.word 52, 0, 0, none⟩
          (.ok a, keepEntry s sor e)

/-- The translation a context uses (R77). -/
def Ctx.xlat (c : Ctx) : Xlat := ⟨c.ptroot, c.pasidr, c.mode⟩

/-- The ASID of a context. -/
def Ctx.asid (c : Ctx) : Nat := fieldOf c.ptroot 0 12

/-- May a missing page be requested from the host (R96)? -/
def mayRequest (s : State) (x : Xlat) (va : Nat) (prq : Bool) : Bool :=
  prq && jobHalf va && bitOf x.pasidr 20 && s.dev.pageOn

/-- Enter a page request, or join one of the sorus for the same page (R79, R97): it carries the PASID, what the access intends, and the Last bit. -/
def requestPage (s : State) (x : Xlat) (va : Nat) (acc : Access) (core cx : Nat) : State :=
  let asid := fieldOf x.ptroot 0 12
  let page := va - va % 4096
  let same (q : PageReq) : Bool := q.asid == asid && q.va == page && q.who.any fun w => sorusOf w.1 == sorusOf core
  let join (q : PageReq) : PageReq :=
    if same q && !(q.who.contains (core, cx)) then { q with who := q.who ++ [(core, cx)] } else q
  if s.dev.pageReqs.any same then s.modDev fun d => { d with pageReqs := d.pageReqs.map join }
  else if s.dev.pageReqs.length < 256 then
    s.modDev fun d => { d with pageReqs := d.pageReqs ++
      [⟨asid, page, fieldOf x.pasidr 0 20, acc != .write, acc == .write || acc == .both, true, [(core, cx)]⟩] }
  else s

/-- Has the context or engine a request for a page outstanding? -/
def pageAsked (s : State) (asid page core cx : Nat) : Bool :=
  s.dev.pageReqs.any fun q => q.asid == asid && q.va == page && q.who.contains (core, cx)

/-- The answer that the waiting instruction's page request for this page has had, if any. -/
def pageAnswer (c : Ctx) (va : Nat) : Option Fired := c.pageGot.lookup (va - va % 4096)

/-- A flit of the acting core waits while a relock holds its core port (R59, R432). -/
def portTurn : M Unit := do
  let s ← get
  if portHeld s s.me then waitFor .other else pure ()

/-- A flit to the home slice of an address waits while a relock holds a FIFO on its way. -/
def sliceTurn (pa : Nat) : M Unit := do
  let s ← get
  if flitHeld s s.me pa then waitFor .other else pure ()

/-- A translation crosses the core port to the sorus's agent; a fetch finds its own at the core (R59). -/
def xlatTurn (acc : Access) : M Unit := if acc == .fetch then pure () else portTurn

/-- A page request that has failed gives NOTPRESENT with PRIFAIL, whatever the entry has become (R97). -/
def failedPage (ans : Option Fired) (faddr : Word) : M Unit :=
  if ans == some .pageInvalid || ans == some .pageFail then throw (.fault { mkFault 0x11 faddr with prifail := true }) else pure ()

/-- Translate an address of the acting context's access. A walk's failure is a fault that names `faddr` (R96, R97, R104). Answers the attributes, and whether
the page allows the access. -/
def xlatM (va : Nat) (acc : Access) (faddr : Word) : M (Attr × Bool) := do
  let s ← get
  let c := s.ctx
  let ans := pageAnswer c va
  xlatTurn acc
  failedPage ans faddr
  let (r, s') := translate s (sorusOf s.me) c.xlat va acc (ans == some .pageOk)
  set s'
  match r with
  | .ok a => pure (a, true)
  | .error (.perm a) => pure (a, false)
  | .error (.fault code) => raise code faddr
  | .error (.missing prq) =>
    match ans with
    | some .pageOk => throw (.fault { mkFault 0x11 faddr with refault := true })
    | some _ => throw (.fault { mkFault 0x11 faddr with prifail := true })
    | none =>
      let page := va - va % 4096
      if pageAsked s' c.asid page s'.me s'.mycx then waitFor (.pageReq page)
      else if mayRequest s' c.xlat va prq then
        let s'' := requestPage s' c.xlat va acc s'.me s'.mycx
        set s''
        if pageAsked s'' c.asid page s'.me s'.mycx then waitFor (.pageReq page) else waitFor .other
      else raise 0x11 faddr

/-- Run a computation and keep what stops it. -/
def attempt {α : Type} (m : M α) : M (Except Exc α) := fun s =>
  match m s with
  | .ok a s => .ok (.ok a) s
  | .error e s => .ok (.error e) s

end Sys2Proof.Machine
end

