-- ==== Sys2Proof/Machine/L1.lean ====
section
/-!
DEFINITION. The L1 data cache, the cluster agent's coherence and reverse map, the write-combining buffer, the dirty filter and log
(R41 to R49, R81 to R89, R111, R123, R124, R460).
-/
namespace Sys2Proof.Machine

/-! ### Lines -/

/-- Is byte i of a line mask set? -/
def byteOn (m : BitVec 64) (i : Nat) : Bool := m.getLsbD i

/-- The mask of bytes [lo, lo + n) of a line. -/
def byteMask (lo n : Nat) : BitVec 64 := BitVec.ofNat 64 ((2 ^ n - 1) * 2 ^ lo)

/-- The L1 set of an address (R41). -/
def l1Set (va : Nat) : Nat := va / 64 % 512

/-- Does a line carry an address's tag, ASID and VA[56:15] (R41, R81)? Its set may be another one. -/
def L1Line.sameTag (l : L1Line) (asid va : Nat) : Bool := l.asid == asid && l.va / 2 ^ 15 == va / 2 ^ 15

/-- Is it the line of this address: tag and set? -/
def L1Line.tagged (l : L1Line) (asid va : Nat) : Bool := l.asid == asid && l.va == lineOf va

/-- The line of a core that holds an address. -/
def l1Find (s : State) (core asid va : Nat) : Option L1Line := (s.core core).l1.find? fun l => l.tagged asid va

/-- Replace the line with the same tag, or add it. -/
def l1Put (s : State) (core : Nat) (l : L1Line) : State :=
  s.modCore core fun k =>
    { k with l1 := if k.l1.any fun x => x.tagged l.asid l.va then
        k.l1.map fun x => if x.tagged l.asid l.va then l else x
      else l :: k.l1 }

/-- Remove the line with a tag. -/
def l1Drop (s : State) (core asid va : Nat) : State :=
  s.modCore core fun k => { k with l1 := k.l1.filter fun x => !x.tagged asid va }

/-- The bytes of a line under a mask, at their physical addresses. -/
def maskedBytes (pa : Nat) (m : BitVec 64) (data : List Byte) : List (Nat × Byte) :=
  (upTo 64).filterMap fun i => if byteOn m i then some (pa + i, data.getD i 0) else none

/-- Write the dirty bytes of a line back (R46): the line stays, clean, with MARK 0. A SPEC line is left alone (R47). Older operations of the
core on the line are performed first: its accesses to a byte keep program order (R109, R110, R131). -/
def writeBack (s : State) (core : Nat) (l : L1Line) : State :=
  if l.spec.isSome || l.dirty == 0 then s
  else
    let s := l1Put s core { l with dirty := 0, mark := 0 }
    homeWrite (drainLine s core l.pa) l.pa (maskedBytes l.pa l.dirty l.data)

/-- Invalidate a line whatever it holds: dirty bytes are written back, a SPEC line aborts its region (R81, R83, R84, R136). -/
def expel (s : State) (core : Nat) (l : L1Line) : State :=
  match l.spec with
  | some cx => abortRegion (l1Drop s core l.asid l.va) core cx 2
  | none => l1Drop (writeBack s core l) core l.asid l.va

/-- All lines of a sorus that hold a physical line, with their cores. -/
def holders (s : State) (sor pa : Nat) : List (Nat × L1Line) :=
  ((coresOf sor).map fun c => ((s.core c).l1.filter fun l => l.pa == pa).map fun l => (c, l)).flatten

/-- What the cluster agent does before a fill completes (R43, R81): copies under another tag go; a dirty RC copy of another core under
the same tag is written back and stays. The filling core's own copy in another set goes too (log entry 78). -/
def beforeFill (s : State) (core asid va pa : Nat) : State :=
  (holders s (sorusOf core) pa).foldl (fun s (c, l) =>
    if c == core && l.tagged asid va then s
    else if c != core && l.sameTag asid va then
      if l.uo || l.spec.isSome then s else writeBack s c l
    else expel s c l) s

/-- What a store to an RC line does first: every other copy in the sorus goes (R43). A SPEC copy of another core under the same tag stays
in its region (R47, log entry 79). -/
def becomeOnly (s : State) (core asid va pa : Nat) : State :=
  (holders s (sorusOf core) pa).foldl (fun s (c, l) =>
    if c == core && l.tagged asid va then s
    else if c != core && l.sameTag asid va && l.spec.isSome then s
    else expel s c l) s

/-- Narrowings on their way to a region that has ended reach no later region of its context (R150, R153). -/
def dropNarrows (s : State) (core cx : Nat) : State :=
  s.modDev fun d => { d with narrows := d.narrows.filter fun n => !(n.core == core && n.cx == cx) }

/-- Release a region's slots at every slice (R154, R460). -/
def releaseSlots (s : State) (core cx : Nat) : State :=
  let lines := (s.ctxAt core cx).regLines.map fun p => p.1
  let s := lines.foldl (fun s line => modEntry s line fun e =>
    { e with slots := e.slots.filter fun w => !(w.core == core && w.cx == cx) }) (dropNarrows s core cx)
  s.modCtxAt core cx fun c => { c with regLines := [], early := [] }

/-- Invalidate the SPEC lines of a context's region. -/
def dropSpec (s : State) (core cx : Nat) : State :=
  s.modCore core fun k => { k with l1 := k.l1.filter fun l => l.spec != some cx }

/-- Replace bits of ERSTAT. -/
def Ctx.setErstat (c : Ctx) (mask v : Word) : Ctx := { c with erstat := mergeMask mask v c.erstat }

/-- ERSTAT after an abort: CAUSE, CODE and FCODE as given, OPEN clear, KIND and CLAMPED kept (R159). -/
def abortStat (old : Word) (cause code fcode : Nat) : Word :=
  mergeMask (maskOf 48 16 ||| maskOf 32 7 ||| maskOf 8 1 ||| maskOf 0 4) (atBit 48 code ||| atBit 32 fcode ||| wordOf cause) old

/-- The context after an abort: the checkpoint back, the handler next (R154). A block that was being stepped is left (R257); one that is held
in a handler keeps its pass (R464). -/
def Ctx.aborted (c : Ctx) (cause code fcode : Nat) : Ctx :=
  let c := { c with
    erstat := abortStat c.erstat cause code fcode, commit := none, abort := none, pin := none, wait := none
    fwdGot := [], pageGot := []
    reptst := if c.hold then c.reptst else mergeMask (maskOf 32 32) 0 c.reptst }
  match c.ckpt with
  | none => c
  | some k => { c with
      g := k.g, p := k.p, gue := k.gue, pue := k.pue, tiles := k.tiles, fpsr := k.fpsr, mec0 := k.mec0, mec1 := k.mec1, mec2 := k.mec2, mec3 := k.mec3,
      pc := k.handler, ckpt := none }

/-- An abort at a retirement boundary (R154): SPEC lines and slots go, the checkpoint comes back. -/
def regionAbortNow (s : State) (core cx cause code fcode : Nat) : State :=
  (releaseSlots (dropSpec s core cx) core cx).modCtxAt core cx fun c => c.aborted cause code fcode

/-- The L1 evicts a line that is not SPEC (R46, R54): dirty bytes go home; a clean line whose home is on the other die is to have a
replica. -/
def evictLine (s : State) (core : Nat) (l : L1Line) : State :=
  let s := if l.dirty == 0 && dieOf (homeOf l.pa) != dieOf core then
      s.modCore core fun k => { k with victims := k.victims.filter (· != l.pa) ++ [l.pa] }
    else writeBack s core l
  l1Drop s core l.asid l.va

/-- Room for a line in its set of ten ways (R41, R460): a line that is not SPEC is evicted; where all ten are SPEC, the filling access's own
region aborts, or the other context's region aborts at once: its context continues at its handler. Answers whether the access must
stop. The lines of a region that commits have been sent and are dropped alone (R153). -/
def makeRoom (s : State) (core cx : Nat) (inRegion : Bool) (va : Nat) : Bool × State :=
  let ways := (s.core core).l1.filter fun l => l1Set l.va == l1Set va
  if ways.length < 10 then (false, s)
  else match anyOf s (ways.filter fun l => l.spec.isNone) with
    | (some l, s) => (false, evictLine s core l)
    | (none, s) =>
      let sent (x : Nat) : Bool := (s.ctxAt core x).commit.isSome
      if inRegion && !(sent cx) && ways.any (fun l => l.spec == some cx) then (true, s)
      else
        let o := if ways.any (fun l => l.spec == some (1 - cx)) then 1 - cx else cx
        let (cause, code, fcode) := (s.ctxAt core o).abort.getD (3, 0, 0)
        (false, if sent o then dropSpec s core o else regionAbortNow s core o cause code fcode)

/-- What serves a request for a line of device memory (R448): SOURCE and the slice; `home` says that a replica does not (R55). -/
def sourceOf (s : State) (core line : Nat) (home : Bool) : Nat × Nat :=
  let h := homeOf line
  if !home && dieOf h != dieOf core && (s.slice core).tags.any (fun t => t.line == line && t.rcopy) then (1, core)
  else ((if (s.slice h).tags.any (fun t => t.line == line && !t.rcopy) then 0 else 2), h)

/-- A station's word (R448): its domain, and cycles and visits by a free value; a station that was not visited reads zero. -/
def stationWord (visited : Bool) (domain : Nat) (w : Word) : Word :=
  if visited then atBit 36 (1 + fieldOf w 40 8 % 255) ||| atBit 32 domain ||| atBit 0 (fieldOf w 0 32) else 0

/-- The six station words of a sample (R448; log entry 74): L1, cluster TLB, mesh, die bridge, L2 slice, controller. Atomics, reductions and copies
visit no L1 (R48). A bridge's flits wait on the side of the home. `line` is none for a forwarded line, whose bridge is a free choice; so is
the mesh where the slice is the core's own. -/
def stationsOf (s : State) (core kind : Nat) (line : Option Nat) (home : Bool) (ws : List Word) : List Word :=
  let d := dieOf core
  let w (i : Nat) : Word := ws.getD i 0
  let first := [stationWord (kind < 3) d (w 0), stationWord true (2 + d) (w 1)]
  match line with
  | none => first ++ [stationWord true (2 + d) (w 2), stationWord (bitOf (w 3) 63) (2 + fieldOf (w 3) 62 1) (w 3), 0, 0]
  | some line =>
    let (src, sl) := sourceOf s core line home
    first ++ [stationWord (sl != core || bitOf (w 2) 63) (2 + d) (w 2), stationWord (dieOf sl != d) (2 + dieOf sl) (w 3),
      stationWord true (2 + dieOf sl) (w 4), stationWord (src == 2) (4 + line / 2 ^ 36) (w 5)]

/-- A miss of a core and the record of its sample, if it is the one in 2^INTERVAL misses that is sampled (R447, R448; log entry 74): KIND as given;
`line` is the line of device memory that it asks for, none for a forwarded one. -/
def takeSample (s : State) (core va kind : Nat) (line : Option Nat) (home : Bool) : List (List Byte) × State :=
  let k := s.core core
  if !bitOf k.sbase 0 then ([], s)
  else
    let s := s.modCore core fun k => { k with misses := k.misses + 1 }
    let interval := fieldOf k.sctl 0 5
    if k.misses % 2 ^ interval != 0 then ([], s)
    else
      let (w1, s) := s.free
      let (w2, s) := s.free
      let (w3, s) := s.free
      let (w4, s) := s.free
      let (w5, s) := s.free
      let (w6, s) := s.free
      let source := match line with
        | some l => (sourceOf s core l home).1
        | none => 3
      let head := leBytes 8 va ++ leBytes 8 (kind + 8 * source + k.misses / 2 ^ interval % 2 ^ 32 * 2 ^ 32)
      let stations := stationsOf s core kind line home [w1, w2, w3, w4, w5, w6]
      ([head ++ (stations.map fun w => leBytes 8 w.toNat).flatten], s)

/-- The reply of a sampled request has reached the core: its record is written at home, or dropped where it would make PROD + 1 = CONS. -/
def writeSample (core : Nat) (s : State) (r : List Byte) : State :=
  let k := s.core core
  let prod := fieldOf k.sctl 16 16 % 1024
  if (prod + 1) % 1024 == fieldOf k.sctl 48 16 % 1024 then s
  else (homeStore s (fieldOf k.sbase 16 36 * 65536 + prod * 64) r).modCore core fun k =>
    { k with sctl := mergeMask (maskOf 16 16) (atBit 16 ((prod + 1) % 1024)) k.sctl }

/-- A miss that is answered in its step. -/
def sampleMiss (s : State) (core va kind : Nat) (line : Option Nat) (home : Bool) : State :=
  let (l, s) := takeSample s core va kind line home
  l.foldl (writeSample core) s

/-- A miss that an owner answers later to message `id`. -/
def sampleSent (s : State) (core id va kind : Nat) : State :=
  match takeSample s core va kind none true with
  | ([], s) => s
  | (l, s) => s.modCore core fun k => { k with samples := k.samples ++ l.map fun r => (id, r) }

/-- The reply to message `id` has reached a core. -/
def sampleBack (s : State) (core id : Nat) : State :=
  match (s.core core).samples.filter fun p => p.1 == id with
  | [] => s
  | l => (l.map Prod.snd).foldl (writeSample core) (s.modCore core fun k => { k with samples := k.samples.filter fun p => p.1 != id })

/-- Bytes of a line that a fill brings: all but those of poisoned granules (R411). -/
def fillMask (s : State) (pa : Nat) : BitVec 64 :=
  (if poisonedAt s pa then 0 else byteMask 0 32) ||| (if poisonedAt s (pa + 32) then 0 else byteMask 32 32)

/-- Fill the absent bytes of a line from home (R45, R55), past any replica for a region: a new line takes its permissions from the page (R42). -/
def fillLine (s : State) (core asid va : Nat) (a : Attr) (kind : Nat) (region : Bool) : State :=
  let pa := lineOf a.pa
  let s := sampleMiss s core va kind (some pa) region
  let s := beforeFill s core asid va pa
  let (bytes, s) := if region then homeRead (drainLine s core pa) pa 64 else fillRead (drainLine s core pa) core pa 64
  let got := fillMask s pa
  match l1Find s core asid va with
  | some l =>
    let data := (upTo 64).map fun i => if byteOn l.pres i then l.data.getD i 0 else bytes.getD i 0
    l1Put s core { l with data := data, pres := l.pres ||| got }
  | none => l1Put s core ⟨lineOf va, asid, pa, a.kind == 1, a.w, a.r, a.u, a.size, a.glob, got, 0, 0, none, bytes⟩

/-- Forget the clean bytes of a line: PRES becomes DIRTY, and a line without dirty bytes goes (R124). -/
def clearClean (s : State) (core : Nat) (p : L1Line → Bool) : State :=
  s.modCore core fun k => { k with l1 := k.l1.filterMap fun l =>
    if l.spec.isSome || !(p l) then some l
    else if l.dirty == 0 then none else some { l with pres := l.dirty } }

/-! ### Ranges of global memory -/

/-- The pages of a range of global memory, by one address in each. -/
def pagesOf (r : Nat × Nat) : List Nat :=
  (upTo ((r.1 % 4096 + r.2 + 4095) / 4096)).map fun i => if i = 0 then r.1 else (r.1 - r.1 % 4096 + 4096 * i) % 2 ^ 64

/-- The attributes of an address as a translation finds them now, whatever the page allows. -/
def attrSeen (s : State) (core : Nat) (x : Xlat) (va : Nat) : Option Attr :=
  match (translate s (sorusOf core) x va .read false).1 with
  | .ok a | .error (.perm a) => some a
  | _ => none

/-- The physical bytes of a range as a translation finds them now: first byte and length, page by page; owners' pages are left out. -/
def physRanges (s : State) (core : Nat) (x : Xlat) (r : Nat × Nat) : List (Nat × Nat) :=
  (pagesOf r).filterMap fun va => match attrSeen s core x va with
    | some a => if a.fwd == 0 then some (a.pa, min (4096 - va % 4096) (r.2 - (va + 2 ^ 64 - r.1) % 2 ^ 64)) else none
    | none => none

/-- Does a line overlap a range: under the range's addresses, or physically under another address or ASID (R81)? -/
def L1Line.inRange (l : L1Line) (s : State) (core : Nat) (x : Xlat) (r : Nat × Nat) : Bool :=
  (l.asid == fieldOf x.ptroot 0 12 && rangesMeet l.va 64 r.1 r.2) ||
    (physRanges s core x r).any fun p => rangesMeet l.pa 64 p.1 p.2

/-- Forget the clean bytes of the lines that overlap ranges (R138, R141). -/
def clearRanges (s : State) (core : Nat) (ds : List (Nat × Nat × Xlat)) : State :=
  clearClean s core fun l => ds.any fun d => l.inRange s core d.2.2 (d.1, d.2.1)

/-! ### Dirty filter and log (R85 to R89) -/

/-- The SIZE code of a page (R85). -/
def sizeCode (log2 : Nat) : Nat :=
  match log2 with
  | 16 => 1
  | 21 => 2
  | 25 => 3
  | 29 => 4
  | _ => 0

/-- An entry of the dirty log (R85). -/
def logEntry (asid va log2 : Nat) : Word :=
  atBit 63 1 ||| atBit 57 (sizeCode log2) ||| atBit 45 asid ||| wordOf (va / 4096 % 2 ^ 45)

/-- Entries that await merging (R87). -/
def logWaiting (k : Core) : Nat := if k.dlFull then 1024 else (k.dlTail + 1024 - k.dlHead) % 1024

/-- The first write to a page since the filter last knew it (R86): none while the log is full (R88). The
page entered first leaves a full filter (log entry 90). -/
def noteDirty (s : State) (core : Nat) (p : DirtyPage) (d : Bool) : Option State :=
  let k := s.core core
  if k.dfilter.contains p then some s
  else
    let enter : Core → Core := fun k => { k with dfilter := (p :: k.dfilter).take 64 }
    if d then some (s.modCore core enter)
    else if k.dlFull then none
    else
      let tail := (k.dlTail + 1) % 1024
      let s := s.modCore core fun k => enter { k with
        dlog := tset k.dlog k.dlTail (logEntry p.asid p.va p.size), dlTail := tail, dlFull := tail == k.dlHead }
      some (s.modJob p.asid fun j => { j with hashPages := (j.hashPages.filter (· != (p.size, p.va))) ++ [(p.size, p.va)] })

/-- The page of an address as the cluster agent knows it, and its D. Where neither the TLB nor a walk knows it, the 4 KiB page. -/
def pageNow (s : State) (sor : Nat) (x : Xlat) (va : Nat) : DirtyPage × Bool :=
  let asid := fieldOf x.ptroot 0 12
  match (s.sorus sor).tlb.find? fun e => (e.asid == asid || bitOf e.leaf 10) && va / 2 ^ e.size == e.va / 2 ^ e.size with
  | some e => (⟨asid, e.va, e.size, bitOf e.leaf 10⟩, e.dAtFill)
  | none => match (walkFrom s 0 asid va (fieldOf x.ptroot 18 34 * 2 ^ 18) [] [0, 1, 2, 3]).1 with
    | .ok l => (⟨asid, l.va, l.size, bitOf l.word 10⟩, bitOf l.word 52)
    | .error _ => (⟨asid, va - va % 4096, 12, false⟩, false)

/-- Note that a core dirties something at an address (R86): none while its log is full. -/
def noteAt (s : State) (core : Nat) (x : Xlat) (va : Nat) : Option State :=
  let (p, d) := pageNow s (sorusOf core) x va
  noteDirty s core p d

/-! ### Merging the dirty log (R88) -/

/-- The root of an ASID's tables as a core's agent finds it: a context's PTROOT, else the job's. -/
def rootOf (s : State) (core asid : Nat) : Nat :=
  let k := s.core core
  let w := if k.c0.asid == asid then k.c0.ptroot else if k.c1.asid == asid then k.c1.ptroot else (s.job asid).ptroot
  fieldOf w 18 34 * 2 ^ 18

/-- Merge one entry: set D in whatever valid leaf maps the page; discard it if none does. -/
def mergeEntry (s : State) (core : Nat) (e : Word) : State :=
  let asid := fieldOf e 45 12
  let vpn := fieldOf e 0 45
  let va := (if vpn / 2 ^ 44 == 1 then 0xFE00000000000000 else 0) + vpn * 4096
  let (r, s) := ((walkFrom s 0 asid va (rootOf s core asid) [] [0, 1, 2, 3]).1,
    (walkLines s va (rootOf s core asid) [0, 1, 2, 3]).foldl fetchHome s)
  match r with
  | .error _ => s
  | .ok l =>
    let w := wordOf (physWord s l.entryPa)
    homeWrite s (lineOf l.entryPa) [(l.entryPa + 6, BitVec.ofNat 8 (fieldOf (w ||| maskOf 52 1) 48 8))]

/-- Merge the oldest waiting entry of a core's log and advance HEAD. -/
def mergeOldest (s : State) (core : Nat) : State :=
  let k := s.core core
  if logWaiting k == 0 then s
  else
    let s := mergeEntry s core (tget k.dlog k.dlHead 0)
    s.modCore core fun k => { k with dlHead := (k.dlHead + 1) % 1024, dlFull := false }

/-- Merge the n oldest entries. -/
def mergeN (s : State) (core : Nat) : Nat → State
  | 0 => s
  | n + 1 => mergeN (mergeOldest s core) core n

/-- Merge a core's whole log. -/
def mergeAll (s : State) (core : Nat) : State := mergeN s core (logWaiting (s.core core))

/-! ### Messages to owners (R90, R91, R94) -/

/-- The code of an owner: 0 the host, 1 + n the peer n. -/
def Attr.ownerCode (a : Attr) : Nat := if a.fwd == 1 then 0 else a.owner + 1

/-- The address that goes to an owner: the virtual address to the host, the page's to a peer (R91). -/
def Attr.fwdAddr (a : Attr) (va : Nat) : Nat := if a.fwd == 1 then va else a.pa

/-- The cluster TLB's entry for an address. -/
def tlbOf (s : State) (sor asid va : Nat) : Option TlbEntry :=
  (s.sorus sor).tlb.find? fun e => (e.asid == asid || bitOf e.leaf 10) && va / 2 ^ e.size == e.va / 2 ^ e.size

/-- How a request for a forwarded address is sent: its address and its tag. With PASIDR.ATSEN a request to the host carries the translated
address (R91): none while the TLB entry does not hold the host's translation. -/
def ownerWay (s : State) (sor : Nat) (x : Xlat) (va : Nat) (a : Attr) : Option (Nat × HostTag) :=
  if a.fwd != 1 then some (a.pa, ⟨0, false⟩)
  else
    let pasid := fieldOf x.pasidr 0 20
    if !bitOf x.pasidr 21 then some (va, ⟨pasid, false⟩)
    else (tlbOf s sor (fieldOf x.ptroot 0 12) va).bind fun e => e.ats.map fun t => (t.toNat + va % 2 ^ e.size, ⟨pasid, true⟩)

/-- The Translation Request of the TLB entry of an address. -/
def atsOf (s : State) (sor : Nat) (x : Xlat) (va : Nat) : Option AtsReq :=
  (tlbOf s sor (fieldOf x.ptroot 0 12) va).map fun e => ⟨sor, e.asid, e.va, fieldOf x.pasidr 0 20⟩

/-- Ask the host for the translation that a TLB entry lacks (R91), once. -/
def askAts (s : State) (sor : Nat) (x : Xlat) (va : Nat) : State :=
  match atsOf s sor x va with
  | none => s
  | some q =>
    if s.dev.atsReqs.contains q then s else s.modDev fun d => { d with atsReqs := d.atsReqs ++ [q] }

/-- Counters of a migration hint (R94): lines that the TLB entry of a page has forwarded. -/
def countForward (s : State) (sor asid va : Nat) (write : Bool) : State :=
  s.modSorus sor fun k =>
    let hit (e : TlbEntry) : Bool := (e.asid == asid || bitOf e.leaf 10) && va / 2 ^ e.size == e.va / 2 ^ e.size && bitOf e.leaf 53
    { k with
      tlb := k.tlb.map fun e =>
        if !(hit e) then e
        else if write then { e with writes := min (e.writes + 1) 0xFFFF } else { e with reads := min (e.reads + 1) 0xFFFF } }

/-- What a posted write carries. -/
structure PostOf where
  owner : Nat
  addr : Nat
  mask : BitVec 64
  bytes : List Byte
  core : Option Nat := none
  so : Bool := false
  after : List Nat := []
  tag : HostTag := ⟨0, false⟩
  msix : Option Nat := none
  ats : Option AtsReq := none

/-- Post a write to an owner (R90) as the message `id`. -/
def postAs (s : State) (id : Nat) (p : PostOf) : State :=
  s.modDev fun d => { d with posted := d.posted ++ [⟨id, p.owner, p.addr, p.mask, p.bytes, p.core, p.so, p.after, p.tag, p.msix, p.ats⟩] }

/-- Post a write to an owner: its message. -/
def post (s : State) (p : PostOf) : Nat × State :=
  let (id, s) := s.newId
  (id, postAs s id p)

/-- A store of a core to a peer counts until the peer has acknowledged all of its messages (R275). -/
def countPosted (s : State) (core : Nat) (ids : List Nat) : State :=
  if ids.isEmpty then s else s.modCore core fun k => { k with posted := k.posted ++ [ids] }

/-! ### The write-combining buffer (R111) -/

/-- Is it the entry of a line of device memory? -/
def WcLine.holds (w : WcLine) (line : Nat) : Bool := w.fwd.isNone && w.pa == line

/-- Are two entries for one line of one owner? -/
def WcLine.sameLine (w x : WcLine) : Bool := w.pa == x.pa && (w.fwd.map fun f => f.owner) == (x.fwd.map fun f => f.owner)

/-- Send one entry home, or to its owner. Older operations of the core on the line are performed first (R131). -/
def sendWcLine (s : State) (core : Nat) (w : WcLine) : State :=
  let s := s.modCore core fun k => { k with wc := k.wc.filter fun x => !(x.sameLine w) }
  match w.fwd with
  | none => homeWrite (drainLine s core w.pa) w.pa (maskedBytes w.pa w.mask w.data)
  | some f =>
    let s := countForward s (sorusOf core) f.asid f.va true
    let (id, s) := post s { owner := f.owner, addr := w.pa, mask := w.mask, bytes := w.data, core := some core, tag := f.tag }
    countPosted s core (if f.owner == 0 then [] else [id])

/-- Empty the buffer, oldest first. -/
def emptyWc (s : State) (core : Nat) : State := (s.core core).wc.foldl (fun s w => sendWcLine s core w) s

/-- Send the entry of a line of device memory, if there is one. -/
def sendWcFor (s : State) (core pa : Nat) : State :=
  match (s.core core).wc.find? fun w => w.holds (lineOf pa) with
  | some w => sendWcLine s core w
  | none => s

/-- Merge a store into the buffer: into its line's entry, a free entry, or after the oldest was sent. -/
def wcStore (s : State) (core pa : Nat) (fwd : Option FwdLine) (bs : List Byte) : State :=
  let new : WcLine := ⟨lineOf pa, fwd, 0, []⟩
  let off := pa - lineOf pa
  let merge (w : WcLine) : WcLine := { w with
    mask := w.mask ||| byteMask off bs.length,
    data := (upTo 64).map fun i => if off ≤ i && i < off + bs.length then bs.getD (i - off) 0 else w.data.getD i 0 }
  if (s.core core).wc.any fun w => w.sameLine new then
    s.modCore core fun k => { k with wc := k.wc.map fun w => if w.sameLine new then merge w else w }
  else
    let s := if (s.core core).wc.length ≥ 4 then
        (match (s.core core).wc with
          | w :: _ => sendWcLine s core w
          | [] => s)
      else s
    s.modCore core fun k => { k with wc := k.wc ++ [merge new] }

/-- A load takes bytes from the buffer where it holds them. -/
def wcOver (s : State) (core pa : Nat) (owner : Option Nat) (bs : List Byte) : List Byte :=
  match (s.core core).wc.find? fun w => w.pa == lineOf pa && (w.fwd.map fun f => f.owner) == owner with
  | none => bs
  | some w => (upTo bs.length).map fun i =>
      let o := pa - lineOf pa + i
      if byteOn w.mask o then w.data.getD o 0 else bs.getD i 0

/-! ### The store buffer (R105, R110) -/

/-- Merge stored bytes into a line (R44): MARK is the sorus for RC and the core for UO. In a region the line is SPEC. -/
def L1Line.merge (l : L1Line) (off : Nat) (bs : List Byte) (spec : Option Nat) : L1Line :=
  let m := byteMask off bs.length
  { l with
    data := (upTo 64).map fun i => if off ≤ i && i < off + bs.length then bs.getD (i - off) 0 else l.data.getD i 0
    pres := l.pres ||| m
    dirty := l.dirty ||| m
    mark := if l.uo then 0 else 1
    spec := if spec.isSome then spec else l.spec }

/-- Hold the line that a store of a context is merged into (R43, R45, R47), with room made for it: answers whether the context's region
aborts instead. -/
def storeLine (s : State) (core cx asid : Nat) (inRegion : Bool) (va : Nat) (a : Attr) : Bool × State :=
  let s := match l1Find s core asid va with
    | some l => if l.spec.isSome && l.spec != some cx then expel s core l else s
    | none => s
  let s := if a.kind == 0 then becomeOnly s core asid va (lineOf a.pa) else s
  match l1Find s core asid va with
  | some _ => (false, s)
  | none =>
    let (stop, s) := makeRoom s core cx inRegion va
    if stop then (true, s)
    else if a.kind == 0 then (false, fillLine s core asid va a 1 inRegion)
    else
      let s := drainLine s core (lineOf a.pa)
      let s := beforeFill s core asid va (lineOf a.pa)
      (false, l1Put s core ⟨lineOf va, asid, lineOf a.pa, true, a.w, a.r, a.u, a.size, a.glob, 0, 0, 0, none, []⟩)

/-- A store that waited dirties its page when it is performed (R86): HARVEST may have cleared the filter since. Where the log is full, the
agent merges first (R88). -/
def noteStored (s : State) (core : Nat) (e : Stored) : State :=
  let x := (s.ctxAt core e.cx).xlat
  match noteAt s core x e.va with
  | some s => s
  | none => (noteAt (mergeN s core 512) core x e.va).getD s

/-- Perform a part of a retired store (R105): at home, in the write-combining buffer, or in the L1. -/
def performStored (s : State) (core : Nat) (e : Stored) : State :=
  if e.a.kind == 2 then homeStore (drainLine (emptyWc (noteStored s core e) core) core (lineOf e.a.pa)) e.a.pa e.bs
  else if !e.a.c && e.a.kind == 1 then wcStore (noteStored s core e) core e.a.pa none e.bs
  else if !e.a.c then homeStore (drainLine (noteStored s core e) core (lineOf e.a.pa)) e.a.pa e.bs
  else
    let (_, s) := storeLine s core e.cx e.asid false e.va e.a
    match l1Find s core e.asid e.va with
    | some l => l1Put (if l.dirty == 0 then noteStored s core e else s) core (l.merge (e.va % 64) e.bs none)
    | none => s

/-- Perform every part that waits, in program order. -/
def emptyStores (s : State) (core : Nat) : State :=
  let k := s.core core
  if k.sbuf.isEmpty then s
  else k.sbuf.foldl (fun s e => performStored s core e) (s.modCore core fun k => { k with sbuf := [] })

/-- Perform one part that waits: the older parts of its line go before it, and the older SO parts before an SO part (R107, R109). -/
def performOne (s : State) (core idx : Nat) : State :=
  let l := (s.core core).sbuf
  match l[idx]? with
  | none => s
  | some e =>
    if (l.take idx).any fun o => lineOf o.a.pa == lineOf e.a.pa || (o.a.kind == 2 && e.a.kind == 2) then s
    else performStored (s.modCore core fun k => { k with sbuf := k.sbuf.eraseIdx idx }) core e

/-- The core's stores begin to wait, or all that wait are performed and the next ones are performed at once (log entry 13). -/
def setHold (s : State) (core : Nat) (hold : Bool) : State :=
  (if hold then s else emptyStores s core).modCore core fun k => { k with holdStores := hold }

/-- Bytes that a load of the core takes from device memory, with those of its stores that wait (R105). -/
def storesOver (k : Core) (pa : Nat) (bs : List Byte) : List Byte :=
  k.sbuf.foldl (fun bs e => (upTo bs.length).map fun i =>
    if e.a.pa ≤ pa + i && pa + i < e.a.pa + e.bs.length then e.bs.getD (pa + i - e.a.pa) 0 else bs.getD i 0) bs

/-! ### Scopes, releases, acquires (R118 to R124) -/

/-- A scope resolved for a core (R118). -/
structure Scope where
  cores : BitVec 128
  host : Bool
  peer : Bool
deriving DecidableEq, Repr

def maskCores (l : List Nat) : BitVec 128 := l.foldl (fun m i => m ||| (1#128 <<< i)) 0

def sorScope (core : Nat) : Scope := ⟨maskCores (coresOf (sorusOf core)), false, false⟩
def coreScope (core : Nat) : Scope := ⟨maskCores [core], false, false⟩
def devScope : Scope := ⟨BitVec.allOnes 128, false, false⟩

/-- Scope X contains scope Y (R122). -/
def Scope.contains (x y : Scope) : Bool :=
  (y.cores &&& ~~~x.cores) == 0 && (!y.host || x.host) && (!y.peer || x.peer)

/-- Byte i of a scope-table entry (R120): entries 0 to 4 read as zero. -/
def scopeByte (s : State) (table entry i : Nat) : Byte :=
  if entry < 5 then 0 else tget s.dev.scopes (table * 1024 + entry * 32 + i) 0

/-- The device-physical address of a scope-table entry (R120, R437). -/
def scopeAddr (table entry : Nat) : Nat := 0xF000100000000 + table * 1024 + entry * 32

/-- Resolve a scope identifier for a core: none where the entry is not defined or a reserved bit is set (R121). -/
def resolveScope (s : State) (core table sc : Nat) : Option Scope :=
  match sc with
  | 0 => some (coreScope core)
  | 1 => some (sorScope core)
  | 2 => some ⟨maskCores ((upTo 64).map (64 * dieOf core + ·)), false, false⟩
  | 3 => some devScope
  | 4 => some ⟨BitVec.allOnes 128, true, true⟩
  | n =>
    let bytes := (upTo 32).map (scopeByte s table n)
    let b16 := (bytes.getD 16 0).toNat
    if b16 / 128 % 2 == 0 || b16 / 4 % 32 != 0 || (bytes.drop 17).any (· != 0) then none
    else some ⟨BitVec.ofNat 128 (leNat (bytes.take 16)) ||| maskCores [core], b16 % 2 == 1, b16 / 2 % 2 == 1⟩

/-- The scope that MARK names (R44). -/
def markScope (core : Nat) (l : L1Line) : Scope := if l.mark == 0 then coreScope core else sorScope core

/-- Steps 2 of a release at a scope (R123), after the stores that wait: every dirty line whose MARK does not contain it, and the
write-combining buffer unless it is the core scope. Waiting for acknowledgements is part of the step. -/
def releaseAt (s : State) (core : Nat) (sc : Scope) : State :=
  let s := emptyStores s core
  let s := (s.core core).l1.foldl (fun s l =>
    if l.dirty != 0 && !(markScope core l).contains sc then writeBack s core l else s) s
  if (coreScope core).contains sc then s else emptyWc s core

/-- May a release at a scope complete (steps 3 and 4 of R123, and R133)? Forwarded writes to peers acknowledged, to the host sent,
reductions acknowledged. -/
def releaseDone (s : State) (core : Nat) (sc : Scope) : Bool :=
  (s.core core).nonRet.isEmpty &&
  (!sc.peer || (s.core core).posted.isEmpty) &&
  (!sc.host || !s.dev.posted.any (fun p => p.core == some core && p.owner == 0))

/-- An acquire at a scope (R124). -/
def acquireAt (s : State) (core : Nat) (sc : Scope) : State :=
  clearClean s core fun l => if l.uo then !(coreScope core).contains sc else !(sorScope core).contains sc

/-- Does a flit of a core stand on the mesh or in a channel, not taken by a CHR or CHP (R288, R290)? -/
def flitsOut (s : State) (core : Nat) : Bool :=
  let mine (l : List Flit) : Bool := l.any fun f => f.src == core
  mine s.dev.flits || s.cores.any fun p => p.2.chans.any fun c => mine c.2.flits || mine c.2.refused

/-- Drop the pin of a context (R299). -/
def dropPin (s : State) : State := s.modCtx fun c => { c with pin := none }

end Sys2Proof.Machine
end

