-- ==== Sys2Proof/Machine/Regions.lean ====
section
/-!
DEFINITION. Regions (R147 to R159, R461): registration and narrowing at the home slices, commit, abort. All operations name the
region by its core and context.
-/
namespace Sys2Proof.Machine

/-! ### Narrowing (R150, R151) -/

/-- What a conflict sends: P's new upper bound and F's new lower bound, where none makes F empty; or nothing; or that the registering
party's interval is emptied at `a` (R150, R429). -/
inductive Narrowing
  | nothing
  | bounds (pHi : Word) (fLo : Option Word)
  | bottom (a : Word)
deriving DecidableEq, Repr

/-- The pseudocode of R150. -/
def narrowing (p f : Interval) : Narrowing :=
  if p.hi.toNat < f.lo.toNat then .nothing
  else
    let a := max p.lo.toNat f.lo.toNat
    let top := 2 ^ 64 - 1
    let b := if p.hi.toNat == top && f.hi.toNat == top then a + 0xFFFF else min p.hi.toNat f.hi.toNat
    if a > b then .bottom (wordOf a)
    else
      let m := a + (b - a) / 2
      .bounds (wordOf (min m top)) (if m ≥ top then none else some (wordOf (m + 1)))

/-- The interval of a registering party that R150 empties: its lower bound rises to `a` (R429), and its upper bound lies below `a` (log
entry 76). -/
def Interval.emptied (i : Interval) (a : Word) : Interval := ⟨wmax i.lo a, wmin i.hi (a - 1)⟩

/-- A registering party while its conflicts at the line are worked through: the bounds it will take, and the cause of an abort. -/
structure Registering where
  own : Interval
  abort : Option Nat
deriving DecidableEq, Repr

/-- One conflict of a registering party with a registered one (R150, R151): `carried` is the interval of the registration; `older` says
that the registering party had a slot before the other (R429). The bounds of an emptied interval are those of log entry 76. -/
def meetRegistrant (s : State) (slice : Nat) (writer strict older : Bool) (carried : Interval) (r : Registering) (w : SideSlot) :
    State × Registering × SideSlot :=
  if r.abort.isSome || (!writer && !w.writer) then (s, r, w)
  else if strict then (s, { r with abort := some 2 }, w)
  else if w.strict then (abortRegion s w.core w.cx 2, r, w)
  else
    let known : Interval := ⟨w.lo, w.hi⟩
    -- a reader precedes a writer; of two writers, the one registered earlier does
    let first := !writer || (w.writer && older)
    match (if first then narrowing carried known else narrowing known carried) with
    | .nothing => (s, r, w)
    | .bottom a => (s, { r with own := r.own.emptied a }, w)
    | .bounds pHi fLo =>
      if first then
        (sendNarrow s slice w.core w.cx false fLo, { r with own := { r.own with hi := wmin r.own.hi pHi } }, w.above fLo)
      else
        (sendNarrow s slice w.core w.cx true (some pHi), { r with own := r.own.above fLo }, { w with hi := wmin w.hi pHi })

/-- All conflicts at a line, in the order of its slots, which is the order of their first registrations. -/
def meetRegistrants (s : State) (slice core cx : Nat) (writer strict older : Bool) (carried : Interval) (r : Registering) :
    List SideSlot → State × Registering × List SideSlot
  | [] => (s, r, [])
  | w :: t =>
    let mine := w.core == core && w.cx == cx
    let (s, r, w) := if mine then (s, r, w) else meetRegistrant s slice writer strict older carried r w
    let (s, r, t) := meetRegistrants s slice core cx writer strict (older || mine) carried r t
    (s, r, w :: t)

/-- Does the region hold what an access to a line needs? What a message registered ahead of the access is registered again by it. -/
def Ctx.holdsLine (c : Ctx) (line : Nat) (write : Bool) : Bool :=
  (c.regLines.any fun p => p.1 == line && (p.2 || !write)) && !(c.early.any fun p => p.1 == line)

/-! ### Commit (R153) -/

/-- What a commit at position p does to another registrant of a line. -/
def meetCommit (s : State) (slice : Nat) (p : Word) (wrote : Bool) (w : SideSlot) : State × SideSlot :=
  if wrote then meetWrite s slice p w
  else if w.writer then
    let (s, v) := meetWrite s slice p { w with reader := false }
    (s, { v with reader := w.reader })
  else (s, w)

def meetCommits (s : State) (slice : Nat) (p : Word) (wrote : Bool) : List SideSlot → State × List SideSlot
  | [] => (s, [])
  | w :: t =>
    let (s, w) := meetCommit s slice p wrote w
    let (s, t) := meetCommits s slice p wrote t
    (s, w :: t)

/-- A slice applies a commit to one line, which the region wrote or only read. -/
def commitLine (s : State) (core cx : Nat) (pos : Word) (line : Nat) (wrote : Bool) (bytes : List (Nat × Byte)) : State :=
  let s := if wrote then homeCommit s line bytes else s
  let others := match (s.slice (homeOf line)).side.find? fun e => e.line == line with
    | some e => e.slots.filter fun w => !(w.core == core && w.cx == cx)
    | none => []
  let (s, others) := meetCommits s (homeOf line) pos wrote others
  modEntry s line fun e =>
    { e with slots := others, wts := if wrote then pos else e.wts, rts := wmax e.rts pos }

/-- A slice applies a commit to every line of the region whose home it is. -/
def commitSlice (s : State) (core cx slice : Nat) : State :=
  let c := s.ctxAt core cx
  match c.commit with
  | none => s
  | some k =>
    if !(k.slices.contains slice) then s
    else
      let s := (c.regLines.filter fun p => homeOf p.1 == slice).foldl (fun s p =>
        commitLine s core cx k.pos p.1 p.2 ((k.writes.lookup p.1).getD [])) s
      s.modCtxAt core cx fun c =>
        { c with commit := some { k with slices := k.slices.filter (· != slice), acks := k.acks ++ [slice] } }

/-! ### Registration -/

/-- Commits that a line's slice has still to apply go first: a region that registers there sees all of them, or the position that keeps it
from seeing any (R157, log entry 81). -/
def commitsFirst (s : State) (core cx line : Nat) : State :=
  match (s.slice (homeOf line)).side.find? fun e => e.line == line with
  | none => s
  | some e => (e.slots.filter fun w => !(w.core == core && w.cx == cx)).foldl (fun s w => commitSlice s w.core w.cx (homeOf line)) s

/-- A region's registration at a line (R148 to R151, R461). Answers the cause of an abort, if any: a write for which no position is left has
an empty interval (log entry 76). -/
def register (s : State) (core cx line : Nat) (write : Bool) : Option Nat × State :=
  let s := commitsFirst s core cx line
  let c := s.ctxAt core cx
  let strict := !bitOf c.erstat 9
  let (wts, rts) := positionOf s line
  match (if write then posAfter (wmax wts rts) else some wts) with
  | none => (some 1, s)
  | some least =>
  let lo := wmax c.erlo least
  let made := makeEntry s line
  let s := made.getD s
  let slots := match (s.slice (homeOf line)).side.find? fun e => e.line == line with
    | some e => e.slots
    | none => []
  let own := slots.find? fun w => w.core == core && w.cx == cx
  let mine := own.isSome
  let room := made.isSome && (mine || slots.length < 4)
  if write && !room then (some 3, s)
  else
    let clamped := !room
    let hi := if clamped then wmin c.erhi lo else c.erhi
    let carried : Interval := if clamped then ⟨lo, lo⟩ else ⟨lo, hi⟩
    let (s, r, slots) := meetRegistrants s (homeOf line) core cx write strict false carried ⟨⟨lo, hi⟩, none⟩ slots
    let reader := !write || own.any fun w => w.reader
    let writer := write || own.any fun w => w.writer
    let slot : SideSlot := ⟨core, cx, reader, writer, strict, r.own.lo, r.own.hi⟩
    let slots := if clamped then slots
      else if mine then slots.map fun w => if w.core == core && w.cx == cx then slot else w
      else slots ++ [slot]
    let s := if made.isSome then modEntry s line fun e => { e with slots := slots, rts := if clamped then wmax e.rts lo else e.rts }
      else s.modSlice (homeOf line) fun k => { k with floor := wmax k.floor lo }
    let s := s.modCtxAt core cx fun c =>
      let c := { c with erlo := r.own.lo, erhi := r.own.hi }
      if clamped then c.setErstat (maskOf 11 1) (maskOf 11 1)
      else { c with
        regLines := (line, writer) :: c.regLines.filter fun p => p.1 != line
        early := c.early.filter fun p => !(p.1 == line && (write || !p.2)) }
    (r.abort, s)

/-- Apply a narrowing at the core (R150): a region that commits, or none, ignores it (R153). -/
def applyNarrow (s : State) (n : Narrow) : State :=
  s.modCtxAt n.core n.cx fun c =>
    if !c.regionOpen || c.commit.isSome then c
    else match n.upper, n.bound with
      | true, some b => { c with erhi := wmin c.erhi b }
      | _, b =>
        let i := Interval.above ⟨c.erlo, c.erhi⟩ b
        { c with erlo := i.lo, erhi := i.hi }

/-- Apply every narrowing on its way to a context (log entry 11). -/
def applyNarrows (s : State) (core cx : Nat) : State :=
  let (hit, rest) := s.dev.narrows.partition fun n => n.core == core && n.cx == cx
  hit.foldl applyNarrow (s.modDev fun d => { d with narrows := rest })

/-- Is the interval of a region empty (R150)? -/
def Ctx.intervalEmpty (c : Ctx) : Bool := c.erlo.toNat > c.erhi.toNat

/-- The region has committed: its SPEC lines stay, clean; ERSTAT.OPEN and CAUSE are 0 (R153, R292). -/
def finishCommit (s : State) (core cx : Nat) : State :=
  let clean (l : L1Line) : L1Line := if l.spec == some cx then { l with spec := none, dirty := 0, mark := 0 } else l
  let s := (dropNarrows s core cx).modCore core fun k => { k with l1 := k.l1.map clean }
  s.modCtxAt core cx fun c => { c with
    erstat := abortStat c.erstat 0 0 0, ckpt := none, commit := none, regLines := [], early := [], abort := none }

/-- A commit under way is carried through: every slice applies it, and the region has committed. -/
def settleCommit (s : State) (core cx : Nat) : State :=
  match (s.ctxAt core cx).commit with
  | none => s
  | some k => finishCommit (k.slices.foldl (fun s n => commitSlice s core cx n) s) core cx

/-- The slices where a region holds a slot. -/
def Ctx.regSlices (c : Ctx) : List Nat := (c.regLines.map fun p => homeOf p.1).eraseDups

/-- The bytes of a region's SPEC lines, by line (R153). -/
def specWrites (k : Core) (cx : Nat) : List (Nat × List (Nat × Byte)) :=
  (k.l1.filter fun l => l.spec == some cx).map fun l => (l.pa, maskedBytes l.pa l.dirty l.data)

/-- A read that home serves raises the reader's ERLO to the line's wts, also where the region has registered before and its copy has gone
(R149, R157). -/
def sawLine (s : State) (core cx line : Nat) : State :=
  if (s.ctxAt core cx).regionOpen then s.modCtxAt core cx fun c => { c with erlo := wmax c.erlo (positionOf s line).1 } else s

/-! ### The first access to a line (R47, R148) -/

/-- The first access of an open region to a line: the core's combined and dirty bytes of it, and dirty RC bytes of the sorus, go home;
its older operations on it are performed; a store becomes the only holder; the line registers; a copy that was held is served afresh
from home. Answers the cause of an abort, if any. -/
def touchLine (s : State) (core cx va : Nat) (a : Attr) (write : Bool) : Option Nat × State :=
  let asid := (s.ctxAt core cx).asid
  let line := lineOf a.pa
  let s := sendWcFor s core line
  let s := ((s.core core).l1.filter fun l => l.pa == line).foldl (fun s l => writeBack s core l) s
  let s := drainLine (beforeFill s core asid va line) core line
  let s := if write && a.kind == 0 then becomeOnly s core asid va line else s
  match register s core cx line write with
  | (some cause, s) => (some cause, s)
  | (none, s) => (none, match l1Find s core asid va with
    | some l => if l.spec.isSome then s else l1Drop s core asid va
    | none => s)

end Sys2Proof.Machine
end

