-- ==== Sys2Proof/Machine/Tiles.lean ====
section
/-!
DEFINITION. Tiles as data: elements, bytes, cortex, metadata words, verification and repair (R18 to R21, R185 to R187, R294 to R316).
-/
namespace Sys2Proof.Machine

namespace Tile

/-- The encoding at (i, j); padding is zero (R19). -/
def enc (t : Tile) (i j : Nat) : Nat := if i < t.rows && j < t.cols then t.elems.getD (i * t.cols + j) 0 else 0

/-- Width of an element in bytes; 1 where the format is none. -/
def width (t : Tile) : Nat :=
  match t.fmt with
  | some f => f.bytes
  | none => 1

/-- Positions of a shape, row by row. -/
def positions (rows cols : Nat) : List (Nat × Nat) := ((upTo rows).map fun i => (upTo cols).map fun j => (i, j)).flatten

/-- The 32-bit parts of an encoding that the checks sum: a 64-bit element is two (R185). -/
def parts (w n : Nat) : List Nat := if w = 8 then [n % 2 ^ 32, n / 2 ^ 32] else [n]

/-- Check columns of a shape (R185). -/
def checkCols (w cols : Nat) : Nat := if w = 8 then 2 * cols else cols

/-- The encoding that check column j of row i covers. -/
def checkEnc (t : Tile) (i j : Nat) : Nat :=
  if t.width = 8 then (parts 8 (t.enc i (j / 2))).getD (j % 2) 0 else t.enc i j

def sum32 (l : List Nat) : BitVec 32 := BitVec.ofNat 32 (l.foldl (· + ·) 0)

/-- The row checks computed from the elements (R185). -/
def rowChecks (t : Tile) : List (BitVec 32) :=
  (upTo t.rows).map fun i => sum32 ((upTo (checkCols t.width t.cols)).map fun j => t.checkEnc i j)

/-- The column checks computed from the elements (R185). -/
def colChecks (t : Tile) : List (BitVec 32) :=
  (upTo (checkCols t.width t.cols)).map fun j => sum32 ((upTo t.rows).map fun i => t.checkEnc i j)

/-- The tile with every check computed afresh (R185, R316). -/
def withChecks (t : Tile) : Tile := { t with rowck := t.rowChecks, colck := t.colChecks }

/-- A fresh tile of a shape from its encodings, row by row: VALID, cortex computed (R294, R320). -/
def make (rows cols : Nat) (f : Fmt) (dom : Bool) (elems : List Nat) : Tile :=
  withChecks ⟨true, rows, cols, some f, dom && f.hasDomain, elems, [], [], []⟩

/-- A tile of a shape from a function of the position. -/
def ofFn (rows cols : Nat) (f : Fmt) (dom : Bool) (e : Nat → Nat → Nat) : Tile :=
  make rows cols f dom ((positions rows cols).map fun p => e p.1 p.2)

/-- Replace an element: its row check and column checks follow by subtraction and addition (R187). -/
def setElem (t : Tile) (i j new : Nat) : Tile :=
  let old := t.enc i j
  let w := t.width
  let upd (l : List (BitVec 32)) (k : Nat) (o n : Nat) : List (BitVec 32) :=
    (upTo (max l.length (k + 1))).map fun x =>
      if x = k then l.getD x 0 - BitVec.ofNat 32 o + BitVec.ofNat 32 n else l.getD x 0
  let po := parts w old
  let pn := parts w new
  let row := (upTo pn.length).foldl (fun l h => upd l i (po.getD h 0) (pn.getD h 0)) t.rowck
  let col := (upTo pn.length).foldl (fun l h => upd l (j * pn.length + h) (po.getD h 0) (pn.getD h 0)) t.colck
  { t with elems := t.elems.set (i * t.cols + j) new, rowck := row, colck := col }

/-- Replace an element's encoding in place, the cortex unchanged (R186, R361). -/
def pokeElem (t : Tile) (i j new : Nat) : Tile := { t with elems := t.elems.set (i * t.cols + j) new }

/-- The outcome of a verification (R186, R314, R315): state, crossing, counts of disagreeing checks. -/
structure Verdict where
  state : Nat
  row : Nat
  col : Nat
  nr : Nat
  nc : Nat
  /-- the repaired 32-bit part -/
  repaired : Nat
deriving DecidableEq, Repr

/-- Verification of the stored cortex against the elements (R186, R315). -/
def verify (t : Tile) : Verdict :=
  let rc := t.rowChecks
  let cc := t.colChecks
  let dr := (upTo 32).filterMap fun i =>
    let d := t.rowck.getD i 0 - rc.getD i 0
    if d = 0 then none else some (i, d)
  let dc := (upTo 128).filterMap fun j =>
    let d := t.colck.getD j 0 - cc.getD j 0
    if d = 0 then none else some (j, d)
  match dr, dc with
  | [], [] => ⟨0, 0, 0, 0, 0, 0⟩
  | [(i, d)], [(j, e)] =>
    let w := t.width
    let half := if w = 8 then 32 else 8 * w
    let r := (t.checkEnc i j + d.toNat) % 2 ^ 32
    if d = e && r < 2 ^ half && i < t.rows && j < checkCols w t.cols then ⟨1, i, j, 1, 1, r⟩ else ⟨2, 0, 0, 1, 1, 0⟩
  | a, b => ⟨2, 0, 0, a.length, b.length, 0⟩

/-- The status word (R314). -/
def Verdict.word (v : Verdict) : Word :=
  atBit 32 v.nc ||| atBit 24 v.nr ||| atBit 16 v.state ||| atBit 7 v.row ||| wordOf v.col

/-- The repair writes the element at the crossing, or the half of a 64-bit element; the cortex stays (R186, R314). -/
def repair (t : Tile) (v : Verdict) : Tile :=
  if t.width = 8 then
    let old := t.enc v.row (v.col / 2)
    let new := if v.col % 2 = 0 then old / 2 ^ 32 * 2 ^ 32 + v.repaired else v.repaired * 2 ^ 32 + old % 2 ^ 32
    t.pokeElem v.row (v.col / 2) new
  else t.pokeElem v.row v.col v.repaired

/-- The metadata word (R21). -/
def metaWord (t : Tile) : Word :=
  if t.valid then
    atBit 23 1 ||| atBit 21 (if t.dom then 1 else 0) ||| atBit 16 (optFmtCode t.fmt) ||| atBit 8 t.cols ||| wordOf t.rows
  else 0

/-- Byte x of row i (R19). -/
def rowByte (t : Tile) (i x : Nat) : Byte :=
  BitVec.ofNat 8 (t.enc i (x / t.width) / 2 ^ (8 * (x % t.width)))

/-- Byte at an offset of the 4 KiB of data (R18). -/
def dataByte (t : Tile) (o : Nat) : Byte := t.rowByte (o / 128) (o % 128)

/-- Byte at an offset of the 640 bytes of cortex (R20). -/
def cortexByte (t : Tile) (o : Nat) : Byte :=
  let w := if o < 128 then t.rowck.getD (o / 4) 0 else t.colck.getD ((o - 128) / 4) 0
  BitVec.ofNat 8 (w.toNat / 2 ^ (8 * (o % 4)))

/-- The bytes of the shape's part of row i. -/
def rowBytes (t : Tile) (i : Nat) : List Byte := (upTo (t.cols * t.width)).map fun x => t.rowByte i x

/-- The encodings that a row's bytes stand for. -/
def rowElems (w : Nat) : List Byte → Nat → List Nat
  | _, 0 => []
  | bs, n + 1 => leNat (bs.take w) :: rowElems w (bs.drop w) n

/-- The tile that an image's data, cortex and metadata stand for (R407, R408). -/
def ofImage (data : Nat → Byte) (cortex : Nat → Byte) (m : Word) : Tile :=
  if !bitOf m 23 then empty
  else
    let rows := min (fieldOf m 0 6) 32
    let cols := fieldOf m 8 8
    let f := fmtOf (fieldOf m 16 5)
    let w := match f with
      | some f => f.bytes
      | none => 1
    let word (o : Nat) : BitVec 32 := BitVec.ofNat 32 (leNat ((upTo 4).map fun x => cortex (o + x)))
    ⟨true, rows, cols, f, bitOf m 21,
      (positions rows cols).map fun p => leNat ((upTo w).map fun x => data (p.1 * 128 + p.2 * w + x)),
      (upTo 32).map fun i => word (4 * i), (upTo 128).map fun j => word (128 + 4 * j), []⟩

end Tile

/-! ### Matrix arithmetic (R178 to R180, R188, R189, R309 to R311) -/

/-- The accumulated exact value of C + Σ a·b, and IV (R178). `terms` holds the products' values. -/
def exactSum (rd : Bool) (c : Val) (terms : List Val) : Val × Flags :=
  let all := c :: terms
  let pinf := all.any fun v => v == .inf false
  let ninf := all.any fun v => v == .inf true
  if all.any Val.isNan then (.nan false, Flags.when (pinf && ninf) Flags.iv)
  else if pinf && ninf then (.nan false, Flags.iv)
  else if pinf then (.inf false, 0)
  else if ninf then (.inf true, 0)
  else
    let e := all.foldl (fun e v => min e v.expOf) 0
    let s := all.foldl (fun x v => x + v.scaled e) 0
    if s = 0 then
      let allZero := all.all fun v => match v with
        | .zero _ => true
        | _ => false
      let neg := if allZero && (all.all Val.isNeg) then true
        else if allZero && (all.all fun v => !v.isNeg) then false else rd
      (.zero neg, 0)
    else (.mk (s < 0) s.natAbs e, 0)

/-- One output element of a matrix instruction: the exact value and IV of products and sum, NaN inputs included (R168, R178). -/
def matElem (rd : Bool) (c : Val) (ab : List (Val × Val)) : Val × Flags :=
  let prods := ab.map fun p => Val.mul p.1 p.2
  let (v, f) := exactSum rd (match c with | .nan _ => .nan false | v => v) (prods.map Prod.fst)
  (v, f ||| c.sigFlag ||| Flags.all (prods.map Prod.snd))

/-- floor(log2 |x|) of a delivered value, at least the format's least normal exponent (R188). -/
def expoOf (s : FloatSpec) (v : Val) : Int :=
  match v with
  | .fin _ m e _ => max (e + (bitLen m : Int) - 1) (1 - s.bias)
  | _ => 1 - s.bias

/-- The check of one row or column of `n` outputs (R188): exact values, delivered values, whether an exact value overflowed.
Answers whether it mismatches. An exact value that is infinite makes S infinite, and one that is a NaN leaves it no number: neither agrees
with a finite T (log entry 102). -/
def lineMismatch (s : FloatSpec) (rne : Bool) (l : List (Val × Val × Bool)) : Bool :=
  let skip := l.any fun (_, o, ov) => ov || o.isNan || (match o with | .inf _ => true | _ => false)
  if skip then false
  else if l.any fun (x, _, _) => x.isNan || (match x with | .inf _ => true | _ => false) then true
  else
    let e := l.foldl (fun e (x, o, _) => min e (min x.expOf o.expOf)) (-400)
    let diff := l.foldl (fun d (x, o, _) => d + (x.scaled e - o.scaled e)) 0
    let top := l.foldl (fun m (_, o, _) => max m (expoOf s o)) (1 - s.bias)
    -- tol = n × 2^(top − p), or one more for the directed modes
    let te := top - s.p + (if rne then 0 else 1)
    if te ≥ e then diff.natAbs > l.length * 2 ^ (te - e).toNat
    else diff.natAbs * 2 ^ (e - te).toNat > l.length

/-- Do the outputs of an M × N floating result fail the arithmetic check (R188)? `ex` holds the exact values row by row. -/
def matMismatch (s : FloatSpec) (rnd : Rnd) (rows cols : Nat) (ex : List (Val × Bool)) (outs : List Nat) : Bool :=
  let at' (m n : Nat) : Val × Val × Bool :=
    let x := ex.getD (m * cols + n) (.zero false, false)
    (x.1, s.value (outs.getD (m * cols + n) 0), x.2)
  let rne := rnd == .rne
  ((upTo cols).any fun n => lineMismatch s rne ((upTo rows).map fun m => at' m n)) ||
  ((upTo rows).any fun m => lineMismatch s rne ((upTo cols).map fun n => at' m n))

/-- The integer check: S mod 2^32 = T mod 2^32 on the values before any clamp (R188). -/
def intMismatch (rows cols : Nat) (ex : List Int) (outs : List Int) : Bool :=
  let d (m n : Nat) : Int := ex.getD (m * cols + n) 0 - outs.getD (m * cols + n) 0
  let bad (l : List Int) : Bool := l.foldl (· + ·) 0 % 4294967296 != 0
  ((upTo cols).any fun n => bad ((upTo rows).map fun m => d m n)) ||
  ((upTo rows).any fun m => bad ((upTo cols).map fun n => d m n))

/-- The value of an E8M0 scale code (R169): none for NaN. -/
def scaleExp (e : Nat) : Option Int := if e = 0xff then none else some ((e : Int) - 127)

/-- The value of element (i, j) of a block-scaled tile under its scale tile (R169, R170). -/
def mxValue (t scales : Tile) (i j : Nat) : Val :=
  match t.fmt with
  | none => .nan false
  | some f =>
    match scaleExp (scales.enc i (j / 32)) with
    | none => .nan false
    | some k => (f.value t.dom (t.enc i j)).shift k

/-- The value of element (i, j) read under the tile's own domain (R165). -/
def Tile.value (t : Tile) (i j : Nat) : Val :=
  match t.fmt with
  | some f => f.value t.dom (t.enc i j)
  | none => .nan false

/-- The integer at (i, j) of an integer tile. -/
def Tile.int (t : Tile) (i j : Nat) : Int :=
  match t.fmt with
  | some f => f.intValue (t.enc i j)
  | none => 0

/-! ### Elementwise operations (R321 to R338) -/

/-- The three-operand arithmetic of R324 and R327 on exact values; `rd` is .rd. -/
inductive TileOp
  | add | sub | mul | fma | abs | neg
deriving DecidableEq, Repr

def TileOp.eval (op : TileOp) (rd : Bool) (a b c : Val) : Val × Flags :=
  match op with
  | .add => Val.add rd a b
  | .sub => Val.add rd a b.neg
  | .mul => Val.mul a b
  | .fma =>
    let (p, f) := Val.mul a b
    let (v, g) := Val.add rd p c
    (v, f ||| g)
  | .abs => (a.abs, 0)
  | .neg => (a.neg, 0)

/-- The same on integers (R325): the exact value, which a 64-bit scalar can take out of 64 bits (log entry 106). -/
def TileOp.evalInt (op : TileOp) (a b c : Int) : Int :=
  match op with
  | .add => a + b
  | .sub => a - b
  | .mul => a * b
  | .fma => a * b + c
  | .abs => a.natAbs
  | .neg => -a

/-- A broadcast scalar in the scalar form of a format (R321). -/
def scalarVal (f : Fmt) (g : Word) : Val :=
  if f.isInt then .ofInt (signedOf 64 g.toNat)
  else if f == .f64 then specF64.value g.toNat
  else specF32.value (g.toNat % 2 ^ 32)

/-- A broadcast scalar converted into a format for TMIN and TMAX: rounded .rne and saturating (R326). -/
def scalarInto (f : Fmt) (ext : Bool) (g : Word) : Nat × Flags :=
  match f.int? with
  | some (w, signed) => deliverInt w signed true (signedOf 64 g.toNat)
  | none => f.encode ext .rne 0 true (scalarVal f g)

/-- The smaller or the larger of two encodings of one format (R326), and IV. -/
def pickEnc (f : Fmt) (big : Bool) (a b : Nat × Bool) : (Nat × Bool) × Flags :=
  if f.isInt then
    let x := f.intValue a.1
    let y := f.intValue b.1
    (if (if big then x ≥ y else x ≤ y) then a else b, 0)
  else
    let x := f.value a.2 a.1
    let y := f.value b.2 b.1
    let fl := x.sigFlag ||| y.sigFlag
    if x.isNan && y.isNan then ((f.nan, a.2), fl)
    else if x.isNan then (b, fl)
    else if y.isNan then (a, fl)
    else (if picksFirst big x y then a else b, fl)

/-- The least power of two not below n, up to 128 (R338). -/
def treeSize (n : Nat) : Nat :=
  if n ≤ 1 then 1 else if n ≤ 2 then 2 else if n ≤ 4 then 4 else if n ≤ 8 then 8 else if n ≤ 16 then 16
  else if n ≤ 32 then 32 else if n ≤ 64 then 64 else 128

/-- One level of the tree: neighbours are added and rounded to FD. -/
def treeLevel (s : FloatSpec) (rnd : Rnd) (sat : Bool) : List Nat → List Nat × Flags
  | a :: b :: t =>
    let (v, f) := Val.add (rnd == .rd) (s.value a) (s.value b)
    let (e, g) := s.encode rnd 0 sat v
    let (r, h) := treeLevel s rnd sat t
    (e :: r, f ||| g ||| h)
  | l => (l, 0)

/-- The pairwise tree of a floating .sum (R338). Fuel: seven levels. -/
def treeSum (s : FloatSpec) (rnd : Rnd) (sat : Bool) : Nat → List Nat → Nat × Flags
  | 0, l => (l.headD 0, 0)
  | n + 1, l =>
    match l with
    | [x] => (x, 0)
    | l =>
      let (r, f) := treeLevel s rnd sat l
      let (x, g) := treeSum s rnd sat n r
      (x, f ||| g)

/-- Convert one block of values into an MX format (R171): the scale code, the element codes, the flags. -/
def mxBlock (f : Fmt) (ext : Bool) (rnd : Rnd) (r : Nat → Nat) (vs : List Val) : Nat × List Nat × Flags :=
  let inf := vs.any fun v => match v with | .inf _ => true | _ => false
  let sig := Flags.all (vs.map Val.sigFlag)
  if inf || vs.any Val.isNan then (0xff, vs.map fun _ => 0, Flags.when inf Flags.iv ||| sig)
  else
    let logs := vs.filterMap fun v => match v with
      | .fin _ m e _ => some (e + (bitLen m : Int) - 1)
      | _ => none
    match logs with
    | [] => (0x7f, vs.map fun _ => 0, 0)
    | l :: ls =>
      let x := ls.foldl max l
      let e := max (-127) (min 127 (x - f.emax ext))
      let outs := (upTo vs.length).map fun i => f.encode ext rnd (r i) true ((vs.getD i (.zero false)).shift (-e))
      ((e + 127).toNat, outs.map Prod.fst, Flags.all (outs.map Prod.snd))

end Sys2Proof.Machine
end

