-- ==== Sys2Proof/Machine/Tasks.lean ====
section
/-!
DEFINITION. Tasks and the launch unit: events posted to contexts, trace records, decrements and cells, packets and completion records,
fan-out, cancels and kills, the context-save image, task start (R349 to R352, R368 to R390, R401, R406 to R408, R445, R446, R462).
-/
namespace Sys2Proof.Machine

/-! ### Events of units (R395, R412) -/

/-- Raise an event of the firmware group (R395). -/
def fwEvent (s : State) (code : Nat) (v : Word) : State := s.modDev fun d => { d with fwEvents := d.fwEvents ++ [(code, v)] }

/-- A hard event of a core counts in its sorus (R412). -/
def hardEvent (s : State) (core : Nat) : State :=
  s.modSorus (sorusOf core) fun k => { k with hardEvents := k.hardEvents + 1 }

/-! ### Trace records (R445, R446) -/

/-- Number of records of a trace or hash ring. -/
def Ring.size (r : Ring) : Nat := 2 ^ (fieldOf r.base 0 4 + 10)

/-- Append a 32-byte record to a ring, or count a drop. -/
def ringAppend (s : State) (r : Ring) (ws : List Word) : Ring × State :=
  if (r.prod + 1) % r.size == r.cons % r.size then
    ({ r with ctl := mergeMask (maskOf 32 16) (atBit 32 (min (fieldOf r.ctl 32 16 + 1) 0xFFFF)) r.ctl }, s)
  else
    let at' := fieldOf r.base 12 40 * 4096 + r.prod % r.size * 32
    ({ r with prod := (r.prod + 1) % r.size }, homeStore s at' ((ws.map fun w => leBytes 8 w.toNat).flatten))

/-- What a trace record names beside its kind and PC. -/
structure TraceOf where
  engine : Nat
  core : Nat
  queue : Nat
  asid : Nat
  index : Nat
  seq : Nat

/-- Write a trace record if its kind is enabled. -/
def trace (s : State) (kind : Nat) (t : TraceOf) (pc : Word) : State :=
  let r := s.dev.trace
  if bitOf r.ctl 0 && bitOf r.ctl (8 + kind) then
    let w0 := wordOf kind ||| atBit 3 t.engine ||| atBit 6 t.core ||| atBit 13 t.queue ||| atBit 16 t.asid ||| atBit 32 t.index
    let (r, s) := ringAppend s r [w0, wordOf t.seq, s.launch.time, pc]
    s.modDev fun d => { d with trace := r }
  else s

/-! ### Packets (R369) -/

end Sys2Proof.Machine

namespace Sys2Proof.Packet

def queue (p : Packet) : Nat := fieldOf p.ctl 0 3
def msix (p : Packet) : Nat := fieldOf p.ctl 5 11
def urg (p : Packet) : Bool := bitOf p.ctl 16
def gfail (p : Packet) : Bool := bitOf p.ctl 17
def irq (p : Packet) : Bool := bitOf p.ctl 18
def nfm (p : Packet) : Bool := bitOf p.ctl 19
def asid (p : Packet) : Nat := fieldOf p.ctl 20 12
def phase (p : Packet) : Nat := fieldOf p.ctl 32 16
def graph (p : Packet) : Nat := fieldOf p.ctl 48 16
def count (p : Packet) : Nat := fieldOf p.cnt 0 32
def astride (p : Packet) : Nat := fieldOf p.cnt 32 16
def join (p : Packet) : Nat := fieldOf p.cnt 48 16

/-- A packet from its 64 bytes. -/
def ofBytes (bs : List Byte) : Packet :=
  let w (i : Nat) : Word := wordOfBytes ((bs.drop (8 * i)).take 8)
  ⟨w 0, w 1, w 2, w 3, w 4, w 5, w 6, w 7⟩

/-- CREC names a record that can be written. -/
def crecOk (p : Packet) : Bool := p.crec != 0 && p.crec.toNat % 32 == 0

end Sys2Proof.Packet

namespace Sys2Proof.Machine

/-- The targets of a launch, in ascending core number (R369). -/
def targets (s : State) (p : Packet) : List Nat :=
  (activeCores s).filter fun c => bitOf p.shape (sorusOf c) && bitOf p.shape (16 + c % 8)

/-- A launch or continuation PC that is well formed: canonical, in the job half, a multiple of 4 (R369). -/
def entryPcOk (pc : Word) : Bool := jobHalf pc.toNat && pc.toNat % 4 == 0

/-- Configuration word of a queue (R371). -/
def queueConf (s : State) (q : Nat) : Word := tget s.launch.conf q 0

/-- Packets of a queue. -/
def queueLen (s : State) (q : Nat) : Nat := (s.launch.queued.filter fun e => e.queue == q).length

/-- The reasons of R370 but for a full queue and the EN and ASID checks, which firmware's packets skip (R421). -/
def packetBad (s : State) (p : Packet) : Bool :=
  fieldOf p.ctl 3 2 != 0 || fieldOf p.shape 24 40 != 0 || !entryPcOk p.pc || p.count == 0 || (targets s p).isEmpty ||
  p.crec.toNat % 32 != 0 || (p.urg && !bitOf (queueConf s p.queue) 2)

/-- The reasons of R370 other than a full queue. -/
def refuses (s : State) (p : Packet) : Bool :=
  let conf := queueConf s p.queue
  packetBad s p || !bitOf conf 0 || (p.asid != fieldOf conf 20 12 && !bitOf conf 3)

/-- The local deadline (R372). -/
def localDeadline (time : Word) (p : Packet) : Nat :=
  if p.deadline == 0 then 2 ^ 64 - 1
  else if p.deadline.toNat ≤ p.stamp.toNat then time.toNat
  else time.toNat + (p.deadline.toNat - p.stamp.toNat)

/-- Accept a packet into its queue: the sequence number it takes (R368). -/
def acceptPacket (s : State) (p : Packet) (fw : Bool) : Nat × State :=
  let n := s.launch.seq
  (n, s.modLaunch fun l =>
    { l with seq := n + 1, queued := l.queued ++ [⟨p, p.queue, localDeadline l.time p, n, fw⟩] })

/-- RCOUNT of a queue rises, saturating (R370). -/
def countRefused (s : State) (q : Nat) : State :=
  s.modLaunch fun l =>
    let c := tget l.conf q 0
    { l with conf := tset l.conf q (mergeMask (maskOf 32 16) (atBit 32 (min (fieldOf c 32 16 + 1) 0xFFFF)) c) }

/-! ### Completion records (R374, R462) -/

/-- The translation that the launch unit uses for a job: a record needs W alone (R462; log entry 33). -/
def jobXlat (s : State) (asid : Nat) : Xlat :=
  let j := s.job asid
  ⟨mergeMask (maskOf 0 12) (wordOf asid) j.ptroot, j.pasidr, .supervisor⟩

/-- Write one word as an engine of a job writes (R462): none where its translation faults. `after` lists the messages that go before it;
answers its own where the page is forwarded. A message to the host under PASIDR.ATSEN waits for the translation that it lacks (R91). -/
def engineWord (s : State) (x : Xlat) (va : Nat) (w : Word) (after : List Nat) : Option (List Nat × State) :=
  if !canonical va then none
  else match translate s 0 x va .write false with
    | (.error _, _) => none
    | (.ok a, s) =>
      let bs := leBytes 8 w.toNat
      if a.fwd == 0 then some ([], homeStore s a.pa bs)
      else
        let p : PostOf := match ownerWay s 0 x va a with
          | some way => { owner := a.ownerCode, addr := way.1, mask := byteMask 0 8, bytes := bs, after := after, tag := way.2 }
          | none => { owner := a.ownerCode, addr := va, mask := byteMask 0 8, bytes := bs, after := after, tag := ⟨fieldOf x.pasidr 0 20, false⟩
                      ats := atsOf s 0 x va }
        let (id, s) := post (if p.ats.isSome then askAts s 0 x va else s) p
        some ([id], s)

/-- The words of a record, and then its STATUS word as a release at system scope gives: behind the others (R374). Answers the message of the
STATUS word where the page is forwarded. -/
def engineRecord (s : State) (x : Xlat) (sent : List Nat) (status : Nat × Word) : List (Nat × Word) → Option (List Nat × State)
  | [] => engineWord s x status.1 status.2 sent
  | (va, w) :: t => match engineWord s x va w [] with
    | none => none
    | some (ids, s) => engineRecord s x (sent ++ ids) status t

/-- How a launch ended: the STATUS, SEQ and ENDED words of its record (R374). -/
structure RecordOf where
  status : Word
  seq : Nat
  ended : Nat

/-- Is a vector masked in the MSI-X table (R451): bit 0 of the last of its four 32-bit words (log entry 101)? -/
def msixMasked (d : Device) (v : Nat) : Bool := bitOf (tget d.msixTable (2 * v + 1) 0) 32

/-- An MSI-X message is sent, or stands in the pending-bit array while its vector is masked (R451). -/
def deliverMsix (s : State) (v : Nat) : State :=
  s.modDev fun d =>
    if msixMasked d v then { d with msixPending := v :: d.msixPending.filter (· != v) } else { d with msix := d.msix ++ [v] }

/-- Send an MSI-X message after the messages `after`: it passes no write that was posted to the host before it (R123, R374), and it is sent
under the job's PASID (R452). -/
def sendMsix (s : State) (asid v : Nat) (after : List Nat) : State :=
  if !after.isEmpty || s.dev.posted.any (fun p => p.owner == 0) then
    (post s { owner := 0, addr := 0, mask := 0, bytes := [], after := after, tag := ⟨fieldOf (s.job asid).pasidr 0 20, false⟩
              msix := some v }).2
  else deliverMsix s v

/-- Write the completion record of a packet, if it names one, and send its MSI-X message. -/
def writeRecord (s : State) (p : Packet) (r : RecordOf) : State :=
  let done (r : List Nat × State) : State := if p.irq then sendMsix r.2 p.asid p.msix r.1 else r.2
  if !p.crecOk then s
  else
    let a := p.crec.toNat
    let at' (o : Nat) : Nat := (a + o) % 2 ^ 64
    match engineRecord s (jobXlat s p.asid) [] (a, r.status) [(at' 8, wordOf r.seq), (at' 16, wordOf r.ended), (at' 24, 0)] with
    | some r => done r
    | none => postRoot s 0x68 p.crec

/-- STATUS bits: DONE with the given flags, FCOUNT and LAST. -/
def recordStatus (late dropped cancelled faulted killed refused : Bool) (fcount last : Nat) : Word :=
  let b (i : Nat) (x : Bool) : Word := if x then atBit i 1 else 0
  1 ||| b 1 late ||| b 2 dropped ||| b 3 cancelled ||| b 4 faulted ||| b 5 killed ||| b 6 refused ||| atBit 16 fcount |||
    atBit 32 last

/-- A completed launch of a job with hash passes enabled awaits its pass (R449). -/
def noteHash (s : State) (asid seq : Nat) : State :=
  if (s.job asid).hash then s.modJob asid fun j => { j with hashDue := j.hashDue ++ [seq] } else s

/-- What the unit traces of a packet. -/
def traceOfPacket (s : State) (q asid seq : Nat) : TraceOf := ⟨0, rootCore s, q, asid, 0, seq⟩

/-- Complete a packet that never ran (R374, R381), which is traced (R446). -/
def completeQueued (s : State) (q : Queued) (late dropped cancelled : Bool) : State :=
  let s := s.modLaunch fun l => { l with queued := l.queued.filter fun e => e.seq != q.seq }
  let s := writeRecord s q.pkt ⟨recordStatus late dropped cancelled false false false 0 0, q.seq, 0⟩
  noteHash (trace s 6 (traceOfPacket s q.queue q.pkt.asid q.seq) q.pkt.pc) q.pkt.asid q.seq

/-- A refused packet of the window or the mailbox (R370). -/
def refusePacket (s : State) (q : Nat) (p : Packet) (record : Bool) : State :=
  let s := countRefused s q
  if record && p.crecOk then writeRecord s p ⟨recordStatus false false false false false true 0 0, 0, 0⟩ else s

/-! ### Counters of the levels (R368) -/

/-- Launches of a kind that are queued or not complete. -/
def launchesWhere (s : State) (f : Packet → Bool) : Nat :=
  (s.launch.queued.filter fun e => f e.pkt).length + (s.launch.ctrs.filter fun e => f e.2.pkt).length

def graphCounter (s : State) (asid graph : Nat) : Nat := launchesWhere s fun p => p.asid == asid && p.graph == graph
def phaseCounter (s : State) : Nat := launchesWhere s fun p => p.phase == s.launch.phase
def jobCounter (s : State) (asid : Nat) : Nat := launchesWhere s fun p => p.asid == asid

/-! ### Decrements (R350) -/

/-- Send a decrement to a cell, from its handle; `kind` 0 plain, 1 FAULTED, 2 KILLED. -/
def sendDecr (s : State) (src : Option Nat) (handle n kind cause : Nat) : State :=
  if handle == 0xFFFF then s
  else s.modDev fun d => { d with decrs := d.decrs ++ [⟨handle / 256 % 128, handle % 256, n, kind, cause, src⟩] }

/-- `k` tasks of a launch have ended in one way: its counter falls by k. -/
def counterFall (s : State) (lctr k kind cause : Nat) : State :=
  match s.launch.ctrs.lookup lctr with
  | none => s
  | some c =>
    let bad := kind != 0
    let c' : LaunchCtr := { c with
      left := c.left - k
      ended := if bad then c.ended else c.ended + k
      fcount := if bad then min (c.fcount + k) 0xFFFF else c.fcount
      last := if bad then cause else c.last
      faulted := c.faulted || kind == 1
      killed := c.killed || kind == 2 }
    s.modLaunch fun l => { l with ctrs := tset l.ctrs lctr c' }

/-- `k` tasks that never started end KILLED, each with its own decrement (R380). -/
def killUnstarted (s : State) (join k : Nat) (lctr : Option Nat) (cause : Nat) : State :=
  let s := (List.replicate k ()).foldl (fun s _ => sendDecr s none join 1 2 cause) s
  match lctr with
  | some n => counterFall s n k 2 cause
  | none => s

/-! ### Registrations of waits -/

/-- Rename or withdraw who waits, in every registration (R381, R385). A withdrawn crozier clears JW. -/
def mapWho (s : State) (f : Who → Option Who) : State :=
  let q (w : QWaiter) : Option QWaiter := (f w.who).map fun x => { w with who := x }
  let b (w : BarWaiter) : Option BarWaiter := (f w.who).map fun x => { w with who := x }
  let cell (c : Cell) : Cell := match c.waiter with
    | none => c
    | some w => match f w with
      | some x => { c with waiter := some x }
      | none => { c with waiter := none, ctrl := c.ctrl &&& ~~~(maskOf 34 1) }
  let sorus (k : Sorus) : Sorus := { k with
    barriers := k.barriers.map fun p => (p.1, { p.2 with waiters := p.2.waiters.filterMap b })
    mutexes := k.mutexes.map fun p => (p.1, { p.2 with queue := p.2.queue.filterMap q })
    evlines := k.evlines.map fun p => (p.1, { p.2 with waiters := p.2.waiters.filterMap q }) }
  let slice (k : Slice) : Slice := { k with
    waits := k.waits.filterMap fun w => (f w.who).map fun x => { w with who := x } }
  let fwd (l : List Forwarded) : List Forwarded := l.filterMap fun w => (f w.who).map fun x => { w with who := x }
  let s : State := { s with
    sori := s.sori.map fun p => (p.1, sorus p.2)
    slices := s.slices.map fun p => (p.1, slice p.2)
    cores := s.cores.map fun p => (p.1, { p.2 with cells := p.2.cells.map fun c => (c.1, cell c.2) }) }
  s.modDev fun d => { d with forwarded := fwd d.forwarded }

/-- Withdraw every registration of a context's wait (R381). -/
def withdrawWaits (s : State) (core cx : Nat) : State :=
  let s := mapWho s fun w => if w.core == core && w.cx == cx && w.slot.isNone then none else some w
  let gone (q : PageReq) : PageReq := { q with who := q.who.filter fun w => !(w.1 == core && w.2 == cx) }
  (s.modDev fun d => { d with pageReqs := d.pageReqs.map gone }).modCtxAt core cx fun c =>
    { c with wait := none, heldWait := none, fwdGot := [], pageGot := [] }

/-! ### Save regions and images (R406 to R408, R438) -/

/-- The save region of an ASID: its base, if enabled. -/
def saveBase (s : State) (asid : Nat) : Option Nat :=
  let w := (s.job asid).save
  if bitOf w 0 then some (fieldOf w 21 31 * 2 ^ 21) else none

/-- Size of a slot. -/
def slotSize : Nat := 0x14000

def slotAddr (s : State) (asid slot : Nat) : Nat := (saveBase s asid).getD 0 + slot * slotSize

/-- The first free slot. -/
def freeSlot (s : State) (asid : Nat) : Option Nat :=
  (upTo 256).find? fun n => ((s.job asid).used.lookup n).isNone

/-- The wake kind of an image. -/
def wakeKind (w : Option Wait) : Nat :=
  match w with
  | none => 0
  | some w => match w.kind with
    | .barrier .. | .mutex .. | .evline .. => 1
    | .addr _ => 2
    | .cell _ => 3
    | .channel _ => 4
    | .forward _ => 5
    | .migrate => 6
    | _ => 0

/-- The words below 0x400 of an image (R407). -/
def imageHead (c : Ctx) (cx origin : Nat) (migrated : Bool) (kind : Nat) : List (Nat × Word) :=
  let valid := (upTo 16).foldl (fun n k => if (tget c.tiles k Tile.empty).valid then n + 2 ^ k else n) 0
  [(0x0, wordOf 1 ||| atBit 16 c.asid ||| atBit 28 cx ||| atBit 29 (if migrated then 1 else 0) ||| atBit 32 origin), (0x8, c.pc)] ++
  ((upTo 63).map fun i => (0x10 + 8 * i, tget c.g (i + 1) 0)) ++
  [(0x208, wordOf (c.p.toNat / 2 * 2)), (0x210, c.fpsr), (0x218, c.tcfg), (0x220, c.corectl), (0x228, c.mec0), (0x230, c.mec1),
   (0x238, c.mec2), (0x240, c.mec3), (0x248, c.reptst), (0x250, c.reptpc), (0x258, c.chlast), (0x260, c.cpyerr), (0x268, c.cpyfa),
   (0x270, c.taskjoin), (0x278, c.erlo), (0x280, c.erhi), (0x288, c.erpos), (0x290, c.erstat), (0x298, wordOf kind),
   (0x2A0, wordOf valid)]

/-- Byte i of a word. -/
def byteOf (w : Word) (i : Nat) : Byte := BitVec.ofNat 8 (fieldOf w (8 * i) 8)

/-- One byte of a slot (R407). -/
def imageByte (head : List (Nat × Word)) (tiles : Tab Tile) (o : Nat) : Byte :=
  if o < 0x400 then byteOf ((head.lookup (o - o % 8)).getD 0) (o % 8)
  else
    let k := (o - 0x400) / 0x1300
    let x := (o - 0x400) % 0x1300
    let t := tget tiles k Tile.empty
    if k ≥ 16 || !t.valid then 0
    else if x < 0x1000 then t.dataByte x
    else if x < 0x1280 then t.cortexByte (x - 0x1000)
    else if x < 0x1288 then byteOf t.metaWord (x - 0x1280)
    else 0

/-- The fields of ERSTAT, CHLAST, CPYERR, REPTST and REPTPC that are not reserved (R159, R256, R289, R346). -/
def erstatFields : Word := maskOf 48 16 ||| maskOf 32 7 ||| maskOf 11 1 ||| maskOf 8 2 ||| maskOf 0 4
def chlastFields : Word := maskOf 16 3 ||| maskOf 0 11
def cpyerrFields : Word := maskOf 32 16 ||| maskOf 16 7 ||| maskOf 0 2
def reptstFields : Word := maskOf 32 32 ||| maskOf 16 8 ||| maskOf 8 4 ||| maskOf 0 4
def reptpcFields : Word := maskOf 2 62

/-- A context with the contents of an image (R408), given the image's bytes. Reserved bits of a status register take nothing (R8). -/
def Ctx.restore (c : Ctx) (rd : Nat → Byte) : Ctx :=
  let w (o : Nat) : Word := wordOfBytes ((upTo 8).map fun i => rd (o + i))
  let tile (k : Nat) : Tile :=
    let b := 0x400 + k * 0x1300
    Tile.ofImage (fun o => rd (b + o)) (fun o => rd (b + 0x1000 + o)) (w (b + 0x1280))
  { c with
    g := (upTo 63).foldl (fun t i => if w (0x10 + 8 * i) == 0 then t else tset t (i + 1) (w (0x10 + 8 * i))) []
    p := BitVec.ofNat 8 (fieldOf (w 0x208) 0 8 / 2 * 2 + 1)
    tiles := (upTo 16).foldl (fun t k => if (tile k).valid then tset t k (tile k) else t) []
    pc := w 0x8, fpsr := w 0x210 &&& maskOf 0 6, tcfg := w 0x218 &&& maskOf 0 2, corectl := w 0x220 &&& maskOf 0 1
    mec0 := w 0x228, mec1 := w 0x230, mec2 := w 0x238, mec3 := w 0x240
    reptst := w 0x248 &&& reptstFields, reptpc := w 0x250 &&& reptpcFields
    chlast := w 0x258 &&& chlastFields, cpyerr := w 0x260 &&& cpyerrFields, cpyfa := w 0x268, taskjoin := w 0x270 &&& maskOf 0 16
    erlo := w 0x278, erhi := w 0x280, erpos := w 0x288, erstat := w 0x290 &&& erstatFields }

/-- Does the core have work outstanding that an image waits for (R406)? -/
def coreOutstanding (k : Core) : Bool := !k.engine.isEmpty || !k.nonRet.isEmpty || !k.posted.isEmpty || !k.soParts.isEmpty || k.sends > 0

/-- The uncorrectable flips of a context's tiles. -/
def tileMarks (c : Ctx) : Tab (List Nat) :=
  c.tiles.filterMap fun p => if p.2.ue.isEmpty then none else some (p.1, p.2.ue)

/-- The marks of a saved task's registers, predicates and tiles come back with it (R410, log entry 88). -/
def Ctx.marked (c : Ctx) (v : Saved) : Ctx :=
  let mark (t : Tab Tile) (p : Nat × List Nat) : Tab Tile :=
    match t.lookup p.1 with
    | some x => tset t p.1 { x with ue := p.2 }
    | none => t
  { c with gue := v.gue, pue := v.pue, tiles := v.tue.foldl mark c.tiles }

/-- Save a context's task in a slot and leave the context idle: the registration of its wait follows the task (R385, R386). -/
def saveTask (s : State) (core cx asid slot : Nat) (migrated : Bool) (home : Nat) : State :=
  let s := emptyStores s core
  let c := s.ctxAt core cx
  let head := imageHead c cx core migrated (wakeKind c.wait)
  let s := homeStore s (slotAddr s asid slot) ((upTo slotSize).map (imageByte head c.tiles))
  let wait := if migrated then none else c.wait
  let s := s.modJob asid fun j => { j with used := tset j.used slot ⟨c.task, home, cx, wait, c.retired, c.gue, c.pue, tileMarks c⟩ }
  let s := mapWho s fun w =>
    if w.core == core && w.cx == cx && w.slot.isNone then some { w with core := home, slot := some (asid, slot) } else some w
  s.modCtxAt core cx fun c =>
    { c with active := false, task := none, wait := none, heldWait := none, tiles := [], pin := none, fwdGot := [], pageGot := [] }

/-! ### Fan-out (R376, R377) -/

/-- A fan-out slot counts targets that have placed their entry or counted (R377). -/
def slotFall (s : State) (lctr k : Nat) : State :=
  s.modLaunch fun l =>
    let upd (p : Nat × FanSlot) : Option (Nat × FanSlot) :=
      if p.2.lctr != lctr then some p else if p.2.left ≤ k then none else some (p.1, { p.2 with left := p.2.left - k })
    { l with slots := l.slots.filterMap upd }

/-- A receiver forwards a flit and places its entry. -/
def takeFlit (s : State) (f : FanFlit) : State :=
  let tgts := match s.launch.slots.find? fun p => p.2.lctr == f.range.lctr with
    | some p => p.2.targets
    | none => []
  let kids := ((upTo 4).map fun i => 4 * f.pos + 1 + i).filter fun j => j < tgts.length
  let flits := kids.map fun j => { f with src := f.dst, dst := tgts.getD j 0, pos := j }
  let s := s.modLaunch fun l => { l with flits := l.flits ++ flits }
  if f.pos < f.range.count then
    let p : Placement := ⟨f.dst, ⟨f.asid, f.urg, .range { f.range with next := f.pos }⟩, .stub⟩
    match tryPlace s p with
    | some s => slotFall s f.range.lctr 1
    | none => s.modCore f.dst fun k => { k with waitingPlace := k.waitingPlace ++ [p] }
  else slotFall s f.range.lctr 1

/-- Does a placement of an agent wait at a core's port? -/
def placerWaits (s : State) (core : Nat) (b : Placer) : Bool := (s.core core).waitingPlace.any fun p => p.by_ == b

/-- A start stub works through its flits until a placement waits. Fuel: the flits it holds. -/
def runStub (s : State) (core : Nat) : Nat → State
  | 0 => s
  | n + 1 =>
    if placerWaits s core .stub then s
    else match (s.core core).stub with
      | [] => s
      | f :: t => runStub (takeFlit (s.modCore core fun k => { k with stub := t }) f) core n

/-- Try the placements that wait at a core's port, in order. -/
def retryPlaces (s : State) (core : Nat) : State :=
  let ps := (s.core core).waitingPlace
  let s := s.modCore core fun k => { k with waitingPlace := [] }
  ps.foldl (fun s p =>
    let again : State := s.modCore core fun k => { k with waitingPlace := k.waitingPlace ++ [p] }
    if placerWaits s core p.by_ then again
    else match tryPlace s p with
      | none => again
      | some s => match p.by_, p.entry.kind with
        | .stub, .range r => slotFall s r.lctr 1
        | _, _ => s) s

/-- Placements that wait anywhere try again, core by core. -/
def retryAll (s : State) : State :=
  let cores := (s.cores.filter fun p => !p.2.waitingPlace.isEmpty).map fun p => p.1
  cores.foldl (fun s c =>
    let s := retryPlaces s c
    runStub s c ((s.core c).stub.length)) s

/-! ### Channels (R385) -/

/-- Tasks that were evicted in a CHR on a channel of a core are resumed. -/
def wakeChannel (s : State) (core chan : Nat) : State :=
  let saved := (s.launch.jobs.map fun p => p.2.used.map fun u => (p.1, u.1, u.2)).flatten
  let waits (v : Saved) : Bool := v.core == core && (match v.wait with
    | some w => w.kind == .channel chan && w.fired.isNone
    | none => false)
  (saved.filter fun v => waits v.2.2).foldl (fun s v =>
    fireWho s ⟨core, v.2.2.cx, some (v.1, v.2.1)⟩ (fun k => k == .channel chan) (.value 0)) s

/-! ### Cancels (R381) -/

/-- Which tasks a cancel reaches: launches by counter, continuations by ASID. -/
structure Reach where
  ctr : Nat → Bool
  cont : Nat → Bool

/-- Is a task reached? -/
def Reach.task (r : Reach) (t : Option Task) : Bool :=
  match t with
  | none => false
  | some t => match t.lctr with
    | some n => r.ctr n
    | none => r.cont t.asid

/-- Tasks of a range entry that have not started. -/
def Range.unstarted (r : Range) : Nat := if r.next < r.count then (r.count - r.next + r.n - 1) / r.n else 0

/-- Is a run-list entry reached? Resume entries go with their saved task. -/
def Reach.entry (r : Reach) (e : Entry) : Bool :=
  match e.kind with
  | .range g => r.ctr g.lctr
  | .cont .. => r.cont e.asid
  | .resume .. => false

/-- The decrements of an entry that is removed. -/
def dropEntry (s : State) (cause : Nat) (e : Entry) : State :=
  match e.kind with
  | .range g => killUnstarted s g.join g.unstarted (some g.lctr) cause
  | .cont _ _ join _ => killUnstarted s join 1 none cause
  | .resume .. => s

/-- A placement that waited at its port is removed: a stub's target counts for its fan-out slot (R377). -/
def dropPlace (s : State) (cause : Nat) (p : Placement) : State :=
  let s := match p.by_, p.entry.kind with
    | .stub, .range r => slotFall s r.lctr 1
    | _, _ => s
  dropEntry s cause p.entry

/-- The positions at and below a position of the tree (R376). Fuel: five levels. -/
def subtree (n : Nat) : Nat → Nat → List Nat
  | 0, _ => []
  | f + 1, j => if j ≥ n then [] else j :: ((upTo 4).map fun i => subtree n f (4 * j + 1 + i)).flatten

/-- A flit that is discarded takes the tasks of every position it would have reached. -/
def dropFlit (s : State) (cause : Nat) (f : FanFlit) : State :=
  let ps := subtree f.range.n 5 f.pos
  let tasks := (ps.map fun p => ({ f.range with next := p } : Range).unstarted).foldl (· + ·) 0
  killUnstarted (slotFall s f.range.lctr ps.length) f.range.join tasks (some f.range.lctr) cause

/-- Remove entries from a core's list, its start stub and its waiting placements. -/
def cancelCore (s : State) (r : Reach) (cause core : Nat) : State :=
  let k := s.core core
  let s := s.modCore core fun k => { k with
    runList := k.runList.filter fun e => !(r.entry e)
    stub := k.stub.filter fun f => !(r.ctr f.range.lctr)
    waitingPlace := k.waitingPlace.filter fun p => !(r.entry p.entry) }
  let s := (k.runList.filter r.entry).foldl (fun s e => dropEntry s cause e) s
  let s := (k.stub.filter fun f => r.ctr f.range.lctr).foldl (fun s f => dropFlit s cause f) s
  (k.waitingPlace.filter fun p => r.entry p.entry).foldl (fun s p => dropPlace s cause p) s

/-- Mark the contexts that run a reached task: they are killed at their next retirement boundary. -/
def cancelCtx (s : State) (r : Reach) (cause core cx : Nat) : State :=
  if (s.ctxAt core cx).active && r.task (s.ctxAt core cx).task then
    s.modCtxAt core cx fun c => { c with kill := some (c.kill.getD cause) }
  else s

/-- End an evicted task: its registrations and resume entries go, its slot is free (R381). -/
def cancelSaved (s : State) (cause asid slot : Nat) (v : Saved) : State :=
  let join := physWord s (slotAddr s asid slot + 0x270) % 65536
  let isIt (e : Entry) : Bool := e.asid == asid && (match e.kind with
    | .resume n _ => n == slot
    | _ => false)
  let s := mapWho s fun w => if w.slot == some (asid, slot) then none else some w
  let s : State := { s with cores := s.cores.map fun p => (p.1, { p.2 with
    runList := p.2.runList.filter fun e => !(isIt e)
    waitingPlace := p.2.waitingPlace.filter fun q => !(isIt q.entry) }) }
  let s := s.modLaunch fun l => { l with spill := l.spill.filter fun q => !(isIt q.entry) }
  let s := s.modJob asid fun j => { j with used := tdel j.used slot }
  killUnstarted s join 1 (v.task.bind fun t => t.lctr) cause

/-- Apply a cancel to every task it reaches, wherever it stands; placements that wait take the places that it frees. -/
def cancelReach (s : State) (r : Reach) (cause : Nat) : State :=
  let marked (p : Nat × LaunchCtr) : Nat × LaunchCtr := if r.ctr p.1 then (p.1, { p.2 with cancelled := true }) else p
  let s := s.modLaunch fun l => { l with ctrs := l.ctrs.map marked }
  let flits := s.launch.flits.filter fun f => r.ctr f.range.lctr
  let spill := s.launch.spill.filter fun p => r.entry p.entry
  let s := s.modLaunch fun l => { l with
    flits := l.flits.filter fun f => !(r.ctr f.range.lctr)
    spill := l.spill.filter fun p => !(r.entry p.entry) }
  let s := flits.foldl (fun s f => dropFlit s cause f) s
  let s := spill.foldl (fun s p => dropEntry s cause p.entry) s
  let s := (upTo 128).foldl (fun s c => cancelCore s r cause c) s
  let s := (upTo 128).foldl (fun s c => cancelCtx (cancelCtx s r cause c 0) r cause c 1) s
  let saved := (s.launch.jobs.map fun p => p.2.used.map fun u => (p.1, u.1, u.2)).flatten
  retryAll ((saved.filter fun v => r.task v.2.2.task).foldl (fun s v => cancelSaved s cause v.1 v.2.1 v.2.2) s)

/-- Does a cancel name a launch (R352, R368)? -/
def cancelNames (q : CancelReq) (seq : Nat) (p : Packet) : Bool :=
  match q.level with
  | .job => p.asid == fieldOf q.value 0 12
  | level =>
    (match q.asid with
      | some a => a.val == p.asid
      | none => true) &&
    (match level with
      | .lnch => seq == q.value.toNat
      | .graph => p.graph == q.value.toNat
      | _ => p.phase == q.value.toNat)

/-- A cancel at the launch unit (R381). -/
def applyCancel (s : State) (q : CancelReq) : State :=
  let s := (s.launch.queued.filter fun e => cancelNames q e.seq e.pkt).foldl (fun s e => completeQueued s e false false true) s
  let hit := (s.launch.ctrs.filter fun p => cancelNames q p.2.seq p.2.pkt).map fun p => p.1
  cancelReach s ⟨fun n => hit.contains n, fun a => q.level == .job && a == fieldOf q.value 0 12⟩ 0x45

/-! ### The end of a task (R261, R380 to R382, R403) -/

/-- A task's decrements: its join cell, and its launch counter; a faulted one of a GFAIL launch cancels the graph. -/
def taskDone (s : State) (core : Nat) (task : Option Task) (join kind cause : Nat) : State :=
  let s := sendDecr s (some core) join 1 kind cause
  match task.bind fun t => t.lctr with
  | none => s
  | some n =>
    let s := counterFall s n 1 kind cause
    match s.launch.ctrs.lookup n with
    | some c =>
      if kind == 1 && c.pkt.gfail then
        applyCancel s ⟨.graph, wordOf c.pkt.graph, some (Fin.ofNat 4096 c.pkt.asid)⟩
      else s
    | none => s

/-- What the trace and the completion records call a context's task. -/
def traceOf (s : State) (core cx : Nat) : TraceOf :=
  let c := s.ctxAt core cx
  match c.task with
  | none => ⟨0, core, 0, c.asid, 0, 0⟩
  | some t =>
    let k := t.lctr.bind fun n => s.launch.ctrs.lookup n
    ⟨0, core, (k.map fun k => k.pkt.queue).getD 0, t.asid, t.index, (k.map fun k => k.seq).getD 0⟩

/-- Has a job work left: a task that runs or is saved, an entry that waits, a launch? -/
def jobLive (s : State) (asid : Nat) : Bool :=
  let ctx (c : Ctx) : Bool := c.active && (c.task.map fun t => t.asid) == some asid
  let core (k : Core) : Bool := ctx k.c0 || ctx k.c1 || (k.runList.any fun e => e.asid == asid) ||
    (k.stub.any fun f => f.asid == asid) || (k.waitingPlace.any fun p => p.entry.asid == asid)
  (s.cores.any fun p => core p.2) || (s.launch.spill.any fun p => p.entry.asid == asid) ||
  (s.launch.flits.any fun f => f.asid == asid) || !(s.job asid).used.isEmpty ||
  (s.launch.ctrs.any fun p => p.2.pkt.asid == asid && p.2.left != 0) || (s.launch.queued.any fun q => q.pkt.asid == asid)

/-- The marks of withdrawn collectives go with the job (R348), and so do the numbers of its collectives. -/
def clearMarks (s : State) (asid : Nat) : State :=
  if jobLive s asid then s
  else { s with cores := s.cores.map fun p => (p.1, { p.2 with
    withdrawn := p.2.withdrawn.filter fun m => m.2 != asid
    colls := p.2.colls.filter fun c => c.2.2 != asid }) }

/-- End the task of a context: 0 by TEND, 1 FAULTED, 2 KILLED. The context is idle. -/
def endTask (s : State) (core cx kind cause : Nat) : State :=
  let s := emptyStores s core
  let c := s.ctxAt core cx
  let s := trace s 2 (traceOf s core cx) c.pc
  let s := withdrawWaits (releaseSlots (dropSpec s core cx) core cx) core cx
  let s := if c.task.isSome then taskDone s core c.task (fieldOf c.taskjoin 0 16) kind cause else s
  let s := s.modCtxAt core cx fun c => { c with
    active := false, task := none, wait := none, heldWait := none, kill := none, pin := none, ckpt := none, commit := none
    abort := none, mode := .user, hold := false, report := 0
    estat := c.estat &&& ~~~(maskOf 2 1 ||| maskOf 7 1)
    erstat := c.erstat &&& ~~~(maskOf 8 1) }
  clearMarks s c.asid

/-! ### Withdrawal of collectives and kills (R348, R381) -/

/-- Withdraw the collectives of a context that are outstanding: they issue no further part, what is on the mesh for them goes, and every
other participant is told, once. -/
def withdrawColls (s : State) (core cx : Nat) : State :=
  let mine : List Coll := (s.core core).engine.filterMap fun o => match o with
    | .coll c => if c.cx == cx && !c.prog.complete && (c.prog.failed.map Prod.fst) != some 0x45 then some c else none
    | .copy _ => none
  let stop (o : EngineOp) : EngineOp := match o with
    | .coll c => if c.cx == cx && !c.prog.complete then .coll { c with prog := c.prog.stop 0x45 0 } else o
    | .copy _ => o
  let s := s.modCore core fun k => { k with engine := k.engine.map stop }
  mine.foldl (fun s c =>
    let others := (upTo 128).filter fun i => c.cores.getLsbD i && i != core
    s.modDev fun d => { d with
      collMsgs := d.collMsgs.filter fun m => !(m.id == c.id && (m.src == core || m.dst == core))
      withdrawals := d.withdrawals ++ others.map fun i => ⟨i, c.id, c.cores, c.nth, c.asid⟩ }) s

/-- The engine operations at the head that are complete are no longer counted (R138). -/
def retireEngine (l : List EngineOp) : List EngineOp := l.dropWhile EngineOp.complete

/-- The destinations of a copy or a collective in global memory (R138, R141): first byte, length, translation. -/
def engineDests (o : EngineOp) : List (Nat × Nat × Xlat) :=
  match o with
  | .copy c =>
    if fieldOf c.desc.ctl 6 2 == 0 then
      let n (k : Nat) : Nat := if k < fieldOf c.desc.ctl 0 3 then c.desc.size.getD k 1 else 1
      let offs := (upTo 5).foldl (fun l k => (l.map fun o => (upTo (n (k + 1))).map fun i =>
        o + (c.desc.dstr.getD k 0).toNat * i).flatten) [0]
      offs.map fun o => ((c.desc.dst.toNat + o) % 2 ^ 64, c.desc.size.getD 0 0, c.xlat)
    else []
  | .coll c => if fieldOf c.ctl 6 2 == 0 then
      [(c.dst.toNat, if fieldOf c.ctl 0 3 == 1 then c.count * popCount 128 c.cores.toNat else c.count, c.xlat)]
    else []

def EngineOp.isColl : EngineOp → Bool
  | .coll _ => true
  | .copy _ => false

/-- Operations that are complete, and whose older ones are, leave the engine: the clean bytes of a collective's destination go (R141), a copy's
destination awaits its acquire (R138). -/
def settleEngine (s : State) (core : Nat) : State :=
  let k := s.core core
  let left := retireEngine k.engine
  let (colls, copies) := (k.engine.take (k.engine.length - left.length)).partition EngineOp.isColl
  (clearRanges s core (colls.map engineDests).flatten).modCore core fun k => { k with
    engine := left, toAcquire := k.toAcquire ++ (copies.map engineDests).flatten }

/-- Does the context have a copy that still runs? -/
def copiesRun (k : Core) (cx : Nat) : Bool :=
  k.engine.any fun o => o.cx == cx && !o.complete

/-- A kill at a retirement boundary (R381): the region aborts, waits and collectives are withdrawn; once its copies are complete, the
task ends KILLED. -/
def killStep (s : State) (core cx cause : Nat) : State :=
  let s := if (s.ctxAt core cx).regionOpen then regionAbortNow s core cx 6 0 cause else s
  let s := settleEngine (withdrawColls (withdrawWaits s core cx) core cx) core
  if copiesRun (s.core core) cx then s else endTask s core cx 2 cause

/-! ### Task start (R378, R379, R408) -/

/-- The context at the start of a task. -/
def Ctx.start (c : Ctx) (j : Job) (t : Task) (pc argp : Word) (join : Nat) (nfm : Bool) : Ctx :=
  let g := if argp == 0 then ([] : Tab Word) else [(1, argp)]
  { Ctx.reset with
    g := if t.index == 0 then g else tset g 2 (wordOf t.index)
    pc := pc
    mode := if t.fw then .firmware else .user
    active := true
    task := some t
    corectl := wordOfBool nfm
    taskjoin := wordOf join
    ptroot := mergeMask (maskOf 0 12) (wordOf t.asid) j.ptroot
    pasidr := j.pasidr
    sctbl := j.sctbl
    tvec := c.tvec
    sscr := c.sscr
    events := c.events
    issued := c.issued
    injMatrix := c.injMatrix
    injScalar := c.injScalar
    matErr := c.matErr
    pathErr := c.pathErr }

/-- The entry that an idle context takes next: migrated tasks, resumes, others (R378). -/
def nextEntry (l : List Entry) (cx : Nat) : Option Entry :=
  let mine (e : Entry) : Bool := e.urg == (cx == 1)
  let isResume (e : Entry) : Bool := match e.kind with
    | .resume .. => true
    | _ => false
  match l.find? fun e => mine e && e.migration with
  | some e => some e
  | none => match l.find? fun e => mine e && isResume e with
    | some e => some e
    | none => l.find? mine

/-- Resume a saved task (R385, R408): a bad header ends it FAULTED. The bytes of a poisoned granule of the image are taken as they are
(R411 names no outcome, log entry 108). -/
def resumeTask (s : State) (core cx asid slot : Nat) : State :=
  match (s.job asid).used.lookup slot with
  | none => s
  | some v =>
    let base := slotAddr s asid slot
    let rd (o : Nat) : Byte := physByte s (base + o)
    let head := physWord s base
    let join := physWord s (base + 0x270) % 65536
    let j := s.job asid
    let s := s.modJob asid fun j => { j with used := tdel j.used slot }
    if head % 65536 != 1 || head / 65536 % 4096 != asid then taskDone s core v.task join 1 0x13
    else
      let t := v.task.getD ⟨asid, none, 0, cx == 1, false, false⟩
      s.modCtxAt core cx fun c =>
        { ((c.start j t 0 0 0xFFFF false).restore rd).marked v with wait := v.wait, retired := v.retired, task := v.task }

/-- Start the task of an entry in a context: a range entry keeps its place until its last task has started (R378). The start is an acquire
at device scope (R139). -/
def startEntry (s : State) (core cx : Nat) (e : Entry) : State :=
  let drop (s : State) : State := s.modCore core fun k => { k with runList := k.runList.erase e }
  match e.kind with
  | .resume slot _ => resumeTask (drop s) core cx e.asid slot
  | .cont pc arg join nfm =>
    let t : Task := ⟨e.asid, none, 0, e.urg, false, false⟩
    let s := (drop s).modCtxAt core cx fun c => c.start (s.job e.asid) t pc arg join nfm
    trace (acquireAt s core devScope) 1 (traceOf s core cx) pc
  | .range r =>
    let t : Task := ⟨e.asid, some r.lctr, r.next, e.urg, r.fw, r.gfail⟩
    let argp := r.argp + wordOf (r.next * r.astride * 64)
    let s := if r.next + r.n < r.count then
        s.modCore core fun k => { k with runList := k.runList.replace e { e with kind := .range { r with next := r.next + r.n } } }
      else drop s
    let s := s.modCtxAt core cx fun c => c.start (s.job e.asid) t r.pc argp r.join r.nfm
    trace (acquireAt s core devScope) 1 (traceOf s core cx) r.pc

/-! ### Cells (R349, R350, R352) -/

/-- The idle value of a cell: 32 zero bytes. -/
def Cell.idle : Cell := ⟨0, 0, 0, 0, false, 0, false, none⟩

def State.cellAt (s : State) (core k : Nat) : Cell := tget (s.core core).cells k Cell.idle
def State.setCell (s : State) (core k : Nat) (c : Cell) : State :=
  s.modCore core fun x => { x with cells := if c = Cell.idle then tdel x.cells k else tset x.cells k c }

def Cell.state (c : Cell) : Nat := fieldOf c.ctrl 32 2
def Cell.count (c : Cell) : Nat := fieldOf c.ctrl 0 32
def Cell.setState (c : Cell) (n : Nat) : Cell := { c with ctrl := mergeMask (maskOf 32 2) (atBit 32 n) c.ctrl }

/-- A TJOIN on a cell. -/
def WaitKind.onCell (k : Nat) : WaitKind → Bool
  | .cell n => n == k
  | _ => false

/-- Wake the crozier of a cell and clear JW. -/
def wakeCrozier (s : State) (core k : Nat) : State :=
  let c := s.cellAt core k
  match c.waiter with
  | none => s
  | some w => fireWho (s.setCell core k { c with waiter := none, ctrl := c.ctrl &&& ~~~(maskOf 34 1) }) w (WaitKind.onCell k) (.value c.status)

/-- The COUNT = 0 step of R350: DONE, the continuation placed, the crozier woken. -/
def cellZero (s : State) (core k : Nat) : State :=
  let c := (s.cellAt core k).setState 2
  let s := s.setCell core k c
  let s := if c.cpc != 0 && !bitOf c.status 2 then
      placeEntry s core ⟨core, ⟨c.asid, c.urg, .cont c.cpc c.carg (fieldOf c.ctrl 48 16) c.nfm⟩, .cell⟩
    else s
  wakeCrozier s core k

/-- A decrement as it is applied at the cell, without the COUNT = 0 step (R350). -/
def Cell.decremented (c : Cell) (n kind cause : Nat) : Cell :=
  if c.state != 1 then { c with status := c.status ||| maskOf 3 1 }
  else
    let left := c.count - min n c.count
    let st := if kind == 0 then c.status
      else mergeMask (maskOf 16 16 ||| maskOf 8 7)
        (atBit 16 (min (fieldOf c.status 16 16 + 1) 0xFFFF) ||| atBit 8 cause) (c.status ||| atBit (kind - 1) 1)
    { c with ctrl := mergeMask (maskOf 0 32) (wordOf left) c.ctrl, status := st }

end Sys2Proof.Machine
end

