-- ==== Sys2Proof/Machine/MemCtl.lean ====
section
/-!
DEFINITION. The memory stacks' controllers and the slices' tags (R61 to R72, R99 to R103, R439): requests, replies, refresh, frame
moves, the indirection-table port.
-/
namespace Sys2Proof.Machine

/-! ### Requests -/

/-- Operation codes of a request packet (R62); 110 and 111 are reserved, and so is any other code that reaches a controller. -/
inductive MemOp
  | rd32 | rd64 | wrt32 | wrt64 | wrtm | reserved
deriving DecidableEq, Repr

def MemOp.code : MemOp → Nat
  | .rd32 => 0 | .rd64 => 1 | .wrt32 => 2 | .wrt64 => 3 | .wrtm => 4 | .reserved => 6

def memOpOf : Nat → MemOp
  | 0 => .rd32 | 1 => .rd64 | 2 => .wrt32 | 3 => .wrt64 | 4 => .wrtm | _ => .reserved

/-- Bytes that an operation touches. -/
def MemOp.bytes : MemOp → Nat
  | .rd32 | .wrt32 => 32
  | _ => 64

def MemOp.reads : MemOp → Bool
  | .rd32 | .rd64 => true
  | _ => false

/-- Is a request refused (R63)? The spec lists the first three; that a mask with another OP and an address beyond the populated range are
refused as well is the model's choice (log entry 86). -/
def memRefused (op : MemOp) (q : MemReq) : Bool :=
  op == .reserved || q.reserved || (op.bytes == 64 && q.gaddr.getLsbD 0) || (op != .wrtm && q.mask != 0) || q.gaddr.toNat * 32 ≥ 0xC00000000

/-- A stack's reply joins those on their way to the slices. -/
def addReply (s : State) (st : Nat) (r : MemReply) : State := s.modStack st fun k => { k with replies := k.replies ++ [r] }

/-- The worse of two statuses of a request. -/
def worse (a b : Nat) : Nat := if a == 2 || b == 2 then 2 else max a b

/-- Is the line of a request in copy (R102)? -/
def lineInCopy (s : State) (st off : Nat) : Bool :=
  match moveOf s st (off / 65536) with
  | some m => m.line == off % 65536 / 64
  | none => false

/-- A controller serves a request (R62 to R67, R102). -/
def serveRequest (s : State) (st : Nat) (op : MemOp) (q : MemReq) : State :=
  let off := q.gaddr.toNat * 32
  let pa := st * 2 ^ 36 + off
  let reply (s : State) (o status : Nat) (data : List Byte) : State := addReply s st ⟨o, q.tag.val, q.src.val, status, data⟩
  let kind := if op.reads then 0 else 1
  if memRefused op q then reply s 7 4 []
  else if lineInCopy s st off then
    reply (s.modStack st fun k => { k with retry := k.retry ++ [⟨st, .mem op.code q, true⟩] }) kind 3 []
  else
    let s := s.modSlice q.src.val fun k => { k with held := k.held.filter (· != (st, q.gaddr.toNat / 2)) }
    let s := useBank s q.src.val st (dramOf s st off)
    let grans := if op.bytes == 32 then [pa] else [pa, pa + 32]
    if op.reads then
      let (status, s) := grans.foldl (fun (a : Nat × State) g =>
        let (x, s) := readGranule a.2 st ((granuleOf a.2 g).getD (st, 0)).2
        (worse a.1 x, s)) (0, s)
      reply s 0 status (physRead s pa op.bytes)
    else
      let on (i : Nat) : Bool := op != .wrtm || byteOn q.mask i
      let pairs (g : Nat) : List (Nat × Byte) :=
        (upTo 32).filterMap fun i => if on (g - pa + i) then some (g + i, q.data.getD (g - pa + i) 0) else none
      let (status, s) := grans.foldl (fun (a : Nat × State) g =>
        let (x, s) := writeGranule a.2 st g (pairs g)
        (worse a.1 x, s)) (0, s)
      reply s 1 status []

/-! ### Frame moves (R99 to R102) -/

/-- Is a DRAM frame the entry of some device frame, or the destination of a move? -/
def dramInUse (k : Stack) (d : Nat) : Bool :=
  k.it.any (fun p => p.2 == d) || (d ≤ 0xBFFFF && (k.it.lookup d).isNone) || k.moves.any fun m => m.new == d

/-- The entry of a device frame with its MOVING bit (R99). -/
def itEntry (k : Stack) (frame : Nat) : Nat :=
  tget k.it frame frame + (if k.moves.any fun m => m.frame == frame then 2 ^ 20 else 0)

/-- Where the reply of an indirection-table operation goes: the port of R439, which has it at once and frees the tag, or the requesting
slice. -/
def itReply (s : State) (st : Nat) (port : Bool) (tag src status entry : Nat) : State :=
  if port then
    (s.modStack st fun k => { k with reply := atBit 63 1 ||| atBit 32 status ||| wordOf entry, opBusy := false }).modSlice src
      fun k => { k with sent := k.sent.erase (st, tag) }
  else addReply s st ⟨0, tag, src, status, leBytes 32 entry⟩

/-- An indirection-table operation (R100, R101). -/
def serveIt (s : State) (st : Nat) (port : Bool) (itop : Nat) (q : ItReq) : State :=
  let k := s.stack st
  let frame := q.gaddr.toNat / 2048
  let refuse := itReply s st port q.tag.val q.src.val 4 0
  let operands := q.reserved || q.gaddr.toNat % 2048 != 0 || frame > 0xBFFFF
  match itop with
  | 0 => if operands then refuse else itReply s st port q.tag.val q.src.val 0 (itEntry k frame)
  | n + 1 =>
    let d := q.dframe.val
    if n > 1 || operands || d > 0xC0FFF || k.retired.contains d || dramInUse k d || (moveOf s st frame).isSome ||
        k.moves.length ≥ 4 then refuse
    else s.modStack st fun k =>
      { k with moves := k.moves ++ [⟨frame, tget k.it frame frame, d, 0, n == 1, q.tag.val, q.src.val, port⟩] }

/-! ### Tags (R64, R71, R102) -/

def SliceOp.src : SliceOp → Nat
  | .mem _ q => q.src.val
  | .table _ _ q => q.src.val

def SliceOp.tag : SliceOp → Fin 8
  | .mem _ q => q.tag
  | .table _ _ q => q.tag

def SliceOp.tc : SliceOp → Nat
  | .mem _ q => q.tc.val
  | .table _ _ q => q.tc.val

def SliceOp.withTag (o : SliceOp) (t : Fin 8) : SliceOp :=
  match o with
  | .mem op q => .mem op { q with tag := t }
  | .table n p q => .table n p { q with tag := t }

/-- The local line that a request names; an indirection-table operation names none. -/
def SliceOp.line : SliceOp → Option Nat
  | .mem _ q => some (q.gaddr.toNat / 2)
  | .table _ _ _ => none

/-- Does a request wait for one to its line that is sent again (R102)? -/
def Slice.holds (k : Slice) (st : Nat) (o : SliceOp) : Bool :=
  match o.line with
  | some l => k.held.contains (st, l)
  | none => false

/-- A tag for a stack: the one that the request names where it is free, else the lowest free one; none where all eight are taken. -/
def Slice.tagFor (k : Slice) (st : Nat) (want : Fin 8) : Option (Fin 8) :=
  let free (t : Fin 8) : Bool := !(k.sent.contains (st, t.val))
  if free want then some want else ((upTo 8).map (Fin.ofNat 8)).find? free

/-- A request goes to the controller under its tag. -/
def serveOp (s : State) (st : Nat) (o : SliceOp) : State :=
  let s := s.modSlice o.src fun k => { k with sent := (st, o.tag.val) :: k.sent }
  match o with
  | .mem op q => serveRequest s st (memOpOf op) q
  | .table n port q => serveIt s st port n q

/-- A slice sends a request: it waits in the miss queue while every tag is taken, while a memory step runs, or behind a request to its
line that is sent again. -/
def sendOp (s : State) (st : Nat) (o : SliceOp) : State :=
  let k := s.slice o.src
  let tag := if s.dev.retraining || k.holds st o then none else k.tagFor st o.tag
  match tag with
  | some t => serveOp s st (o.withTag t)
  | none => s.modSlice o.src fun k => { k with missq := k.missq ++ [⟨st, o, false⟩] }

def sendRequest (s : State) (st : Nat) (op : MemOp) (q : MemReq) : State := sendOp s st (.mem op.code q)

/-- The waiting request of a slice for a stack that takes a free tag: the oldest of the highest class (R64). -/
def Slice.nextWaiting (k : Slice) (st : Nat) : Option SliceReq :=
  let mine := k.missq.filter fun r => r.st == st && (r.retried || !(k.holds st r.op))
  let top := mine.foldl (fun m r => max m r.op.tc) 0
  mine.find? fun r => r.op.tc == top

/-- Waiting requests of a slice for a stack take the free tags. Fuel: the length of the queue. -/
def sendWaiting : Nat → State → Nat → Nat → State
  | 0, s, _, _ => s
  | n + 1, s, sl, st =>
    if s.dev.retraining then s
    else match (s.slice sl).nextWaiting st with
      | none => s
      | some r => match (s.slice sl).tagFor st r.op.tag with
        | none => s
        | some t => sendWaiting n (serveOp (s.modSlice sl fun k => { k with missq := k.missq.erase r }) st (r.op.withTag t)) sl st

/-- A tag is free again: the waiting requests of its slice go on. -/
def freeTag (s : State) (sl st tag : Nat) : State :=
  let s := s.modSlice sl fun k => { k with sent := k.sent.erase (st, tag) }
  sendWaiting (s.slice sl).missq.length s sl st

/-- A reply reaches its slice (R64, R102): STATUS 011 puts the request back as the oldest of the queue, and the later requests to its line
wait for it. -/
def takeReply (s : State) (st : Nat) (r : MemReply) : State :=
  let s := s.modStack st fun k => { k with replies := k.replies.erase r }
  let again := (s.stack st).retry.find? fun q => q.op.src == r.dest && q.op.tag.val == r.tag
  let s := match r.status, again with
    | 3, some q => (s.modStack st fun k => { k with retry := k.retry.erase q }).modSlice r.dest fun k => { k with
        missq := { q with retried := true } :: k.missq
        held := match q.op.line with
          | some l => (st, l) :: k.held
          | none => k.held }
    | _, _ => s
  freeTag s r.dest st r.tag

/-! ### Replies -/

/-- The n-th reply of a stack with an OP code, delivered. -/
def deliverReply (s : State) (st n op : Nat) : State :=
  match ((s.stack st).replies.filter fun r => r.op == op)[n]? with
  | none => s
  | some r => takeReply (if op == 7 then fwEvent s 0x70 (wordOf r.dest) else s) st r

/-! ### Refresh (R68, R69) -/

/-- Start a per-bank refresh. -/
def startRefpb (s : State) (st key : Nat) : State :=
  s.modStack st fun k => { k with refreshing := key :: k.refreshing.filter (· != key) }

/-- A bank that is not busy repays one owed refresh. -/
def repay (s : State) (st key : Nat) : State :=
  let k := s.stack st
  let n := tget k.postponed key 0
  if n == 0 || bankBusy s st key || k.refreshing.contains key then s
  else startRefpb (s.modStack st fun k => { k with postponed := if n == 1 then tdel k.postponed key else tset k.postponed key (n - 1) })
    st key

/-- The next bank of a pseudo-channel falls due. -/
def refreshFallsDue (s : State) (st pc : Nat) : State :=
  let k := s.stack st
  let b := tget k.due pc 0
  let key := 64 * pc + b
  let s := s.modStack st fun k => { k with due := tset k.due pc ((b + 1) % 64) }
  let n := tget k.postponed key 0
  if !(bankBusy s st key) then startRefpb s st key
  else if n < 8 then s.modStack st fun k => { k with postponed := tset k.postponed key (n + 1) }
  else s.modStack st fun k => { k with
    postponed := k.postponed.filter fun p => p.1 / 64 != pc
    refreshing := (4096 + pc) :: k.refreshing }

/-- A refresh ends: an all-bank one, else that of the bank; the bank repays the next. -/
def refreshEnds (s : State) (st pc bank : Nat) : State :=
  let key := 64 * pc + bank
  if (s.stack st).refreshing.contains (4096 + pc) then
    s.modStack st fun k => { k with refreshing := k.refreshing.filter (· != 4096 + pc) }
  else repay (s.modStack st fun k => { k with refreshing := k.refreshing.filter (· != key) }) st key

/-- A bank stops being busy. -/
def bankIdle (s : State) (st key : Nat) : State :=
  repay { s with slices := s.slices.map fun p => (p.1, { p.2 with banks := p.2.banks.filter (· != (st, key)) }) } st key

/-- The step 2 of a memory step: one REFab on each pseudo-channel, which leaves nothing owed (R71). -/
def refreshAll (s : State) : State :=
  (upTo 8).foldl (fun s st => s.modStack st fun k => { k with postponed := [] }) s

/-! ### Running moves (R101) -/

/-- Copy the bytes of a line from one DRAM address to another; the read of each granule counts (R67, R103), and poison goes with it. -/
def copyDram (s : State) (st src dst : Nat) : State :=
  let base := st * 2 ^ 36
  let s := (upTo 2).foldl (fun s i => (readGranule s st (src / 32 + i)).2) s
  let s := (upTo 64).foldl (fun (s : State) i => { s with mem := cellPut s.mem (base + dst + i) (cellGet s.mem (base + src + i)) }) s
  (upTo 2).foldl (fun s i => s.modStack st fun k =>
    let bad := k.poison.contains (src / 32 + i)
    let left := k.poison.filter (· != dst / 32 + i)
    { k with poison := if bad then (dst / 32 + i) :: left else left, flips := k.flips.filter (· != dst / 32 + i) }) s

/-- The copy of a moving frame's line ends; the last line ends the move (R101). -/
def moveLine (s : State) (st n : Nat) : State :=
  match (s.stack st).moves[n]? with
  | none => s
  | some m =>
    let s := copyDram s st (m.old * 65536 + m.line * 64) (m.new * 65536 + m.line * 64)
    let next (x : Move) : Move := if x.frame == m.frame then { x with line := m.line + 1 } else x
    if m.line < 1023 then s.modStack st fun k => { k with moves := k.moves.map next }
    else
      let s := s.modStack st fun k => { k with
        moves := k.moves.filter fun x => x.frame != m.frame
        it := if m.new = m.frame then tdel k.it m.frame else tset k.it m.frame m.new
        retired := if m.retire then m.old :: k.retired else k.retired }
      let s := itReply s st m.port m.tag m.src 0 m.new
      if m.port then sendWaiting (s.slice m.src).missq.length s m.src st else s

/-- A write of OP at the port (R439): refused with STATUS 100 while an earlier OP has no reply. The operation is sent by the slice in
the tile of the memory port that the core's tile uses (R60, R100). -/
def portOp (s : State) (st : Nat) (w : Word) : State :=
  if (s.stack st).opBusy then s.modStack st fun k => { k with reply := atBit 32 4 }
  else
    let s := s.modStack st fun k => { k with opBusy := true, reply := 0 }
    let frame := fieldOf w 0 20
    let p := portTile st (portOf st s.me)
    sendOp s st (.table (fieldOf w 20 4) true ⟨0, Fin.ofNat 128 (sliceAt p.1 p.2), 0, BitVec.ofNat 31 (frame * 2048),
      Fin.ofNat _ (fieldOf w 24 20), fieldOf w 44 20 != 0 || frame > 0xBFFFF⟩)

/-- A read of RETREQ: the oldest request, which it removes (R439). -/
def readRetreq (s : State) (st : Nat) : Word × State :=
  match (s.stack st).retreq with
  | [] => (0, s)
  | (ue, f) :: t => (atBit 63 1 ||| atBit 20 (if ue then 1 else 0) ||| wordOf f, s.modStack st fun k => { k with retreq := t })

end Sys2Proof.Machine
end

