-- ==== Sys2Proof/Machine/Control.lean ====
section
/-!
DEFINITION. The device as a whole: core clocks, PHASE commands and phase boundaries, topology changes, containment,
debug stops, resets (R4, R59, R70 to R72, R88, R358, R375, R387 to R390, R413 to R416, R440 to R442, R454 to R459).
-/
namespace Sys2Proof.Machine

/-! ### Engine errors (R345, R346) -/

/-- Record a failure of an engine operation in CPYERR and CPYFA, or set MORE. -/
def recordCpyErr (s : State) (core cx seq cause : Nat) (addr : Word) : State :=
  s.modCtxAt core cx fun c =>
    if bitOf c.cpyerr 0 then { c with cpyerr := c.cpyerr ||| 2 }
    else { c with cpyerr := atBit 32 (seq % 65536) ||| atBit 16 cause ||| (c.cpyerr &&& 2) ||| 1, cpyfa := addr }

/-- An engine operation stops at a fault (R345): it is recorded, and the operation issues no further part. -/
def engineStop (s : State) (core idx cause : Nat) (addr : Word) : State :=
  match (s.core core).engine[idx]? with
  | none => s
  | some o =>
    if o.complete || o.prog.failed.isSome then s
    else recordCpyErr (s.modCore core fun k => { k with engine := k.engine.set idx (o.setProg (o.prog.stop cause addr)) })
      core o.cx o.seq cause addr

/-- The engine index of a core's collective of an identifier that is outstanding. -/
def collIndex (k : Core) (id : Nat) : Option Nat :=
  (upTo k.engine.length).find? fun i => match k.engine[i]? with
    | some (.coll c) => c.id == id && !c.prog.complete
    | _ => false

/-- A collective message to a participant inside a fence: its sender's collective stops with CONTAINED (R416). -/
def lostCollMsg (s : State) (m : CollMsg) : State :=
  match collIndex (s.core m.src) m.id with
  | some i => engineStop s m.src i 0x23 0
  | none => s

/-! ### Core clocks (R59, R358, R459) -/

/-- The clock of a die once its holds have ended. -/
def clockAfter (s : State) (die : Nat) : Nat := ((holdsOf s die).getLast?).getD (clockOf s die)

/-- A clock within the limit of the mode: 2.4 GHz for die 0 in quiet mode (R3). -/
def capClock (s : State) (die v : Nat) : Nat := if s.dev.quiet && die == 0 then min v 24 else v

/-- Step a die's core clock: a step relocks, and one that comes during a hold is made when the hold ends. `late`: the die runs at its old
clock until its hold has ended, as R432 says of PHASE.now (log entry 95). -/
def stepClock (s : State) (die v : Nat) (late : Bool) : State :=
  let v := capClock s die v
  let l := holdsOf s die
  if l.isEmpty && clockOf s die == v then s
  else
    let c := if l.isEmpty && !late then v else clockOf s die
    s.modDev fun d => if die == 0 then { d with c0clk := c, relock0 := l ++ [v] } else { d with c1clk := c, relock1 := l ++ [v] }

/-- The hold of a die's oldest step ends (R59, R432): the die runs at its clock. The next step that differs from it begins, with a hold of
its own. -/
def endHold (s : State) (die : Nat) : State :=
  match holdsOf s die with
  | [] => s
  | v :: t =>
    let v := capClock s die v
    let l := t.dropWhile (fun x => capClock s die x == v)
    s.modDev fun d => if die == 0 then { d with c0clk := v, relock0 := l } else { d with c1clk := v, relock1 := l }

/-- A clock that PHASE commands: clamps may later hold it lower. -/
def commandClock (s : State) (die v : Nat) (late : Bool) : State :=
  let s := s.modDev fun d => if die == 0 then { d with cmd0 := v } else { d with cmd1 := v }
  let held := if die == 0 then s.dev.clamp0 else s.dev.clamp1
  let to_ := clockAfter s die
  stepClock s die (if held && to_ != 0 then min v to_ else v) late

/-! ### PHASE (R358) -/

/-- The bits of a command word that are reserved. -/
def phaseReserved : Word := maskOf 32 32 ||| maskOf 25 6 ||| maskOf 18 5 ||| maskOf 14 1 ||| maskOf 6 1

/-- Does a command take PHASEARG? -/
def phaseArgBad (s : State) (w : Word) (now : Bool) : Bool :=
  let badClk (v : Nat) : Bool := v == 0 || v > 32
  let quiet := if now then s.dev.quiet
    else if bitOf w 31 then bitOf w 24 else if bitOf s.dev.cmd 31 then bitOf s.dev.cmd 24 else s.dev.quiet
  (w &&& phaseReserved) != 0 || (bitOf w 7 && badClk (fieldOf w 0 6)) || (bitOf w 15 && badClk (fieldOf w 8 6)) ||
  (quiet && ((bitOf w 7 && fieldOf w 0 6 > 24) || bitOf w 15)) || (now && (bitOf w 31 || bitOf w 23)) ||
  (s.dev.minimal && (bitOf w 31 || bitOf w 23 || bitOf w 15 || bitOf w 7))

/-- The valid fields of a command replace those of the pending one. -/
def pendPhase (s : State) (w : Word) : State :=
  let f (v lo n : Nat) (cmd : Word) : Word := if bitOf w v then mergeMask (maskOf v 1 ||| maskOf lo n) w cmd else cmd
  s.modDev fun d => { d with pend := true, cmd := f 7 0 6 (f 15 8 6 (f 23 16 2 (f 31 24 1 d.cmd))) }

/-! ### Topology changes (R387, R388) -/

/-- Counts change and every context that holds a task, or runs, is sent TOPOCHG. -/
def topologyChange (s : State) : State :=
  let s := s.modDev fun d => { d with toposeq := (d.toposeq + 1) % 2 ^ 32 }
  (activeCores s).foldl (fun s c =>
    (upTo 2).foldl (fun s x => if (s.ctxAt c x).active then (postEvent s c x 0x62 0).modCtxAt c x fun k => { k with pin := none } else s) s) s

/-- May the cells of die 1 be lost (R388)? -/
def die1CellsIdle (s : State) : Bool :=
  (upTo 64).all fun i => (s.core (64 + i)).cells.all fun p => p.2.state == 0 || (p.2.state == 2 && !bitOf p.2.ctrl 34)

/-- Die-1 contexts that hold a task. -/
def die1Tasks (s : State) : Nat :=
  ((upTo 64).map fun i =>
    (if (s.core (64 + i)).c0.task.isSome then 1 else 0) + (if (s.core (64 + i)).c1.task.isSome then 1 else 0)).foldl (· + ·) 0

/-- Give up what stands in a core that is to be gated: logs merged, dirty lines written back, buffers lost (log entry 18). -/
def gateCore (s : State) (core : Nat) : State :=
  let s := mergeAll s core
  let s := emptyWc s core
  let s := (s.core core).l1.foldl (fun s l => expel s core l) s
  s.modCore core fun k => { k with bufW := [], bufA := [], bufC := [], cells := [], runList := [], waitingPlace := [], stub := [], chans := [], icache := [] }

/-- Die 1's entries, registrations and flits move to the core of the same index in sorus s − 8 (R388): the spilled entries in their order,
then the listed ones, which are placed behind (log entry 100). A CHR that comes to a channel with flits is woken. -/
def moveDie1 (s : State) : State :=
  let s := mapWho s fun w => if w.core ≥ 64 then some { w with core := w.core - 64 } else some w
  let s := s.modLaunch fun l => { l with
    spill := l.spill.map fun p => if p.core ≥ 64 then { p with core := p.core - 64 } else p
    flits := l.flits.map fun f => if f.dst ≥ 64 then { f with dst := f.dst - 64 } else f
    slots := l.slots.map fun p => (p.1, { p.2 with targets := p.2.targets.map fun t => if t ≥ 64 then t - 64 else t })
    jobs := l.jobs.map fun j => (j.1, { j.2 with used := j.2.used.map fun u =>
      (u.1, if u.2.core ≥ 64 then { u.2 with core := u.2.core - 64 } else u.2) }) }
  let s := s.modDev fun d => { d with flits := d.flits.map fun f => if f.dst ≥ 64 then { f with dst := f.dst - 64 } else f }
  (upTo 64).foldl (fun s i =>
    let k := s.core (64 + i)
    let s := k.chans.foldl (fun s c => s.modCore i fun x =>
      let old := tget x.chans c.1 ⟨[], []⟩
      { x with chans := tset x.chans c.1 ⟨old.flits ++ c.2.flits, old.refused ++ c.2.refused⟩ }) s
    let s := (s.core i).chans.foldl (fun s c => if c.2.flits.isEmpty then s else wakeChannel s i c.1) s
    let s := k.runList.foldl (fun s e => placeEntry s i ⟨i, e, .wake⟩) s
    let s := k.waitingPlace.foldl (fun s p => placeEntry s i { p with core := if p.core ≥ 64 then p.core - 64 else p.core }) s
    let s := s.modCore i fun x => { x with stub := x.stub ++ k.stub.map fun f => { f with dst := i } }
    gateCore s (64 + i)) s

/-! ### Phase boundaries (R375) -/

/-- The oldest waiting packet of another phase. -/
def otherPhase (s : State) : Option Queued :=
  s.launch.queued.find? fun q => q.pkt.phase != 0 && q.pkt.phase != s.launch.phase

/-- Does the pending command change the mode to quiet? -/
def quietPending (s : State) : Bool := s.dev.pend && bitOf s.dev.cmd 31 && bitOf s.dev.cmd 24 && !s.dev.quiet

/-- A boundary that only a change to quiet mode may hold back: no new task starts on die 1 (R388). -/
def boundaryHeld (s : State) : Bool := phaseCounter s == 0 && (otherPhase s).isSome && quietPending s

/-- Is a topology change in progress: the eviction of die 1 for a change to quiet mode (R388), or a fence (R415)? -/
def topologyMoves (s : State) : Bool :=
  (boundaryHeld s && die1CellsIdle s) || s.dev.contain.any fun p => p.2.state == 1

/-- May the boundary occur: die 1 empty for a change to quiet mode (log entry 89 on the waits at its event units). A memory step begins at the
boundary, when the slices stop sending (R71). -/
def boundaryReady (s : State) : Bool :=
  phaseCounter s == 0 && (otherPhase s).isSome && !s.dev.retraining &&
  (!quietPending s || (die1CellsIdle s && die1Tasks s == 0))

/-- The clock of die 0 after a command: the clock that it names, at most 2.4 GHz in quiet mode (R3); a clock that it leaves open falls to
that limit in quiet mode and otherwise stands (R358). -/
def stepDie0 (s : State) (w : Word) : State :=
  if bitOf w 7 then commandClock s 0 (capClock s 0 (fieldOf w 0 6)) false
  else if s.dev.quiet then stepClock (s.modDev fun d => { d with cmd0 := min d.cmd0 24 }) 0 (min (clockAfter s 0) 24) false
  else s

/-- The clock of die 1 after a command: gated in quiet mode; a die that the command ungates starts at die 0's clock (R358). -/
def stepDie1 (s : State) (w : Word) (ungated : Bool) : State :=
  if s.dev.quiet then s
  else if bitOf w 15 then commandClock s 1 (fieldOf w 8 6) false
  else if ungated then commandClock s 1 (clockAfter s 0) false
  else s

/-- Step the core clocks of a command whose mode holds already (R72, R358). -/
def stepClocks (s : State) (w : Word) (ungated : Bool) : State := stepDie1 (stepDie0 s w) w ungated

/-- PHASE.now (R358, R432): the clocks it names are stepped, each die running at its old clock through its hold, and the command of
a boundary that still waits to step them gives way (log entry 77). -/
def phaseNow (s : State) (w : Word) : State :=
  let drop (on : Bool) (i : Nat) (v : Word) : Word := if on then v &&& ~~~(maskOf i 1) else v
  let s := s.modDev fun d => { d with clkHeld := d.clkHeld.map fun h =>
    (drop (bitOf w 15) 15 (drop (bitOf w 7) 7 h.1), h.2 && !bitOf w 15) }
  let s := if bitOf w 7 then commandClock s 0 (fieldOf w 0 6) true else s
  if bitOf w 15 then commandClock s 1 (fieldOf w 8 6) true else s

/-- Apply the pending command: memory step, mode, clocks (R71, R72, R358). A gated die's clock is 0 at once (R359). -/
def applyPhase (s : State) : State :=
  let w := s.dev.cmd
  if !s.dev.pend then s
  else
    let was := s.dev.quiet
    let quiet := if bitOf w 31 then bitOf w 24 else was
    let s := s.modDev fun d => { d with pend := false, cmd := 0 }
    let s := if bitOf w 23 then s.modDev fun d => { d with mstep := fieldOf w 16 2, retraining := true } else s
    let s := if quiet && !was then moveDie1 s else s
    let s := if quiet != was then topologyChange (s.modDev fun d => { d with quiet := quiet }) else s
    let s := if quiet then s.modDev fun d => { d with c1clk := 0, relock1 := [] } else s
    if s.dev.retraining then s.modDev fun d => { d with clkHeld := some (w, was && !quiet) }
    else stepClocks s w (was && !quiet)

/-- Sori released from containment rejoin (R414). -/
def rejoinSori (s : State) : State :=
  if s.dev.rejoin.isEmpty then s
  else topologyChange (s.modDev fun d =>
    { d with removed := d.removed.filter fun k => !(d.rejoin.contains k), rejoin := [] })

/-- The phase of the oldest waiting packet of another phase becomes current (R375). -/
def makePhaseCurrent (s : State) : State :=
  match otherPhase s with
  | none => s
  | some q => s.modLaunch fun l => { l with phase := q.pkt.phase }

/-- A phase boundary (R375): the command is applied, and the next phase is current then; a command with a memory step is applied at its
end (R72). -/
def phaseBoundaryNow (s : State) : State :=
  if !(boundaryReady s) then s
  else
    let s := rejoinSori (applyPhase s)
    if s.dev.retraining then s else makePhaseCurrent s

/-! ### Containment (R413 to R416) -/

/-- A containment entry's word as it is read. -/
def Contain.word (e : Contain) : Word :=
  atBit 23 (if e.err then 1 else 0) ||| atBit 20 e.state ||| atBit 12 e.xhi ||| atBit 8 e.xlo ||| atBit 4 e.yhi ||| wordOf e.ylo

/-- The sori of an entry's rectangle. -/
def Contain.sori (e : Contain) : List Nat :=
  (upTo 16).filter fun k => e.xlo ≤ sorusX k && sorusX k + 3 ≤ e.xhi && e.ylo ≤ sorusY k && sorusY k + 1 ≤ e.yhi

def containAt (s : State) (e : Nat) : Contain := tget s.dev.contain e Contain.reset
def setContain (s : State) (e : Nat) (c : Contain) : State := s.modDev fun d => { d with contain := tset d.contain e c }

/-- Is FENCE of an entry refused (R414)? -/
def fenceRefused (s : State) (n : Nat) (e : Contain) : Bool :=
  let overlap (o : Contain) : Bool := o.xlo ≤ e.xhi && e.xlo ≤ o.xhi && o.ylo ≤ e.yhi && e.ylo ≤ o.yhi
  e.state != 0 || e.xlo % 4 != 0 || e.xhi % 4 != 3 || e.ylo % 2 != 0 || e.yhi % 2 != 1 ||
  s.dev.contain.any (fun p => p.1 != n && p.2.state != 0 && overlap p.2) ||
  ((upTo 16).filter (sorusActive s)).all fun k => e.sori.contains k

/-- A wait at an event unit. -/
def WaitKind.onUnit : WaitKind → Bool
  | .barrier .. | .mutex .. | .evline .. => true
  | _ => false

/-- Waits registered at a fenced unit, or at a unit whose root is fenced, end with CONTAINED (R416); the arrivals of fenced cores at the
other units are removed (R415). -/
def containWaits (s : State) (inside : List Nat) : State :=
  (upTo 16).foldl (fun s k =>
    let u := s.sorus k
    if inside.contains k then
      let ws := (u.barriers.map fun p => p.2.waiters.map fun w => w.who).flatten ++
        (u.mutexes.map fun p => p.2.queue.map fun w => w.who).flatten ++
        (u.evlines.map fun p => p.2.waiters.map fun w => w.who).flatten
      let s := s.modSorus k fun u => { u with
        barriers := u.barriers.map fun p => (p.1, { p.2 with waiters := [] })
        mutexes := u.mutexes.map fun p => (p.1, { p.2 with queue := [] })
        evlines := u.evlines.map fun p => (p.1, { p.2 with waiters := [] }) }
      ws.foldl (fun s w => fireWho s w WaitKind.onUnit .contained) s
    else
      let lost (b : Barrier) : Bool := b.span != 0 && inside.contains b.root && b.rpt
      let ws := (u.barriers.map fun p => if lost p.2 then p.2.waiters.map fun w => w.who else []).flatten
      let fenced (c : Nat) : Bool := inside.contains (sorusOf c)
      let left (b : Barrier) : Barrier := { b with
        arrived := b.arrived - (b.arrivers.filter fenced).length, arrivers := b.arrivers.filter fun c => !(fenced c)
        waiters := if lost b then [] else b.waiters }
      let s := s.modSorus k fun u => { u with barriers := u.barriers.map fun p => (p.1, left p.2) }
      ws.foldl (fun s w => fireWho s w WaitKind.onUnit .contained) s) s

/-- A core inside a fence stops, its copy engine with it (R415): a commit and the reductions that it has sent are performed, its region slots
and registrations go; dirty L1 bytes are discarded and poisoned at home, and what waits in its buffers is discarded. -/
def fenceCore (s : State) (core : Nat) : State :=
  let s := settleCommit (settleCommit s core 0) core 1
  let s := (upTo 2).foldl (fun s x => withdrawColls (withdrawWaits (releaseSlots (dropSpec s core x) core x) core x) core x) s
  let s := (s.core core).nonRet.foldl (fun s n => n.ops.foldl performHomeOp s) s
  let lost := ((s.core core).l1.map fun l => maskedBytes l.pa l.dirty l.data).flatten
  let s := (lost.map fun p => p.1).foldl (fun s a => setPoison s a true) s
  s.modCore core fun k => { k with l1 := [], sbuf := [], wc := [], soParts := [], nonRet := [], icache := [], victims := [], engine := [], toAcquire := [] }

/-- Every task inside is killed with LAST = CONTAINKILL (R415). -/
def fenceTasks (s : State) (cores : List Nat) : State :=
  let s := cores.foldl (fun s c =>
    let s := (upTo 2).foldl (fun s x => if (s.ctxAt c x).active then endTask s c x 2 0x67 else s) s
    let k := s.core c
    let s := s.modCore c fun k => { k with runList := [], stub := [], waitingPlace := [] }
    let s := k.runList.foldl (fun s e => dropEntry s 0x67 e) s
    let s := k.stub.foldl (fun s f => dropFlit s 0x67 f) s
    k.waitingPlace.foldl (fun s p => dropPlace s 0x67 p) s) s
  let spill := s.launch.spill.filter fun p => cores.contains p.core
  let flits := s.launch.flits.filter fun f => cores.contains f.dst
  let s := s.modLaunch fun l => { l with
    spill := l.spill.filter fun p => !(cores.contains p.core)
    flits := l.flits.filter fun f => !(cores.contains f.dst) }
  let s := spill.foldl (fun s p => dropEntry s 0x67 p.entry) s
  let s := flits.foldl (fun s f => dropFlit s 0x67 f) s
  let saved := (s.launch.jobs.map fun p => p.2.used.map fun u => (p.1, u.1, u.2)).flatten
  retryAll ((saved.filter fun v => cores.contains v.2.2.core).foldl (fun s v => cancelSaved s 0x67 v.1 v.2.1 v.2.2) s)

/-- Messages on their way into a fenced rectangle (R416). -/
def fenceMessages (s : State) (cores inside : List Nat) : State :=
  let lostFlits := (s.dev.flits.filter fun f => cores.contains f.dst) ++
    (cores.map fun c => ((s.core c).chans.map fun p => p.2.refused).flatten).flatten
  let s := lostFlits.foldl (fun s f =>
    recordCpyErr (s.modCore f.src fun k => { k with sends := k.sends - 1 }) f.src f.scx 0 0x23 0) s
  let lostColl := s.dev.collMsgs.filter fun m => cores.contains m.dst
  let s := lostColl.foldl lostCollMsg s
  s.modDev fun d => { d with
    flits := d.flits.filter fun f => !(cores.contains f.dst)
    collMsgs := d.collMsgs.filter fun m => !(cores.contains m.dst)
    reports := d.reports.filter fun r => !(inside.contains r.dst) && !(inside.contains r.src)
    completions := d.completions.filter fun c => !(inside.contains c.1)
    narrows := d.narrows.filter fun n => !(cores.contains n.core)
    peerq := d.peerq.filter fun w => !(cores.contains w.op.core)
    atsReqs := d.atsReqs.filter fun r => !(inside.contains r.sorus) }

/-- The fence of an entry runs to its end (R415). -/
def runFence (s : State) (n : Nat) : State :=
  let e := containAt s n
  let inside := e.sori
  let cores := (inside.map coresOf).flatten
  let s := cores.foldl fenceCore s
  let s := fenceTasks s cores
  let s := containWaits (fenceMessages s cores inside) inside
  let s := s.modDev fun d => { d with removed := d.removed ++ inside.filter fun k => !(d.removed.contains k) }
  setContain (topologyChange s) n { e with state := 2 }

/-- A command at a containment entry: 0 none, 1 FENCE, 2 RESET, 3 RELEASE (R413, R414). -/
def containCommand (s : State) (n cmd : Nat) : State :=
  let e := containAt s n
  let refuse := setContain s n { e with err := true }
  match cmd with
  | 0 => e.sori.foldl (fun s k => s.modSorus k fun u => { u with hardEvents := 0 }) s
  | 1 => if fenceRefused s n e then refuse else setContain s n { e with err := false, state := 1 }
  | 2 => if e.state != 2 then refuse else setContain s n { e with err := false, state := 3 }
  | _ => if e.state != 4 then refuse
    else setContain (s.modDev fun d => { d with rejoin := d.rejoin ++ e.sori }) n { e with err := false, state := 0 }

/-- A store to a containment entry: the rectangle may be written only while STATE is 000. -/
def containWrite (s : State) (n : Nat) (w : Word) : State :=
  let e := containAt s n
  let e := if e.state == 0 then { e with xhi := fieldOf w 12 4, xlo := fieldOf w 8 4, yhi := fieldOf w 4 3, ylo := fieldOf w 0 3 } else e
  containCommand (setContain s n e) n (fieldOf w 18 2)

/-- Everything inside a rectangle takes its reset value (R414). -/
def containResetNow (s : State) (n : Nat) : State :=
  let inside := (containAt s n).sori
  let s := inside.foldl (fun s k => s.modSorus k fun _ => Sorus.reset) s
  (inside.map coresOf).flatten.foldl (fun s c => s.setCore c { Core.reset with colls := (s.core c).colls }) s

/-! ### Debug stops (R440 to R442) -/

/-- The context that stops and steps. -/
def dbgCx (k : Core) : Nat := if bitOf k.dbgctl 4 then 1 else 0

/-- Is a context stopped? -/
def isStopped (k : Core) (cx : Nat) : Bool := k.stopped.contains cx

/-- DBGCTL as it is read. -/
def dbgWord (k : Core) : Word :=
  mergeMask (maskOf 5 1) (if isStopped k (dbgCx k) then maskOf 5 1 else 0) k.dbgctl

/-- The registration of a wait that stays while its instruction is left: a load from a forwarded page is simply performed again (R463). -/
def Wait.kept (w : Wait) : Option Wait :=
  match w.kind with
  | .forward _ => none
  | _ => some w

/-- Has the context's instruction an operation at an owner that is no blocking point (R132, R384)? Its boundary comes with its retirement
(log entry 104). -/
def Ctx.hasSent (c : Ctx) : Bool :=
  match c.wait with
  | some w => (match w.kind with
    | .remote _ => true
    | _ => false)
  | none => false

/-- Take a debug stop at a retirement boundary: an open region aborts with cause DEBUG. The instruction that waits executes again. -/
def debugStopNow (s : State) (core cause : Nat) : State :=
  let cx := dbgCx (s.core core)
  let s := if (s.ctxAt core cx).regionOpen then regionAbortNow s core cx 10 0 0 else s
  let s := s.modCtxAt core cx fun c => { c with wait := c.wait.bind Wait.kept, fwdGot := [], pageGot := [] }
  s.modCore core fun k => { k with
    stopped := cx :: k.stopped.filter (· != cx), stepping := false, dbgctl := mergeMask (maskOf 6 3) (atBit 6 cause) k.dbgctl }

/-- A write of DBGCTL: HALT 0 resumes the selected context where it is stopped, for one instruction if STEP is set. A context that a later
write of CTX no longer selects stays stopped until CTX selects it again (log entry 27). -/
def dbgWrite (s : State) (core : Nat) (w : Word) : State :=
  s.modCore core fun k =>
    let k := { k with dbgctl := mergeMask (maskOf 0 5) w k.dbgctl }
    if isStopped k (dbgCx k) && !bitOf w 1 then { k with stopped := k.stopped.filter (· != dbgCx k), stepping := bitOf w 2 } else k

/-! ### Boot (R454 to R457) -/

/-- BOOTSTAT (R457). -/
def bootstat (d : Device) : Word :=
  atBit 19 (if d.lastOk then 1 else 0) ||| atBit 18 (if d.minimal then 1 else 0) ||| atBit 16 d.fails ||| atBit 8 d.reason |||
    wordOf d.stage

/-- A start fails with a reason at a stage: the counter rises to at most 3. -/
def startFailed (s : State) (reason stage : Nat) : State :=
  s.modDev fun d => { d with judged := true, fails := min (d.fails + 1) 3, reason := reason, stage := stage }

/-- BOOTOK: the start succeeded and the counter is clear. -/
def bootOkNow (s : State) : State := s.modDev fun d => { d with bootOk := true, fails := 0 }

/-- The machine after a reset that keeps power: the always-on counter and what it records survive; bytes of memory stand as they
are (log entry 19). -/
def resetDevice (s : State) : State :=
  let d := s.dev
  let minimal := d.fails == 3
  { State.reset with
    turns := s.turns, fresh := s.fresh, mem := s.mem
    dev := { Device.reset with
      fails := d.fails, lastOk := d.bootOk, reason := d.reason, stage := d.stage, minimal := minimal, dev := d.dev
      c0clk := if minimal then 10 else 32, cmd0 := if minimal then 10 else 32
      c1clk := if minimal then 0 else 32, cmd1 := if minimal then 0 else 32 } }

/-! ### FWCTL (R455) -/

/-- A write of FWCTL: TCAP at most 100, PCAP at most the mode's clamp; BOOTOK is W1C, so `clear` says whether a 1 reaches it (R353). -/
def fwctlWrite (s : State) (w clear : Word) : State :=
  let clamp := if s.dev.quiet then 75 else 225
  let s := if bitOf clear 0 then bootOkNow s else s
  s.modDev fun d => { d with fwctl := atBit 16 (min (fieldOf w 16 8) 100) ||| atBit 8 (min (fieldOf w 8 8) clamp) }

end Sys2Proof.Machine
end

