-- ==== Sys2Proof/Machine/Ops.lean ====
section
/-!
DEFINITION. Taking a trap or an event and returning from one (R394 to R405, R463, R464), retirement and REPT (R255 to R258), and the
frame every instruction shares: mode, predicate, X instructions, registers (R196, R207, R217, R218, R232).
-/
namespace Sys2Proof.Machine

/-- The outcomes of this machine's step. -/
abbrev Out := Host.Outcome State Fault Refusal

/-! ### Modes and the words that hold them (R399) -/

def Mode.code : Mode → Nat
  | .user => 0
  | .supervisor => 1
  | .firmware => 2

/-- PMODE 11 is written as 00, so its code here is user. -/
def modeOf (n : Nat) : Mode :=
  match n with
  | 1 => .supervisor
  | 2 => .firmware
  | _ => .user

/-- Supervisor mode or above. -/
def Mode.atLeast (m need : Mode) : Bool := need.code ≤ m.code

/-- ESTAT as it is read: MODE is the current mode. -/
def Ctx.estatWord (c : Ctx) : Word := mergeMask (maskOf 4 2) (atBit 4 c.mode.code) c.estat

/-- Is a handler active? -/
def Ctx.inTrap (c : Ctx) : Bool := bitOf c.estat 2

/-! ### Taking a trap (R402) -/

/-- FCAUSE of a trap (R397). -/
def causeWord (f : FaultInfo) (cx : Nat) (event more : Bool) : Word :=
  let b (i : Nat) (x : Bool) : Word := if x then atBit i 1 else 0
  wordOf (f.code % 128) ||| b 7 f.refault ||| b 8 f.prifail ||| b 9 event ||| atBit 10 cx ||| b 11 more ||| atBit 16 (f.inner % 128)

/-- The vector address of a cause (R402). -/
def vectorOf (tvec : Word) (code : Nat) : Word := wordOf (fieldOf tvec 9 55 * 512 + code / 16 % 8 * 0x40)

/-- What the context holds on entry to its handler (R402, R464). -/
def Ctx.trapped (c : Ctx) (cx : Nat) (f : FaultInfo) (fpc : Word) (event more : Bool) : Ctx :=
  { c with
    fcause := causeWord f cx event more
    fpc := fpc
    faddr := f.faddr
    frow := f.frow
    fseq := wordOf c.retired
    estat := mergeMask (maskOf 0 3 ||| maskOf 7 1) (wordOf c.mode.code ||| maskOf 2 1) c.estat
    mode := .supervisor
    pc := vectorOf c.tvec f.code
    hold := true
    report := if c.report > 0 then c.report + 1 else if event && f.code == 0x61 then 1 else 0
    heldWait := if event then (match c.wait with
      | some w => w.kept
      | none => c.heldWait) else c.heldWait
    wait := none
    fwdGot := [], pageGot := [] }

/-- A step of the debugger ends after the trap that its instruction took (R442). -/
def stepStop (s : State) (core cx : Nat) : State :=
  if (s.core core).stepping && dbgCx (s.core core) == cx then debugStopNow s core 3 else s

/-- Take a fault or a trap: FPC as given, in a context with no region open (R402). -/
def trapEntry (s : State) (core cx : Nat) (f : FaultInfo) (fpc : Word) : State :=
  let c := s.ctxAt core cx
  if c.inTrap then endTask s core cx 1 0x66
  else if !bitOf c.tvec 0 then endTask s core cx 1 f.code
  else
    let s := trace s 5 (traceOf s core cx) (wordOf f.code)
    s.modCtxAt core cx fun c => c.trapped cx f fpc false false

/-- The cause of the abort that an event makes in an open region (R155). -/
def eventAbortCause (code : Nat) : Nat := if code == 0x62 then 8 else 4

/-- Take the oldest pending event of a context (R401, R463). -/
def takeEvent (s : State) (core cx : Nat) : State :=
  let c := s.ctxAt core cx
  match c.events with
  | [] => s
  | e :: rest =>
    if c.inTrap || !bitOf c.tvec 0 || c.commit.isSome || c.hasSent then s
    else
      let s := s.modCtxAt core cx fun c => { c with events := rest }
      let s := if c.regionOpen then regionAbortNow s core cx (eventAbortCause e.code) 0 0 else s
      let s := if c.active then s else s.modCtxAt core cx fun c => { c with pc := 0, active := true, mode := .user }
      let s := trace s 5 (traceOf s core cx) (wordOf e.code)
      s.modCtxAt core cx fun c => c.trapped cx (mkFault e.code e.faddr) c.pc true e.more

/-- Can an event be taken now (R401)? -/
def Ctx.eventReady (c : Ctx) : Bool := !c.events.isEmpty && !c.inTrap && bitOf c.tvec 0 && c.commit.isNone && !c.hasSent

/-- Return from a trap (R403): ENDF ends the task as faulted. An event's handler on an idle context that returns to 0 leaves it
idle (R401). -/
def trapReturn (s : State) (core cx : Nat) : State :=
  let c := s.ctxAt core cx
  if bitOf c.estat 7 then endTask s core cx 1 (fieldOf c.fcause 0 7)
  else s.modCtxAt core cx fun c =>
    let back := c.heldWait.isSome && (c.heldWait.map fun w => w.pc) == some c.fpc
    { c with
      mode := modeOf (fieldOf c.estat 0 2)
      estat := c.estat &&& ~~~(maskOf 2 1)
      pc := c.fpc
      hold := false
      report := c.report - 1
      active := !(c.task.isNone && c.fpc == 0)
      retired := c.retired + 1
      wait := if back then c.heldWait else none
      heldWait := if back then none else c.heldWait }

/-- Codes that count as hard events (R412). -/
def isHard (code : Nat) : Bool := code == 0x31 || code == 0x33 || code == 0x36 || code == 0x37

/-- A precise fault of the instruction at the context's PC (R394): in an open region it aborts the region (R155). -/
def faultNow (s : State) (core cx : Nat) (f : FaultInfo) : State :=
  let s := if isHard f.code then hardEvent s core else s
  let c := s.ctxAt core cx
  if c.regionOpen then regionAbortNow s core cx 6 0 f.code
  else stepStop (trapEntry s core cx f c.pc) core cx

/-! ### Retirement (R255, R398) -/

/-- Is the context inside a REPT block that it steps (R255, R464)? -/
def Ctx.inBlock (c : Ctx) : Bool := !c.hold && fieldOf c.reptst 32 32 != 0

/-- The REPT step at a retirement whose successor is `next` (R255). -/
def Ctx.stepRept (c : Ctx) (next : Word) : Ctx :=
  if !c.inBlock then { c with pc := next }
  else
    let left := fieldOf c.reptst 32 32
    let idx := fieldOf c.reptst 0 4
    if idx < fieldOf c.reptst 8 4 then
      { c with reptst := mergeMask (maskOf 0 4) (wordOf (idx + 1)) c.reptst, pc := next }
    else if left > 1 then
      { c with
        reptst := mergeMask (maskOf 32 32 ||| maskOf 20 4 ||| maskOf 0 4)
          (atBit 32 (left - 1) ||| atBit 20 ((fieldOf c.reptst 20 4 + fieldOf c.reptst 16 4) % 16)) c.reptst
        pc := c.reptpc }
    else { c with reptst := mergeMask (maskOf 32 32) 0 c.reptst, pc := next }

/-- The context after an instruction has retired. A CSRW or CSRX that makes LEFT non-zero is itself stepped so (R255, R256; the spec is
silent there, log entry 107). -/
def Ctx.retire (c : Ctx) (next : Word) : Ctx :=
  { c.stepRept next with retired := c.retired + 1, wait := none, fwdGot := [], pageGot := [] }

/-- How a body that is not stopped ends. -/
inductive Fin'
  | fall                                   -- the next instruction follows
  | jump (pc : Word)
  | rept (pc : Word)                       -- a REPT: its own block starts
  | trap (code : Nat) (faddr : Word)       -- it retires and then raises a trap
  | stop (cause : Nat)                     -- it retires and then makes a debug stop
  | done                                   -- the body has moved the context itself
deriving DecidableEq, Repr

/-- Retire the instruction at the context's PC. -/
def finish (s : State) (len : Nat) (r : Fin') : State :=
  let core := s.me
  let cx := s.mycx
  let next := s.ctx.pc + wordOf len
  let after (s : State) : State := stepStop s core cx
  match r with
  | .fall => after (s.modCtx fun c => c.retire next)
  | .jump pc => after (s.modCtx fun c => c.retire pc)
  | .rept pc => after (s.modCtx fun c => { c with pc := pc, hold := false, retired := c.retired + 1, wait := none, fwdGot := [], pageGot := [] })
  | .trap code faddr =>
    let s := s.modCtx fun c => c.retire next
    after (trapEntry s core cx (mkFault code faddr) s.ctx.pc)
  | .stop cause => debugStopNow (s.modCtx fun c => c.retire next) core cause
  | .done => after s

/-- The wait that a body asks for: a registration that stands keeps how it ended. -/
def Ctx.waits (c : Ctx) (k : WaitKind) : Ctx :=
  match c.wait with
  | some w => if w.kind = k then c else { c with wait := some ⟨k, c.pc, none⟩ }
  | none => { c with wait := some ⟨k, c.pc, none⟩ }

/-- Run a body for the instruction at the context's PC. -/
def runBody (s : State) (len : Nat) (body : M Fin') : State :=
  match body.run s with
  | .ok r s => finish s len r
  | .error (.fault f) s => faultNow s s.me s.mycx f
  | .error (.wait k) s => s.modCtx fun c => c.waits k
  | .error (.abort cause code) s => regionAbortNow s s.me s.mycx cause code 0

/-! ### The frame of an instruction (R196, R217, R218) -/

/-- Is the predicate register i true? p0 always is. -/
def Ctx.pred (c : Ctx) (i : Nat) : Bool := i == 0 || c.p.getLsbD i

/-- Read a predicate (R410). -/
def getP (i : Nat) : M Bool := do
  let c := (← get).ctx
  raiseIf (i != 0 && c.pue.getLsbD i) 0x37 0
  pure (c.pred i)

/-- Write a predicate; p0 discards it (R232). -/
def Ctx.setP (c : Ctx) (i : Nat) (v : Bool) : Ctx :=
  if i = 0 then c
  else { c with
    p := if v then c.p ||| (1#8 <<< i) else c.p &&& ~~~(1#8 <<< i)
    pue := c.pue &&& ~~~(1#8 <<< i)
    pnew := c.pnew ||| 1#8 <<< i }

def setP (i : Nat) (v : Bool) : M Unit := modify fun s => s.modCtx fun c => c.setP i v

/-- The value of a scalar register: g0 is zero (R9). -/
def Ctx.reg (c : Ctx) (i : Nat) : Word := if i = 0 then 0 else tget c.g i 0

/-- Read a scalar register (R410). -/
def getG (i : Nat) : M Word := do
  let c := (← get).ctx
  raiseIf (i != 0 && c.gue.getLsbD i) 0x37 0
  pure (c.reg i)

/-- The value of a register that no check of the instruction of a lower rank needs: `needG` raises its REGUE once those are made (R396). -/
def peekG (i : Nat) : M Word := do pure ((← get).ctx.reg i)

/-- Does a register hold an uncorrectable flip? -/
def Ctx.gueOf (c : Ctx) (i : Nat) : Bool := i != 0 && c.gue.getLsbD i

/-- REGUE of a register (R410). -/
def needG (i : Nat) : M Unit := do
  let c := (← get).ctx
  raiseIf (i != 0 && c.gue.getLsbD i) 0x37 0

/-- Write a scalar register; g0 discards it (R232). -/
def Ctx.setReg (c : Ctx) (i : Nat) (v : Word) : Ctx :=
  if i = 0 then c
  else { c with g := if v = 0 then tdel c.g i else tset c.g i v, gue := c.gue &&& ~~~(1#64 <<< i), gnew := c.gnew ||| 1#64 <<< i }

def setG (i : Nat) (v : Word) : M Unit := modify fun s => s.modCtx fun c => c.setReg i v

/-- OR flags into FPSR (R176, R177). -/
def addFlags (f : Flags) : M Unit := modify fun s => s.modCtx fun c => { c with fpsr := c.fpsr ||| f.setWidth 64 }

/-- The tile register that a tile field names in this pass (R207, R255). -/
def Ctx.tileIx (c : Ctx) (t : Nat) : Nat := if c.inBlock then (t + fieldOf c.reptst 20 4) % 16 else t % 16

/-- A tile register. -/
def Ctx.tile (c : Ctx) (n : Nat) : Tile := tget c.tiles n Tile.empty

/-- The tile that a field names, without any check. -/
def peekT (t : Nat) : M Tile := do
  let c := (← get).ctx
  pure (c.tile (c.tileIx t))

/-- Is the instruction enabled (R196)? -/
def enabled (f : Frame) : M Bool := do
  if f.pr == 0 then pure true
  else
    let v ← getP f.pr.val
    pure (v != f.pn)

/-- An X instruction on an S core (R217, R386): NOEXT, or the wait that the migration ends. -/
def checkX : M Unit := do
  let s ← get
  let c := s.ctx
  if isXCore s.me then pure ()
  else if bitOf c.tcfg 0 || c.mode != .user || (saveBase s c.asid).isNone then raise 0x03 0
  else waitFor .migrate

/-- The meaning of an instruction from that of its body. `priv` says that the mode lacks the right, `x` that it is an X
instruction. -/
def privInstr (f : Frame) (priv : State → Bool) (x : Bool) (body : M Fin') (s : State) : Out :=
  .next (if priv s then faultNow s s.me s.mycx (mkFault 0x01 0)
    else runBody s f.len.bytes do
      if ← enabled f then
        if x then checkX
        body
      else pure .fall)

/-- An instruction that every mode may run. -/
def instr (f : Frame) (body : M Fin') (s : State) : Out := privInstr f (fun _ => false) false body s

/-- An instruction that needs supervisor mode or above (R209). -/
def supInstr (f : Frame) (body : M Fin') (s : State) : Out :=
  privInstr f (fun s => !(s.ctx.mode.atLeast .supervisor)) false body s

/-- An instruction that needs firmware mode (R209). -/
def fwInstr (f : Frame) (body : M Fin') (s : State) : Out :=
  privInstr f (fun s => !(s.ctx.mode.atLeast .firmware)) false body s

/-- An operation of a tile engine: its start and end are traced (R446). -/
def traced (engine : Nat) (body : M Fin') : M Fin' := do
  let s ← get
  let pc := s.ctx.pc
  let r ← body
  modify fun s =>
    let t : TraceOf := { traceOf s s.me s.mycx with engine := engine }
    trace (trace s 3 t pc) 4 t pc
  pure r

/-- An instruction that a tile engine executes. -/
def engineInstr (f : Frame) (x : Bool) (engine : Nat) (body : M Fin') (s : State) : Out :=
  privInstr f (fun _ => false) x (traced engine body) s

end Sys2Proof.Machine
end

