-- ==== Sys2Proof/Machine/DevSpace.lean ====
section
/-!
DEFINITION. Device control space (R437 to R454): reads and writes of its 8-byte words. An access that reaches no word takes PHYSHOLE.
-/
namespace Sys2Proof.Machine

/-- Who reaches a word of device control space. -/
inductive DevBy
  | core | firmware | management | host
deriving DecidableEq, Repr

/-! ### Words -/

/-- The word of a ring's block (R445, R450). -/
def Ring.read (r : Ring) (off : Nat) : Option Word :=
  match off with
  | 0x0 => some r.base
  | 0x8 => some (atBit 32 r.cons ||| wordOf r.prod)
  | 0x10 => some r.ctl
  | _ => none

/-- Write a word of a ring's block under a byte mask. -/
def Ring.write (r : Ring) (off : Nat) (m w : Word) : Option Ring :=
  match off with
  | 0x0 => some { r with base := mergeMask (m &&& (maskOf 12 40 ||| maskOf 0 4)) w r.base }
  | 0x8 => some { r with cons := fieldOf (mergeMask m w (atBit 32 r.cons)) 32 32 }
  | 0x10 => some { r with ctl := mergeMask (m &&& (maskOf 8 8 ||| maskOf 0 1)) w (r.ctl &&& ~~~(w &&& m &&& maskOf 32 16)) }
  | _ => none

/-- The word of a launch counter (R438). -/
def ctrWord (s : State) (n : Nat) (second : Bool) : Word :=
  match s.launch.ctrs.lookup n with
  | none => 0
  | some c => if second then atBit 32 1 ||| wordOf (c.left % 2 ^ 32) else wordOf c.seq

/-- A word of the launch unit's block (R438, R449). -/
def launchRead (s : State) (off : Nat) : Option Word :=
  if off < 0x40 then some (queueConf s (off / 8))
  else if off == 0x40 then some (wordOf s.launch.phase)
  else if off == 0x48 then some s.launch.time
  else if off == 0x50 then some 0
  else if off == 0x58 then some (wordOf (graphCounter s (fieldOf s.launch.gquery 16 12) (fieldOf s.launch.gquery 0 16)))
  else if off == 0x60 then some (wordOf (phaseCounter s))
  else if 0x1000 ≤ off && off < 0x2000 then some (ctrWord s ((off - 0x1000) / 16) (off % 16 != 0))
  else if 0x2000 ≤ off && off < 0xA000 then some (wordOf (jobCounter s ((off - 0x2000) / 8)))
  else if 0xA000 ≤ off && off < 0x12000 then some (s.job ((off - 0xA000) / 8)).save
  else if 0x12000 ≤ off && off < 0x1A000 then some (wordOfBool (s.job ((off - 0x12000) / 8)).hash)
  else none

/-- A queue's configuration word after a write: RCOUNT is cleared by ones (R371). -/
def confWrite (old m w : Word) : Word :=
  mergeMask (m &&& (maskOf 20 12 ||| maskOf 0 4)) w (old &&& ~~~(w &&& m &&& maskOf 32 16))

/-- GQUERY selects the graph counter to read (R438). -/
def gqueryNow (s : State) (w : Word) : State := s.modLaunch fun l => { l with gquery := w &&& maskOf 0 28 }

/-- Write a word of the launch unit's block. Read-only words ignore writes. -/
def launchWrite (s : State) (off : Nat) (m w : Word) : Option State :=
  if off < 0x40 then
    some (s.modLaunch fun l => { l with conf := tset l.conf (off / 8) (confWrite (tget l.conf (off / 8) 0) m w) })
  else if off == 0x50 then some (gqueryNow s (w &&& m))
  else if 0xA000 ≤ off && off < 0x12000 then
    some (s.modJob ((off - 0xA000) / 8) fun j => { j with save := mergeMask (m &&& (maskOf 21 31 ||| maskOf 0 1)) w j.save })
  else if 0x12000 ≤ off && off < 0x1A000 then
    some (s.modJob ((off - 0x12000) / 8) fun j => { j with hash := bitOf (mergeMask m w (wordOfBool j.hash)) 0 })
  else if (launchRead s off).isSome then some s
  else none

/-- Eight bytes of a table of bytes. -/
def bytesWord (t : Tab Byte) (off : Nat) : Word := wordOfBytes ((upTo 8).map fun i => tget t (off + i) 0)

/-- Write the bytes of a table that a mask selects. -/
def bytesWrite (t : Tab Byte) (off : Nat) (m w : Word) : Tab Byte :=
  (upTo 8).foldl (fun t i => if fieldOf m (8 * i) 8 == 0 then t else tset t (off + i) (byteOf w i)) t

/-! ### The debug window (R441) -/

/-- The context of the window, as the image's words (R407): wake kind 0. Where it is not stopped the window reads zero (log entry 27). -/
def windowWord (s : State) (core off : Nat) : Word :=
  let k := s.core core
  let c := k.ctx (dbgCx k)
  let head := imageHead c (dbgCx k) core false 0
  if isStopped k (dbgCx k) then wordOfBytes ((upTo 8).map fun i => imageByte head c.tiles (off + i)) else 0

/-- A write to the window: the stopped context takes the changed image. What no image holds stays. -/
def windowWrite (s : State) (core off : Nat) (m w : Word) : State :=
  let k := s.core core
  let cx := dbgCx k
  let c := k.ctx cx
  let head := imageHead c cx core false 0
  let rd (o : Nat) : Byte :=
    if off ≤ o && o < off + 8 && fieldOf m (8 * (o - off)) 8 != 0 then byteOf w (o - off) else imageByte head c.tiles o
  if isStopped k cx then s.setCtxAt core cx (c.restore rd) else s

/-- A read or a write of the window through its own event. -/
def windowAccess (s : State) (core off : Nat) (w : Option Word) : State :=
  match w with
  | none => s
  | some w => windowWrite s core (off - off % 8) (BitVec.allOnes 64) w

/-- A write of DBGCTL that may ask for a stop (R440, R441). -/
def dbgStore (s : State) (core : Nat) (m w : Word) : State :=
  dbgWrite s core (mergeMask m w (dbgWord (s.core core)))

/-- A core's profiling and debug block (R440, R441, R447). -/
def coreBlockRead (s : State) (core off : Nat) : Option Word :=
  let k := s.core core
  if off == 0 then some k.sbase
  else if off == 8 then some k.sctl
  else if off == 0x10 then some (dbgWord k)
  else if 0x20000 ≤ off && off < 0x34000 then some (windowWord s core (off - 0x20000))
  else none

def coreBlockWrite (s : State) (core off : Nat) (m w : Word) : Option State :=
  if off == 0 then some (s.modCore core fun k => { k with sbase := mergeMask (m &&& (maskOf 16 36 ||| maskOf 0 1)) w k.sbase })
  else if off == 8 then some (s.modCore core fun k => { k with sctl := mergeMask (m &&& (maskOf 48 16 ||| maskOf 0 5)) w k.sctl })
  else if off == 0x10 then some (dbgStore s core m w)
  else if 0x20000 ≤ off && off < 0x34000 then some (windowWrite s core (off - 0x20000) m w)
  else none

/-! ### Wenpen ports (R453) -/

def portAt (s : State) (p : Nat) : Port := tget s.dev.ports p Port.reset
def setPort (s : State) (p : Nat) (x : Port) : State := s.modDev fun d => { d with ports := tset d.ports p x }

/-- What a port keeps for a partner. -/
def partnerAt (s : State) (p peer : Nat) : Partner := tget (portAt s p).partners peer Partner.reset
def setPartner (s : State) (p peer : Nat) (x : Partner) : State :=
  setPort s p { portAt s p with partners := tset (portAt s p).partners peer x }

/-- The port that leads to a peer. -/
def portTo (s : State) (peer : Nat) : Option Nat :=
  (upTo 4).find? fun p => (portAt s p).up && (portAt s p).peer == peer

/-- The oldest operation that waits for a peer takes the next tag and leaves, if the port has fewer than 64 outstanding (R144). -/
def sendOldest (s : State) (peer : Nat) : State :=
  match portTo s peer, s.dev.peerq.find? fun w => w.peer == peer with
  | some p, some w =>
    let x := partnerAt s p peer
    if x.outstanding.length ≥ 64 then s
    else (setPartner s p peer { x with
        nextTag := (x.nextTag + 1) % 65536, outstanding := x.outstanding ++ [{ w.op with tag := x.nextTag }] }).modDev fun d =>
      { d with peerq := d.peerq.erase w }
  | _, _ => s

/-- Every operation that waits and can leave does. Fuel: those that wait. -/
def pumpPeers (s : State) : State :=
  s.dev.peerq.foldl (fun s w => sendOldest s w.peer) s

def portRead (s : State) (p off : Nat) : Option Word :=
  let x := portAt s p
  match off with
  | 0 => some (atBit 8 (if x.up then 1 else 0) ||| wordOf x.peer)
  | 8 => some (atBit 31 (if x.lock then 1 else 0) ||| wordOf x.rate)
  | _ => none

/-- Does firmware access a word: a core in firmware mode, or the management core? -/
def DevBy.isFirmware (b : DevBy) : Bool := b == .firmware || b == .management

/-- Who reaches the management mailbox (R437). -/
def DevBy.reachesMailbox (b : DevBy) : Bool := b == .host || b == .management

/-- RATE and LOCK: after LOCK = 1 nothing changes. Firmware never writes them. -/
def portWrite (s : State) (p : Nat) (by_ : DevBy) (off : Nat) (m w : Word) : Option State :=
  let x := portAt s p
  match off with
  | 0 => some s
  | 8 =>
    if x.lock || by_.isFirmware then some s
    else
      let v := mergeMask m w ((portRead s p 8).getD 0)
      some (setPort s p { x with rate := fieldOf v 0 16, lock := bitOf v 31 })
  | _ => none

/-! ### The whole space (R437) -/

/-- Read the 8-byte word at an offset of device control space: none for a hole. -/
def devRead (s : State) (by_ : DevBy) (off : Nat) : Option (Word × State) :=
  let pure' (o : Option Word) : Option (Word × State) := o.map fun w => (w, s)
  let blk := off / 2 ^ 32
  let o := off % 2 ^ 32
  match blk with
  | 0 => pure' (launchRead s o)
  | 1 => if o < 0x10000 then
      pure' (some (wordOfBytes ((upTo 8).map fun i => scopeByte s (o / 1024) (o % 1024 / 32) (o % 32 + i))))
    else none
  | 2 =>
    let st := o / 0x1000
    if st ≥ 8 || (s.dev.minimal && st ≥ 1) then none
    else match o % 0x1000 with
      | 0x0 => some (0, s)
      | 0x8 => some ((s.stack st).reply, s)
      | 0x10 => some (readRetreq s st)
      | _ => none
  | 3 => if o < 0x80 then pure' (some (containAt s (o / 8)).word) else none
  | 4 => if by_.reachesMailbox && o < 0x1000 then
      pure' (some (if o == 0x800 then wordOfBool s.dev.bell0 else if o == 0x808 then wordOfBool s.dev.bell1
        else bytesWord s.dev.mailbox o))
    else none
  | 5 => pure' (s.dev.trace.read o)
  | 6 => if o / 0x40000 < 128 then pure' (coreBlockRead s (o / 0x40000) (o % 0x40000)) else none
  | 7 => pure' (s.dev.hashRing.read o)
  | 8 => if o / 0x100 < 4 then pure' (portRead s (o / 0x100) (o % 0x100)) else none
  | _ => none

/-- Write bytes of the 8-byte word at an offset of device control space, selected by a mask: none for a hole. -/
def devWrite (s : State) (by_ : DevBy) (off : Nat) (m w : Word) : Option State :=
  let blk := off / 2 ^ 32
  let o := off % 2 ^ 32
  match blk with
  | 0 => launchWrite s o m w
  | 1 => if o < 0x10000 then
      some (if o % 1024 / 32 < 5 then s else s.modDev fun d => { d with scopes := bytesWrite d.scopes o m w })
    else none
  | 2 =>
    let st := o / 0x1000
    if st ≥ 8 || (s.dev.minimal && st ≥ 1) then none
    else match o % 0x1000 with
      | 0x0 => some (portOp s st (w &&& m))
      | 0x8 => some s
      | 0x10 => some s
      | _ => none
  | 3 => if o < 0x80 then some (containWrite s (o / 8) (mergeMask m w ((containAt s (o / 8)).word &&& ~~~(maskOf 18 2)))) else none
  | 4 => if by_.reachesMailbox && o < 0x1000 then
      some (if o == 0x800 then s.modDev fun d => { d with bell0 := bitOf (mergeMask m w (wordOfBool d.bell0)) 0 }
        else if o == 0x808 then s.modDev fun d => { d with bell1 := bitOf (mergeMask m w (wordOfBool d.bell1)) 0 }
        else s.modDev fun d => { d with mailbox := bytesWrite d.mailbox o m w })
    else none
  | 5 => (s.dev.trace.write o m w).map fun r => s.modDev fun d => { d with trace := r }
  | 6 => if o / 0x40000 < 128 then coreBlockWrite s (o / 0x40000) (o % 0x40000) m w else none
  | 7 => (s.dev.hashRing.write o m w).map fun r => s.modDev fun d => { d with hashRing := r }
  | 8 => if o / 0x100 < 4 then portWrite s (o / 0x100) by_ (o % 0x100) m w else none
  | _ => none

/-- The offsets of the words that an access of n bytes touches. -/
def wordsOf (off n : Nat) : List Nat := (upTo ((off % 8 + n + 7) / 8)).map fun i => off - off % 8 + 8 * i

/-- Read n bytes of device control space: none when a word of them is a hole. -/
def devReadBytes (s : State) (by_ : DevBy) (off n : Nat) : Option (List Byte × State) :=
  let r := (wordsOf off n).foldl (fun (a : Option (List Byte × State)) o => a.bind fun (bs, s) =>
    (devRead s by_ o).map fun (w, s) => (bs ++ leBytes 8 w.toNat, s)) (some ([], s))
  r.map fun (bs, s) => ((bs.drop (off % 8)).take n, s)

/-- The mask and the value that bytes at an offset give the word at `o`. -/
def wordPart (off : Nat) (bs : List Byte) (o : Nat) : Word × Word :=
  (upTo 8).foldl (fun (a : Word × Word) i =>
    if off ≤ o + i && o + i < off + bs.length then
      (a.1 ||| maskOf (8 * i) 8, a.2 ||| atBit (8 * i) (bs.getD (o + i - off) 0).toNat)
    else a) (0, 0)

/-- Where device control space begins (R15). -/
def devBase : Nat := 0xF000000000000

/-- Write bytes of device control space: none when a word of them is a hole. The waiters of the line wake (R426). -/
def devWriteBytes (s : State) (by_ : DevBy) (off : Nat) (bs : List Byte) : Option State :=
  ((wordsOf off bs.length).foldl (fun (a : Option State) o => a.bind fun s =>
    let (m, w) := wordPart off bs o
    devWrite s by_ o m w) (some s)).map fun s => wakeLine s (lineOf (devBase + off))

/-- Is there a word at every offset an access touches? A read of it changes nothing that is kept. -/
def devThere (s : State) (by_ : DevBy) (off n : Nat) : Bool := (devReadBytes s by_ off n).isSome

/-- The offset of a device-physical address in device control space. -/
def devOff (pa : Nat) : Nat := pa - devBase

/-- The words that the host and the IEEE 1149.1 port reach beside BAR2: DBGCTL at offset 0x10 of a core's block, and the Wenpen blocks (R440, R453;
log entry 103). -/
def outsideReaches (off : Nat) : Bool :=
  let blk := off / 2 ^ 32
  (blk == 6 && off % 2 ^ 32 % 0x40000 == 0x10) || blk == 8

/-- A word of device control space that the host or the IEEE 1149.1 port reads or writes beside BAR2, or that the management core does (R437, R440,
R453, R454): a read is answered. -/
def spaceAccess (s : State) (host : Bool) (off : Nat) (w : Option Word) : State :=
  let off := off - off % 8
  let by_ : DevBy := if host then .host else .management
  if host && !outsideReaches off then s
  else match w with
  | some w => (devWriteBytes s by_ off (leBytes 8 w.toNat)).getD s
  | none => match devRead s by_ off with
    | none => s
    | some (v, s) =>
      let bs := leBytes 8 v.toNat
      s.modDev fun d => if host then { d with answers := d.answers ++ [bs] } else { d with managedReads := d.managedReads ++ [bs] }

end Sys2Proof.Machine
end

