-- ==== Sys2Proof/Machine/Access.lean ====
section
/-!
DEFINITION. Accesses of the acting context to the global virtual space: lookup, permission, page kinds, the L1, forwarded pages, open
regions, and the dirty log (R13, R16, R44, R45, R47, R76, R84, R86, R90 to R94, R105 to R115, R148, R155, R264, R411).
-/
namespace Sys2Proof.Machine

/-! ### Lookup -/

/-- What an access needs of a line's recorded permissions (R84). -/
def L1Line.allows (l : L1Line) (acc : Access) (m : Mode) : Bool :=
  (match acc with
    | .read => l.rd
    | .write => l.wr
    | .both => l.rd && l.wr
    | .fetch => false) && (m != .user || l.usr)

/-- The attributes that a line records. -/
def L1Line.attr (l : L1Line) (va : Nat) : Attr := ⟨l.pa + va % 64, if l.uo then 1 else 0, true, 0, 0, l.rd, l.wr, l.usr, l.size, l.glob⟩

/-- The permissions that a lookup grants are recorded in the line (R84). -/
def L1Line.grant (l : L1Line) (a : Attr) : L1Line := { l with rd := l.rd || a.r, wr := l.wr || a.w, usr := l.usr || a.u }

/-- Does device control space have a word everywhere the part touches (R437)? A firmware context is no management core. -/
def devBy (m : Mode) : DevBy := if m == .firmware then .firmware else .core

/-- Find what governs an address: the L1 line that holds it, else the TLB or a walk. Answers the attributes and whether the access is
allowed; NONCANON and a walk's failures are faults that name `faddr`. `n` is the length of the part. -/
def lookupM (va n : Nat) (acc : Access) (faddr : Word) : M (Attr × Bool) := do
  raiseIf (!canonical va) 0x10 faddr
  let s ← get
  let c := s.ctx
  match l1Find s s.me c.asid va with
  | some l =>
    if l.allows acc c.mode then pure (l.attr va, true)
    else
      let (a, ok) ← xlatM va acc faddr
      if ok then modify fun s => match l1Find s s.me c.asid va with
        | some l => l1Put s s.me (l.grant a)
        | none => s
      pure (a, ok)
  | none =>
    let (a, ok) ← xlatM va acc faddr
    raiseIf (ok && a.fwd == 0 && isControl a.pa && !devThere s (devBy c.mode) (devOff a.pa) n) 0x1B faddr
    pure (a, ok)

/-- The parts of a scalar access in the order of its bytes: split at a 4 KiB boundary, addresses modulo 2^64 (R113). -/
def partsOf (ea n : Nat) : List (Nat × Nat) :=
  let k := 4096 - ea % 4096
  if n ≤ k then [(ea, n)] else [(ea, k), ((ea + k) % 2 ^ 64, n - k)]

/-- A part with its attributes. -/
structure Part where
  va : Nat
  n : Nat
  a : Attr
deriving DecidableEq, Repr

/-- Parts in the order of their addresses: an access that wraps at 2^64 begins with its higher part. -/
def byAddress {α : Type} (va : α → Nat) (l : List α) : List α :=
  match l with
  | [p, q] => if va q < va p then [q, p] else l
  | l => l

/-- Check two parts of an access that begins at `ea`, the lower-addressed one given first (R113, R396). -/
def checkTwo (ea : Nat) (acc : Access) (p q : Nat × Nat) : M (List Part) := do
  let r ← attempt (lookupM p.1 p.2 acc (wordOf p.1))
  let t ← attempt (lookupM q.1 q.2 acc (wordOf q.1))
  match r, t with
  | .error e, _ => throw e
  | _, .error e => throw e
  | .ok (a, okA), .ok (b, okB) =>
    raiseIf (a.kind != b.kind || a.c != b.c || a.fwd != b.fwd) 0x16 (wordOf ea)
    raiseIf (!okA) 0x12 (wordOf p.1)
    raiseIf (!okB) 0x12 (wordOf q.1)
    pure [⟨p.1, p.2, a⟩, ⟨q.1, q.2, b⟩]

/-- Translate and check a scalar access: its parts in the order of its bytes. -/
def checkAccess (ea n : Nat) (acc : Access) : M (List Part) := do
  match partsOf ea n with
  | [p, q] =>
    if q.1 < p.1 then do
      let ps ← checkTwo ea acc q p
      pure ps.reverse
    else checkTwo ea acc p q
  | _ =>
    let (a, ok) ← lookupM ea n acc (wordOf ea)
    raiseIf (!ok) 0x12 (wordOf ea)
    pure [⟨ea, n, a⟩]

/-- The pieces of a part, one a line (R90, R115). -/
def piecesOf (va n : Nat) (a : Attr) : List Part :=
  (upTo ((va % 64 + n + 63) / 64)).map fun i =>
    let lo := if i = 0 then va else va - va % 64 + 64 * i
    let hi := min (va + n) (va - va % 64 + 64 * (i + 1))
    ⟨lo, hi - lo, { a with pa := a.pa + (lo - va) }⟩

/-! ### Regions (R148, R155) -/

/-- A region's access to a page that it may not touch aborts it (R155). -/
def regionPage (a : Attr) : M Unit := do
  let s ← get
  if s.ctx.regionOpen && (a.kind == 2 || !a.c || a.fwd != 0) then throw (.abort 4 0) else pure ()

/-- The first access of the acting context's open region to a line (R148). A line whose read was clamped holds no slot and registers
again. An empty interval registers nothing more and aborts (R150, R429). -/
def regionTouch (va : Nat) (a : Attr) (write : Bool) : M Unit := do
  let s ← get
  let c := s.ctx
  let line := lineOf a.pa
  if !c.regionOpen || c.holdsLine line write then pure ()
  else if c.intervalEmpty then throw (.abort 1 0)
  else do
    sliceTurn a.pa
    let (ab, s) := touchLine s s.me s.mycx va a write
    set s
    match ab with
    | some cause => throw (.abort cause 0)
    | none => pure ()

/-! ### Loads -/

/-- What the core has still to send home waits while a relock holds a FIFO on its way: stores that wait, combined bytes, dirty lines (R59). -/
def outTurn : M Unit := do
  let s ← get
  let k := s.myCore
  if k.sbuf.any (fun e => flitHeld s s.me e.a.pa) || k.wc.any (fun w => if w.fwd.isSome then portHeld s s.me else flitHeld s s.me w.pa) ||
      k.l1.any (fun l => l.dirty != 0 && l.spec.isNone && flitHeld s s.me l.pa) then waitFor .other else pure ()

/-- The first byte, among `n` from `pa`, of a poisoned granule at home that the write-combining buffer does not hold (R411). -/
def poisonIn (s : State) (pa n : Nat) : Option Nat :=
  match s.myCore.wc.find? fun w => w.holds (lineOf pa) with
  | none => firstPoison s pa n
  | some w => ((upTo n).find? fun i => poisonedAt s (pa + i) && !(byteOn w.mask (pa + i - w.pa))).map (pa + ·)

/-- Raise POISONED where a read at home touches a poisoned granule: the slice has read it (R67). -/
def checkPoison (va : Nat) (a : Attr) (n : Nat) : M Unit := do
  sliceTurn a.pa
  match poisonIn (← get) a.pa n with
  | some p => do
    modify fun s => fetchHome s (lineOf p)
    raise 0x1A (wordOf (va + (p - a.pa)))
  | none => pure ()

/-- A fault that the answer of an owner or of a unit makes of a wait. -/
def firedFault (f : Fired) (faddr : Word) : Option FaultInfo :=
  match f with
  | .fwdFail => some (mkFault 0x14 faddr)
  | .unknown => some (mkFault 0x18 faddr)
  | .contained => some { mkFault 0x23 faddr with inner := 0 }
  | _ => none

/-- The key under which a waiting instruction keeps the answer for n bytes at an owner's address. -/
def answerKey (addr n : Nat) : Nat := addr + 2 ^ 80 * n

/-- The key under which a waiting instruction keeps what it read once from device memory (R107). -/
def orderedKey (pa n : Nat) : Nat := 2 ^ 120 + answerKey pa n

/-- How the acting context's request for a forwarded address is sent; it waits for the host's translation (R91). -/
def ownerWayM (va : Nat) (a : Attr) : M (Nat × HostTag) := do
  let s ← get
  match ownerWay s (sorusOf s.me) s.ctx.xlat va a with
  | some w => pure w
  | none => do
    set (askAts s (sorusOf s.me) s.ctx.xlat va)
    waitFor .other

/-- A request of the acting core that its L1 does not serve is one of its misses (R447): of `kind`, for a line of device memory or a
forwarded one. -/
def sampleM (kind va : Nat) (line : Option Nat) : M Unit := modify fun s => sampleMiss s s.me va kind line s.ctx.regionOpen

/-- A request to home that retires before its reply: the record of its sample (R447). -/
def sampleLater (va line : Nat) : M (List (List Byte)) := do
  let s ← get
  let (l, s) := takeSample s s.me va 3 (some line) true
  set s
  pure l

/-- Does an engine operation still have parts on SO pages (R114)? -/
def EngineOp.soLeft (s : State) (core : Nat) (o : EngineOp) : Bool :=
  !o.complete && o.prog.ranges.any fun r => (pagesOf r).any fun va => (attrSeen s core o.xlat va).any fun a => a.kind == 2

/-- Is an SO store of the core to an owner not acknowledged, or a part of an SO store behind it still to be performed (R107)? -/
def soBehind (s : State) (core : Nat) : Bool :=
  s.dev.posted.any (fun p => p.so && p.core == some core) || !(s.core core).soParts.isEmpty

/-- Is an SO access of the core on its way (R107): a store, a non-returning operation, or the SO parts of its copies (R114)? -/
def soBusy (s : State) (core : Nat) : Bool :=
  soBehind s core || (s.core core).nonRet.any (fun n => n.so) || (s.core core).engine.any (fun o => o.soLeft s core)

/-- The core's SO accesses are performed one after another (R107): the next is not sent until the one before it has been acknowledged. An
SO store to device memory that waits in the store buffer is performed before it, and the write-combining buffer is emptied (R111). -/
def soTurn (a : Attr) : M Unit := do
  let s ← get
  if a.kind != 2 then pure ()
  else if soBusy s s.me then waitFor .other
  else
    let s := if s.myCore.sbuf.any (fun e => e.a.kind == 2) then emptyStores s s.me else s
    set (emptyWc s s.me)

/-- Device control space is SO (R16, R107). -/
def controlTurn : M Unit := do soTurn { pa := 0, kind := 2, c := false, fwd := 0, owner := 0, r := true, w := true, u := true, size := 12, glob := false }

/-- One piece read from an owner (R90, R93): it waits for the answer, a blocking point. -/
def forwardRead (kind va : Nat) (a : Attr) (n : Nat) : M (List Byte) := do
  let (addr, tag) ← ownerWayM va a
  let c := (← get).ctx
  match c.fwdGot.lookup (answerKey addr n) with
  | some bs => do
    let s ← get
    pure (wcOver s s.me addr (some a.ownerCode) (bs.take n ++ List.replicate (n - bs.length) 0))
  | none =>
    let ask : M (List Byte) := do
      soTurn a
      let (id, s) := (← get).newId
      let s := countForward (sampleSent s s.me id va kind) (sorusOf s.me) c.asid va false
      set (s.modDev fun d => { d with forwarded := d.forwarded ++ [⟨id, ⟨s.me, s.mycx, none⟩, a.ownerCode, addr, n, .read, tag⟩] })
      waitFor (.forward id)
    match c.wait with
    | some ⟨.forward id, _, none⟩ => waitFor (.forward id)
    | some ⟨.forward _, _, some f⟩ =>
      match firedFault f (wordOf (lineOf va)) with
      | some x => throw (.fault x)
      | none => ask
    | _ => ask

/-- One piece read through the L1 (R45, R47, R115). A load never takes bytes of the other context's region: it is served at home. -/
def cachedRead (kind va : Nat) (a : Attr) (n : Nat) : M (List Byte) := do
  let s ← get
  let c := s.ctx
  let off := va % 64
  let need := byteMask off n
  let mine (l : L1Line) : Bool := l.spec.isNone || l.spec == some s.mycx
  match l1Find s s.me c.asid va with
  | some l =>
    if mine l && need &&& ~~~l.pres == 0 then pure ((l.data.drop off).take n)
    else if !(mine l) then do
      checkPoison va a n
      sampleM kind va (some (lineOf a.pa))
      let (bs, s) := homeRead (drainLine (← get) s.me (lineOf a.pa)) a.pa n
      set (sawLine s s.me s.mycx (lineOf a.pa))
      pure bs
    else do
      sliceTurn a.pa
      set (sawLine (fillLine s s.me c.asid va a kind c.regionOpen) s.me s.mycx (lineOf a.pa))
      pure []
  | none =>
    sliceTurn a.pa
    let (stop, s) := makeRoom s s.me s.mycx c.regionOpen va
    set s
    if stop then throw (.abort 3 0)
    set (sawLine (fillLine s s.me c.asid va a kind c.regionOpen) s.me s.mycx (lineOf a.pa))
    pure []

/-- The bytes of a line after a fill; bytes that stayed absent are poisoned (R411). -/
def filledRead (va : Nat) (n : Nat) : M (List Byte) := do
  let s ← get
  match l1Find s s.me s.ctx.asid va with
  | none => raise 0x1A (wordOf va)
  | some l =>
    match (upTo n).find? fun i => !(byteOn l.pres (va % 64 + i)) with
    | some i => raise 0x1A (wordOf (va + i))
    | none => pure ((l.data.drop (va % 64)).take n)

/-- Read device control space. -/
def controlRead (a : Attr) (n : Nat) : M (List Byte) := do
  controlTurn
  let s ← get
  match devReadBytes s (devBy s.ctx.mode) (devOff a.pa) n with
  | some (bs, s) => do
    set s
    pure bs
  | none => raise 0x1B 0

/-- A piece read at home (R107, R109, R111). -/
def homeReadM (kind va : Nat) (a : Attr) (n : Nat) : M (List Byte) := do
  checkPoison va a n
  soTurn a
  sampleM kind va (some (lineOf a.pa))
  let s ← get
  let (bs, s) := homeRead (drainLine s s.me (lineOf a.pa)) a.pa n
  set s
  pure (wcOver s s.me a.pa none bs)

/-- Read one piece under its page's kind (R106); `kind` is the KIND of a sample of it (R448). -/
def readPiece (kind : Nat) (p : Part) : M (List Byte) := do
  if p.a.fwd != 0 then forwardRead kind p.va p.a p.n
  else if isControl p.a.pa then controlRead p.a p.n
  else if p.a.kind == 2 || !p.a.c then homeReadM kind p.va p.a p.n
  else do
    regionTouch p.va p.a false
    let bs ← cachedRead kind p.va p.a p.n
    if bs.isEmpty then filledRead p.va p.n else pure bs

/-- Run a computation over a list and join the bytes it gives. -/
def gather {α : Type} (f : α → M (List Byte)) : List α → M (List Byte)
  | [] => pure []
  | x :: t => do
    let b ← f x
    let r ← gather f t
    pure (b ++ r)

def each {α : Type} (f : α → M Unit) : List α → M Unit
  | [] => pure ()
  | x :: t => do
    f x
    each f t

/-- The pieces of the parts of an access, in ascending order. -/
def allPieces (ps : List Part) : List Part := (ps.map fun p => piecesOf p.va p.n p.a).flatten

/-- Poison of the pieces that are served at home, judged before any of them is read. -/
def checkHomePoison (p : Part) : M Unit := do
  if p.a.fwd == 0 && !(isControl p.a.pa) && (p.a.kind == 2 || !p.a.c) then checkPoison p.va p.a p.n else pure ()

/-- Read the parts of an access, the lower-addressed one first (R113): the bytes in their own order. -/
def readParts (ps : List Part) : M (List Byte) := do
  match ps with
  | [p, q] =>
    if q.va < p.va then do
      let lo ← gather (readPiece 0) (piecesOf q.va q.n q.a)
      let hi ← gather (readPiece 0) (piecesOf p.va p.n p.a)
      pure (hi ++ lo)
    else gather (readPiece 0) (allPieces ps)
  | _ => gather (readPiece 0) (allPieces ps)

/-- Load the bytes of a checked access. -/
def loadParts (ps : List Part) : M (List Byte) := do
  each (fun p => regionPage p.a) ps
  each checkHomePoison (allPieces (byAddress Part.va ps))
  readParts ps

/-- Load the bytes of a checked access once: an instruction that waits afterwards keeps them (R107). -/
def loadOnce (ps : List Part) : M (List Byte) := do
  let key := match ps with
    | p :: _ => orderedKey p.va p.n
    | [] => 0
  match (← get).ctx.fwdGot.lookup key with
  | some bs => pure bs
  | none => do
    let bs ← loadParts ps
    modify fun s => s.modCtx fun c => { c with fwdGot := (key, bs) :: c.fwdGot }
    pure bs

/-- The bytes of an access with those of the core's stores that wait (R105). -/
def partsOver (k : Core) : List Part → List Byte → List Byte
  | [], bs => bs
  | p :: t, bs =>
    let own := bs.take p.n
    (if p.a.fwd == 0 then storesOver k p.a.pa own else own) ++ partsOver k t (bs.drop p.n)

/-- A load of n bytes (R265). -/
def loadM (ea n : Nat) : M (List Byte) := do
  let ps ← checkAccess ea n .read
  let bs ← loadParts ps
  let k := (← get).myCore
  pure (if k.sbuf.isEmpty then bs else partsOver k ps bs)

/-! ### Stores -/

/-- Note the dirtied page of an access (R86); a full log makes the write wait (R88). -/
def noteM (va : Nat) : M Unit := do
  let s ← get
  match noteAt s s.me s.ctx.xlat va with
  | some s => set s
  | none => waitFor .other

/-- SPEC lines of a context's region. -/
def specLines (k : Core) (cx : Nat) : Nat := (k.l1.filter fun l => l.spec == some cx).length

/-- The line that a store is merged into: an RC line is filled and held alone in the sorus, a UO line is allocated (R43, R45). A SPEC
line of the other context's region is expelled first (R47). -/
def lineForStore (va : Nat) (a : Attr) : M Unit := do
  let s ← get
  let (stop, s) := storeLine s s.me s.mycx s.ctx.asid s.ctx.regionOpen va a
  set s
  if stop then throw (.abort 3 0)

/-- A piece stored through the L1. -/
def cachedWrite (va : Nat) (a : Attr) (bs : List Byte) : M Unit := do
  regionTouch va a true
  lineForStore va a
  let s ← get
  let c := s.ctx
  match l1Find s s.me c.asid va with
  | none => pure ()
  | some l =>
    if c.regionOpen then
      if l.spec.isNone && specLines s.myCore s.mycx ≥ 2048 then throw (.abort 3 0)
      else set (l1Put s s.me (l.merge (va % 64) bs (some s.mycx)))
    else set (l1Put s s.me (l.merge (va % 64) bs none))

/-- A piece of a forwarded store leaves for its owner (R90, R93), or is combined where it may be (R111): the message that a peer must
acknowledge. -/
def forwardWrite (combine : Bool) (va : Nat) (a : Attr) (bs : List Byte) : M (List Nat) := do
  let (addr, tag) ← ownerWayM va a
  soTurn a
  let s ← get
  if combine && a.kind == 1 && !a.c then do
    set (wcStore s s.me addr (some ⟨a.ownerCode, tag, s.ctx.asid, va⟩) bs)
    pure []
  else do
    let s := countForward s (sorusOf s.me) s.ctx.asid va true
    let (id, s) := post s { owner := a.ownerCode, addr := addr, mask := byteMask 0 bs.length, bytes := bs, core := some s.me, so := a.kind == 2, tag := tag }
    set s
    pure (if a.fwd == 2 then [id] else [])

/-- Write device control space. -/
def controlWrite (a : Attr) (bs : List Byte) : M Unit := do
  controlTurn
  modify fun s => (devWriteBytes s (devBy s.ctx.mode) (devOff a.pa) bs).getD s

/-- A piece stored at home (R107, R109, R111). -/
def homeWriteM (a : Attr) (bs : List Byte) : M Unit := do
  if a.kind == 1 then modify fun s => wcStore s s.me a.pa none bs
  else do
    soTurn a
    modify fun s => homeStore (drainLine s s.me (lineOf a.pa)) a.pa bs

/-- Is a piece on an SO page (R107)? Control space is SO (R16). -/
def Part.so (p : Part) : Bool := p.a.kind == 2 || isControl p.a.pa

/-- Perform a part of an SO store in its turn (R107): at home, in device control space, or at its owner. -/
def performSo (s : State) (core : Nat) (e : SoPart) : State :=
  if e.a.fwd != 0 then
    postAs (countForward s (sorusOf core) e.asid e.va true) e.id
      { owner := e.a.ownerCode, addr := e.addr, mask := byteMask 0 e.bs.length, bytes := e.bs, core := some core, so := true, tag := e.tag }
  else if isControl e.a.pa then (devWriteBytes s (if e.fw then .firmware else .core) (devOff e.a.pa) e.bs).getD s
  else homeStore (drainLine s core (lineOf e.a.pa)) e.a.pa e.bs

/-- The parts of an SO store that wait go on, up to one that an owner has to acknowledge (R107). Fuel: their number. -/
def sendSo : Nat → State → Nat → State
  | 0, s, _ => s
  | n + 1, s, core =>
    if s.dev.posted.any fun p => p.so && p.core == some core then s
    else match (s.core core).soParts with
      | [] => s
      | e :: t => sendSo n (performSo (s.modCore core fun k => { k with soParts := t }) core e) core

/-- A piece of an SO store takes its place behind the store's earlier pieces, which their owner has not acknowledged (R107, R113, R114). -/
def queueSo (p : Part) (bs : List Byte) : M (List Nat) := do
  let (addr, tag) ← ownerWayM p.va p.a
  let (id, s) := (← get).newId
  set (s.modMyCore fun k => { k with
    soParts := k.soParts ++ [⟨id, p.va, s.ctx.asid, p.a, addr, tag, s.ctx.mode == .firmware, bs⟩] })
  pure (if p.a.fwd == 2 then [id] else [])

/-- Write one piece under its page's kind (R106); the messages that a peer must acknowledge. The store has had its turn (R107), so an SO
access of the core that is on its way is an earlier piece of this store. -/
def writePiece (p : Part) (bs : List Byte) : M (List Nat) := do
  let s ← get
  if p.so && soBehind s s.me then queueSo p bs
  else if p.a.fwd != 0 then forwardWrite true p.va p.a bs
  else do
    if isControl p.a.pa then controlWrite p.a bs
    else if p.a.kind == 2 || !p.a.c then homeWriteM p.a bs
    else cachedWrite p.va p.a bs
    pure []

/-- Store bytes piece by piece. -/
def writePieces : List Part → List Byte → M (List Nat)
  | [], _ => pure []
  | p :: t, bs => do
    let i ← writePiece p (bs.take p.n)
    let r ← writePieces t (bs.drop p.n)
    pure (i ++ r)

/-- What a part's way to its owner needs is there (R91). -/
def wayThere (p : Part) : M Unit := do
  if p.a.fwd == 0 then pure ()
  else do
    let _ ← ownerWayM p.va p.a
    pure ()

/-- Room for a store to a peer (R275): the 65th waits. An entry of the write-combining buffer for a peer has its place. What the store's way
to an owner needs is there too: it leaves whole. -/
def postedRoom (ps : List Part) : M Unit := do
  each wayThere ps
  let k := (← get).myCore
  let combined := k.wc.filter fun w => w.fwd.any fun f => f.owner != 0
  if ps.any (fun p => p.a.fwd == 2) && k.posted.length + combined.length ≥ 64 then waitFor .other else pure ()

/-- The pieces whose store first dirties something (R86): not an L1 line that is dirty already, not control space. The line of an open region
is dirty once it is SPEC: its dirty bytes of before go home first (R47). -/
def notesOf (s : State) (ps : List Part) : List Part :=
  let clean (p : Part) : Bool := match l1Find s s.me s.ctx.asid p.va with
    | some l => l.dirty == 0 || (s.ctx.regionOpen && l.spec != some s.mycx)
    | none => true
  ps.filter fun p => !(p.a.fwd == 0 && isControl p.a.pa) && (p.a.kind == 2 || !p.a.c || p.a.fwd != 0 || clean p)

/-- Does a pinned load span any of n bytes: from addr(0) to the last byte of its last row (R297)? -/
def Pin.meets (p : Pin) (va n : Nat) : Bool :=
  let last := (p.ea + wordOf (p.rows - 1) * p.stride).toNat
  let lo := min p.ea.toNat last
  let hi := max p.ea.toNat last + p.cols * p.fmt.bytes
  rangesMeet lo (hi - lo) va n

/-- A store over the range of a pinned load drops the pin (R299). -/
def dropPinOver (va n : Nat) : M Unit := modify fun s =>
  if s.ctx.pin.any fun p => p.meets va n then dropPin s else s

/-- Write the parts of an access, the lower-addressed one first (R113). -/
def writeParts (ps : List Part) (bs : List Byte) : M (List Nat) := do
  match ps with
  | [p, q] =>
    if q.va < p.va then do
      let i ← writePieces (piecesOf q.va q.n q.a) (bs.drop p.n)
      let r ← writePieces (piecesOf p.va p.n p.a) bs
      pure (i ++ r)
    else writePieces (allPieces ps) bs
  | _ => writePieces (allPieces ps) bs

/-- What a store of pieces does before its bytes move: it may wait for room and for its turn (R107, R275), and notes what it dirties. -/
def beforePieces (pieces : List Part) : M Unit := do
  postedRoom pieces
  each (fun p => soTurn p.a) pieces
  let s ← get
  each (fun p => noteM p.va) (notesOf s pieces)

/-- What a store does before its bytes move; it drops a pin. -/
def beforeStore (ps : List Part) : M Unit := do
  each (fun p => regionPage p.a) ps
  beforePieces (allPieces (byAddress Part.va ps))
  each (fun p => dropPinOver p.va p.n) ps

/-- Does the store of a piece need a flit to device memory: unless it merges into a line that the core holds alone? -/
def pieceHeld (s : State) (p : Part) : Bool :=
  p.a.fwd == 0 && !(isControl p.a.pa) && flitHeld s s.me p.a.pa &&
  (p.a.kind == 2 || !p.a.c || match l1Find s s.me s.ctx.asid p.va with
    | some l => !(l.uo || l.dirty != 0)
    | none => true)

/-- A store waits while a relock holds what it sends home (R59). -/
def storesTurn (pieces : List Part) : M Unit := do
  let s ← get
  if pieces.any (pieceHeld s) then waitFor .other else pure ()

/-- Store the bytes of a checked access: the messages that a peer must acknowledge count as one store (R275). -/
def storeParts (ps : List Part) (bs : List Byte) : M Unit := do
  storesTurn (allPieces ps)
  beforeStore ps
  let ids ← writeParts ps bs
  modify fun s => countPosted s s.me ids

/-- May a store retire before it is performed (R105)? Its bytes are device memory, and its context has no open region. A store whose flits a
relock holds waits there, and so does one behind it (R59). -/
def holdable (s : State) (ps : List Part) : Bool :=
  (s.myCore.holdStores || !s.myCore.sbuf.isEmpty || (allPieces ps).any (pieceHeld s)) && !s.ctx.regionOpen &&
    ps.all fun p => p.a.fwd == 0 && !(isControl p.a.pa)

/-- The 32-byte payloads of a part (R115), with its bytes. -/
def payloadsOf (cx asid : Nat) (p : Part) (bs : List Byte) : List Stored :=
  (upTo ((p.va % 32 + p.n + 31) / 32)).map fun i =>
    let lo := if i = 0 then 0 else 32 * i - p.va % 32
    let hi := min p.n (32 * (i + 1) - p.va % 32)
    ⟨cx, asid, p.va + lo, { p.a with pa := p.a.pa + lo }, (bs.drop lo).take (hi - lo)⟩

/-- The parts of a store enter the store buffer in the order of its bytes. -/
def storedOf (cx asid : Nat) : List Part → List Byte → List Stored
  | [], _ => []
  | p :: t, bs => payloadsOf cx asid p (bs.take p.n) ++ storedOf cx asid t (bs.drop p.n)

/-- Retire a store of checked parts (R105): performed at once, or held in the store buffer. -/
def retireStore (ps : List Part) (bs : List Byte) : M Unit := do
  if holdable (← get) ps then do
    beforeStore ps
    modify fun s => s.modMyCore fun k => { k with sbuf := k.sbuf ++ storedOf s.mycx s.ctx.asid ps bs }
  else storeParts ps bs

/-- A store of bytes (R265). -/
def storeM (ea : Nat) (bs : List Byte) : M Unit := do
  let ps ← checkAccess ea bs.length .write
  storeParts ps bs

/-! ### Operations at home (R112, R131, R264) -/

/-- Raise ATOMALIGN where an address is not a multiple of n (R264). -/
def alignM (ea : Word) (n : Nat) : M Unit := raiseIf (ea.toNat % n != 0) 0x19 ea

/-- What happens to the copies of a line before an operation is performed at home (R111, R112): on an RC page every copy in the sorus goes,
a SPEC one too (log entry 84); otherwise the core's own, whatever its tag. -/
def beforeHomeOp (s : State) (a : Attr) : State :=
  let line := lineOf a.pa
  (holders (sendWcFor s s.me line) (sorusOf s.me) line).foldl (fun s (c, l) => if a.kind == 0 || c == s.me then expel s c l else s)
    (sendWcFor s s.me line)

/-- An address within one page, translated and checked for an operation at home. -/
def checkOne (ea : Word) (n : Nat) (acc : Access) : M Attr := do
  let (a, ok) ← lookupM ea.toNat n acc ea
  raiseIf (!ok) 0x12 ea
  pure a

end Sys2Proof.Machine
end

