-- ==== Sys2Proof/Machine/Operands.lean ====
section
/-!
DEFINITION. The operand forms of the instructions: integer and floating scalars (R204, R234, R235, R243, R244), effective addresses
(R199, R265), tiles by field (R207, R295, R410), and scalar pairs (R307).
-/
namespace Sys2Proof.Machine

/-! ### Integers -/

/-- W of a register form by its TY (R234). -/
def Ty.is32 (t : Ty) : Bool := t == .i32

/-- .i32 of an immediate form (R235). -/
def immIs32 (r : FmtI) : Bool := r.var.val % 2 == 1

/-! ### Floating scalars (R204, R243) -/

/-- The format of a scalar type code; integer codes are not used with it. -/
def tySpec : Ty → FloatSpec
  | .f16 => specF16
  | .bf16 => specBf16
  | .f32 => specF32
  | _ => specF64

/-- Bits of a scalar type (R204). -/
def tyBits : Ty → Nat
  | .f16 | .bf16 => 16
  | .f32 | .i32 => 32
  | _ => 64

/-- The encoding of an operand: the low bits of its register. -/
def tyEnc (t : Ty) (w : Word) : Nat := w.toNat % 2 ^ tyBits t

/-- The value of a floating operand. -/
def tyVal (t : Ty) (w : Word) : Val := (tySpec t).value (tyEnc t w)

/-- The random number of .sr from the seed register that SC names (R173, R244); 0 for the other modes. -/
def srOf (rnd : Rnd) (sc : Nat) : M Nat := do
  if rnd == .sr then
    let seed ← getG sc
    pure (srBits seed 0)
  else pure 0

/-- Round a value into the destination of a floating instruction and gather its flags (R243, R244). -/
def putFloat (t : Ty) (rnd : Rnd) (r : Nat) (d : Nat) (x : Val × Flags) : M Unit := do
  let (e, fl) := (tySpec t).encode rnd r false x.1
  addFlags (fl ||| x.2)
  setG d (wordOf e)

/-! ### Effective addresses -/

/-- (gA + offset) mod 2^64. -/
def eaM (r : FmtM) : M Word := do
  let a ← getG r.a.val
  pure (a + r.off)

/-! ### Tiles -/

/-- TSHAPE of a tile field: FADDR holds the tile register number (R295). -/
def shapeFault {α : Type} (t : Nat) : M α := do
  let c := (← get).ctx
  raise 0x34 (wordOf (c.tileIx t))

/-- Raise TSHAPE for a tile field where a condition holds. -/
def shapeIf (b : Bool) (t : Nat) : M Unit := if b then shapeFault t else pure ()

/-- TILEUE of a tile field (R410). -/
def tileUe (t : Nat) : M Unit := do
  let c := (← get).ctx
  raiseIf (!(c.tile (c.tileIx t)).ue.isEmpty) 0x36 (wordOf (c.tileIx t))

/-- The tile registers after a write of one of them. -/
def putTile (l : Tab Tile) (n : Nat) (t : Tile) : Tab Tile := if t = Tile.empty then tdel l n else tset l n t

/-- Write the tile that a field names: it takes a fresh physical tile (R294). -/
def Ctx.setTile (c : Ctx) (n : Nat) (t : Tile) : Ctx :=
  { c with tiles := putTile c.tiles n t, tnew := c.tnew ||| 1#16 <<< n }

/-- A flip in the physical tile that a register is mapped to, in place: the checkpoint of a region names the same tile while the register has
not been written since RGBEGIN (R147, R294, R422). -/
def Ctx.damageTile (c : Ctx) (n : Nat) (t : Tile) : Ctx :=
  { c with
    tiles := putTile c.tiles n t
    ckpt := if c.tnew.getLsbD n then c.ckpt else c.ckpt.map fun k => { k with tiles := putTile k.tiles n t } }

def setT (t : Nat) (v : Tile) : M Unit := modify fun s => s.modCtx fun c => c.setTile (c.tileIx t) v

/-- The domain of a destination: its modifier, or NFM as it stands (R164, R202). -/
def domOf (dm : Dm) : M Bool := do
  let c := (← get).ctx
  pure (match dm with
    | .nfm => bitOf c.corectl 0
    | .ext => true
    | .fin => false)

end Sys2Proof.Machine
end

