-- ==== Sys2Proof/Machine/Scalar.lean ====
section
/-!
DEFINITION. The scalar instructions of class 000 (R232 to R248).
-/
namespace Sys2Proof.Machine

/-- The frame of class 000: an armed injection of kind 2 strikes the first execution only, which the checker repeats (R249, R361). -/
def scalar (f : Frame) (body : M Unit) (s : State) : Out :=
  instr f (do
    body
    modify fun s => s.modCtx fun c => { c with injScalar := none }
    pure .fall) s

/-! ### Integer arithmetic (R234 to R236) -/

/-- A register form. -/
def aluR (op : AluOp) (f : Frame) (r : FmtR) (s : State) : Out :=
  scalar f (do
    let a ← getG r.a.val
    let b ← getG r.b.val
    setG r.d.val (aluWord op (Ty.is32 r.ty) a b)) s

/-- An immediate form. -/
def aluI (op : AluOp) (f : Frame) (r : FmtI) (s : State) : Out :=
  scalar f (do
    let a ← getG r.a.val
    setG r.d.val (aluWord op (immIs32 r) a r.imm)) s

/-- ADD (R234). -/
def execAdd (f : Frame) (r : FmtR) (s : State) : Out := aluR .add f r s
/-- SUB (R234). -/
def execSub (f : Frame) (r : FmtR) (s : State) : Out := aluR .sub f r s
/-- MUL (R234). -/
def execMul (f : Frame) (r : FmtR) (s : State) : Out := aluR .mul f r s
/-- MULH (R234). -/
def execMulh (f : Frame) (r : FmtR) (s : State) : Out := aluR .mulh f r s
/-- MULHU (R234). -/
def execMulhu (f : Frame) (r : FmtR) (s : State) : Out := aluR .mulhu f r s
/-- DIV (R234). -/
def execDiv (f : Frame) (r : FmtR) (s : State) : Out := aluR .div f r s
/-- DIVU (R234). -/
def execDivu (f : Frame) (r : FmtR) (s : State) : Out := aluR .divu f r s
/-- REM (R234). -/
def execRem (f : Frame) (r : FmtR) (s : State) : Out := aluR .rem f r s
/-- REMU (R234). -/
def execRemu (f : Frame) (r : FmtR) (s : State) : Out := aluR .remu f r s
/-- AND (R234). -/
def execAndR (f : Frame) (r : FmtR) (s : State) : Out := aluR .and f r s
/-- OR (R234). -/
def execOrR (f : Frame) (r : FmtR) (s : State) : Out := aluR .or f r s
/-- XOR (R234). -/
def execXorR (f : Frame) (r : FmtR) (s : State) : Out := aluR .xor f r s
/-- ANDN (R234). -/
def execAndn (f : Frame) (r : FmtR) (s : State) : Out := aluR .andn f r s
/-- SHL (R234). -/
def execShl (f : Frame) (r : FmtR) (s : State) : Out := aluR .shl f r s
/-- SHR (R234). -/
def execShr (f : Frame) (r : FmtR) (s : State) : Out := aluR .shr f r s
/-- SAR (R234). -/
def execSar (f : Frame) (r : FmtR) (s : State) : Out := aluR .sar f r s
/-- ROT (R234). -/
def execRot (f : Frame) (r : FmtR) (s : State) : Out := aluR .rot f r s
/-- MIN (R234). -/
def execMinR (f : Frame) (r : FmtR) (s : State) : Out := aluR .min f r s
/-- MAX (R234). -/
def execMaxR (f : Frame) (r : FmtR) (s : State) : Out := aluR .max f r s
/-- MINU (R234). -/
def execMinu (f : Frame) (r : FmtR) (s : State) : Out := aluR .minu f r s
/-- MAXU (R234). -/
def execMaxu (f : Frame) (r : FmtR) (s : State) : Out := aluR .maxu f r s
/-- ADD_IMM (R235). -/
def execAddImm (f : Frame) (r : FmtI) (s : State) : Out := aluI .add f r s
/-- SUB_IMM (R235). -/
def execSubImm (f : Frame) (r : FmtI) (s : State) : Out := aluI .sub f r s
/-- MUL_IMM (R235). -/
def execMulImm (f : Frame) (r : FmtI) (s : State) : Out := aluI .mul f r s
/-- MULH_IMM (R235). -/
def execMulhImm (f : Frame) (r : FmtI) (s : State) : Out := aluI .mulh f r s
/-- MULHU_IMM (R235). -/
def execMulhuImm (f : Frame) (r : FmtI) (s : State) : Out := aluI .mulhu f r s
/-- DIV_IMM (R235). -/
def execDivImm (f : Frame) (r : FmtI) (s : State) : Out := aluI .div f r s
/-- DIVU_IMM (R235). -/
def execDivuImm (f : Frame) (r : FmtI) (s : State) : Out := aluI .divu f r s
/-- REM_IMM (R235). -/
def execRemImm (f : Frame) (r : FmtI) (s : State) : Out := aluI .rem f r s
/-- REMU_IMM (R235). -/
def execRemuImm (f : Frame) (r : FmtI) (s : State) : Out := aluI .remu f r s
/-- AND_IMM (R235). -/
def execAndImm (f : Frame) (r : FmtI) (s : State) : Out := aluI .and f r s
/-- OR_IMM (R235). -/
def execOrImm (f : Frame) (r : FmtI) (s : State) : Out := aluI .or f r s
/-- XOR_IMM (R235). -/
def execXorImm (f : Frame) (r : FmtI) (s : State) : Out := aluI .xor f r s
/-- ANDN_IMM (R235). -/
def execAndnImm (f : Frame) (r : FmtI) (s : State) : Out := aluI .andn f r s
/-- SHL_IMM (R235). -/
def execShlImm (f : Frame) (r : FmtI) (s : State) : Out := aluI .shl f r s
/-- SHR_IMM (R235). -/
def execShrImm (f : Frame) (r : FmtI) (s : State) : Out := aluI .shr f r s
/-- SAR_IMM (R235). -/
def execSarImm (f : Frame) (r : FmtI) (s : State) : Out := aluI .sar f r s
/-- ROT_IMM (R235). -/
def execRotImm (f : Frame) (r : FmtI) (s : State) : Out := aluI .rot f r s
/-- MIN_IMM (R235). -/
def execMinImm (f : Frame) (r : FmtI) (s : State) : Out := aluI .min f r s
/-- MAX_IMM (R235). -/
def execMaxImm (f : Frame) (r : FmtI) (s : State) : Out := aluI .max f r s
/-- MINU_IMM (R235). -/
def execMinuImm (f : Frame) (r : FmtI) (s : State) : Out := aluI .minu f r s
/-- MAXU_IMM (R235). -/
def execMaxuImm (f : Frame) (r : FmtI) (s : State) : Out := aluI .maxu f r s

/-! ### Counting, extension, selection, comparison (R237 to R241) -/

/-- A count of R237. -/
def countR (op : CountOp) (f : Frame) (r : FmtR) (s : State) : Out :=
  scalar f (do
    let a ← getG r.a.val
    let w := widthOf (Ty.is32 r.ty)
    setG r.d.val (wordOf (op.eval w (a.toNat % 2 ^ w)))) s

/-- CLZ (R237). -/
def execClz (f : Frame) (r : FmtR) (s : State) : Out := countR .clz f r s
/-- CTZ (R237). -/
def execCtz (f : Frame) (r : FmtR) (s : State) : Out := countR .ctz f r s
/-- POPC (R237). -/
def execPopc (f : Frame) (r : FmtR) (s : State) : Out := countR .popc f r s

/-- Bits of SEXT and ZEXT by VAR (R238). -/
def extBits (var : Nat) : Nat := 8 * 2 ^ var

/-- SEXT (R238). -/
def execSext (f : Frame) (r : FmtR) (s : State) : Out :=
  scalar f (do
    let a ← getG r.a.val
    setG r.d.val (sextNat (extBits r.var.val) a.toNat)) s

/-- ZEXT (R238). -/
def execZext (f : Frame) (r : FmtR) (s : State) : Out :=
  scalar f (do
    let a ← getG r.a.val
    setG r.d.val (wordOf (a.toNat % 2 ^ extBits r.var.val))) s

/-- SEL (R239). -/
def execSel (f : Frame) (r : FmtR) (s : State) : Out :=
  scalar f (do
    let a ← getG r.a.val
    let b ← getG r.b.val
    let p ← getP r.c.val
    setG r.d.val (if p then a else b)) s

/-- The condition that a VAR field's low four bits name (R240). -/
def varCond (var : Nat) : Cond := (condOf (var % 16)).getD .never

/-- CMP (R240). -/
def execCmp (f : Frame) (r : FmtR) (s : State) : Out :=
  scalar f (do
    let a ← getG r.a.val
    let b ← getG r.b.val
    setP r.d.val (condWord (varCond r.var.val) (Ty.is32 r.ty) a b)) s

/-- CMP_IMM (R240). -/
def execCmpImm (f : Frame) (r : FmtI) (s : State) : Out :=
  scalar f (do
    let a ← getG r.a.val
    setP r.d.val (condWord (varCond r.var.val) (r.var.val ≥ 16) a r.imm)) s

/-- PLOGIC (R241). -/
def execPlogic (f : Frame) (r : FmtR) (s : State) : Out :=
  scalar f (do
    let a ← getP r.a.val
    let b ← getP r.b.val
    setP r.d.val (r.var.val / 2 ^ (2 * a.toNat + b.toNat) % 2 == 1)) s

/-! ### Constants and addresses (R242) -/

/-- LI (R242). -/
def execLi (f : Frame) (r : FmtI) (s : State) : Out := scalar f (setG r.d.val r.imm) s

/-- LEA (R242). -/
def execLea (f : Frame) (r : FmtI) (s : State) : Out :=
  scalar f (do
    if r.var == 0 then setG r.d.val ((← get).ctx.pc + r.imm)
    else
      let a ← getG r.a.val
      setG r.d.val (a + r.imm)) s

/-! ### Floating point (R243 to R248) -/

/-- An operation on two values that is rounded once (R244). -/
def float2 (op : Rnd → Val → Val → Val × Flags) (f : Frame) (r : FmtR) (s : State) : Out :=
  scalar f (do
    let a ← getG r.a.val
    let b ← getG r.b.val
    let k ← srOf r.rnd r.sc.val
    putFloat r.ty r.rnd k r.d.val (op r.rnd (tyVal r.ty a) (tyVal r.ty b))) s

/-- FADD (R244). -/
def execFadd (f : Frame) (r : FmtR) (s : State) : Out := float2 (fun rnd a b => Val.add (rnd == .rd) a b) f r s
/-- FSUB (R244). -/
def execFsub (f : Frame) (r : FmtR) (s : State) : Out := float2 (fun rnd a b => Val.add (rnd == .rd) a b.neg) f r s
/-- FMUL (R244). -/
def execFmul (f : Frame) (r : FmtR) (s : State) : Out := float2 (fun _ a b => Val.mul a b) f r s
/-- FDIV (R244). -/
def execFdiv (f : Frame) (r : FmtR) (s : State) : Out := float2 (fun _ a b => Val.div a b) f r s

/-- a × b + c, exactly (R244). -/
def fusedVal (rnd : Rnd) (a b c : Val) : Val × Flags :=
  let (p, f) := Val.mul a b
  let (v, g) := Val.add (rnd == .rd) p c
  (v, f ||| g)

/-- FFMA (R244). -/
def execFfma (f : Frame) (r : FmtR) (s : State) : Out :=
  scalar f (do
    let a ← getG r.a.val
    let b ← getG r.b.val
    let c ← getG r.c.val
    let k ← srOf r.rnd r.sc.val
    putFloat r.ty r.rnd k r.d.val (fusedVal r.rnd (tyVal r.ty a) (tyVal r.ty b) (tyVal r.ty c))) s

/-- FSQRT (R244). -/
def execFsqrt (f : Frame) (r : FmtR) (s : State) : Out :=
  scalar f (do
    let a ← getG r.a.val
    let k ← srOf r.rnd r.sc.val
    putFloat r.ty r.rnd k r.d.val (Val.sqrt (tyVal r.ty a))) s

/-- The operand that FMIN or FMAX returns, exactly (R245). -/
def minmaxEnc (t : Ty) (big : Bool) (a b : Nat) : Nat :=
  let x := (tySpec t).value a
  let y := (tySpec t).value b
  if x.isNan && y.isNan then (tySpec t).nanCode
  else if x.isNan then b
  else if y.isNan then a
  else if picksFirst big x y then a else b

/-- FMIN or FMAX. -/
def minmaxR (big : Bool) (f : Frame) (r : FmtR) (s : State) : Out :=
  scalar f (do
    let a ← getG r.a.val
    let b ← getG r.b.val
    addFlags ((tyVal r.ty a).sigFlag ||| (tyVal r.ty b).sigFlag)
    setG r.d.val (wordOf (minmaxEnc r.ty big (tyEnc r.ty a) (tyEnc r.ty b)))) s

/-- FMIN (R245). -/
def execFmin (f : Frame) (r : FmtR) (s : State) : Out := minmaxR false f r s
/-- FMAX (R245). -/
def execFmax (f : Frame) (r : FmtR) (s : State) : Out := minmaxR true f r s

/-- FCMP (R246). -/
def execFcmp (f : Frame) (r : FmtR) (s : State) : Out :=
  scalar f (do
    let a ← getG r.a.val
    let b ← getG r.b.val
    let (v, fl) := fcond r.var.val (tyVal r.ty a) (tyVal r.ty b)
    addFlags fl
    setP r.d.val v) s

/-- The source type of FCVT: VAR[2:0] (R247). -/
def fcvtSrc (r : FmtR) : Ty := (tyOf (r.var.val % 8)).getD .i64

/-- The value of FCVT's operand. -/
def fcvtVal (r : FmtR) (a : Word) : Val :=
  let t := fcvtSrc r
  let u := r.var.val / 16 == 1
  if t.isInt then .ofInt (if u then (tyEnc t a : Int) else signedOf (tyBits t) (tyEnc t a)) else tyVal t a

/-- An integer result in its register (R247). -/
def intResult (t : Ty) (u : Bool) (n : Nat) : Word := if t == .i32 && !u then sextNat 32 n else wordOf n

/-- FCVT (R175, R247): into the same format it copies exactly. -/
def execFcvt (f : Frame) (r : FmtR) (s : State) : Out :=
  scalar f (do
    let a ← getG r.a.val
    let k ← srOf r.rnd r.sc.val
    let v := fcvtVal r a
    if r.ty.isInt then
      let u := r.var.val / 16 == 1
      let (n, fl) := floatToInt (tyBits r.ty) (!u) r.rnd k (r.var.val / 8 % 2 == 1) v
      addFlags fl
      setG r.d.val (intResult r.ty u n)
    else if r.ty == fcvtSrc r then setG r.d.val (wordOf (tyEnc r.ty a))
    else putFloat r.ty r.rnd k r.d.val (v, 0)) s

/-- The bit of FCLASS's table (R248). -/
def classBit (p : FloatSpec) (enc : Nat) : Nat :=
  match p.value enc with
  | .nan sig => if sig then 8 else 9
  | .inf neg => if neg then 0 else 7
  | .zero neg => if neg then 3 else 4
  | .fin neg m e _ =>
    let sub := (bitLen m : Int) - 1 + e < 1 - p.bias
    if neg then (if sub then 2 else 1) else (if sub then 5 else 6)

/-- FCLASS (R248). -/
def execFclass (f : Frame) (r : FmtR) (s : State) : Out :=
  scalar f (do
    let a ← getG r.a.val
    setG r.d.val (atBit (classBit (tySpec r.ty) (tyEnc r.ty a)) 1)) s

end Sys2Proof.Machine
end

