-- ==== Sys2Proof/Machine/Memory.lean ====
section
/-!
DEFINITION. The instructions of class 001 on global memory (R125, R126, R263 to R273): loads, stores, prefetch, atomics, exact cells.
-/
namespace Sys2Proof.Machine

/-! ### LD, ST, PREF -/

/-- LD (R265, R266). -/
def execLd (f : Frame) (r : FmtM) (s : State) : Out :=
  instr f (do
    let ea ← eaM r
    let bs ← loadM ea.toNat r.sz.bytes
    setG r.d.val (loadValue r.sz bs)
    pure .fall) s

/-- The low bytes of the data register of a store. -/
def dataM (r : FmtM) : M (List Byte) := do
  let d ← getG r.d.val
  pure (leBytes r.sz.bytes d.toNat)

/-- ST (R265, R266). -/
def execSt (f : Frame) (r : FmtM) (s : State) : Out :=
  instr f (do
    let ea ← eaM r
    let ps ← checkAccess ea.toNat r.sz.bytes .write
    let bs ← dataM r
    retireStore ps bs
    pure .fall) s

/-- The scope that an instruction names, as its entry stands (R118, R121). -/
def scopeM (sc : Nat) : M Scope := do
  let s ← get
  let table := fieldOf s.ctx.sctbl 0 6
  match resolveScope s s.me table sc with
  | some x => pure x
  | none => raise 0x17 (wordOf (scopeAddr table sc))

/-- The core's earlier reductions have been performed at home (R123, R133). -/
def awaitReductions : M Unit := do
  let s ← get
  if s.myCore.nonRet.isEmpty then pure () else waitFor .other

/-- A release of the acting core, complete before what follows (R123). -/
def releaseM (sc : Scope) : M Unit := do
  outTurn
  awaitReductions
  let s ← get
  let s := releaseAt s s.me sc
  set s
  if releaseDone s s.me sc then pure () else waitFor .other

/-- An acquire of the acting core (R124). -/
def acquireM (sc : Scope) : M Unit := modify fun s => dropPin (acquireAt s s.me sc)

/-- A load that bypasses the L1 but takes the bytes the core holds dirty in it (R125). -/
def bypassRead (p : Part) : M (List Byte) := do
  checkPoison p.va p.a p.n
  sampleM 0 p.va (some (lineOf p.a.pa))
  let s ← get
  let (bs, s) := fillRead (drainLine s s.me (lineOf p.a.pa)) s.me p.a.pa p.n
  set s
  let own := s.myCore.l1.filter fun l => l.pa == lineOf p.a.pa && l.spec.isNone
  pure ((upTo p.n).map fun i =>
    match own.find? fun l => byteOn l.dirty (p.va % 64 + i) with
    | some l => l.data.getD (p.va % 64 + i) 0
    | none => bs.getD i 0)

/-- The core's combined bytes for a line of an owner go there before an operation on the line (R111). -/
def sendWcAt (s : State) (core owner addr : Nat) : State :=
  match (s.core core).wc.find? fun w => w.pa == lineOf addr && (w.fwd.map fun f => f.owner) == some owner with
  | some w => sendWcLine s core w
  | none => s

/-- Before an access is performed at an owner: its turn (R107), and the core's combined bytes for the line, which the owner has accepted
before (R111). -/
def lineTurn (va : Nat) (a : Attr) : M Unit := do
  soTurn a
  if a.fwd == 0 then pure ()
  else do
    let (addr, _) ← ownerWayM va a
    modify fun s => sendWcAt s s.me a.ownerCode addr
    let s ← get
    if s.dev.posted.any fun p => p.core == some s.me && p.owner == a.ownerCode && lineOf p.addr == lineOf addr then waitFor .other else pure ()

/-- How LD.acq serves a piece (R125, R111). -/
def acqPiece (sc : Scope) (p : Part) : M (List Byte) := do
  let s ← get
  if p.a.fwd != 0 then do
    if !p.a.c && p.a.kind == 1 then lineTurn p.va p.a
    readPiece 0 p
  else if isControl p.a.pa || p.a.kind == 2 then readPiece 0 p
  else if !p.a.c then do
    set (sendWcFor s s.me p.a.pa)
    readPiece 0 p
  else if p.a.kind == 0 && (sorScope s.me).contains sc then readPiece 0 p
  else bypassRead p

/-- LD_ACQ (R125, R156). -/
def execLdAcq (f : Frame) (r : FmtM) (s : State) : Out :=
  instr f (do
    let ea ← eaM r
    alignM ea r.sz.bytes
    let ps ← checkAccess ea.toNat r.sz.bytes .read
    each (fun p => regionPage p.a) ps
    let sc ← scopeM r.sc.val
    if (← get).ctx.regionOpen then do
      let bs ← loadParts ps
      setG r.d.val (loadValue r.sz bs)
    else do
      let bs ← gather (acqPiece sc) (allPieces ps)
      acquireM sc
      setG r.d.val (loadValue r.sz bs)
    pure .fall) s

/-- The store of ST.rel at home or at an owner (R44, R126), never combined: on a cacheable page it carries the other dirty bytes of the
core's own copy with it, whatever virtual address the copy has. The messages that a peer must acknowledge. -/
def relPiece (p : Part) (bs : List Byte) : M (List Nat) := do
  let s ← get
  if p.a.fwd != 0 && !p.so then forwardWrite false p.va p.a bs
  else if p.a.fwd != 0 || isControl p.a.pa || p.a.kind == 2 then writePiece p bs
  else if !p.a.c then do
    let s := sendWcFor s s.me p.a.pa
    set (homeStore (drainLine s s.me (lineOf p.a.pa)) p.a.pa bs)
    pure []
  else do
    let asid := s.ctx.asid
    let line := lineOf p.a.pa
    let s := drainLine s s.me line
    let s := if p.a.kind == 0 then becomeOnly s s.me asid p.va line else s
    match s.myCore.l1.find? fun l => l.pa == line with
    | some l =>
      if l.spec.isSome then set (homeWrite (expel s s.me l) line (pairsFrom p.a.pa bs))
      else
        let m := l.merge (p.va % 64) bs none
        set (homeWrite (l1Put s s.me { m with dirty := 0, mark := 0 }) line (maskedBytes line m.dirty m.data))
    | none => set (homeWrite s line (pairsFrom p.a.pa bs))
    pure []

def relPieces : List Part → List Byte → M (List Nat)
  | [], _ => pure []
  | p :: t, bs => do
    let i ← relPiece p (bs.take p.n)
    let r ← relPieces t (bs.drop p.n)
    pure (i ++ r)

/-- ST_REL (R126, R156). -/
def execStRel (f : Frame) (r : FmtM) (s : State) : Out :=
  instr f (do
    let ea ← eaM r
    alignM ea r.sz.bytes
    let ps ← checkAccess ea.toNat r.sz.bytes .write
    each (fun p => regionPage p.a) ps
    let sc ← scopeM r.sc.val
    let bs ← dataM r
    if (← get).ctx.regionOpen then storeParts ps bs
    else do
      releaseM sc
      let pieces := allPieces ps
      postedRoom pieces
      each (fun p => lineTurn p.va p.a) pieces
      each (fun p => noteM p.va) (pieces.filter fun p => !(p.a.fwd == 0 && isControl p.a.pa))
      each (fun p => dropPinOver p.va p.n) ps
      let ids ← relPieces pieces bs
      modify fun s => countPosted s s.me ids
    pure .fall) s

/-- Bring a line into the L1 as a clean copy, if its page and the cache let it (R269). -/
def prefetchM (va : Nat) : M Unit := do
  let s ← get
  let c := s.ctx
  if canonical va && (l1Find s s.me c.asid va).isNone then
    let (r, s) := translate s (sorusOf s.me) c.xlat va .read false
    set s
    match r with
    | .ok a =>
      if a.kind == 2 || !a.c || a.fwd != 0 then pure ()
      else do
        let (stop, s) := makeRoom s s.me s.mycx c.regionOpen va
        set s
        if stop then throw (.abort 3 0)
        set (fillLine s s.me c.asid va a 0 c.regionOpen)
    | .error _ => pure ()
  else pure ()

/-- PREF (R269). It raises no fault. -/
def execPref (f : Frame) (r : FmtM) (s : State) : Out :=
  instr f (do
    prefetchM ((← get).ctx.reg r.a.val + r.off).toNat
    pure .fall) s

/-! ### Operations sent to an owner (R92, R144 to R146) -/

/-- Hand an operation for a peer to the cluster agent: it leaves under the next tag once fewer than 64 are outstanding (R132, R144). Answers
its identifier. -/
def sendPeer (peer : Nat) (returns : Bool) (va : Nat) (op : RemoteOp) : M Nat := do
  let s ← get
  let (id, s) := s.newId
  let s := sampleSent s s.me id va 3
  set (sendOldest (s.modDev fun d => { d with peerq := d.peerq ++ [⟨peer, ⟨0, id, s.me, s.mycx, returns, op⟩⟩] }) peer)
  pure id

/-- Before an operation on a forwarded page leaves: its turn, the combined bytes of the line, the hint counters (R94, R107, R111). -/
def approachOwner (va : Nat) (a : Attr) (write : Bool) : M Unit := do
  lineTurn va a
  modify fun s => countForward s (sorusOf s.me) s.ctx.asid va write

/-- The answer of an owner to a returning operation, kept under a key: nine bytes, the value and the flags. It is sent once, and the
instruction waits at the head until the reply has arrived (R132). FADDR of a failure is `va`, the operand (log entry 28). -/
def ownerAnswer (key : Nat) (va : Word) (send : M Nat) : M (List Byte) := do
  let c := (← get).ctx
  match c.fwdGot.lookup key with
  | some bs => pure bs
  | none =>
    match c.wait with
    | some ⟨.remote id, _, none⟩ => waitFor (.remote id)
    | some ⟨.remote _, _, some fired⟩ =>
      match firedFault fired va with
      | some x => throw (.fault x)
      | none => do
        let id ← send
        waitFor (.remote id)
    | _ => do
      let id ← send
      waitFor (.remote id)

/-- Raise FWDOP on a host-owned page (R92, R273). -/
def noHost (a : Attr) (ea : Word) : M Unit := raiseIf (a.fwd == 1) 0x15 ea

/-! ### AMO and RED (R270 to R272) -/

/-- Read, change and write bytes of device control space in one step; the bytes as they were. -/
def controlRmw (pa n : Nat) (g : List Byte → Option (List Byte)) : M (List Byte) := do
  controlTurn
  let s ← get
  let by_ := devBy s.ctx.mode
  match devReadBytes s by_ (devOff pa) n with
  | none => pure []
  | some (bs, s) => do
    set (match g bs with
      | some w => (devWriteBytes s by_ (devOff pa) w).getD s
      | none => s)
    pure bs

/-- The new bytes of an atomic on old ones. -/
def atomicBytes (op : AtomicOp) (w : Nat) (b c : Word) (o : List Byte) : Option (List Byte) :=
  (op.eval w (leNat o) (b.toNat % 2 ^ w) (c.toNat % 2 ^ w)).map fun m => leBytes (w / 8) m

/-- Before an operation at home on device memory: the line's copies in the L1s, the write-combining buffer, the operations of the
core that are on their way (R107, R111, R112, R131). -/
def approachHome (va : Nat) (a : Attr) : M Unit := do
  soTurn a
  sampleM 3 va (some (lineOf a.pa))
  modify fun s => drainLine (beforeHomeOp s a) s.me (lineOf a.pa)

/-- An atomic in an open region: a read of the line and a write of the result at the core, which notes what it dirties (R86, R155, R271). -/
def regionAmo (op : AtomicOp) (w : Nat) (va : Nat) (a : Attr) (b c : Word) : M Nat := do
  let p : Part := ⟨va, w / 8, a⟩
  let o ← readPiece 3 p
  match atomicBytes op w b c o with
  | some m => do
    each (fun p => noteM p.va) (notesOf (← get) [p])
    let _ ← writePiece p m
    pure ()
  | none => pure ()
  pure (leNat o)

/-- An AMO on a host-owned page: an AtomicOp of the host link (R92). -/
def hostAmo (op : AtomicOp) (w32 : Bool) (ea b c : Word) (a : Attr) : M Nat := do
  let n := widthOf w32 / 8
  let (addr, tag) ← ownerWayM ea.toNat a
  let bs ← ownerAnswer (answerKey addr n) ea do
    noteM ea.toNat
    approachOwner ea.toNat a true
    let (id, s) := (← get).newId
    let s := sampleSent s s.me id ea.toNat 3
    set (s.modDev fun d => { d with forwarded := d.forwarded ++ [⟨id, ⟨s.me, s.mycx, none⟩, 0, addr, n, .atomic op w32 b c, tag⟩] })
    pure id
  pure (leNat (bs.take n))

/-- The old value of an AMO, wherever it is performed. `ue` raises what the data registers hold uncorrected, after the checks of lower
rank (R396). A pin stays (log entry 93). -/
def amoM (op : AtomicOp) (w32 : Bool) (ea b c : Word) (ue : M Unit) : M Nat := do
  let w := widthOf w32
  alignM ea (w / 8)
  let a ← checkOne ea (w / 8) .both
  let s ← get
  if s.ctx.regionOpen then do
    regionPage a
    ue
    regionAmo op w ea.toNat a b c
  else if a.fwd == 1 then do
    raiseIf (!(op == .add || op == .swap || op == .cas)) 0x15 ea
    ue
    hostAmo op w32 ea b c a
  else if a.fwd == 2 then do
    ue
    let bs ← ownerAnswer a.pa ea do
      noteM ea.toNat
      approachOwner ea.toNat a true
      sendPeer a.owner true ea.toNat (.atomic op w32 a.pa b c)
    pure (leNat (bs.take (w / 8)))
  else if isControl a.pa then do
    ue
    let bs ← controlRmw a.pa (w / 8) (atomicBytes op w b c)
    pure (leNat bs)
  else do
    ue
    checkPoison ea.toNat a (w / 8)
    noteM ea.toNat
    approachHome ea.toNat a
    let s ← get
    let (o, s) := homeAtomic s op w32 a.pa b c
    set s
    pure o

/-- AMO (R271). -/
def execAmo (f : Frame) (r : FmtR) (s : State) : Out :=
  instr f (do
    let ea ← getG r.a.val
    let b ← peekG r.b.val
    let c ← peekG r.c.val
    let w32 := Ty.is32 r.ty
    let o ← amoM (atomicOf r.var.val) w32 ea b c do
      needG r.b.val
      needG r.c.val
    setG r.d.val (sextNat (widthOf w32) o)
    pure .fall) s

/-- Room for one more non-returning operation (R132). -/
def reductionRoom : M Unit := do
  let s ← get
  if s.myCore.nonRet.length ≥ 64 then waitFor .other else pure ()

/-- Enter a non-returning operation: it retires, and home performs it later (R132). -/
def pendHome (ops : List HomeOp) (remote : List Nat) (so : Bool) (samples : List (List Byte)) : M Unit := modify fun s =>
  s.modMyCore fun k => { k with nonRet := k.nonRet ++ [⟨s.mycx, ops, remote, so, ops.any fun o => dieOf (homeOf o.line) != dieOf s.me, samples⟩] }

/-- A non-returning operation on one address: at home, at a peer, or at once in device control space. A pin stays (log entry 93). -/
def nonReturning (ea : Word) (n : Nat) (ue : M Unit) (poison : Bool) (home : Nat → HomeOp) (peer : Nat → RemoteOp)
    (ctl : List Byte → Option (List Byte)) : M Unit := do
  forbidInRegion
  alignM ea n
  let a ← checkOne ea n .write
  noHost a ea
  ue
  reductionRoom
  if a.fwd == 2 then do
    noteM ea.toNat
    approachOwner ea.toNat a true
    let id ← sendPeer a.owner false ea.toNat (peer a.pa)
    pendHome [] [id] (a.kind == 2) []
  else if isControl a.pa then do
    let _ ← controlRmw a.pa n ctl
    pure ()
  else do
    if poison then checkPoison ea.toNat a n
    noteM ea.toNat
    soTurn a
    let q ← sampleLater ea.toNat (lineOf a.pa)
    modify fun s => beforeHomeOp s a
    pendHome [home a.pa] [] (a.kind == 2) q

/-- RED (R272). -/
def execRed (f : Frame) (r : FmtR) (s : State) : Out :=
  instr f (do
    let ea ← getG r.a.val
    let b ← peekG r.b.val
    let w32 := Ty.is32 r.ty
    let op := atomicOf r.var.val
    nonReturning ea (widthOf w32 / 8) (needG r.b.val) true (fun pa => .atomic op w32 pa b) (fun pa => .atomic op w32 pa b 0)
      (atomicBytes op (widthOf w32) b 0)
    pure .fall) s

/-! ### Exact cells (R273) -/

/-- The element format of a cell's scalar type. -/
def cellFmt : Ty → Fmt
  | .f16 => .f16
  | .bf16 => .bf16
  | _ => .f32

/-- A cell from its bytes. -/
def exactOf (bs : List Byte) : Exact := ⟨leNat (bs.take 40), leNat ((bs.drop 40).take 8), leNat ((bs.drop 48).take 8) % 16⟩

/-- REDE (R273). -/
def execRede (f : Frame) (r : FmtR) (s : State) : Out :=
  instr f (do
    let ea ← getG r.a.val
    let b ← peekG r.b.val
    let fm := cellFmt r.ty
    let v := tyEnc r.ty b
    nonReturning ea 64 (needG r.b.val) true (fun pa => .exactAdd fm false pa v) (fun pa => .exactAdd pa fm false (wordOf v))
      (fun bs => some (exactBytes (exactAdd (exactOf bs) (fm.value false v))))
    pure .fall) s

/-- CLRE (R273). It clears the poison of its cell (R411). -/
def execClre (f : Frame) (r : FmtR) (s : State) : Out :=
  instr f (do
    let ea ← getG r.a.val
    nonReturning ea 64 (pure ()) false (fun pa => .exactClear pa) (fun pa => .exactClear pa) (fun _ => some (List.replicate 64 0))
    pure .fall) s

/-- Keep what a computation reads under a key: an instruction that waits afterwards reads it no second time (R107). -/
def once (key : Nat) (m : M (List Byte)) : M (List Byte) := do
  match (← get).ctx.fwdGot.lookup key with
  | some bs => pure bs
  | none => do
    let bs ← m
    modify fun s => s.modCtx fun c => { c with fwdGot := (key, bs) :: c.fwdGot }
    pure bs

/-- The key under which a waiting instruction keeps its n-th cell. -/
def cellKey (n : Nat) : Nat := 2 ^ 130 * (1 + n)

/-- The instruction's n-th cell rounded into a type (R184, R305): the encoding and the flags. -/
def readCell (t : Ty) (rnd : Rnd) (n : Nat) (ea : Word) (a : Attr) : M (Nat × Flags) := do
  let round (c : Exact) : Nat × Flags :=
    let (v, fl) := exactValue c
    let (e, g) := (tySpec t).encode rnd 0 false v
    (e, fl ||| g)
  if a.fwd == 2 then do
    let bs ← once (cellKey n) (ownerAnswer a.pa ea do
      approachOwner ea.toNat a false
      sendPeer a.owner true ea.toNat (.exactRead a.pa t rnd))
    modify fun s => s.modCtx fun c => { c with fwdGot := c.fwdGot.filter fun p => p.1 != a.pa }
    pure (leNat (bs.take 8) % 2 ^ tyBits t, BitVec.ofNat 6 (leNat (bs.drop 8)) &&& 0x17#6)
  else if isControl a.pa then do
    let bs ← once (cellKey n) (controlRmw a.pa 64 fun _ => none)
    pure (round (exactOf bs))
  else if a.kind == 2 then do
    let bs ← once (cellKey n) do
      checkPoison ea.toNat a 64
      approachHome ea.toNat a
      modify fun s => fetchHome s (lineOf a.pa)
      pure (exactBytes (exactAt (← get) a.pa))
    pure (round (exactOf bs))
  else do
    checkPoison ea.toNat a 64
    approachHome ea.toNat a
    modify fun s => fetchHome s (lineOf a.pa)
    pure (round (exactAt (← get) a.pa))

/-- RDE (R273). -/
def execRde (f : Frame) (r : FmtR) (s : State) : Out :=
  instr f (do
    forbidInRegion
    let ea ← getG r.a.val
    alignM ea 64
    let a ← checkOne ea 64 .both
    noHost a ea
    let (e, fl) ← readCell r.ty r.rnd 0 ea a
    addFlags fl
    setG r.d.val (wordOf e)
    pure .fall) s

end Sys2Proof.Machine
end

