-- ==== Sys2Proof/Machine/Buffers.lean ====
section
/-!
DEFINITION. The typed buffers (R18 to R35): slots, partition, in-flight engine work on them, LDL and STL.
-/
namespace Sys2Proof.Machine

/-! ### Copy descriptors (R340, R341) -/

namespace CopyDesc

def ndim (d : CopyDesc) : Nat := fieldOf d.ctl 0 3
def ssp (d : CopyDesc) : Nat := fieldOf d.ctl 4 2
def dsp (d : CopyDesc) : Nat := fieldOf d.ctl 6 2
def fmt (d : CopyDesc) : Nat := fieldOf d.ctl 8 5
def dom (d : CopyDesc) : Bool := bitOf d.ctl 13
def rows (d : CopyDesc) : Nat := fieldOf d.ctl 16 5 + 1
def cols (d : CopyDesc) : Nat := fieldOf d.ctl 21 7 + 1
def size0 (d : CopyDesc) : Nat := d.size.getD 0 0

/-- Steps of dimension k, 1 to 5. -/
def steps (d : CopyDesc) (k : Nat) : Nat := if k < d.ndim then d.size.getD k 1 else 1

/-- Number of runs. -/
def runs (d : CopyDesc) : Nat := d.steps 1 * d.steps 2 * d.steps 3 * d.steps 4 * d.steps 5

/-- The source and destination offsets of run r: dimension 1 is the innermost. -/
def offsets (d : CopyDesc) (r : Nat) : Word × Word :=
  let i1 := r % d.steps 1
  let r := r / d.steps 1
  let i2 := r % d.steps 2
  let r := r / d.steps 2
  let i3 := r % d.steps 3
  let r := r / d.steps 3
  let i4 := r % d.steps 4
  let i5 := r / d.steps 4
  let at' (l : List Word) : Word := wordOf i1 * l.getD 0 0 + wordOf i2 * l.getD 1 0 + wordOf i3 * l.getD 2 0 +
    wordOf i4 * l.getD 3 0 + wordOf i5 * l.getD 4 0
  (at' d.sstr, at' d.dstr)

end CopyDesc

/-! ### Slots -/

/-- The buffer that a space code names (R340): none for global memory. -/
def bufOfSpace : Nat → Option Buf
  | 1 => some .a
  | 2 => some .w
  | 3 => some .c
  | _ => none

/-- The buffer that SP names in LDL, STL, TLDL and TSTL by its code: .a, .w, .c (R199, R203). -/
def bufOfCode : Nat → Buf
  | 0 => .a
  | 1 => .w
  | _ => .c

/-- Slots of a buffer (R18). -/
def slotCount : Buf → Nat
  | .c => 32
  | _ => 64

/-- Slots reserved for context 1 at the top of a buffer (R33). -/
def urgSlots (k : Core) (b : Buf) : Nat :=
  match b with
  | .w => fieldOf k.bufpart 0 7
  | .a => fieldOf k.bufpart 8 6
  | .c => fieldOf k.bufpart 16 6

/-- May a context touch a slot (R33)? -/
def slotAllowed (k : Core) (cx : Nat) (b : Buf) (n : Nat) : Bool :=
  let first := slotCount b - urgSlots k b
  if cx = 0 then n < first else first ≤ n && n < slotCount b

/-- A slot of a buffer. -/
def slotAt (k : Core) (b : Buf) (n : Nat) : Tile := tget (k.buf b) n Tile.empty

/-- Write a slot; an empty tile clears it (R35). -/
def putSlot (k : Core) (b : Buf) (n : Nat) (t : Tile) : Core :=
  k.setBuf b (if t = Tile.empty then tdel (k.buf b) n else tset (k.buf b) n t)

/-! ### Engine work in flight (R29) -/

/-- The slots that hold the first rows of a slots-to-global copy, from a slot on: how many of them the runs need. Fuel: the slots. -/
def slotsFor (k : Core) (b : Buf) : Nat → Nat → Nat → Nat
  | 0, _, _ => 0
  | n + 1, slot, runs =>
    if runs = 0 then 0
    else 1 + slotsFor k b n (slot + 1) (runs - (slotAt k b slot).rows)

/-- Slot ranges that an engine operation reads and writes: buffer, first slot, count, whether written. -/
def engineSlots (k : Core) (o : EngineOp) : List (Buf × Nat × Nat × Bool) :=
  let range (sp : Nat) (at' : Word) (n : Nat) (w : Bool) : List (Buf × Nat × Nat × Bool) :=
    match bufOfSpace sp with
    | some b => [(b, at'.toNat / 0x1000, n, w)]
    | none => []
  match o with
  | .copy c =>
    let d := c.desc
    if c.prog.complete then []
    else if d.ssp = 0 then range d.dsp d.dst (d.runs / d.rows) true
    else if d.dsp = 0 then
      match bufOfSpace d.ssp with
      | some b => range d.ssp d.src (slotsFor k b 64 (d.src.toNat / 0x1000) d.runs) false
      | none => []
    else range d.ssp d.src d.size0 false ++ range d.dsp d.dst d.size0 true
  | .coll c =>
    if c.prog.complete then []
    else
      let n := c.count / 0x1000
      let out := if fieldOf c.ctl 0 3 == 1 then n * popCount 128 c.cores.toNat else n
      range (fieldOf c.ctl 4 2) c.src n false ++ range (fieldOf c.ctl 6 2) c.dst out true

/-- Does an access to slots of a buffer overlap engine work that has not been performed? Two reads do not conflict. -/
def slotBusy (k : Core) (b : Buf) (first n : Nat) (write : Bool) : Bool :=
  (k.engine.map (engineSlots k)).flatten.any fun (b', f, m, w) => b' == b && rangesMeet first n f m && (write || w)

/-- Does any engine work on a buffer of the core run (R34)? -/
def anySlotBusy (k : Core) : Bool := !((k.engine.map (engineSlots k)).flatten.isEmpty)

/-! ### Offsets of a buffer (R18, R26) -/

/-- A region of a buffer's space. -/
inductive BufRegion
  | data | cortex | metadata | log | cells
deriving DecidableEq, Repr

/-- The region that holds an offset, with its first offset and the number past its last. -/
def bufRegion (b : Buf) (off : Nat) : Option (BufRegion × Nat × Nat) :=
  let n := slotCount b
  let in' (r : BufRegion) (lo size : Nat) : Option (BufRegion × Nat × Nat) :=
    if lo ≤ off && off < lo + size then some (r, lo, lo + size) else none
  (in' .data 0 (n * 0x1000)).orElse fun _ =>
  (in' .cortex 0x40000 (n * 0x280)).orElse fun _ =>
  (in' .metadata 0x4A000 (n * 8)).orElse fun _ =>
  if b == .a then (in' .log 0x4C000 0x2000).orElse fun _ => in' .cells 0x4E000 0x2000 else none

/-- Does an offset lie in a populated area that holds no slot data? -/
def offSlots (b : Buf) (off : Nat) : Bool :=
  match bufRegion b off with
  | some (.data, _, _) => false
  | some _ => true
  | none => false

/-- The slot that an offset of a region belongs to. -/
def slotOfOff (r : BufRegion) (off : Nat) : Option Nat :=
  match r with
  | .data => some (off / 0x1000)
  | .cortex => some ((off - 0x40000) / 0x280)
  | .metadata => some ((off - 0x4A000) / 8)
  | _ => none

/-- A byte of a cell (R349). JCTX and JW stand in its control word. -/
def cellByte (c : Cell) (o : Nat) : Byte :=
  let w := match o / 8 with
    | 0 => c.ctrl
    | 1 => c.status
    | 2 => c.cpc
    | _ => c.carg
  byteOf w (o % 8)

/-- One byte of a buffer's space (R18, R27). -/
def bufByte (k : Core) (b : Buf) (off : Nat) : Byte :=
  match bufRegion b off with
  | some (.data, _, _) => (slotAt k b (off / 0x1000)).dataByte (off % 0x1000)
  | some (.cortex, _, _) => (slotAt k b ((off - 0x40000) / 0x280)).cortexByte ((off - 0x40000) % 0x280)
  | some (.metadata, _, _) => byteOf (slotAt k b ((off - 0x4A000) / 8)).metaWord (off % 8)
  | some (.log, _, _) => byteOf (tget k.dlog ((off - 0x4C000) / 8) 0) (off % 8)
  | some (.cells, _, _) => cellByte (tget k.cells ((off - 0x4E000) / 32) Cell.idle) (off % 32)
  | none => 0

/-! ### LDL (R24, R26, R27, R35, R268) -/

/-- Does an access touch a slot outside the caller's partition? Only slots of the region, which ends at `hi`, count. -/
def partitionBad (k : Core) (cx : Nat) (b : Buf) (r : BufRegion) (off n hi : Nat) : Bool :=
  let bad (o : Nat) : Bool := match slotOfOff r o with
    | some i => !(slotAllowed k cx b i)
    | none => false
  bad off || (off + n ≤ hi && bad (off + n - 1))

/-- Is the access the supervisor's read of the metadata word of a W or C slot (R24, R35)? -/
def metaRead (b : Buf) (m : Mode) (off n : Nat) : Bool :=
  m.atLeast .supervisor && n == 8 && off % 8 == 0 && (match bufRegion b off with
    | some (.metadata, _, _) => true
    | _ => false)

/-- The fault of an LDL at an offset, if any, in the order of R25. -/
def ldlFault (k : Core) (cx : Nat) (m : Mode) (b : Buf) (off : Word) (n : Nat) : Option Nat :=
  let o := off.toNat
  if b != .a && !(metaRead b m o n) then some 0x1C
  else match bufRegion b o with
  | none => some 0x1D
  | some (r, _, hi) =>
    if r == .log && !(m.atLeast .supervisor) then some 0x1C
    else if partitionBad k cx b r o n hi then some 0x1C
    else if o + n > hi then some 0x1D
    else if o % n != 0 then some 0x1E
    else none

/-- Raise a fault code, if there is one. -/
def raiseOpt (code : Option Nat) (faddr : Word) : M Unit :=
  match code with
  | some c => raise c faddr
  | none => pure ()

/-- An access to slot storage waits for engine work that overlaps it (R29). -/
def waitSlot (b : Buf) (off : Nat) (write : Bool) : M Unit := do
  let k := (← get).myCore
  match (bufRegion b off).bind fun r => slotOfOff r.1 off with
  | some n => if slotBusy k b n 1 write then waitFor .other else pure ()
  | none => pure ()

/-- The buffer offset of a word of a slot: of its data, and from 0x1000 on of its cortex (R18). -/
def slotWord (slot w : Nat) : Nat := if w < 0x1000 then slot * 0x1000 + w else 0x40000 + slot * 0x280 + (w - 0x1000)

/-- The first word with an uncorrectable flip among n bytes of a slot from x on, by its buffer offset. The cortex stands from 0x1000 on. -/
def slotUeAt (k : Core) (b : Buf) (slot x n : Nat) : Option Nat :=
  ((slotAt k b slot).ue.find? fun w => rangesMeet (w - w % 8) 8 x n).map (slotWord slot)

/-- TILEUE where an access touches a 64-bit word with an uncorrectable flip (R410): FADDR holds the word's offset. -/
def slotUe (b : Buf) (off n : Nat) : M Unit := do
  let k := (← get).myCore
  let hit := match bufRegion b off with
    | some (.data, _, _) => slotUeAt k b (off / 0x1000) (off % 0x1000) n
    | some (.cortex, _, _) => slotUeAt k b ((off - 0x40000) / 0x280) (0x1000 + (off - 0x40000) % 0x280) n
    | _ => none
  match hit with
  | some w => raise 0x36 (wordOf w)
  | none => pure ()

/-- LDL (R26, R27, R268). -/
def execLdl (f : Frame) (r : FmtM) (s : State) : Out :=
  instr f (do
    let ea ← eaM r
    let n := r.sz.bytes
    let s ← get
    let b := bufOfCode r.sp.val
    raiseOpt (ldlFault s.myCore s.mycx s.ctx.mode b ea n) ea
    let o := ea.toNat
    waitSlot b o false
    slotUe b o n
    let k := (← get).myCore
    setG r.d.val (loadValue r.sz ((upTo n).map fun i => bufByte k b (o + i)))
    pure .fall) s

/-! ### STL (R24, R28, R187) -/

/-- The fault of an STL at an offset, if any, in the order of R25 and R28. -/
def stlFault (k : Core) (cx : Nat) (b : Buf) (off : Word) (n : Nat) : Option Nat :=
  let o := off.toNat
  if b != .a then some 0x1C
  else match bufRegion b o with
  | none => some 0x1D
  | some (r, _, hi) =>
    if r != .data || partitionBad k cx b r o n hi then some 0x1C
    else if o + n > hi then some 0x1D
    else if o % n != 0 then some 0x1E
    else
      let t := slotAt k b (o / 0x1000)
      let row := o % 0x1000 / 128
      let last := o % 128 + n
      let mx := match t.fmt with
        | some f => f.isMx
        | none => false
      if !t.valid || mx || row ≥ t.rows || last > t.cols * t.width then some 0x1F else none

/-- The slot after bytes were stored in one of its rows: every element touched follows in its checks (R28, R187). -/
def storeInTile (t : Tile) (off : Nat) (bs : List Byte) : Tile :=
  let row := off / 128
  let x := off % 128
  let w := t.width
  let cols := (upTo ((x % w + bs.length + w - 1) / w)).map (x / w + ·)
  cols.foldl (fun t j =>
    let enc := leNat ((upTo w).map fun i =>
      let p := j * w + i
      if x ≤ p && p < x + bs.length then bs.getD (p - x) 0 else t.rowByte row p)
    t.setElem row j enc) t

/-- STL (R28, R268). -/
def execStl (f : Frame) (r : FmtM) (s : State) : Out :=
  instr f (do
    forbidInRegion
    let ea ← eaM r
    let s ← get
    let b := bufOfCode r.sp.val
    let o := ea.toNat
    -- the slot's state is judged once every earlier access to it has been performed
    if (bufRegion b o).isSome then waitSlot b o true
    raiseOpt (stlFault s.myCore s.mycx b ea r.sz.bytes) ea
    let bs ← dataM r
    slotUe b o bs.length
    modify fun s => s.modMyCore fun k => putSlot k b (o / 0x1000) (storeInTile (slotAt k b (o / 0x1000)) (o % 0x1000) bs)
    pure .fall) s

end Sys2Proof.Machine
end

