-- ==== Sys2Proof/Machine/Csr.lean ====
section
/-!
DEFINITION. The status registers (R38, R39, R362 to R366 and the field maps named there) and the instructions that reach them (R353).
-/
namespace Sys2Proof.Machine

/-! ### Numbers and rights (R38, R39, R362) -/

/-- The assigned numbers (R362). -/
def csrAssigned (n : Nat) : Bool :=
  n == 0x001 || n == 0x002 || (0x008 ≤ n && n ≤ 0x00D) || n == 0x010 || n == 0x011 || n == 0x012 || n == 0x020 ||
  (0x040 ≤ n && n ≤ 0x043) || (0x100 ≤ n && n ≤ 0x107) || n == 0x110 || n == 0x111 || (0x120 ≤ n && n ≤ 0x127) ||
  n == 0x400 || (0x410 ≤ n && n ≤ 0x417) || (0x480 ≤ n && n ≤ 0x487) || (0x4C0 ≤ n && n ≤ 0x4C3) || (0x4C8 ≤ n && n ≤ 0x4CB) ||
  n == 0x800 || n == 0x801 || (0x820 ≤ n && n ≤ 0x82F) || (0x880 ≤ n && n ≤ 0x882) || n == 0x900 || n == 0xC00 || n == 0xF00

/-- Registers without a field that can be written. -/
def csrReadOnly (n : Nat) : Bool :=
  n == 0x010 || n == 0x012 || n == 0x020 || (0x040 ≤ n && n ≤ 0x043) || (0x100 ≤ n && n ≤ 0x111) || n == 0x4CA || n == 0x800 ||
  n == 0x801 || n == 0x900

/-- May a mode read a register (R38)? -/
def csrMayRead (m : Mode) (n : Nat) : Bool :=
  if n < 0x400 then true else if n < 0xF00 then m.atLeast .supervisor else m == .firmware

/-- May a mode write a register? REPTST and REPTPC are read-only from user mode (R256), and so are the counters (R443). -/
def csrMayWrite (m : Mode) (n : Nat) : Bool :=
  !(csrReadOnly n) && csrMayRead m n && (m.atLeast .supervisor || !(n == 0x00C || n == 0x00D || n ≥ 0x100))

/-! ### Reading -/

/-- A mask of valid slots of a buffer (R35). -/
def validMask (k : Core) (b : Buf) : Word :=
  (upTo (slotCount b)).foldl (fun m n => if (slotAt k b n).valid then m ||| atBit n 1 else m) 0

/-- Die-1 contexts that hold a pending change to quiet mode (R359, R388). -/
def holdCount (s : State) : Nat := if boundaryHeld s then die1Tasks s else 0

/-- A mask of active cores from a core up. -/
def activeMask (s : State) (first : Nat) : Word :=
  (upTo 64).foldl (fun m i => if coreActive s (first + i) then m ||| atBit i 1 else m) 0

/-- The buffer of BUFVW, BUFVA and BUFVC by number. -/
def bufvBuf (n : Nat) : Buf := if n == 0x4C1 then .w else if n == 0x4C2 then .a else .c

/-- Status registers of a context. -/
def Ctx.csr (c : Ctx) (n : Nat) : Option Word :=
  match n with
  | 0x001 => some c.fpsr
  | 0x002 => some c.tcfg
  | 0x008 => some c.mec0
  | 0x009 => some c.mec1
  | 0x00A => some c.mec2
  | 0x00B => some c.mec3
  | 0x00C => some c.reptst
  | 0x00D => some c.reptpc
  | 0x010 => some c.chlast
  | 0x011 => some c.cpyerr
  | 0x012 => some c.cpyfa
  | 0x020 => some c.taskjoin
  | 0x040 => some c.erlo
  | 0x041 => some c.erhi
  | 0x042 => some c.erpos
  | 0x043 => some c.erstat
  | 0x400 => some c.corectl
  | 0x410 => some c.fcause
  | 0x411 => some c.fpc
  | 0x412 => some c.faddr
  | 0x413 => some c.frow
  | 0x414 => some c.fseq
  | 0x415 => some c.estatWord
  | 0x416 => some c.tvec
  | 0x417 => some c.sscr
  | 0x4C8 => some c.ptroot
  | 0x4C9 => some c.pasidr
  | 0x4CB => some c.sctbl
  | _ => none

/-- CLKSTAT (R359). -/
def clkstat (d : Device) : Word :=
  atBit 24 (if d.quiet then 1 else 0) ||| atBit 16 d.mstep ||| atBit 8 d.c1clk ||| wordOf d.c0clk

/-- Status registers of a core, its sorus and the device. -/
def sharedCsr (s : State) (core cx n : Nat) : Word :=
  let k := s.core core
  let d := s.dev
  if n == 0x100 then atBit 24 32 ||| atBit 16 160 ||| atBit 8 96 ||| wordOfBool (isXCore core)
  else if n == 0x101 then atBit 8 d.dev ||| atBit 7 cx ||| wordOf core
  else if n == 0x102 then wordOf (activeCores s).length
  else if n == 0x103 then wordOf ((upTo 16).filter (sorusActive s)).length
  else if n == 0x104 then atBit 32 4 ||| atBit 24 8 ||| atBit 16 16 ||| atBit 8 32 ||| wordOf 32
  else if n == 0x105 then wordOf d.toposeq
  else if n == 0x106 then activeMask s 0
  else if n == 0x107 then activeMask s 64
  else if n == 0x110 then k.cyc
  else if n == 0x111 then k.ncyc
  else if 0x120 ≤ n && n ≤ 0x127 then tget k.pmc (n - 0x120) 0
  else if 0x480 ≤ n && n ≤ 0x487 then tget k.pmsel (n - 0x480) 0
  else if n == 0x4C0 then k.bufpart
  else if 0x4C1 ≤ n && n ≤ 0x4C3 then validMask k (bufvBuf n)
  else if n == 0x4CA then atBit 32 (if k.dlFull then 1 else 0) ||| atBit 16 k.dlHead ||| wordOf k.dlTail
  else if n == 0x800 then atBit 33 (holdCount s) ||| atBit 32 (if d.pend then 1 else 0) ||| d.cmd
  else if n == 0x801 then clkstat d
  else if 0x820 ≤ n && n ≤ 0x82F then tget (s.sorus (sorusOf core)).spmc (n - 0x820) 0
  else if n == 0x880 then d.mhbase
  else if n == 0x881 then d.mhidx
  else if n == 0x882 then d.mhcfg
  else if n == 0x900 then bootstat d
  else if n == 0xC00 then dbgWord k
  else if n == 0xF00 then d.fwctl
  else 0

/-- A status register as a context reads it. -/
def csrRead (s : State) (core cx n : Nat) : Word :=
  match (s.ctxAt core cx).csr n with
  | some w => w
  | none => sharedCsr s core cx n

/-! ### Writing -/

/-- The fields of a register that take the written value (R8, R9). -/
def csrMask (n : Nat) : Word :=
  match n with
  | 0x001 => maskOf 0 6
  | 0x002 => maskOf 0 2
  | 0x00C => reptstFields
  | 0x00D => reptpcFields
  | 0x011 => 0
  | 0x400 => maskOf 0 1
  | 0x410 => maskOf 16 7 ||| maskOf 0 12
  | 0x413 => maskOf 32 32 ||| maskOf 0 6
  | 0x415 => maskOf 7 1 ||| maskOf 0 3
  | 0x416 => maskOf 9 55 ||| maskOf 0 1
  | 0x4C8 => maskOf 18 34 ||| maskOf 0 12
  | 0x4C9 => maskOf 0 22
  | 0x4CB => maskOf 0 6
  | 0x880 => maskOf 12 40 ||| maskOf 0 3
  | 0x881 => maskOf 16 32
  | 0x882 => maskOf 8 8 ||| maskOf 0 1
  | n => if 0x480 ≤ n && n ≤ 0x487 then maskOf 0 11 else BitVec.allOnes 64

/-- PMODE 11 is written as 00 (R399). -/
def fixPmode (w : Word) : Word := if fieldOf w 0 2 == 3 then w &&& ~~~(maskOf 0 2) else w

/-- A register of a context after a write; `w` is the merged word, `clear` the bits of W1C fields to clear. -/
def Ctx.csrPut (c : Ctx) (n : Nat) (w clear : Word) : Ctx :=
  match n with
  | 0x001 => { c with fpsr := w }
  | 0x002 => { c with tcfg := w }
  | 0x008 => { c with mec0 := w }
  | 0x009 => { c with mec1 := w }
  | 0x00A => { c with mec2 := w }
  | 0x00B => { c with mec3 := w }
  | 0x00C => { c with reptst := w }
  | 0x00D => { c with reptpc := w }
  | 0x011 => { c with cpyerr := c.cpyerr &&& ~~~(clear &&& maskOf 0 2) }
  | 0x400 => { c with corectl := w }
  | 0x410 => { c with fcause := w }
  | 0x411 => { c with fpc := w }
  | 0x412 => { c with faddr := w }
  | 0x413 => { c with frow := w }
  | 0x414 => { c with fseq := w }
  | 0x415 => { c with estat := fixPmode w }
  | 0x416 => { c with tvec := w }
  | 0x417 => { c with sscr := w }
  | 0x4C8 => { c with ptroot := w, pin := none }
  | 0x4C9 => { c with pasidr := w, pin := none }
  | 0x4CB => { c with sctbl := w, pin := none }
  | _ => c

/-- BUFPART as it is written: a value above a field's limit is the limit (R33). -/
def bufpartWord (w : Word) : Word :=
  atBit 16 (min (fieldOf w 16 6) 32) ||| atBit 8 (min (fieldOf w 8 6) 63) ||| wordOf (min (fieldOf w 0 7) 64)

/-- Clear the slots of a buffer that a mask names (R35). -/
def clearSlots (k : Core) (b : Buf) (mask : Word) : Core :=
  k.setBuf b ((k.buf b).filter fun p => !(bitOf mask p.1))

/-- An SPMC register after a write: SEL is written, so COUNT is cleared (R443). -/
def spmcWord (w : Word) : Word := w &&& maskOf 56 8

/-- MHIDX: bits of PROD and CONS above the log's size are zero (R95). -/
def mhidxWord (base w : Word) : Word :=
  let size := 2 ^ (fieldOf base 0 3 + 8)
  mergeMask (maskOf 0 32) (atBit 16 (fieldOf w 16 16 % size) ||| wordOf (fieldOf w 0 16 % size)) w

/-- A register of the core, the sorus or the device after a write. -/
def sharedPut (s : State) (core n : Nat) (w clear : Word) : State :=
  if 0x120 ≤ n && n ≤ 0x127 then s.modCore core fun k => { k with pmc := tset k.pmc (n - 0x120) w }
  else if 0x480 ≤ n && n ≤ 0x487 then s.modCore core fun k => { k with pmsel := tset k.pmsel (n - 0x480) w }
  else if n == 0x4C0 then s.modCore core fun k => { k with bufpart := bufpartWord w }
  else if 0x4C1 ≤ n && n ≤ 0x4C3 then s.modCore core fun k => clearSlots k (bufvBuf n) clear
  else if 0x820 ≤ n && n ≤ 0x82F then s.modSorus (sorusOf core) fun k => { k with spmc := tset k.spmc (n - 0x820) (spmcWord w) }
  else if n == 0x880 then s.modDev fun d => { d with mhbase := w, mhidx := mhidxWord w d.mhidx }
  else if n == 0x881 then s.modDev fun d => { d with mhidx := mhidxWord d.mhbase w }
  else if n == 0x882 then s.modDev fun d => { d with mhcfg := w }
  else if n == 0xC00 then dbgWrite s core w
  else if n == 0xF00 then fwctlWrite s w clear
  else s

/-- The supervisor's choice of PTROOT, PASIDR and SCTBL for the ASID that the context holds (R379; log entry 21). -/
def noteJob (s : State) (core cx n : Nat) : State :=
  if n == 0x4C8 || n == 0x4C9 || n == 0x4CB then
    let c := s.ctxAt core cx
    s.modJob c.asid fun j => { j with ptroot := c.ptroot, pasidr := c.pasidr, sctbl := c.sctbl }
  else s

/-- Write a register: `v` is the new value of its RW fields, `clear` names the bits of W1C fields that are cleared. -/
def csrPut (s : State) (core cx n : Nat) (v clear : Word) : State :=
  let old := csrRead s core cx n
  let w := mergeMask (csrMask n) v old
  match (s.ctxAt core cx).csr n with
  | some _ => noteJob (s.modCtxAt core cx fun c => c.csrPut n w clear) core cx n
  | none => sharedPut s core n w clear

/-! ### CSRR, CSRW, CSRX (R353) -/

/-- The frame of the status-register instructions: an unassigned number is ILLEGAL before the mode is judged (R39, R218). -/
def csrInstr (f : Frame) (n : Nat) (write : Bool) (body : M Fin') (s : State) : Out :=
  if !(csrAssigned n) then .next (faultNow s s.me s.mycx (mkFault 0x00 0))
  else privInstr f (fun s => !(if write then csrMayWrite s.ctx.mode n else csrMayRead s.ctx.mode n)) false body s

/-- BUFPART and the VALID registers wait for earlier engine work on the buffers (R34, R35). -/
def csrWait (n : Nat) : M Unit := do
  let s ← get
  if 0x4C0 ≤ n && n ≤ 0x4C3 && anySlotBusy s.myCore then waitFor .other else pure ()

/-- The old value of a register. -/
def csrOld (n : Nat) : M Word := do
  let s ← get
  pure (csrRead s s.me s.mycx n)

def csrPutM (n : Nat) (v clear : Word) : M Unit := modify fun s => csrPut s s.me s.mycx n v clear

/-- CSRR (R353). Of BUFPART and the VALID registers it returns what stands there, whatever engine work is in progress (R35). -/
def execCsrr (f : Frame) (r : FmtI) (s : State) : Out :=
  csrInstr f r.imm.toNat false (do
    setG r.d.val (← csrOld r.imm.toNat)
    pure .fall) s

/-- CSRW (R353). -/
def execCsrw (f : Frame) (r : FmtI) (s : State) : Out :=
  csrInstr f r.imm.toNat true (do
    forbidInRegion
    let a ← getG r.a.val
    csrWait r.imm.toNat
    csrPutM r.imm.toNat a a
    pure .fall) s

/-- CSRX: a new value from the old one and gA, and the bits of W1C fields that are cleared. -/
def csrx (new : Word → Word → Word) (clear : Word → Word) (f : Frame) (r : FmtI) (s : State) : Out :=
  csrInstr f r.imm.toNat true (do
    forbidInRegion
    let a ← getG r.a.val
    csrWait r.imm.toNat
    let old ← csrOld r.imm.toNat
    csrPutM r.imm.toNat (new old a) (clear a)
    setG r.d.val old
    pure .fall) s

/-- CSRX_SWAP (R353). -/
def execCsrxSwap (f : Frame) (r : FmtI) (s : State) : Out := csrx (fun _ a => a) (fun a => a) f r s
/-- CSRX_SET (R353). -/
def execCsrxSet (f : Frame) (r : FmtI) (s : State) : Out := csrx (fun old a => old ||| a) (fun _ => 0) f r s
/-- CSRX_CLR (R353). -/
def execCsrxClr (f : Frame) (r : FmtI) (s : State) : Out := csrx (fun old a => old &&& ~~~a) (fun a => a) f r s

end Sys2Proof.Machine
end

