-- ==== Sys2Proof/Machine/Fetch.lean ====
section
/-!
DEFINITION. What a context does at a retirement boundary, and fetching and decoding its next instruction (R49, R191, R192, R218, R257,
R381, R383, R384, R401, R441).
-/
namespace Sys2Proof.Machine

/-! ### Which context runs -/

/-- Does the core's list hold an entry for context 1? -/
def urgentListed (k : Core) : Bool := k.runList.any fun e => e.urg

/-- Context 0 stops while context 1 holds a task or urgent work is placed (R383). A commit that it has begun is carried through first: an
RGBEGIN of context 1 waits for it (R147, R153). -/
def paused (k : Core) (cx : Nat) : Bool := cx == 0 && k.c0.commit.isNone && (k.c1.active || urgentListed k)

/-- A core's channel. -/
def chanAt (k : Core) (n : Nat) : Chan := tget k.chans n ⟨[], []⟩

/-- Does a wait stand that only its registration or a message ends? The others test their condition again. -/
def Wait.blocks (k : Core) (w : Wait) : Bool :=
  w.fired.isNone && (match w.kind with
    | .other => false
    | .channel n => (chanAt k n).flits.isEmpty
    | _ => true)

/-- Does something wait for the context's next retirement boundary? -/
def Ctx.boundaryWork (c : Ctx) : Bool :=
  c.kill.isSome || c.abort.isSome || (c.regionOpen && c.commit.isNone && c.intervalEmpty)

/-- Has a stop been asked for (R441)? -/
def haltAsked (k : Core) (cx : Nat) : Bool := bitOf k.dbgctl 1 && !isStopped k cx && dbgCx k == cx && !(k.ctx cx).hasSent

/-- Can a context make a move of its own? -/
def runnable (s : State) (core cx : Nat) : Bool :=
  let k := s.core core
  let c := k.ctx cx
  coreActive s core && !(isStopped k cx) && !(paused k cx) &&
  (c.eventReady || (c.active && (c.boundaryWork || haltAsked k cx || !(c.wait.any fun w => w.blocks k))))

/-- All contexts, rising. -/
def allCtx : List CtxId := ((upTo 128).map fun n => [⟨Fin.ofNat 128 n, 0⟩, ⟨Fin.ofNat 128 n, 1⟩]).flatten

/-- The context that moves when no turn says otherwise (log entry 1): the current one, else the first that can. -/
def nextCtx (s : State) : Option CtxId :=
  if runnable s s.me s.mycx then some s.cur
  else allCtx.find? fun c => runnable s c.core.val c.cx.val

/-! ### Retirement boundary -/

/-- What a context does at a boundary before its oldest instruction, if anything: a kill, a pending abort, an empty interval, a debug
stop, a pending event. -/
def atBoundary (s : State) (core cx : Nat) : Option State :=
  let k := s.core core
  let c := k.ctx cx
  match c.kill, c.abort with
  | some cause, _ => some (killStep s core cx cause)
  | none, some (cause, code, fcode) =>
    if c.regionOpen then some (regionAbortNow s core cx cause code fcode)
    else some (s.modCtxAt core cx fun c => { c with abort := none })
  | none, none =>
    if c.regionOpen && c.commit.isNone && c.intervalEmpty then some (regionAbortNow s core cx 1 0 0)
    else if haltAsked k cx && c.active && c.commit.isNone then some (debugStopNow s core 1)
    else if c.eventReady then some (takeEvent s core cx)
    else none

/-! ### Fetch -/

/-- The set of an address in the instruction cache: 128 sets of eight ways (R49). -/
def icSet (va : Nat) : Nat := va / 64 % 128

/-- The bytes of a line of the instruction cache, filled from home (R49): a line with a poisoned granule is not kept. -/
def fetchLine (s : State) (core asid va : Nat) (a : Attr) : List Byte × State :=
  let pa := a.pa
  match (s.core core).icache.find? fun l => l.asid == asid && l.va == lineOf va with
  | some l => (l.data, s)
  | none =>
    let (bs, s) := fillRead s core (lineOf pa) 64
    if poisonedAt s (lineOf pa) || poisonedAt s (lineOf pa + 32) then (bs, s)
    else
      let ways := (s.core core).icache.filter fun l => icSet l.va == icSet va
      let (v, s) := anyOf s (if ways.length < 8 then [] else ways)
      let left (k : Core) : List ILine := match v with
        | some l => k.icache.erase l
        | none => k.icache
      (bs, s.modCore core fun k => { k with icache := ⟨lineOf va, asid, a.size, a.glob, bs⟩ :: left k })

/-- The bytes from the PC to the end of its fetch block. -/
def fetchM (pc : Nat) : M (List Byte) := do
  raiseIf (pc % 4 != 0) 0x04 0
  raiseIf (!canonical pc) 0x10 (wordOf pc)
  let (a, ok) ← xlatM pc .fetch (wordOf pc)
  raiseIf (!ok) 0x12 (wordOf pc)
  let s ← get
  raiseIf (isControl a.pa) 0x1B (wordOf pc)
  let held := s.myCore.icache.any fun l => l.asid == s.ctx.asid && l.va == lineOf pc
  if !held then sliceTurn a.pa
  if !held && poisonedAt s a.pa then do
    set (fetchHome s (lineOf a.pa))
    raise 0x1A (wordOf pc)
  let (bs, s) := fetchLine s s.me s.ctx.asid pc a
  set s
  pure ((bs.drop (pc % 64)).take (32 - pc % 32))

/-- An instruction that a REPT block must not contain (R257). -/
def blockForbids (i : Instr) : Bool :=
  let code := i.code
  (0x081 ≤ code && code < 0x0c0) || code == 0x0d8 || code == 0x0d9

/-- The instruction at the PC, with the checks of R218 up to step 6. -/
def decodeM : M Instr := do
  let pc := (← get).ctx.pc.toNat
  let bs ← fetchM pc
  let c := (← get).ctx
  match decode bs with
  | .ok i => do
    raiseIf (c.inBlock && blockForbids i) 0x00 0
    pure i
  | .error .short => raise 0x02 0
  | .error _ => raise 0x00 0

/-- What a context that runs comes to: a move that is complete, or an instruction to execute. -/
inductive Next
  | moved (s : State)
  | run (i : Instr) (s : State)

/-- The RGEND that waits retires once every slice has acknowledged its commit (R153). -/
def commitMove (s : State) (k : Commit) : State :=
  if k.slices.isEmpty && k.acks.isEmpty then finish (finishCommit s s.me s.mycx) k.len .fall else s

/-- May an instruction run before the core's retired stores are performed (R105)? Scalar ones, branches, LD, ST and TST; the others find every
older store of the core performed (log entry 13). -/
def passesStores (i : Instr) : Bool :=
  match i with
  | .ld _ _ | .st _ _ | .tst _ _ => true
  | i => i.code < 0x080

/-- Is an instruction enabled in the current context (R196)? -/
def isEnabled (i : Instr) (c : Ctx) : Bool :=
  match i.parts? with
  | some (f, _) => f.pr == 0 || c.p.getLsbD f.pr.val != f.pn
  | none => true

/-- Does an instruction, or the stores that it finds unperformed, need a flit that a relock holds (R59, R432): the event units, the wait lists,
TLBI and HARVEST, the launch unit? Accesses to memory wait where they meet the hold. -/
def needsFlit (s : State) (i : Instr) : Bool :=
  match i with
  | .bar _ _ | .bara _ _ | .barw _ _ | .evsig _ _ | .evwait _ _ | .mtxl _ _ | .mtxu _ _ | .ldEv _ _ | .stEv _ _ | .waita _ _ | .wake _ _ |
    .lnch _ _ | .tcancelLnch _ _ | .tcancelGraph _ _ | .tcancelPhase _ _ | .tcancelJob _ _ | .tlbiAll _ _ | .tlbiAsid _ _ | .tlbiVa _ _ |
    .harvestAll _ _ | .harvestSor _ _ => portHeld s s.me
  | i => !(passesStores i) && s.myCore.sbuf.any fun e => flitHeld s s.me e.a.pa

/-- A context's move: a commit under way, else the work of the boundary, else its next instruction. -/
def ctxMove (s : State) (c : CtxId) : Next :=
  let core := c.core.val
  let cx := c.cx.val
  let s := { s with cur := c }
  let k := s.core core
  if !coreActive s core || isStopped k cx || paused k cx then .moved s
  else match (s.ctxAt core cx).commit with
  | some k => .moved (commitMove s k)
  | none =>
  match atBoundary s core cx with
  | some s => .moved s
  | none =>
    if !(s.ctxAt core cx).active then .moved s
    else match decodeM.run s with
    | .ok i s =>
      if isEnabled i s.ctx && needsFlit s i then .moved (s.modCtx fun c => c.waits .other)
      else .run i (if passesStores i then s else emptyStores s core)
    | .error (.fault f) s => .moved (faultNow s core cx f)
    | .error (.wait w) s => .moved (s.modCtx fun c => c.waits w)
    | .error (.abort cause code) s => .moved (regionAbortNow s core cx cause code 0)

/-! ### Placing an instruction where the next step fetches (log entry 1) -/

/-- The leaf that maps the page of a PC for a fetch in a mode: device-owned, RC, cacheable, R, W, X. -/
def fetchLeaf (m : Mode) : Word :=
  atBit 12 256 ||| maskOf 11 1 ||| maskOf 5 4 ||| maskOf 0 2 ||| maskOf 52 1 ||| (if m == .user then maskOf 9 1 else 0)

/-- A PC at which the longest instruction fits in its fetch block. -/
def fetchPc (pc : Word) : Word := if canonical pc.toNat then pc &&& ~~~(maskOf 0 5) else 0

/-- The state with the bytes of an instruction where the current context fetches next. -/
def placeAt (s : State) (bs : List Byte) : State :=
  let core := s.me
  let pc := fetchPc s.ctx.pc
  let va := pc.toNat
  let asid := s.ctx.asid
  let base := va - va % 4096
  let mode := s.ctx.mode
  let e : TlbEntry := ⟨asid, base, 12, fetchLeaf mode, 0, true, 0, 0, none⟩
  let drop (c : Ctx) : Ctx := { c with
    pc := pc, active := true, wait := none, kill := none, abort := none, events := [], commit := none }
  let s := { s with turns := [] }.modCtx drop
  let s := s.modCore core fun k => { k with
    icache := k.icache.filter fun l => !(l.asid == asid && l.va == lineOf va)
    stopped := k.stopped.filter (· != s.mycx)
    dbgctl := k.dbgctl &&& ~~~(maskOf 1 1) }
  let s := s.modSorus (sorusOf core) fun k => { k with
      tlb := e :: k.tlb.filter fun e => !((e.asid == asid || bitOf e.leaf 10) && va / 2 ^ e.size == e.va / 2 ^ e.size) }
  physWrite s (256 * 4096 + va % 4096) bs

end Sys2Proof.Machine
end

