-- ==== Sys2Proof/Machine/Branch.lean ====
section
/-!
DEFINITION. The instructions of class 010 that steer control (R251 to R261, R354, R403): branches, calls, REPT, TRAP, TEND, ECALL, ERET; and
the settling of a core's engines that TEND shares with WAITCNT and FENCE.eng (R138, R140, R345).
-/
namespace Sys2Proof.Machine

/-! ### Branches and calls -/

/-- NOP (R259). -/
def execNop (f : Frame) (_ : FmtR) (s : State) : Out := instr f (pure .fall) s

/-- PC + 4 × OFF26 (R251). -/
def branchTarget (pc : Word) (off : BitVec 26) : Word := pc + off.signExtend 64 * 4

/-- Jump if a condition holds. -/
def jumpIf (taken : Bool) (r : FmtB) : M Fin' := do
  let c := (← get).ctx
  pure (if taken then .jump (branchTarget c.pc r.off) else .fall)

/-- B (R251). -/
def execB (f : Frame) (r : FmtB) (s : State) : Out := instr f (jumpIf true r) s

/-- BC (R251): COND 0000 branches on true, 0001 on false. -/
def execBc (f : Frame) (r : FmtB) (s : State) : Out :=
  instr f (do
    let p ← getP r.a.val
    jumpIf (p == (r.cond == .always)) r) s

/-- BCMP (R251): a 64-bit condition. -/
def execBcmp (f : Frame) (r : FmtB) (s : State) : Out :=
  instr f (do
    let a ← getG r.a.val
    let b ← getG r.b.val
    jumpIf (condWord r.cond false a b) r) s

/-- The address after the instruction at the PC. -/
def linkM (f : Frame) : M Word := do
  let c := (← get).ctx
  pure (c.pc + wordOf f.len.bytes)

/-- CALL (R252). -/
def execCall (f : Frame) (r : FmtB) (s : State) : Out :=
  instr f (do
    let link ← linkM f
    setG r.a.val link
    jumpIf true r) s

/-- Jump to the address in a register. -/
def jumpReg (a : Nat) : M Fin' := do
  let t ← getG a
  pure (.jump t)

/-- CALLR (R252): the target is read before the link is written. -/
def execCallr (f : Frame) (r : FmtR) (s : State) : Out :=
  instr f (do
    let j ← jumpReg r.a.val
    let link ← linkM f
    setG r.d.val link
    pure j) s

/-- RET (R252). -/
def execRet (f : Frame) (r : FmtR) (s : State) : Out := instr f (jumpReg r.a.val) s

/-- JMPR (R252). -/
def execJmpr (f : Frame) (r : FmtR) (s : State) : Out := instr f (jumpReg r.a.val) s

/-! ### REPT (R254, R255) -/

/-- The address after k instructions: each length is read as the instruction is fetched. Where an instruction cannot be fetched the
walk ends at it, so that its own fault is met there (log entry 23). Fuel: k. -/
def skipM : Nat → Word → M Word
  | 0, pc => pure pc
  | n + 1, pc => do
    let r ← attempt (fetchM pc.toNat)
    match r with
    | .error (.wait k) => waitFor k
    | .error _ => pure pc
    | .ok bs =>
      match lenOf ((bs.getD 0 3).toNat % 4) with
      | some len => skipM n (pc + wordOf len.bytes)
      | none => pure pc

/-- The pass state that a REPT with a count above 0 sets. -/
def Ctx.startBlock (c : Ctx) (first : Word) (count k s : Nat) : Ctx :=
  { c with reptpc := first, reptst := atBit 32 count ||| atBit 16 s ||| atBit 8 (k - 1) }

/-- REPT (R254, R255, R464). -/
def execRept (f : Frame) (r : FmtI) (s : State) : Out :=
  instr f (do
    let a ← getG r.a.val
    let first ← linkM f
    let count := (a + r.imm).toNat % 2 ^ 32
    let k := r.var.val % 16 + 1
    if count == 0 then do
      let next ← skipM k first
      modify fun s => s.modCtx fun c => { c with reptst := mergeMask (maskOf 32 32) 0 c.reptst }
      pure (.rept next)
    else do
      modify fun s => s.modCtx fun c => c.startBlock first count k (r.sc.val % 16)
      pure (.rept first)) s

/-! ### Traps (R260, R354, R360, R403) -/

/-- TRAP (R260). -/
def execTrap (f : Frame) (r : FmtI) (s : State) : Out :=
  instr f (do
    forbidInRegion
    pure (.trap 0x05 r.imm)) s

/-- ECALL (R354). -/
def execEcall (f : Frame) (r : FmtI) (s : State) : Out :=
  instr f (do
    let m := (← get).ctx.mode
    raiseIf (m == .firmware) 0x00 0
    forbidInRegion
    pure (.trap (if m == .user then 0x06 else 0x07) r.imm)) s

/-- ERET (R354, R403). -/
def execEret (f : Frame) (_ : FmtR) (s : State) : Out :=
  supInstr f (do
    modify fun s => trapReturn s s.me s.mycx
    pure .done) s

/-- BKPT (R360, R440, R441): in a context that debug does not select it retires (log entry 27). -/
def execBkpt (f : Frame) (r : FmtI) (s : State) : Out :=
  instr f (do
    let s ← get
    let k := s.myCore
    raiseIf (!bitOf k.dbgctl 0) 0x08 r.imm
    pure (if dbgCx k == s.mycx then .stop 2 else .fall)) s

/-! ### The end of a task (R138, R140, R261, R345) -/

/-- Wait until every copy, collective, reduction, posted remote store and channel send of the core is complete (R140). -/
def enginesDone : M Unit := do
  modify fun s => settleEngine s s.me
  let k := (← get).myCore
  if k.engine.isEmpty && k.nonRet.isEmpty && k.posted.isEmpty && k.soParts.isEmpty && k.sends == 0 then pure () else waitFor .other

/-- The acquire of the destinations of copies that are proved complete (R138). -/
def acquireCopies (s : State) (core : Nat) : State :=
  (clearRanges s core (s.core core).toAcquire).modCore core fun k => { k with toAcquire := [] }

/-- COPYFAIL, or NFMMISMATCH, at the end of a wait while CPYERR.VALID = 1 (R345). -/
def copyFailM : M Unit := do
  let c := (← get).ctx
  let cause := fieldOf c.cpyerr 16 7
  if !bitOf c.cpyerr 0 then pure ()
  else if cause == 0x32 then raise 0x32 0
  else throw (.fault { mkFault 0x20 c.cpyfa with inner := cause })

/-- FENCE.eng at a scope (R127, R140, R345). -/
def fenceEngM (sc : Scope) : M Unit := do
  outTurn
  modify fun s => emptyWc (emptyStores s s.me) s.me
  enginesDone
  releaseM sc
  acquireM sc
  modify fun s => acquireCopies s s.me
  copyFailM

/-- TEND (R261). In a region it is ILLEGAL. -/
def execTend (f : Frame) (_ : FmtR) (s : State) : Out :=
  instr f (do
    raiseIf (← get).ctx.regionOpen 0x00 0
    fenceEngM devScope
    modify fun s => endTask s s.me s.mycx 0 0
    pure .done) s

end Sys2Proof.Machine
end

