-- ==== Sys2Proof/Machine/System.lean ====
section
/-!
DEFINITION. The system instructions of class 010 (R355 to R358, R361): TLBI, L1INV, L1WB, HARVEST, PHASE, DBGINJ.
-/
namespace Sys2Proof.Machine

/-! ### TLBI (R78, R84, R86, R355) -/

/-- What a TLBI removes. -/
inductive Removal
  | all
  | asid (a : Nat)
  | page (a va : Nat)
deriving DecidableEq, Repr

/-- Does it remove a TLB entry? -/
def Removal.entry (r : Removal) (e : TlbEntry) : Bool :=
  match r with
  | .all => true
  | .asid a => e.asid == a && !bitOf e.leaf 10
  | .page a va => (e.asid == a || bitOf e.leaf 10) && va / 2 ^ e.size == e.va / 2 ^ e.size

/-- Does it remove a walker's pointer? -/
def Removal.pointer (r : Removal) (p : WalkPtr) : Bool :=
  match r with
  | .all => true
  | .asid a | .page a _ => p.asid == a

/-- Does it remove what a cache or a filter holds at an address of an ASID, under a page of a size, global or not (R84, log entry 24)? -/
def Removal.covers (r : Removal) (asid va size : Nat) (glob : Bool) : Bool :=
  match r with
  | .all => true
  | .asid a => asid == a && !glob
  | .page a at_ => (asid == a || glob) && at_ / 2 ^ size == va / 2 ^ size

/-- One core gives up the lines and filter entries of removed pages, its stores that wait performed first: dirty bytes are written back,
a SPEC line aborts its region. -/
def dropPages (s : State) (r : Removal) (core : Nat) : State :=
  let s := emptyStores s core
  let s := ((s.core core).l1.filter fun l => r.covers l.asid l.va l.size l.glob).foldl (fun s l => expel s core l) s
  s.modCore core fun k => { k with
    icache := k.icache.filter fun l => !(r.covers l.asid l.va l.size l.glob)
    dfilter := k.dfilter.filter fun p => !(r.covers p.asid p.va p.size p.glob) }

/-- Remove translations everywhere in the device. -/
def removeXlat (s : State) (r : Removal) : State :=
  let s := (s.cores.map fun p => p.1).foldl (fun s c => dropPages s r c) s
  let clean (k : Sorus) : Sorus := { k with
    tlb := k.tlb.filter fun e => !(r.entry e)
    ptrs := k.ptrs.filter fun p => !(r.pointer p) }
  { s with sori := s.sori.map fun p => (p.1, clean p.2) }

/-- The body of a TLBI whose operands are legal. -/
def tlbiM (r : Removal) : M Fin' := do
  modify fun s => dropPin (removeXlat s r)
  pure .fall

/-- TLBI.all (R355). -/
def execTlbiAll (f : Frame) (_ : FmtR) (s : State) : Out :=
  supInstr f (do
    forbidInRegion
    tlbiM .all) s

/-- TLBI.asid (R355). -/
def execTlbiAsid (f : Frame) (r : FmtR) (s : State) : Out :=
  supInstr f (do
    forbidInRegion
    let a ← getG r.a.val
    raiseIf (a.toNat ≥ 4096) 0x00 0
    tlbiM (.asid a.toNat)) s

/-- TLBI.va (R355). -/
def execTlbiVa (f : Frame) (r : FmtR) (s : State) : Out :=
  supInstr f (do
    forbidInRegion
    let b ← getG r.b.val
    raiseIf (b.toNat ≥ 4096) 0x00 0
    let a ← getG r.a.val
    tlbiM (.page b.toNat a.toNat)) s

/-! ### L1INV, L1WB (R356) -/

/-- L1INV.i (R356). -/
def execL1invI (f : Frame) (_ : FmtR) (s : State) : Out :=
  instr f (do
    forbidInRegion
    modify fun s => dropPin (s.modMyCore fun k => { k with icache := [] })
    pure .fall) s

/-- Lines of the context's ASID that overlap [a, a + n); every line of the L1 where n is 0 (log entry 47). -/
def lineIn (asid a n : Nat) (l : L1Line) : Bool :=
  n == 0 || (l.asid == asid && (rangesMeet l.va 64 a n || rangesMeet (l.va + 2 ^ 64) 64 a n))

/-- L1INV.d (R356). -/
def execL1invD (f : Frame) (r : FmtR) (s : State) : Out :=
  instr f (do
    forbidInRegion
    let a ← getG r.a.val
    let b ← getG r.b.val
    modify fun s => dropPin (clearClean s s.me (lineIn s.ctx.asid a.toNat b.toNat))
    pure .fall) s

/-- L1WB (R356). -/
def execL1wb (f : Frame) (r : FmtR) (s : State) : Out :=
  instr f (do
    forbidInRegion
    let a ← getG r.a.val
    let b ← getG r.b.val
    outTurn
    modify fun s =>
      (s.myCore.l1.filter (lineIn s.ctx.asid a.toNat b.toNat)).foldl (fun s l => writeBack s s.me l) s
    pure .fall) s

/-! ### HARVEST (R86, R89, R357) -/

/-- Merge the logs of cores and clear their filters. -/
def harvest (s : State) (cores : List Nat) : State :=
  cores.foldl (fun s c => (mergeAll s c).modCore c fun k => { k with dfilter := [] }) s

/-- HARVEST.all (R357). -/
def execHarvestAll (f : Frame) (_ : FmtR) (s : State) : Out :=
  supInstr f (do
    forbidInRegion
    modify fun s => harvest s (activeCores s)
    pure .fall) s

/-- HARVEST.sor (R357). -/
def execHarvestSor (f : Frame) (r : FmtR) (s : State) : Out :=
  supInstr f (do
    forbidInRegion
    let a ← getG r.a.val
    let s ← get
    raiseIf (!(sorusActive s a.toNat)) 0x00 0
    set (harvest s (coresOf a.toNat))
    pure .fall) s

/-! ### PHASE (R358) -/

/-- Raise PHASEARG for a command that takes it. -/
def phaseArgM (w : Word) (now : Bool) : M Unit := do
  let s ← get
  raiseIf (phaseArgBad s w now) 0x60 0

/-- PHASE (R358). -/
def execPhase (f : Frame) (r : FmtI) (s : State) : Out :=
  supInstr f (do
    forbidInRegion
    let w ← getG r.a.val
    phaseArgM w false
    modify fun s => pendPhase s w
    pure .fall) s

/-- PHASE.now (R358). -/
def execPhaseNow (f : Frame) (r : FmtI) (s : State) : Out :=
  supInstr f (do
    forbidInRegion
    let w ← getG r.a.val
    phaseArgM w true
    modify fun s => phaseNow s w
    pure .fall) s

/-! ### DBGINJ (R361) -/

/-- TSHAPE where tile `n` has no element at the position that KIND 0 names (R361). -/
def flippable (n row col : Nat) : M Unit := do
  let t := (← get).ctx.tile n
  raiseIf (!t.valid || row ≥ t.rows || col ≥ t.cols) 0x34 (wordOf n)

/-- KIND 0: flip bits of an element of a tile in place, the cortex unchanged (R422). -/
def flipElem (n row col : Nat) (mask : Word) : M Unit := do
  let t := (← get).ctx.tile n
  let new := t.enc row col ^^^ (mask.toNat % 2 ^ (8 * t.width))
  modify fun s => s.modCtx fun c => c.damageTile n (t.pokeElem row col new)

/-- DBGINJ (R361). An injected scalar result is met by the checker (R249, R250): see `scalar`. -/
def execDbginj (f : Frame) (r : FmtR) (s : State) : Out :=
  fwInstr f (do
    let a ← getG r.a.val
    let b ← peekG r.b.val
    let kind := fieldOf a 0 4
    raiseIf (a.toNat ≥ 2 ^ 20 || kind > 2) 0x00 0
    let inj : Injection := ⟨fieldOf a 8 5, fieldOf a 13 7, b⟩
    if kind == 0 then flippable (fieldOf a 4 4) inj.row inj.col
    needG r.b.val
    if kind == 0 then flipElem (fieldOf a 4 4) inj.row inj.col b
    else modify fun s => s.modCtx fun c =>
      if kind == 1 then { c with injMatrix := some inj } else { c with injScalar := some inj }
    pure .fall) s

end Sys2Proof.Machine
end

