-- ==== Sys2Proof/Machine/Units.lean ====
section
/-!
DEFINITION. The event units (R36, R37, R267, R279 to R285): barriers, mutexes, event lines, unit control, and the instructions that act
on them.
-/
namespace Sys2Proof.Machine

/-! ### Standing waits (R263, R463) -/

/-- What an instruction that may wait finds of an earlier execution of itself. -/
inductive Standing
  | fresh
  | waiting (k : WaitKind)
  | fired (k : WaitKind) (f : Fired)
deriving DecidableEq, Repr

/-- The registration that stands for the instruction, of the kind it makes. One that was woken to try again is gone. -/
def standing (p : WaitKind → Bool) : M Standing := do
  let c := (← get).ctx
  match c.wait with
  | none => pure .fresh
  | some w =>
    if !(p w.kind) then pure .fresh
    else match w.fired with
      | none => pure (.waiting w.kind)
      | some .again => do
        modify fun s => s.modCtx fun c => { c with wait := none }
        pure .fresh
      | some f => pure (.fired w.kind f)

/-- The value that ended a wait, or its error (R416). -/
def firedWord (f : Fired) (faddr : Word) : M Word :=
  match f with
  | .value w => pure w
  | f => match firedFault f faddr with
    | some x => throw (.fault x)
    | none => pure 0

/-- The acting context as a waiter. -/
def State.whoAmI (s : State) : Who := ⟨s.me, s.mycx, none⟩

/-! ### Barriers (R280 to R282) -/

def barrierAt (s : State) (k b : Nat) : Barrier := tget (s.sorus k).barriers b Barrier.reset

def setBarrier (s : State) (k b : Nat) (x : Barrier) : State :=
  s.modSorus k fun u => { u with barriers := tset u.barriers b x }

/-- A barrier's state word (R280). -/
def Barrier.word (x : Barrier) : Word :=
  atBit 60 x.root ||| atBit 55 x.nsor ||| atBit 50 x.done ||| atBit 48 x.span ||| atBit 32 x.expect |||
    atBit 25 (if x.rpt then 1 else 0) ||| atBit 16 x.arrived ||| wordOf x.phase

/-- (PHASE − token) mod 2^16. -/
def phasesSince (phase : Nat) (tok : Nat) : Nat := (phase + 65536 - tok % 65536) % 65536

/-- Does a phase satisfy a wait for a token? -/
def phaseDone (phase tok : Nat) : Bool := phasesSince phase tok < 0x8000

/-- A wait at a barrier. -/
def WaitKind.atBarrier (k b : Nat) : WaitKind → Bool
  | .barrier k' b' _ => k' == k && b' == b
  | _ => false

/-- Release waiters of a barrier: each is told the phases since its token, 0 for the parity form, or the state word for LD.ev. -/
def releaseBarrier (s : State) (k b : Nat) (go : BarWaiter → Bool) : State :=
  let x := barrierAt s k b
  let (out, stay) := x.waiters.partition go
  let s := setBarrier s k b { x with waiters := stay }
  out.foldl (fun s w =>
    let v := if w.ev then x.word else match w.tok with
      | some t => wordOf (phasesSince x.phase t)
      | none => 0
    fireWho s w.who (WaitKind.atBarrier k b) (.value v)) s

/-- A unit completes a phase: the waits that the new PHASE satisfies are released. -/
def completeOnce (s : State) (k b : Nat) : State :=
  let x := barrierAt s k b
  let s := setBarrier s k b { x with phase := (x.phase + 1) % 65536, rpt := false }
  let now := (barrierAt s k b).phase
  releaseBarrier s k b fun w => match w.tok with
    | some t => phaseDone now t
    | none => true

/-- A full share: the phase completes, or the unit reports to the root. -/
def shareFull (s : State) (k b : Nat) : State :=
  let x := barrierAt s k b
  let s := setBarrier s k b { x with arrived := 0, arrivers := [] }
  if x.span == 0 then completeOnce s k b
  else
    let s := setBarrier s k b { x with arrived := 0, arrivers := [], rpt := true }
    s.modDev fun d => { d with reports := d.reports ++ [⟨k, x.root, b, .prepared⟩] }

/-- A unit completes, and reports again at once where its arrivals are all there (R281). -/
def barrierComplete (s : State) (k b : Nat) : State :=
  let s := completeOnce s k b
  let x := barrierAt s k b
  if x.expect != 0 && x.arrived == x.expect then shareFull s k b else s

/-- An arrival (R281): the token it takes. EXPECT is not 0. -/
def barrierArrive (s : State) (k b : Nat) : Nat × State :=
  let x := barrierAt s k b
  let tok := (x.phase + 1 + (if x.rpt then 1 else 0)) % 65536
  let n := (x.arrived + 1) % 512
  let s := setBarrier s k b { x with arrived := n, arrivers := x.arrivers ++ [s.me] }
  (tok, if n == x.expect && !x.rpt then shareFull s k b else s)

/-- Does a unit await the completion of a root that is fenced (R416)? -/
def barrierLost (s : State) (k b : Nat) : Bool :=
  let x := barrierAt s k b
  x.span != 0 && x.rpt && s.dev.removed.contains x.root

/-- The waiters of a barrier end with CONTAINED (R416). -/
def barrierContained (s : State) (k b : Nat) : State :=
  let x := barrierAt s k b
  x.waiters.foldl (fun s w => fireWho s w.who (WaitKind.atBarrier k b) .contained) (setBarrier s k b { x with waiters := [] })

/-- A report is applied at the root (R281); one to a fenced root ends the waits at the unit that sent it (R416). -/
def applyReport (s : State) (r : Report) : State :=
  if s.dev.removed.contains r.dst then barrierContained s r.src r.b else
  let x := barrierAt s r.dst r.b
  let who := x.reporters ++ [r.src]
  let n := (x.done + 1) % 32
  if n == x.nsor then
    let s := setBarrier s r.dst r.b { x with done := 0, reporters := [] }
    s.modDev fun d => { d with completions := d.completions ++ who.map fun k => (k, r.b) }
  else setBarrier s r.dst r.b { x with done := n, reporters := who }

/-- A supervisor's write of a barrier's state word (R280): the reports of the barrier that the unit holds, unsent or not yet applied, go;
waits whose token the written PHASE has passed are released. Who has reported and who has arrived stays known as far as the written
counts allow (log entry 25). -/
def writeBarrier (s : State) (k b : Nat) (w : Word) : State :=
  let x := barrierAt s k b
  let span := if fieldOf w 48 2 == 3 then 0 else fieldOf w 48 2
  let done := fieldOf w 50 5
  let held (r : Report) : Bool := r.b == b && ((r.src == k && r.stage == .prepared) || (r.dst == k && r.stage == .port))
  let s := s.modDev fun d => { d with reports := d.reports.filter fun r => !(held r) }
  let s := setBarrier s k b { x with
    root := fieldOf w 60 4, nsor := fieldOf w 55 5, done := done, span := span, expect := fieldOf w 32 9
    rpt := bitOf w 25, arrived := fieldOf w 16 9, phase := fieldOf w 0 16
    reporters := if done == 0 then [] else x.reporters
    arrivers := x.arrivers.take (fieldOf w 16 9) }
  releaseBarrier s k b fun v => match v.tok with
    | some t => phaseDone (fieldOf w 0 16) t
    | none => false

/-! ### Mutexes (R283) -/

def mutexAt (s : State) (k m : Nat) : Mutex := tget (s.sorus k).mutexes m Mutex.reset

def setMutex (s : State) (k m : Nat) (x : Mutex) : State :=
  s.modSorus k fun u => { u with mutexes := tset u.mutexes m x }

/-- A mutex's state word. -/
def Mutex.word (x : Mutex) : Word :=
  atBit 16 (x.queue.length % 512) ||| atBit 8 x.cx ||| atBit 7 (if x.held then 1 else 0) ||| wordOf x.core

def Mutex.ownedBy (x : Mutex) (core cx : Nat) : Bool := x.held && x.core == core && x.cx == cx

def WaitKind.atMutex (k m : Nat) : WaitKind → Bool
  | .mutex k' m' => k' == k && m' == m
  | _ => false

/-- Hand a mutex on: to the oldest queued context, or nobody. -/
def passMutex (s : State) (k m : Nat) : State :=
  let x := mutexAt s k m
  match x.queue with
  | [] => setMutex s k m { x with held := false }
  | w :: rest =>
    let x := { x with held := true, core := w.who.core, cx := w.who.cx, queue := rest }
    fireWho (setMutex s k m x) w.who (WaitKind.atMutex k m) (.value x.word)

/-- A supervisor's write of a mutex's state word: every queued waiter tries again. -/
def writeMutex (s : State) (k m : Nat) (w : Word) : State :=
  let x := mutexAt s k m
  let s := setMutex s k m ⟨bitOf w 7, fieldOf w 0 7, fieldOf w 8 1, []⟩
  x.queue.foldl (fun s q => fireWho s q.who (WaitKind.atMutex k m) .again) s

/-! ### Event lines (R284) -/

def evLineAt (s : State) (k e : Nat) : EvLine := tget (s.sorus k).evlines e EvLine.reset

def setEvLine (s : State) (k e : Nat) (x : EvLine) : State :=
  s.modSorus k fun u => { u with evlines := tset u.evlines e x }

/-- An event line's state word. -/
def EvLine.word (x : EvLine) : Word := atBit 32 (x.waiters.length % 512) ||| wordOf x.pending

def WaitKind.atEvLine (k e : Nat) : WaitKind → Bool
  | .evline k' e' => k' == k && e' == e
  | _ => false

/-- Give one signal to each waiter in order of waiting while PENDING is above 0. -/
def giveSignals (s : State) (k e : Nat) : List QWaiter → State
  | [] => s
  | w :: rest =>
    let x := evLineAt s k e
    if x.pending == 0 then s
    else
      let x := { x with pending := x.pending - 1, waiters := rest }
      let v := if w.ev then x.word else wordOf x.pending
      giveSignals (fireWho (setEvLine s k e x) w.who (WaitKind.atEvLine k e) (.value v)) k e rest

/-- Set PENDING and give signals. -/
def signalLine (s : State) (k e n : Nat) : State :=
  let x := evLineAt s k e
  giveSignals (setEvLine s k e { x with pending := n }) k e x.waiters

/-- Add signals, saturating. -/
def addSignals (s : State) (k e n : Nat) : State := signalLine s k e (min ((evLineAt s k e).pending + n) 0xFFFFFFFF)

/-! ### Unit control (R285) -/

/-- Contexts that wait on a unit. -/
def parkedCount (u : Sorus) : Nat :=
  ((u.barriers.map fun p => p.2.waiters.length) ++ (u.mutexes.map fun p => p.2.queue.length) ++
    (u.evlines.map fun p => p.2.waiters.length)).foldl (· + ·) 0

/-- CLREV: ignored while any line has a waiter. -/
def clearLines (s : State) (k : Nat) : State :=
  if (s.sorus k).evlines.any fun p => !p.2.waiters.isEmpty then s
  else s.modSorus k fun u => { u with evlines := [] }

/-- CLRMTX: a mutex with a queue is left as it is. -/
def clearMutexes (s : State) (k : Nat) (mask : BitVec 16) : State :=
  (upTo 16).foldl (fun s m =>
    let x := mutexAt s k m
    if mask.getLsbD m && x.queue.isEmpty then setMutex s k m { x with held := false } else s) s

/-- CLRBAR: a barrier with a waiter is left as it is. -/
def clearBarriers (s : State) (k : Nat) (mask : BitVec 16) : State :=
  (upTo 16).foldl (fun s b =>
    let x := barrierAt s k b
    if mask.getLsbD b && x.waiters.isEmpty then
      setBarrier s k b { x with phase := 0, arrived := 0, done := 0, rpt := false, reporters := [], arrivers := [] }
    else s) s

/-- A store to the unit-control word at 0x408. -/
def writeControl (s : State) (k : Nat) (w : Word) : State :=
  let s := if bitOf w 48 then clearLines s k else s
  clearBarriers (clearMutexes s k (BitVec.ofNat 16 (fieldOf w 16 16))) k (BitVec.ofNat 16 (fieldOf w 0 16))

/-! ### Window addresses (R36, R37, R267, R279) -/

/-- A record of a unit. -/
inductive UnitRec
  | barrier (b : Nat)
  | mutex (m : Nat)
  | line (e : Nat)
  | control
deriving DecidableEq, Repr

/-- The record that an offset lies in. -/
def recordAt (off : Nat) : Option UnitRec :=
  if off < 0x100 then some (.barrier (off / 16))
  else if off < 0x200 then some (.mutex ((off - 0x100) / 16))
  else if off < 0x400 then some (.line ((off - 0x200) / 16))
  else if off < 0x440 then some .control
  else none

/-- The unit and the record of a window address; EVSPACE for a malformed one, an unpopulated offset, an inactive unit. -/
def windowM (a : Word) : M (Nat × UnitRec × Nat) := do
  let s ← get
  let k := fieldOf a 12 4
  let off := fieldOf a 0 12
  match recordAt off with
  | some r => do
    raiseIf (a.toNat ≥ 65536 || !(sorusActive s k)) 0x2E a
    pure (k, r, off)
  | none => raise 0x2E a

/-- The barrier whose base an address operand names. -/
def barrierM (a : Word) : M (Nat × Nat) := do
  match ← windowM a with
  | (k, .barrier b, off) => do
    raiseIf (off % 16 != 0) 0x2E a
    pure (k, b)
  | _ => raise 0x2E a

def mutexM (a : Word) : M (Nat × Nat) := do
  match ← windowM a with
  | (k, .mutex m, off) => do
    raiseIf (off % 16 != 0) 0x2E a
    pure (k, m)
  | _ => raise 0x2E a

def evLineM (a : Word) : M (Nat × Nat) := do
  match ← windowM a with
  | (k, .line e, off) => do
    raiseIf (off % 16 != 0) 0x2E a
    pure (k, e)
  | _ => raise 0x2E a

/-! ### Waiting at a unit -/

/-- Enter a wait at a barrier: for a token, or for the next completion; none where the root is fenced (R416). -/
def waitBarrier {α : Type} (a : Word) (k b : Nat) (tok : Option Nat) (ev : Bool) : M α := do
  if barrierLost (← get) k b then
    let _ ← firedWord .contained a
  modify fun s =>
    let x := barrierAt s k b
    setBarrier s k b { x with waiters := x.waiters ++ [⟨s.whoAmI, tok, ev⟩] }
  waitFor (.barrier k b (tok.getD 0))

/-- Take a mutex or queue for it (R283): the state word once it is granted. -/
def takeMutex (a : Word) (k m : Nat) (ev : Bool) : M Word := do
  match ← standing (WaitKind.atMutex k m) with
  | .fired _ f => firedWord f a
  | .waiting w => waitFor w
  | .fresh =>
    let s ← get
    let x := mutexAt s k m
    raiseIf (x.ownedBy s.me s.mycx) 0x40 a
    if !x.held then do
      let x := { x with held := true, core := s.me, cx := s.mycx }
      set (setMutex s k m x)
      pure x.word
    else do
      set (setMutex s k m { x with queue := x.queue ++ [⟨s.whoAmI, ev⟩] })
      waitFor (.mutex k m)

/-- Take a signal or wait for one (R284): PENDING, or the state word, after the take. -/
def takeSignal (a : Word) (k e : Nat) (ev : Bool) : M Word := do
  match ← standing (WaitKind.atEvLine k e) with
  | .fired _ f => firedWord f a
  | .waiting w => waitFor w
  | .fresh =>
    let s ← get
    let x := evLineAt s k e
    if x.pending > 0 then do
      let x := { x with pending := x.pending - 1 }
      set (setEvLine s k e x)
      pure (if ev then x.word else wordOf x.pending)
    else do
      set (setEvLine s k e { x with waiters := x.waiters ++ [⟨s.whoAmI, ev⟩] })
      waitFor (.evline k e)

/-- Wait for the next completion of a barrier, arriving nowhere. -/
def nextPhase (a : Word) (k b : Nat) (ev : Bool) : M Word := do
  match ← standing (WaitKind.atBarrier k b) with
  | .fired _ f => firedWord f a
  | .waiting w => waitFor w
  | .fresh => waitBarrier a k b none ev

/-! ### BAR, BARA, BARW -/

/-- An arrival (R281): EXPECT 0 disables the barrier. -/
def arriveM (a : Word) (k b : Nat) : M Nat := do
  let s ← get
  raiseIf ((barrierAt s k b).expect == 0) 0x2E a
  let (tok, s) := barrierArrive s k b
  set s
  pure tok

/-- BAR (R282): it arrives once, and waits for its own token. -/
def execBar (f : Frame) (r : FmtR) (s : State) : Out :=
  instr f (do
    forbidInRegion
    let a ← getG r.a.val
    let st ← standing fun w => WaitKind.atBarrier (fieldOf a 12 4) (fieldOf a 0 12 / 16) w
    match st with
    | .fired (.barrier _ _ tok) x => do
      let _ ← firedWord x a
      setG r.d.val (wordOf tok)
    | .fired .. => pure ()
    | .waiting w => waitFor w
    | .fresh => do
      let (k, b) ← barrierM a
      let tok ← arriveM a k b
      if phaseDone (barrierAt (← get) k b).phase tok then setG r.d.val (wordOf tok)
      else waitBarrier a k b (some tok) false
    pure .fall) s

/-- BARA (R282). -/
def execBara (f : Frame) (r : FmtR) (s : State) : Out :=
  instr f (do
    forbidInRegion
    let a ← getG r.a.val
    let (k, b) ← barrierM a
    let tok ← arriveM a k b
    setG r.d.val (wordOf tok)
    pure .fall) s

/-- The full and the parity form of BARW (R282). -/
def barwM (a : Word) (par : Bool) (g : Word) (k b : Nat) : M Word := do
  let x := barrierAt (← get) k b
  if par then
    if bitOf g 0 != ((x.phase + 1) % 2 == 1) then pure 1 else waitBarrier a k b none false
  else
    let d := phasesSince x.phase g.toNat
    if d < 0x8000 then pure (wordOf d) else waitBarrier a k b (some (g.toNat % 65536)) false

/-- BARW (R282). -/
def execBarw (f : Frame) (r : FmtR) (s : State) : Out :=
  instr f (do
    forbidInRegion
    let a ← getG r.a.val
    let st ← standing fun w => WaitKind.atBarrier (fieldOf a 12 4) (fieldOf a 0 12 / 16) w
    let v ← match st with
      | .fired _ x => firedWord x a
      | .waiting w => waitFor w
      | .fresh => do
        let (k, b) ← barrierM a
        let g ← getG r.b.val
        barwM a (r.var.val % 2 == 1) g k b
    setG r.d.val v
    pure .fall) s

/-! ### EVSIG, EVWAIT, MTXL, MTXU -/

/-- EVSIG (R284). -/
def execEvsig (f : Frame) (r : FmtR) (s : State) : Out :=
  instr f (do
    forbidInRegion
    let a ← getG r.a.val
    let (k, e) ← evLineM a
    let n ← getG r.b.val
    modify fun s => addSignals s k e (n.toNat % 2 ^ 32)
    pure .fall) s

/-- The record that a standing wait names, else the one of the address: a unit that was fenced meanwhile still ends the wait. -/
def standingOr (a : Word) (p : WaitKind → Option (Nat × Nat)) (m : M (Nat × Nat)) : M (Nat × Nat) := do
  let c := (← get).ctx
  match c.wait.bind fun w => if w.fired.isSome then p w.kind else none with
  | some x => if x.1 == fieldOf a 12 4 then pure x else m
  | none => m

/-- EVWAIT (R284). -/
def execEvwait (f : Frame) (r : FmtR) (s : State) : Out :=
  instr f (do
    forbidInRegion
    let a ← getG r.a.val
    let (k, e) ← standingOr a (fun w => match w with
      | .evline k e => some (k, e)
      | _ => none) (evLineM a)
    let v ← takeSignal a k e false
    setG r.d.val v
    pure .fall) s

/-- MTXL (R283). -/
def execMtxl (f : Frame) (r : FmtR) (s : State) : Out :=
  instr f (do
    forbidInRegion
    let a ← getG r.a.val
    let (k, m) ← standingOr a (fun w => match w with
      | .mutex k m => some (k, m)
      | _ => none) (mutexM a)
    let _ ← takeMutex a k m false
    pure .fall) s

/-- MTXU (R283). -/
def execMtxu (f : Frame) (r : FmtR) (s : State) : Out :=
  instr f (do
    forbidInRegion
    let a ← getG r.a.val
    let (k, m) ← mutexM a
    let s ← get
    raiseIf (!((mutexAt s k m).ownedBy s.me s.mycx)) 0x40 a
    set (passMutex s k m)
    pure .fall) s

/-! ### LD.ev, ST.ev (R37, R267) -/

/-- EVSPACE and BUFALIGN of an access to the window, in the order of R396. -/
def evAccess (a : Word) (sz : Sz) (store : Bool) : M (Nat × UnitRec × Bool) := do
  let (k, r, off) ← windowM a
  let user := (← get).ctx.mode == .user
  let wait := off / 8 % 2 == 1
  raiseIf (user && (store || r == .control)) 0x2E a
  raiseIf (store && wait && r != .control) 0x2E a
  raiseIf (sz.bytes != 8 || off % 8 != 0) 0x1E a
  pure (k, r, wait)

/-- The word that a load of the window returns. -/
def evLoad (a : Word) (k : Nat) (rec : UnitRec) (wait : Bool) : M Word := do
  let s ← get
  match rec, wait with
  | .barrier b, false => pure (barrierAt s k b).word
  | .barrier b, true => nextPhase a k b true
  | .mutex m, false => pure (mutexAt s k m).word
  | .mutex m, true => takeMutex a k m true
  | .line e, false => pure (evLineAt s k e).word
  | .line e, true => takeSignal a k e true
  | .control, _ => pure (if fieldOf a 0 12 == 0x400 then wordOf (parkedCount (s.sorus k) % 512) else 0)

/-- A wait of LD.ev that has ended: its value or its error, whatever has become of the unit. -/
def evEnded (a : Word) : M (Option Word) := do
  let st ← standing WaitKind.onUnit
  match st with
  | .fired _ f => do
    let w ← firedWord f a
    pure (some w)
  | _ => pure none

/-- LD.ev (R37, R267). -/
def execLdEv (f : Frame) (r : FmtM) (s : State) : Out :=
  instr f (do
    forbidInRegion
    let a ← eaM r
    let v ← match ← evEnded a with
      | some w => pure w
      | none => do
        let (k, rec, wait) ← evAccess a r.sz false
        evLoad a k rec wait
    setG r.d.val v
    pure .fall) s

/-- A supervisor's store of a state word (R267, R280, R283, R284, R285). -/
def evStore (s : State) (a : Word) (k : Nat) (rec : UnitRec) (w : Word) : State :=
  match rec with
  | .barrier b => writeBarrier s k b w
  | .mutex m => writeMutex s k m w
  | .line e => signalLine s k e (fieldOf w 0 32)
  | .control => if fieldOf a 0 12 == 0x408 then writeControl s k w else s

/-- ST.ev (R37, R267). -/
def execStEv (f : Frame) (r : FmtM) (s : State) : Out :=
  instr f (do
    forbidInRegion
    let a ← eaM r
    let (k, rec, _) ← evAccess a r.sz true
    let d ← getG r.d.val
    modify fun s => evStore s a k rec d
    pure .fall) s

end Sys2Proof.Machine
end

