-- ==== Sys2Proof/Machine/Sync.lean ====
section
/-!
DEFINITION. The instructions of class 011 that order and meet (R127, R140, R274 to R278, R286 to R289, R291, R292): fences, WAITCNT, WAITA,
WAKE, channels, regions.
-/
namespace Sys2Proof.Machine

/-! ### FENCE and WAITCNT -/

/-- FENCE.acq (R127, R274). -/
def execFenceAcq (f : Frame) (r : FmtR) (s : State) : Out :=
  instr f (do
    let sc ← scopeM r.sc.val
    acquireM sc
    pure .fall) s

/-- The stores of the core that a release of R123 does not wait for, performed before FENCE.rel and FENCE.full complete (R127): SO stores at
their owners (R107), and channel sends, each a store that is performed when its flit is taken (R290, log entry 91). -/
def awaitStores : M Unit := do
  let s ← get
  if soBehind s s.me || flitsOut s s.me then waitFor .other else pure ()

/-- FENCE.rel (R127, R274). -/
def execFenceRel (f : Frame) (r : FmtR) (s : State) : Out :=
  instr f (do
    let sc ← scopeM r.sc.val
    releaseM sc
    awaitStores
    modify dropPin
    pure .fall) s

/-- FENCE.full (R111, R127, R274). -/
def execFenceFull (f : Frame) (r : FmtR) (s : State) : Out :=
  instr f (do
    let sc ← scopeM r.sc.val
    awaitReductions
    modify fun s => emptyWc s s.me
    releaseM sc
    awaitStores
    acquireM sc
    pure .fall) s

/-- FENCE.eng (R140, R155, R274). -/
def execFenceEng (f : Frame) (r : FmtR) (s : State) : Out :=
  instr f (do
    forbidInRegion
    let sc ← scopeM r.sc.val
    fenceEngM sc
    pure .fall) s

/-- Stores to peers that are not acknowledged (R275): those posted, and the lines of peers that the write-combining buffer holds. -/
def Core.peerStores (k : Core) : Nat := k.posted.length + (k.wc.filter fun w => w.fwd.any fun f => f.owner != 0).length

/-- Send the combined lines of peers (R111), oldest first. -/
def sendPeerLines (s : State) (core : Nat) : State :=
  ((s.core core).wc.filter fun w => w.fwd.any fun f => f.owner != 0).foldl (fun s w => sendWcLine s core w) s

/-- Are the counts of a core at or below the limits (R275)? A limit at its field's maximum is not tested. -/
def countsBelow (k : Core) (r : FmtW) : Bool :=
  let ok (limit top n : Nat) : Bool := limit == top || n ≤ limit
  ok r.nb.val 255 k.engine.length && ok r.nr.val 63 k.nonRet.length && ok r.np.val 63 k.peerStores && ok r.nc.val 15 k.sends

/-- WAITCNT (R138, R275, R345). Where it tests the stores to peers and finds too many, the combined lines of peers leave the
write-combining buffer, so that the count can fall (log entry 97). -/
def execWaitcnt (f : Frame) (r : FmtW) (s : State) : Out :=
  instr f (do
    forbidInRegion
    modify fun s => settleEngine s s.me
    modify fun s => if r.np.val < 63 && s.myCore.peerStores > r.np.val then sendPeerLines s s.me else s
    let s ← get
    if countsBelow s.myCore r then do
      modify fun s => dropPin (if r.nb.val < 255 then acquireCopies s s.me else s)
      if r.nb.val < 255 then copyFailM
      pure .fall
    else waitFor .other) s

/-! ### WAITA and WAKE (R276 to R278) -/

/-- W of WAITA and WAKE in bytes: TY 000 names 8, 001 names 4. -/
def waitBytes (r : FmtR) : Nat := if Ty.is32 r.ty then 4 else 8

/-- Enter a wait at a slice; a full list gives up its oldest entry with reason 3. -/
def enterWait (s : State) (line : Nat) (w : Who) : State :=
  let h := homeOf line
  let s := match (s.slice h).waits with
    | [] => s
    | e :: t =>
      if t.length + 1 < 256 then s
      else fireWho (s.modSlice h fun k => { k with waits := t }) e.who (WaitKind.onLine e.line) (.value 3)
  s.modSlice h fun k => { k with waits := k.waits ++ [⟨line, w⟩] }

/-- The page of WAITA or WAKE: device-owned. -/
def waitPage (ea : Word) (n : Nat) (acc : Access) : M Attr := do
  alignM ea n
  let a ← checkOne ea n acc
  raiseIf (a.fwd != 0) 0x15 ea
  pure a

/-- The word that WAITA compares, read at home after the core's own bytes for the line have gone there. -/
def waitWord (ea : Word) (a : Attr) (n : Nat) : M Nat := do
  if isControl a.pa then do
    let bs ← controlRmw a.pa n fun _ => none
    pure (leNat bs)
  else do
    checkPoison ea.toNat a n
    soTurn a
    let s ← get
    let line := lineOf a.pa
    let s := (s.myCore.l1.filter fun l => l.pa == line).foldl (fun s l => writeBack s s.me l) s
    let s := sendWcFor s s.me line
    let (bs, s) := homeRead (drainLine s s.me line) a.pa n
    set s
    pure (leNat bs)

/-- A wait on an address. -/
def WaitKind.isAddr : WaitKind → Bool
  | .addr _ => true
  | _ => false

/-- The reason that ends a WAITA. -/
def waitaM (ea b : Word) (n : Nat) (ue : M Unit) : M Word := do
  match ← standing WaitKind.isAddr with
  | .fired _ x => firedWord x ea
  | .waiting k => waitFor k
  | .fresh => do
    let a ← waitPage ea n .read
    ue
    let o ← waitWord ea a n
    if o != b.toNat % 2 ^ (8 * n) then pure 0
    else do
      modify fun s => enterWait s (lineOf a.pa) s.whoAmI
      waitFor (.addr a.pa)

/-- WAITA (R276). -/
def execWaita (f : Frame) (r : FmtR) (s : State) : Out :=
  instr f (do
    forbidInRegion
    let ea ← getG r.a.val
    let b ← peekG r.b.val
    let v ← waitaM ea b (waitBytes r) (needG r.b.val)
    setG r.d.val v
    pure .fall) s

/-- Wake the n oldest waiters of a line with reason 2: how many were woken. -/
def wakeSome (s : State) (line n : Nat) : Nat × State :=
  let h := homeOf line
  let hit := ((s.slice h).waits.filter fun e => e.line == line).take n
  let s := s.modSlice h fun k => { k with waits := hit.foldl (fun l e => l.erase e) k.waits }
  (hit.length, hit.foldl (fun s e => fireWho s e.who (WaitKind.onLine line) (.value 2)) s)

/-- WAKE (R277). -/
def execWake (f : Frame) (r : FmtR) (s : State) : Out :=
  instr f (do
    forbidInRegion
    let ea ← getG r.a.val
    let a ← waitPage ea (waitBytes r) .write
    let b ← getG r.b.val
    soTurn a
    let s ← get
    let line := lineOf a.pa
    let (n, s) := wakeSome (drainLine (sendWcFor s s.me line) s.me line) line b.toNat
    set s
    setG r.d.val (wordOf n)
    pure .fall) s

/-! ### Channels (R286 to R289) -/

/-- The core and channel of a channel address. -/
def chanAddr (a : Word) : M (Nat × Nat) := do
  let s ← get
  let core := fieldOf a 8 7
  raiseIf ((a &&& ~~~(maskOf 8 7 ||| maskOf 0 3)) != 0 || !(coreActive s core)) 0x41 a
  pure (core, fieldOf a 0 3)

/-- The values of n consecutive registers. -/
def regsFrom (b : Nat) : Nat → M (List Word)
  | 0 => pure []
  | n + 1 => do
    let v ← getG b
    let t ← regsFrom (b + 1) n
    pure (v :: t)

/-- CHS (R287). -/
def execChs (f : Frame) (r : FmtR) (s : State) : Out :=
  instr f (do
    forbidInRegion
    let a ← getG r.a.val
    let n := r.var.val % 4 + 1
    let (core, chan) ← chanAddr a
    let ws ← regsFrom r.b.val n
    let s ← get
    if s.myCore.sends ≥ 16 then waitFor .other
    else do
      let flit : Flit := ⟨s.me, s.mycx, core, chan, n, bitOf s.ctx.corectl 0, ws⟩
      set ((s.modMyCore fun k => { k with sends := k.sends + 1 }).modDev fun d => { d with flits := d.flits ++ [flit] })
      pure .fall) s


def setChan (k : Core) (n : Nat) (c : Chan) : Core :=
  { k with chans := if c = ⟨[], []⟩ then tdel k.chans n else tset k.chans n c }

/-- CHLAST after a flit is taken (R289). -/
def chlastWord (chan : Nat) (f : Flit) : Word :=
  atBit 16 chan ||| atBit 10 (if f.nfm then 1 else 0) ||| atBit 8 (f.n - 1) ||| atBit 7 f.scx ||| wordOf f.src

/-- Write the words of a flit to m consecutive registers; words beyond the flit's are zero. -/
def putWords (d : Nat) : Nat → List Word → M Unit
  | 0, _ => pure ()
  | m + 1, ws => do
    setG d (ws.headD 0)
    putWords (d + 1) m ws.tail

/-- The channel that a register names (R286). -/
def chanNum (a : Word) : M Nat := do
  raiseIf (a.toNat ≥ 8) 0x41 a
  pure a.toNat

/-- Take the oldest flit of a channel, if there is one: whether it was there (R288). -/
def takeFlitM (chan d m : Nat) : M Bool := do
  let s ← get
  let c := chanAt s.myCore chan
  match c.flits with
  | [] => pure false
  | x :: rest => do
    raiseIf (x.nfm != bitOf s.ctx.corectl 0) 0x32 0
    set ((s.modMyCore fun k => setChan k chan { c with flits := rest }).modCtx fun c => { c with chlast := chlastWord chan x })
    putWords d m (x.words.take x.n)
    pure true

/-- CHR (R288). -/
def execChr (f : Frame) (r : FmtR) (s : State) : Out :=
  instr f (do
    forbidInRegion
    let a ← getG r.a.val
    let chan ← chanNum a
    if ← takeFlitM chan r.d.val (r.var.val % 4 + 1) then pure .fall
    else waitFor (.channel chan)) s

/-- CHP (R288). -/
def execChp (f : Frame) (r : FmtR) (s : State) : Out :=
  instr f (do
    forbidInRegion
    let a ← getG r.a.val
    let chan ← chanNum a
    let got ← takeFlitM chan r.d.val (r.var.val % 4 + 1)
    setP r.c.val got
    pure .fall) s

/-! ### Regions (R147, R153, R158, R291, R292) -/

/-- The context in which a region opens. -/
def Ctx.openRegion (c : Ctx) (elastic : Bool) (handler : Word) : Ctx :=
  { c with
    ckpt := some ⟨c.g, c.p, c.gue, c.pue, c.tiles, c.fpsr, c.mec0, c.mec1, c.mec2, c.mec3, handler⟩
    erlo := 0, erhi := BitVec.allOnes 64
    erstat := mergeMask (maskOf 8 2 ||| maskOf 11 1) (maskOf 8 1 ||| (if elastic then maskOf 9 1 else 0)) c.erstat
    gnew := 0, pnew := 0, tnew := 0
    regLines := [], early := [], abort := none, commit := none }

/-- RGBEGIN (R147, R291). A region of context 0 that commits is waited for. -/
def execRgbegin (f : Frame) (r : FmtI) (s : State) : Out :=
  instr f (do
    let s ← get
    if s.ctx.regionOpen then throw (.abort 9 0)
    else
      let other := s.ctxAt s.me (1 - s.mycx)
      if other.regionOpen && other.commit.isSome then waitFor .other
      else do
        let s := if other.regionOpen then regionAbortNow s s.me (1 - s.mycx) 7 0 0 else s
        set (s.modCtx fun c => c.openRegion (r.var.val % 2 == 1) (c.pc + r.imm))
        pure .fall) s

/-- RGSTATE where no region is open. -/
def needRegion : M Unit := do
  let c := (← get).ctx
  raiseIf (!c.regionOpen) 0x50 0

/-- The start of a commit by an RGEND of `len` bytes: the narrowings on their way are applied (log entry 11), an empty interval aborts,
ERPOS is fixed, and the bytes of the SPEC lines leave for home. -/
def startCommit (len : Nat) : M Unit := do
  modify fun s => applyNarrows s s.me s.mycx
  let c := (← get).ctx
  if c.intervalEmpty then throw (.abort 1 0)
  modify fun s => s.modCtx fun c => { c with
    erpos := c.erlo, commit := some ⟨c.erlo, c.regSlices, [], specWrites s.myCore s.mycx, len⟩ }

/-- RGEND (R153, R292): it retires once every slice has acknowledged. -/
def execRgend (f : Frame) (_ : FmtR) (s : State) : Out :=
  instr f (do
    needRegion
    if (← get).ctx.commit.isNone then startCommit f.len.bytes
    let s ← get
    if s.ctx.commit.any fun k => k.slices.isEmpty && k.acks.isEmpty then do
      set (finishCommit s s.me s.mycx)
      pure .fall
    else waitFor .other) s

/-- RGABORT (R292). -/
def execRgabort (f : Frame) (r : FmtI) (s : State) : Out :=
  instr f (do
    needRegion
    throw (.abort 5 (r.imm.toNat % 65536))) s

/-- RGBOUND (R158, R292). -/
def execRgbound (f : Frame) (r : FmtR) (s : State) : Out :=
  instr f (do
    needRegion
    let a ← getG r.a.val
    modify fun s => s.modCtx fun c => { c with erlo := wmax c.erlo a }
    pure .fall) s

end Sys2Proof.Machine
end

