-- ==== Sys2Proof/Machine/TaskOps.lean ====
section
/-!
DEFINITION. The task instructions (R349 to R352, R369, R370): TSPAWN, TDEC, TJOIN, TCANCEL, LNCH.
-/
namespace Sys2Proof.Machine

/-- The core and the cell that a handle operand names (R31, R352): CELLARG where it is malformed, names an inactive core, or a core
that is not the issuing one where it must be. -/
def cellM (a : Word) (own : Bool) : M (Nat × Nat) := do
  let s ← get
  let core := fieldOf a 8 7
  raiseIf (a.toNat ≥ 2 ^ 15 || !(coreActive s core) || (own && core != s.me)) 0x43 a
  pure (core, fieldOf a 0 8)

/-- While a continuation waits for a place, later updates of the core's cells wait behind it (R378). -/
def cellPort : M Unit := do
  let s ← get
  if placerWaits s s.me .cell then waitFor .other else pure ()

/-! ### TSPAWN (R352) -/

/-- CELLSTATE on an armed cell. -/
def cellFree (k : Nat) : M Unit := do
  let s ← get
  raiseIf ((s.cellAt s.me k).state == 1) 0x42 0

/-- The continuation record of TSPAWN: PC and ARG; none where the address is 0. A fault of the read gives way to CELLSTATE where that has
the lower rank (R396). -/
def contRecord (c : Word) (k : Nat) (ue : M Unit) : M (Option (Word × Word)) := do
  if c == 0 then do
    cellFree k
    ue
    pure none
  else do
    alignM c 8
    let ps ← checkAccess c.toNat 16 .read
    let r ← attempt (loadOnce ps)
    match r with
    | .error (.wait w) => waitFor w
    | .error e => do
      cellFree k
      ue
      throw e
    | .ok bs => do
      let pc := wordOfBytes (bs.take 8)
      raiseIf (pc != 0 && !(entryPcOk pc)) 0x43 c
      cellFree k
      ue
      pure (some (pc, wordOfBytes (bs.drop 8)))

/-- Arm a cell: with a record, the cell takes over the task's join cell. -/
def armCell (s : State) (k n : Nat) (rec : Option (Word × Word)) : State :=
  let c := s.ctx
  let join := if rec.isSome then fieldOf c.taskjoin 0 16 else 0xFFFF
  let x : Cell := ⟨atBit 48 join ||| atBit 32 1 ||| wordOf n, 0, (rec.map Prod.fst).getD 0, (rec.map Prod.snd).getD 0,
    bitOf c.corectl 0, c.asid, s.mycx == 1, none⟩
  let s := s.setCell s.me k x
  let s := if rec.isSome then s.modCtx fun c => { c with taskjoin := 0xFFFF } else s
  if n == 0 then cellZero s s.me k else s

/-- TSPAWN (R352). -/
def execTspawn (f : Frame) (r : FmtR) (s : State) : Out :=
  instr f (do
    forbidInRegion
    let a ← getG r.a.val
    let (_, k) ← cellM a true
    let b ← peekG r.b.val
    raiseIf (b.toNat ≥ 2 ^ 32) 0x43 0
    let c ← peekG r.c.val
    if (← get).ctx.gueOf r.c.val then cellFree k
    needG r.c.val
    let rec ← contRecord c k (needG r.b.val)
    cellPort
    modify fun s => armCell s k b.toNat rec
    pure .fall) s

/-! ### TDEC, TJOIN, TCANCEL.cell -/

/-- TDEC (R139, R352). -/
def execTdec (f : Frame) (r : FmtR) (s : State) : Out :=
  instr f (do
    forbidInRegion
    let a ← getG r.a.val
    let _ ← cellM a false
    let b ← getG r.b.val
    releaseM devScope
    modify fun s => sendDecr s (some s.me) a.toNat (if r.b.val == 0 then 1 else b.toNat % 2 ^ 32) 0 0
    pure .fall) s

/-- The waiter of a cell is a context. -/
def Cell.heldBy (c : Cell) (w : Who) : Bool := bitOf c.ctrl 34 && c.waiter == some w

/-- TJOIN on a cell of the core: the status it returns. A crozier that was woken by the cell acquires (R139) and looks at the cell again. -/
def joinCell (k : Nat) : M Word := do
  let woken := (← get).ctx.wait.any fun w => w.fired.isSome && WaitKind.onCell k w.kind
  if woken then do
    modify fun s => s.modCtx fun c => { c with wait := none }
    acquireM devScope
  let s ← get
  let c := s.cellAt s.me k
  match c.state with
  | 2 => do
    set (s.setCell s.me k Cell.idle)
    acquireM devScope
    pure c.status
  | 1 =>
    if bitOf c.status 2 then do
      acquireM devScope
      pure c.status
    else if c.heldBy s.whoAmI then waitFor (.cell k)
    else do
      raiseIf (bitOf c.ctrl 34) 0x42 0
      set (s.setCell s.me k { c with
        ctrl := mergeMask (maskOf 34 2) (maskOf 34 1 ||| atBit 35 s.mycx) c.ctrl, waiter := some s.whoAmI })
      waitFor (.cell k)
  | _ => pure 0

/-- TJOIN (R139, R352). -/
def execTjoin (f : Frame) (r : FmtR) (s : State) : Out :=
  instr f (do
    forbidInRegion
    let a ← getG r.a.val
    let (_, k) ← cellM a true
    cellPort
    let v ← joinCell k
    setG r.d.val v
    pure .fall) s

/-- CANCELLED is set in an armed cell, and a crozier wakes (R352, R380). -/
def cancelCell (s : State) (core k : Nat) : State :=
  let c := s.cellAt core k
  if c.state == 1 then wakeCrozier (s.setCell core k { c with status := c.status ||| maskOf 2 1 }) core k else s

/-- TCANCEL.cell (R352). -/
def execTcancelCell (f : Frame) (r : FmtR) (s : State) : Out :=
  instr f (do
    forbidInRegion
    let a ← getG r.a.val
    let (core, k) ← cellM a true
    cellPort
    modify fun s => cancelCell s core k
    pure .fall) s

/-! ### TCANCEL of the other levels (R352, R381) -/

/-- Hand a cancel to the launch unit. -/
def cancelM (level : CancelLevel) (a : Nat) : M Fin' := do
  forbidInRegion
  let v ← getG a
  modify fun s => s.modLaunch fun l => { l with cancels := l.cancels ++ [⟨level, v, some (Fin.ofNat 4096 s.ctx.asid)⟩] }
  pure .fall

/-- A cancel that needs supervisor mode (R352). TCANCEL has no S mark (R209), so the predicate is judged before the mode (R218). -/
def cancelSup (level : CancelLevel) (a : Nat) : M Fin' := do
  raiseIf (!(← get).ctx.mode.atLeast .supervisor) 0x01 0
  cancelM level a

/-- TCANCEL.lnch (R352). -/
def execTcancelLnch (f : Frame) (r : FmtR) (s : State) : Out := instr f (cancelM .lnch r.a.val) s

/-- TCANCEL.graph (R352). -/
def execTcancelGraph (f : Frame) (r : FmtR) (s : State) : Out := instr f (cancelM .graph r.a.val) s

/-- TCANCEL.phase (R352). -/
def execTcancelPhase (f : Frame) (r : FmtR) (s : State) : Out := instr f (cancelSup .phase r.a.val) s

/-- TCANCEL.job (R352). -/
def execTcancelJob (f : Frame) (r : FmtR) (s : State) : Out := instr f (cancelSup .job r.a.val) s

/-! ### LNCH (R352, R370) -/

/-- LNCH (R352, R370): a full queue makes it wait. -/
def execLnch (f : Frame) (r : FmtR) (s : State) : Out :=
  instr f (do
    forbidInRegion
    let a ← getG r.a.val
    alignM a 64
    releaseM devScope
    let ps ← checkAccess a.toNat 64 .read
    let bs ← loadOnce ps
    let p := Packet.ofBytes bs
    let s ← get
    raiseIf (p.asid != s.ctx.asid || refuses s p) 0x44 0
    if queueLen s p.queue ≥ 16 then waitFor .other
    else do
      let (n, s) := acceptPacket s p false
      set s
      setG r.d.val (wordOf n)
      pure .fall) s

end Sys2Proof.Machine
end

