-- ==== Sys2Proof/Machine/TileMem.lean ====
section
/-!
DEFINITION. The tile instructions of class 100 (R294 to R307): TLD, TST, TLDL, TSTL, TREDE, TRDE, TZERO, TFILL, TMOV, TRETAG, TGET, TSETE.
-/
namespace Sys2Proof

/-! ### The fields of formats TM and T (R202, R203, R296) -/

def FmtTM.rowsN (r : FmtTM) : Nat := r.rows.val + 1
def FmtTM.colsN (r : FmtTM) : Nat := r.cols.val + 1

/-- The format that FM names; every TM instruction names one. -/
def FmtTM.fmtOf (r : FmtTM) : Fmt := r.fm.getD .i8

/-- Bytes of a row. -/
def FmtTM.rowLen (r : FmtTM) : Nat := r.colsN * r.fmtOf.bytes

/-- The format that FD names. -/
def FmtT.fdOf (r : FmtT) : Fmt := r.fd.getD .i8

/-- The format that FA names. -/
def FmtT.faOf (r : FmtT) : Fmt := r.fa.getD .i8

end Sys2Proof

namespace Sys2Proof.Machine

/-- ea: OFF32 is sign-extended as every offset (log entry 26). -/
def tmAddr (r : FmtTM) : M Word := do
  let a ← getG r.ga.val
  pure (a + r.off.signExtend 64)

/-- s: gGB, or the packed stride where GB is 0. -/
def tmStride (r : FmtTM) (packed : Nat) : M Word := do
  if r.gb.val == 0 then pure (wordOf packed) else getG r.gb.val

/-- addr(i). -/
def rowAddr (ea s : Word) (i : Nat) : Nat := (ea + wordOf i * s).toNat

/-- The tile register of a TM instruction with the shape and format that it encodes, or TSHAPE. -/
def tmSource (r : FmtTM) : M Tile := do
  let t ← peekT r.t.val
  shapeIf (!t.valid || t.rows != r.rowsN || t.cols != r.colsN || t.fmt != r.fm) r.t.val
  pure t

/-! ### Rows -/

/-- FROW of a fault at a row (R398). -/
def frowWord (row : Nat) (done : List Nat) : Word :=
  atBit 32 (done.foldl (fun m i => m ||| 2 ^ i) 0) ||| maskOf 5 1 ||| wordOf row

/-- A fault of a row carries FROW. -/
def Exc.atRow (row : Nat) (done : List Nat) : Exc → Exc
  | .fault f => .fault { f with frow := frowWord row done }
  | e => e

/-- The parts of a row, the lowest-addressed first (R302). -/
def rowParts (addr n : Nat) : List (Nat × Nat) :=
  match partsOf addr n with
  | [p, q] => if q.1 < p.1 then [q, p] else [p, q]
  | l => l

/-- Translate and check one part of a row; in a region a page of the wrong kind aborts it (R301). -/
def checkPart (va n : Nat) (acc : Access) : M Attr := do
  let (a, ok) ← lookupM va n acc (wordOf va)
  raiseIf (!ok) 0x12 (wordOf va)
  regionPage a
  pure a

/-- Translate and check the parts of a row (R297, R300): every part is walked, whatever the outcome of the others (R80). -/
def checkParts (acc : Access) : List (Nat × Nat) → M (List Part)
  | [] => pure []
  | (va, n) :: t => do
    let x ← attempt (checkPart va n acc)
    let r ← attempt (checkParts acc t)
    match x, r with
    | .error e, _ | _, .error e => throw e
    | .ok a, .ok r => pure (⟨va, n, a⟩ :: r)

def checkRow (addr n : Nat) (acc : Access) : M (List Part) := checkParts acc (rowParts addr n)

/-- A row with its parts, in the order of the row's bytes. -/
structure RowParts where
  row : Nat
  parts : List Part
deriving DecidableEq, Repr

/-- The parts of a row in the order of its bytes: a row that wraps begins with its higher address. -/
def inRowOrder (addr : Nat) (ps : List Part) : List Part :=
  match ps with
  | [p, q] => if p.va == addr then [p, q] else [q, p]
  | l => l

/-- May the bytes of a completed row be kept over a fault (R299)? -/
def keepable (ps : List Part) : Bool := ps.all fun p => p.a.kind != 2 && p.a.c && p.a.fwd == 0

/-- Parts that are performed at the head in ascending address order (R297, R300). -/
def Part.ordered (p : Part) : Bool := p.a.kind == 2 || !p.a.c || p.a.fwd != 0 || isControl p.a.pa

/-- Insert by address. -/
def insertVa {α : Type} (va : α → Nat) (x : α) : List α → List α
  | [] => [x]
  | y :: t => if va x < va y then x :: y :: t else y :: insertVa va x t

/-- Sort by address, parts of one address in the order given. -/
def sortVa {α : Type} (va : α → Nat) (l : List α) : List α := l.foldl (fun r x => insertVa va x r) []

/-! ### TLD (R297 to R299) -/

/-- The pin that a TLD would leave, without rows. -/
def pinOf (r : FmtTM) (c : Ctx) (ea s : Word) : Pin where
  pc := c.pc
  asid := c.asid
  ea := ea
  stride := s
  rows := r.rowsN
  cols := r.colsN
  fmt := r.fmtOf
  dm := r.dm
  rr := r.rr
  first := r.first.val
  last := r.last.val
  done := []
  elems := []

/-- Does a pin match a TLD in every item of its record? -/
def Pin.matches (p q : Pin) : Bool := { p with done := [], elems := [] } == q

/-- A piece of a row. -/
structure RowPiece where
  row : Nat
  p : Part
deriving DecidableEq, Repr

/-- Read a piece, once: what a piece at the head has read is kept while the instruction waits for a later one (R107). -/
def readOnce (x : RowPiece) : M (List Byte) := do
  let p := x.p
  let key := 2 ^ 100 * (1 + x.row) + p.va
  let c := (← get).ctx
  if p.a.fwd != 0 then readPiece 2 p
  else match c.fwdGot.lookup key with
    | some bs => pure bs
    | none => do
      checkHomePoison p
      let bs ← readPiece 2 p
      modify fun s => s.modCtx fun c => { c with fwdGot := (key, bs) :: c.fwdGot }
      pure bs

/-- The pieces of rows, one a line. -/
def rowPieces (rs : List RowParts) : List RowPiece :=
  (rs.map fun r => (allPieces r.parts).map fun p => ⟨r.row, p⟩).flatten

/-- Read the ordered pieces in ascending address order: what each read. A fault names the rows that stand completed (R398). -/
def readOrdered (done : List Nat) : List RowPiece → M (List (RowPiece × List Byte))
  | [] => pure []
  | x :: t => do
    let r ← attempt (readOnce x)
    match r with
    | .error e => throw (e.atRow x.row done)
    | .ok bs => do
      let l ← readOrdered done t
      pure ((x, bs) :: l)

/-- Read a row: its ordered pieces have been read. -/
def readRow (got : List (RowPiece × List Byte)) (r : RowParts) : M (List Byte) :=
  gather (fun p => match got.lookup ⟨r.row, p⟩ with
    | some bs => pure bs
    | none => readPiece 2 p) (allPieces r.parts)

/-- Read rows in order; a fault leaves the keepable rows before it pinned (R299, log entry 9). -/
def readRows (pin : Pin) (got : List (RowPiece × List Byte)) : List RowParts → M (List (Nat × List Nat))
  | [] => pure []
  | r :: t => do
    let x ← attempt (readRow got r)
    match x with
    | .error (.fault f) => do
      modify fun s => s.modCtx fun c => { c with pin := some pin }
      throw (Exc.atRow r.row pin.done (.fault f))
    | .error e => throw e
    | .ok bs => do
      let es := Tile.rowElems pin.fmt.bytes bs pin.cols
      let pin := if keepable r.parts then { pin with done := pin.done ++ [r.row], elems := pin.elems ++ [(r.row, es)] } else pin
      let l ← readRows pin got t
      pure ((r.row, es) :: l)

/-- Complete the keepable rows below a fault in a translation (log entry 9). -/
def completeRows (pin : Pin) : List RowParts → M Pin
  | [] => pure pin
  | r :: t => do
    if keepable r.parts then do
      let x ← attempt (readRow [] r)
      match x with
      | .error _ => completeRows pin t
      | .ok bs =>
        completeRows { pin with
          done := pin.done ++ [r.row], elems := pin.elems ++ [(r.row, Tile.rowElems pin.fmt.bytes bs pin.cols)] } t
    else completeRows pin t

/-- Translate the rows of a TLD, lowest first; a fault completes the rows below it and pins them. -/
def checkRows (pin : Pin) (n : Nat) (sofar : List RowParts) : List Nat → M (List RowParts)
  | [] => pure sofar
  | i :: t => do
    let addr := rowAddr pin.ea pin.stride i
    let x ← attempt (checkRow addr n .read)
    match x with
    | .error (.fault f) => do
      if (← get).ctx.regionOpen then throw (.fault f)
      else do
        let pin ← completeRows pin sofar
        modify fun s => s.modCtx fun c => { c with pin := some pin }
        throw (Exc.atRow i pin.done (.fault f))
    | .error e => throw e
    | .ok ps => checkRows pin n (sofar ++ [⟨i, inRowOrder addr ps⟩]) t

/-- Replace a row: its row check is computed afresh, the column checks follow (R298). -/
def replaceRow (t : Tile) (i : Nat) (es : List Nat) : Tile :=
  let t := (upTo es.length).foldl (fun t j => t.setElem i j (es.getD j 0)) t
  { t with rowck := t.rowck.set i (t.rowChecks.getD i 0) }

/-- The tile of a whole TLD. -/
def wholeTile (r : FmtTM) (dom : Bool) (rows : List (Nat × List Nat)) : Tile :=
  Tile.make r.rowsN r.colsN r.fmtOf dom (((upTo r.rowsN).map fun i => (rows.lookup i).getD []).flatten)

/-- The old tile of a TLD with a row range: TSHAPE where it does not fit (R298). -/
def rangeSource (r : FmtTM) (dom : Bool) : M Tile := do
  let t ← tmSource r
  shapeIf (t.dom != (dom && r.fmtOf.hasDomain)) r.t.val
  pure t

/-- TLD (R297 to R299, R301, R302). -/
def execTld (f : Frame) (r : FmtTM) (s : State) : Out :=
  engineInstr f false 3 (do
    let dom ← domOf r.dm
    let old ← if r.rr then rangeSource r dom else pure Tile.empty
    let ea ← tmAddr r
    let st ← tmStride r r.rowLen
    let c := (← get).ctx
    let fresh := pinOf r c ea st
    let pin := match c.pin with
      | some p => if p.matches fresh then p else fresh
      | none => fresh
    let all := if r.rr then (upTo (r.last.val + 1)).filter (r.first.val ≤ ·) else upTo r.rowsN
    let rows ← checkRows pin r.rowLen [] (all.filter fun i => !(pin.done.contains i))
    if r.rr then tileUe r.t.val
    let got ← readOrdered pin.done (sortVa (fun x => x.p.va) ((rowPieces rows).filter fun x => x.p.ordered))
    let es ← readRows pin got rows
    let es := pin.elems ++ es
    modify fun s => s.modCtx fun c => { c with pin := if c.pin.any fun p => p.matches fresh then none else c.pin }
    setT r.t.val (if r.rr then es.foldl (fun t p => replaceRow t p.1 p.2) old else wholeTile r dom es)
    pure .fall) s

/-! ### TST (R300) -/

/-- Translate the rows of a store, lowest first. -/
def checkStoreRows (ea s : Word) (n : Nat) (acc : Access) : List Nat → M (List RowParts)
  | [] => pure []
  | i :: t => do
    let addr := rowAddr ea s i
    let x ← attempt (checkRow addr n acc)
    match x with
    | .error e => throw (e.atRow i [])
    | .ok ps => do
      let l ← checkStoreRows ea s n acc t
      pure (⟨i, inRowOrder addr ps⟩ :: l)

/-- CHKFAIL where the stored cortex disagrees with the elements (R186, R300, R315): FADDR holds the status word. -/
def verifyM (t : Tile) : M Unit := raiseIf (t.verify.state != 0) 0x30 t.verify.word

/-- Split bytes over pieces. -/
def splitBytes : List Part → List Byte → List (Part × List Byte)
  | [], _ => []
  | p :: t, bs => (p, bs.take p.n) :: splitBytes t (bs.drop p.n)

/-- A piece of a store with its bytes. -/
abbrev StorePiece := Part × List Byte

/-- Do two pieces share a byte? -/
def StorePiece.overlaps (x y : StorePiece) : Bool := x.1.va < y.1.va + y.1.n && y.1.va < x.1.va + x.1.n

/-- Insert a piece by its address, but after every piece of an earlier row that it overlaps. -/
def insertStore (x : StorePiece) : List StorePiece → List StorePiece
  | [] => [x]
  | y :: t => if x.1.va < y.1.va && !((y :: t).any x.overlaps) then x :: y :: t else y :: insertStore x t

/-- The pieces of a tile's rows with their bytes, in row order; those on SO pages come last, in ascending address order but for rows that
overlap, whose bytes are the highest row's (R114, R300). -/
def storePieces (t : Tile) (rs : List RowParts) : List StorePiece :=
  let all := (rs.map fun r => splitBytes (allPieces r.parts) (t.rowBytes r.row)).flatten
  let (late, soon) := all.partition fun x => x.1.so
  soon ++ late.foldl (fun l x => insertStore x l) []

/-- Write pieces in order: the messages that a peer must acknowledge. -/
def storeEach : List StorePiece → M (List Nat)
  | [] => pure []
  | x :: t => do
    let i ← writePiece x.1 x.2
    let r ← storeEach t
    pure (i ++ r)

/-- Retire the store of a tile's pieces (R105): performed at once, or held in the store buffer. It counts as one store to a peer (R275). -/
def retirePieces (ps : List StorePiece) : M Unit := do
  let s ← get
  if holdable s (ps.map Prod.fst) then
    set (s.modMyCore fun k => { k with sbuf := k.sbuf ++ (ps.map fun x => payloadsOf s.mycx s.ctx.asid x.1 x.2).flatten })
  else do
    storesTurn (ps.map Prod.fst)
    let ids ← storeEach ps
    modify fun s => countPosted s s.me ids

/-- TST (R300 to R302). -/
def execTst (f : Frame) (r : FmtTM) (s : State) : Out :=
  engineInstr f false 3 (do
    let t ← tmSource r
    let ea ← tmAddr r
    let st ← tmStride r r.rowLen
    let rows ← checkStoreRows ea st r.rowLen .write (upTo r.rowsN)
    tileUe r.t.val
    verifyM t
    let ps := storePieces t rows
    beforePieces (ps.map Prod.fst)
    each (fun p => dropPinOver p.va p.n) (ps.map Prod.fst)
    retirePieces ps
    pure .fall) s

/-! ### TLDL, TSTL (R303) -/

/-- The slot that an offset names, for a load or a store of a whole tile: the buffer faults in the order of R25. Cortex, metadata, dirty
log and cells are never named on their own (R24). -/
def slotM (b : Buf) (ea : Word) (store : Bool) : M Nat := do
  let s ← get
  let n := ea.toNat / 0x1000
  raiseIf ((store && b == .w) || offSlots b ea.toNat) 0x1C ea
  raiseIf (n < slotCount b && !(slotAllowed s.myCore s.mycx b n)) 0x1C ea
  raiseIf (n ≥ slotCount b) 0x1D ea
  raiseIf (ea.toNat % 0x1000 != 0) 0x1E ea
  if slotBusy s.myCore b n 1 store then waitFor .other
  pure n

/-- TLDL (R30, R303). -/
def execTldl (f : Frame) (r : FmtTM) (s : State) : Out :=
  engineInstr f false 3 (do
    let ea ← tmAddr r
    let b := bufOfCode r.var.val
    let n ← slotM b ea false
    let t := slotAt (← get).myCore b n
    raiseIf (!t.valid || t.rows != r.rowsN || t.cols != r.colsN || t.fmt != r.fm) 0x1F ea
    match t.ue with
    | w :: _ => raise 0x36 (wordOf (slotWord n w))
    | [] => pure ()
    setT r.t.val t
    pure .fall) s

/-- TSTL (R303). -/
def execTstl (f : Frame) (r : FmtTM) (s : State) : Out :=
  engineInstr f false 3 (do
    forbidInRegion
    let t ← tmSource r
    let ea ← tmAddr r
    let b := bufOfCode r.var.val
    let n ← slotM b ea true
    tileUe r.t.val
    modify fun s => s.modMyCore fun k => putSlot k b n t
    pure .fall) s

/-! ### TREDE, TRDE (R304, R305) -/

/-- The stride of the cells of a tile, with their ATOMALIGN: that of the address comes before REGUE of the stride's register (R396). FADDR is
ea for the stride too (log entry 50). -/
def cellStride (r : FmtTM) (ea : Word) : M Word := do
  raiseIf (ea.toNat % 64 != 0) 0x19 ea
  let st ← tmStride r (64 * r.colsN)
  raiseIf (st.toNat % 64 != 0) 0x19 ea
  pure st

/-- The cells of a tile: row, column, address. -/
def cellsOf (r : FmtTM) (ea s : Word) : List (Nat × Nat × Nat) :=
  (Tile.positions r.rowsN r.colsN).map fun (i, j) => (i, j, (ea + wordOf i * s + wordOf (64 * j)).toNat)

/-- Translate cells in the order given. -/
def checkCells (acc : Access) : List (Nat × Nat × Nat) → M (List (Nat × Nat × Nat × Attr))
  | [] => pure []
  | (i, j, va) :: t => do
    let x ← attempt (checkOne (wordOf va) 64 acc)
    match x with
    | .error e => throw (e.atRow i [])
    | .ok a => do
      let l ← checkCells acc t
      pure ((i, j, va, a) :: l)

/-- Cells row by row, each row from its lowest address up (R302). -/
def cellsByAddress (r : FmtTM) (cs : List (Nat × Nat × Nat)) : List (Nat × Nat × Nat) :=
  ((upTo r.rowsN).map fun i => sortVa (fun c => c.2.2) (cs.filter fun c => c.1 == i)).flatten

/-- The cells of a tile translated and checked: a host-owned page raises FWDOP after every fault of a translation. -/
def tileCells (r : FmtTM) (ea s : Word) (acc : Access) : M (List (Nat × Nat × Nat × Attr)) := do
  let cells := cellsOf r ea s
  let cs ← checkCells acc (cellsByAddress r cells)
  each (fun c => noHost c.2.2.2 (wordOf c.2.2.1)) cs
  pure (cells.filterMap fun c => cs.find? fun x => x.1 == c.1 && x.2.1 == c.2.1)

/-- The operations of a TREDE's elements: those at home, the identifiers of those sent to peers, and the sample records of the former. Every
cell has had its turn. -/
def sendCells (t : Tile) (fm : Fmt) : List (Nat × Nat × Nat × Attr) → M (List HomeOp × List Nat × List (List Byte))
  | [] => pure ([], [], [])
  | (i, j, va, a) :: l => do
    let v := t.enc i j
    if a.fwd == 2 then do
      approachOwner va a true
      let id ← sendPeer a.owner false va (.exactAdd a.pa fm t.dom (wordOf v))
      let (ops, ids, qs) ← sendCells t fm l
      pure (ops, id :: ids, qs)
    else if isControl a.pa then do
      let _ ← controlRmw a.pa 64 fun bs => some (exactBytes (exactAdd (exactOf bs) (fm.value t.dom v)))
      sendCells t fm l
    else do
      soTurn a
      let q ← sampleLater va (lineOf a.pa)
      modify fun s => beforeHomeOp s a
      let (ops, ids, qs) ← sendCells t fm l
      pure (.exactAdd fm t.dom a.pa v :: ops, ids, q ++ qs)

/-- POISONED of a cell on device memory. -/
def cellPoison (c : Nat × Nat × Nat × Attr) : M Unit := do
  let a := c.2.2.2
  if a.fwd == 0 && !(isControl a.pa) then do
    let r ← attempt (checkPoison c.2.2.1 a 64)
    match r with
    | .error e => throw (e.atRow c.1 [])
    | .ok _ => pure ()
  else pure ()

/-- TREDE (R132, R304). A pin of the context stays (log entry 93). -/
def execTrede (f : Frame) (r : FmtTM) (s : State) : Out :=
  engineInstr f false 3 (do
    forbidInRegion
    let t ← tmSource r
    let ea ← tmAddr r
    let st ← cellStride r ea
    let cs ← tileCells r ea st .write
    tileUe r.t.val
    each cellPoison cs
    verifyM t
    reductionRoom
    each (fun c => lineTurn c.2.2.1 c.2.2.2) cs
    each (fun c => noteM c.2.2.1) (cs.filter fun c => !(c.2.2.2.fwd == 0 && isControl c.2.2.2.pa))
    let (ops, ids, samples) ← sendCells t r.fmtOf cs
    pendHome ops ids (cs.any fun c => c.2.2.2.kind == 2) samples
    pure .fall) s

/-- The scalar type of a cell's destination format. -/
def tyOfFmt : Fmt → Ty
  | .f16 => .f16
  | .bf16 => .bf16
  | _ => .f32

/-- Read and round cells in order, the first of them the instruction's n-th: encodings and flags. -/
def readCells (t : Ty) (rnd : Rnd) (n : Nat) : List (Nat × Nat × Nat × Attr) → M (List (Nat × Flags))
  | [] => pure []
  | (i, _, va, a) :: l => do
    let x ← attempt (readCell t rnd n (wordOf va) a)
    match x with
    | .error e => throw (e.atRow i [])
    | .ok v => do
      let r ← readCells t rnd (n + 1) l
      pure (v :: r)

/-- TRDE (R305). -/
def execTrde (f : Frame) (r : FmtTM) (s : State) : Out :=
  engineInstr f false 3 (do
    forbidInRegion
    let ea ← tmAddr r
    let st ← cellStride r ea
    let cs ← tileCells r ea st .both
    let vs ← readCells (tyOfFmt r.fmtOf) r.rnd 0 cs
    addFlags (Flags.all (vs.map Prod.snd))
    setT r.t.val (Tile.make r.rowsN r.colsN r.fmtOf false (vs.map Prod.fst))
    pure .fall) s

/-! ### TZERO, TFILL, TMOV, TRETAG (R306) -/

/-- A tile of the encoded shape filled with one encoding. -/
def fillTile (r : FmtT) (e : Nat) : M Fin' := do
  let dom ← domOf r.dm
  setT r.td.val (Tile.ofFn (r.rowsm1.val + 1) (r.colsm1.val + 1) r.fdOf dom fun _ _ => e)
  pure .fall

/-- TZERO (R306). -/
def execTzero (f : Frame) (r : FmtT) (s : State) : Out := engineInstr f false 3 (fillTile r 0) s

/-- TFILL (R306). -/
def execTfill (f : Frame) (r : FmtT) (s : State) : Out :=
  engineInstr f false 3 (do
    let g ← getG r.ga.val
    fillTile r (g.toNat % 2 ^ r.fdOf.width)) s

/-- A tile source: VALID, and no uncorrectable flip (R295, R410). -/
def sourceT (t : Nat) : M Tile := do
  let x ← peekT t
  shapeIf (!x.valid) t
  tileUe t
  pure x

/-- TMOV (R306). -/
def execTmov (f : Frame) (r : FmtT) (s : State) : Out :=
  engineInstr f false 3 (do
    let t ← sourceT r.ta.val
    setT r.td.val t
    pure .fall) s

/-- TRETAG (R306). -/
def execTretag (f : Frame) (r : FmtT) (s : State) : Out :=
  engineInstr f false 3 (do
    let x ← peekT r.ta.val
    shapeIf (!x.valid || x.width != r.fdOf.bytes || (r.fdOf.isMx && x.cols % 32 != 0)) r.ta.val
    tileUe r.ta.val
    let dom ← domOf r.dm
    setT r.td.val { x with fmt := some r.fdOf, dom := dom && r.fdOf.hasDomain }
    pure .fall) s

/-! ### TGET, TSETE (R307) -/

/-- The row and column that an index names in a tile, or TSHAPE. -/
def elemIndex (t : Tile) (ta : Nat) (ix : Word) : M (Nat × Nat) := do
  let i := fieldOf ix 7 5
  let j := fieldOf ix 0 7
  shapeIf (ix.toNat ≥ 2 ^ 12 || i ≥ t.rows || j ≥ t.cols) ta
  pure (i, j)

/-- TGET (R307). -/
def execTget (f : Frame) (r : FmtT) (s : State) : Out :=
  engineInstr f false 3 (do
    let t ← peekT r.ta.val
    shapeIf (!t.valid) r.ta.val
    let ix ← getG (r.ga.val + 1)
    let (i, j) ← elemIndex t r.ta.val ix
    tileUe r.ta.val
    setG r.ga.val (wordOf (t.enc i j))
    pure .fall) s

/-- TSETE (R307). -/
def execTsete (f : Frame) (r : FmtT) (s : State) : Out :=
  engineInstr f false 3 (do
    let t ← peekT r.ta.val
    shapeIf (!t.valid || (t.fmt.any Fmt.isMx)) r.ta.val
    let ix ← getG (r.ga.val + 1)
    let (i, j) ← elemIndex t r.ta.val ix
    let v ← getG r.ga.val
    tileUe r.ta.val
    setT r.td.val (t.setElem i j (v.toNat % 2 ^ (8 * t.width)))
    pure .fall) s

end Sys2Proof.Machine
end

