-- ==== Sys2Proof/Machine/Matrix.lean ====
section
/-!
DEFINITION. The instructions of class 101 (R178 to R189, R308 to R316): matrix multiply-accumulate with its arithmetic check, and the
instructions that verify, repair, regenerate and read a tile's cortex.
-/
namespace Sys2Proof.Machine

/-! ### Sources (R295, R308) -/

/-- A tile source with a condition on it, or TSHAPE naming the tile. -/
def needT (t : Nat) (ok : Tile → Bool) : M Tile := do
  let x ← peekT t
  shapeIf (!x.valid || !(ok x)) t
  pure x

/-- The sources of an instruction of the tile engines, after every check of a lower rank (R396, R410): REGUE of gGA where it holds a
value and of the seed's register under .sr (R321), then TILEUE of the tiles. -/
def noUe (r : FmtT) (value : Bool) (ts : List Nat) : M Unit := do
  if value then needG r.ga.val else pure ()
  if r.rnd == .sr then needG (r.ga.val + (if value then 1 else 0)) else pure ()
  each tileUe ts

/-- May B's format stand with FA (R308)? -/
def mixOk (mix : Bool) (fa : Fmt) (fb : Option Fmt) : Bool :=
  match fb with
  | none => false
  | some g => if mix then (if fa.isB8 then g.isB8 else g == .i8 || g == .ui8) else g == fa

/-- The value of a matrix source at (i, j) as the sum takes it. -/
abbrev MatVal := Nat → Nat → Val

/-- The operands of a matrix instruction: C, the extents, what the sum over k multiplies for an output, and what an integer sum adds. -/
structure MatOps where
  c : Tile
  m : Nat
  n : Nat
  terms : Nat → Nat → List (Val × Val)
  isum : Nat → Nat → Int
  /-- sparse groups forgiven (R311) -/
  forgiven : Nat

/-! ### Outputs (R178, R179, R309) -/

/-- One output: its encoding, flags, exact value, and whether the exact value overflowed; for integers the exact sum. -/
structure MatOut where
  enc : Nat
  fl : Flags
  exact : Val
  wide : Bool
  int : Int

/-- The exact value that the arithmetic check takes. -/
def matOut (fd : Fmt) (rnd : Rnd) (sat : Bool) (seed : Word) (o : MatOps) (i j : Nat) : MatOut :=
  match fd.float? false with
  | some s =>
    let (v, f) := matElem (rnd == .rd) (s.value (o.c.enc i j)) (o.terms i j)
    let r := if rnd == .sr then srBits seed (128 * i + j) else 0
    let (e, g) := s.encode rnd r sat v
    ⟨e, f ||| g, v, s.overflows rnd r v, 0⟩
  | none =>
    let x := o.c.int i j + o.isum i j
    let (e, g) := deliverInt 32 true sat x
    ⟨e, g, .zero false, false, x⟩

def matOuts (fd : Fmt) (rnd : Rnd) (sat : Bool) (seed : Word) (o : MatOps) : List MatOut :=
  (Tile.positions o.m o.n).map fun p => matOut fd rnd sat seed o p.1 p.2

/-- The outputs as an injection changes them (R361). -/
def injected (fd : Fmt) (o : MatOps) (outs : List MatOut) (inj : Option Injection) : List MatOut :=
  match inj with
  | none => outs
  | some x =>
    if x.row < o.m && x.col < o.n then
      let k := x.row * o.n + x.col
      match outs[k]? with
      | none => outs
      | some y =>
        let e := y.enc ^^^ (x.mask.toNat % 2 ^ fd.width)
        outs.set k { y with enc := e, int := y.int + ((e : Int) - y.enc) }
    else outs

/-- Does the arithmetic check of R188 find a mismatch? `clean` holds the outputs as the engine formed the sums. -/
def matBad (fd : Fmt) (rnd : Rnd) (o : MatOps) (clean outs : List MatOut) : Bool :=
  match fd.float? false with
  | some s => matMismatch s rnd o.m o.n (clean.map fun x => (x.exact, x.wide)) (outs.map fun x => x.enc)
  | none => intMismatch o.m o.n (clean.map fun x => x.int) (outs.map fun x => x.int)

/-- A counter that saturates (R181). -/
def mecAdd (w : Word) (n : Nat) : Word := wordOf (min (w.toNat + n) (2 ^ 64 - 1))

/-- Deliver the outputs: the tile, the flags, the counters (R180, R309); a rise of MEC3 is a hard event (R412). -/
def deliver (td : Nat) (fd : Fmt) (o : MatOps) (outs : List MatOut) (again : Bool) : M Unit := do
  addFlags (Flags.all (outs.map fun x => x.fl))
  let nan := (outs.filter fun x => match fd.float? false with
    | some s => (s.value x.enc).isNan
    | none => false).length
  let clamped := (outs.filter fun x => x.fl &&& Flags.sat != 0).length
  modify fun s => s.modCtx fun c => { c with
    mec0 := mecAdd c.mec0 nan
    mec1 := mecAdd c.mec1 (clamped + o.forgiven)
    mec3 := mecAdd c.mec3 (if again then 1 else 0) }
  modify fun s => if again then hardEvent s s.me else s
  setT td (Tile.make o.m o.n fd false (outs.map fun x => x.enc))

/-- The whole of a matrix instruction after its sources: first execution with any injection, the check, the repeat, ARITHCHK (R188,
R189, R312). -/
def matRun (r : FmtT) (o : MatOps) : M Fin' := do
  let fd := r.fdOf
  let seed ← if r.rnd == .sr then getG r.ga.val else pure 0
  let clean := matOuts fd r.rnd r.sat seed o
  let c := (← get).ctx
  modify fun s => s.modCtx fun c => { c with injMatrix := none, matErr := none }
  let first := injected fd o (injected fd o clean c.injMatrix) (c.matErr.map Prod.fst)
  if !(matBad fd r.rnd o clean first) then deliver r.td.val fd o first false
  else do
    let second := injected fd o clean ((c.matErr.filter Prod.snd).map Prod.fst)
    raiseIf (matBad fd r.rnd o clean second) 0x31 0
    deliver r.td.val fd o second true
  pure .fall

/-- C: M rows, N columns, format FD (R308). -/
def accSource (r : FmtT) (m n : Nat) : M Tile := needT r.td.val fun t => t.rows == m && t.cols == n && t.fmt == r.fd

/-- The terms and the integer sum of a dense product over K columns. -/
def denseOps (a b c : Tile) : MatOps where
  c := c
  m := a.rows
  n := b.rows
  terms := fun i j => (upTo a.cols).map fun k => (a.value i k, b.value j k)
  isum := fun i j => (upTo a.cols).foldl (fun x k => x + a.int i k * b.int j k) 0
  forgiven := 0

/-- The dense sources of MMA and MMAX. -/
def denseM (r : FmtT) (mix : Bool) : M MatOps := do
  let a ← needT r.ta.val fun t => t.fmt == r.fa
  let b ← needT r.tb.val fun t => t.cols == a.cols && mixOk mix r.faOf t.fmt
  let c ← accSource r a.rows b.rows
  noUe r false [r.ta.val, r.tb.val, r.td.val]
  pure (denseOps a b c)

/-- MMA (R308, R309). -/
def execMma (f : Frame) (r : FmtT) (s : State) : Out :=
  engineInstr f false 1 (do
    let o ← denseM r (r.var.val % 2 == 1)
    matRun r o) s

/-- MMAX (R217, R308, R309). -/
def execMmax (f : Frame) (r : FmtT) (s : State) : Out :=
  engineInstr f true 1 (do
    let o ← denseM r false
    matRun r o) s

/-! ### MMAMX (R309) -/

/-- A scale tile: .ui8, with the rows of its operand and a column a block. -/
def scaleSource (t rows cols : Nat) : M Tile := needT t fun x => x.fmt == some .ui8 && x.rows == rows && x.cols == cols / 32

/-- MMAMX (R308, R309). -/
def execMmamx (f : Frame) (r : FmtT) (s : State) : Out :=
  engineInstr f false 1 (do
    let a ← needT r.ta.val fun t => t.fmt == r.fa && t.cols % 32 == 0
    let b ← needT r.tb.val fun t => t.cols == a.cols && t.fmt == r.fa
    let sa ← scaleSource r.tc.val a.rows a.cols
    let sb ← scaleSource (r.tc.val + 1) b.rows a.cols
    let c ← accSource r a.rows b.rows
    noUe r false [r.ta.val, r.tb.val, r.tc.val, r.tc.val + 1, r.td.val]
    matRun r {
      c := c, m := a.rows, n := b.rows
      terms := fun i j => (upTo a.cols).map fun k => (mxValue a sa i k, mxValue b sb j k)
      isum := fun _ _ => 0, forgiven := 0 }) s

/-! ### MMASP (R310, R311) -/

/-- The positions of group g of a row of the metadata tile. -/
def groupPos (md : Tile) (row g : Nat) : Nat × Nat :=
  let h := md.enc row (g / 2) / 2 ^ (4 * (g % 2))
  (h % 4, h / 4 % 4)

def groupOk (p : Nat × Nat) : Bool := p.1 < p.2

/-- The stored column of a logical position of A, none for one of the zeros. -/
def storedAt (md : Tile) (row k : Nat) : Option Nat :=
  let p := groupPos md row (k / 4)
  if k % 4 == p.1 then some (2 * (k / 4)) else if k % 4 == p.2 then some (2 * (k / 4) + 1) else none

/-- The operands of a sparse product: a forgiven group has no term. -/
def sparseOps (a md b0 b1 c : Tile) : MatOps :=
  let kc := a.cols
  let ks (i : Nat) : List Nat := (upTo (2 * kc)).filter fun k => groupOk (groupPos md i (k / 4))
  let aVal (i k : Nat) : Val := match storedAt md i k with
    | some x => a.value i x
    | none => .zero false
  let aInt (i k : Nat) : Int := match storedAt md i k with
    | some x => a.int i x
    | none => 0
  { c := c, m := a.rows, n := b0.rows
    terms := fun i j => (ks i).map fun k => (aVal i k, if k < kc then b0.value j k else b1.value j (k - kc))
    isum := fun i j => (ks i).foldl (fun x k => x + aInt i k * (if k < kc then b0.int j k else b1.int j (k - kc))) 0
    forgiven := ((Tile.positions a.rows (kc / 2)).filter fun p => !(groupOk (groupPos md p.1 p.2))).length }

/-- SPMETA, unless the task forgives it (R311). -/
def checkGroups (a md : Tile) : M Unit := do
  let c := (← get).ctx
  match (Tile.positions a.rows (a.cols / 2)).find? fun p => !(groupOk (groupPos md p.1 p.2)) with
  | none => pure ()
  | some p => raiseIf (!bitOf c.tcfg 1) 0x35 (atBit 8 p.1 ||| wordOf p.2)

/-- MMASP (R308, R310, R311). -/
def execMmasp (f : Frame) (r : FmtT) (s : State) : Out :=
  engineInstr f false 1 (do
    let mix := r.var.val % 2 == 1
    let a ← needT r.ta.val fun t => t.fmt == r.fa && t.cols % 4 == 0
    let b0 ← needT r.tb.val fun t => t.cols == a.cols && mixOk mix r.faOf t.fmt
    let b1 ← needT (r.tb.val + 1) fun t => t.rows == b0.rows && t.cols == b0.cols && t.fmt == b0.fmt
    let md ← needT r.tc.val fun t => t.fmt == some .ui8 && t.rows == a.rows && t.cols == a.cols / 4
    let c ← accSource r a.rows b0.rows
    noUe r false [r.ta.val, r.tb.val, r.tb.val + 1, r.tc.val, r.td.val]
    checkGroups a md
    matRun r (sparseOps a md b0 b1 c)) s

/-! ### Verification and repair (R186, R313 to R316) -/

/-- MEC2 rises by one (R180). -/
def countRepair : M Unit := modify fun s => s.modCtx fun c => { c with mec2 := mecAdd c.mec2 1 }

/-- TCHK (R313). -/
def execTchk (f : Frame) (r : FmtT) (s : State) : Out :=
  engineInstr f false 1 (do
    let t ← sourceT r.ta.val
    let v := t.verify
    raiseIf (v.state == 2) 0x30 v.word
    setG r.ga.val v.word
    pure .fall) s

/-- Write the tile that a verification leaves: repaired, or as it was. -/
def putRepaired (td ga : Nat) (t : Tile) : M Fin' := do
  let v := t.verify
  if v.state == 1 then do
    setT td (t.repair v)
    countRepair
  else setT td t
  setG ga v.word
  pure .fall

/-- TCHK.fix (R313). -/
def execTchkFix (f : Frame) (r : FmtT) (s : State) : Out :=
  engineInstr f false 1 (do
    let t ← sourceT r.ta.val
    raiseIf (t.verify.state == 2) 0x30 t.verify.word
    putRepaired r.td.val r.ga.val t) s

/-- TCFIX (R313). -/
def execTcfix (f : Frame) (r : FmtT) (s : State) : Out :=
  engineInstr f false 1 (do
    let t ← sourceT r.ta.val
    putRepaired r.td.val r.ga.val t) s

/-- TCGEN (R316): supervisor only. -/
def execTcgen (f : Frame) (r : FmtT) (s : State) : Out :=
  supInstr f (traced 1 (do
    let t ← sourceT r.ta.val
    setT r.td.val t.withChecks
    pure .fall)) s

/-- TCRD (R316): the stored check. -/
def execTcrd (f : Frame) (r : FmtT) (s : State) : Out :=
  engineInstr f false 1 (do
    let col := r.var.val % 2 == 1
    let t ← peekT r.ta.val
    let ix ← peekG (r.ga.val + 1)
    shapeIf (!t.valid || ix.toNat ≥ (if col then 128 else 32)) r.ta.val
    needG (r.ga.val + 1)
    tileUe r.ta.val
    let l := if col then t.colck else t.rowck
    setG r.ga.val (wordOf (l.getD ix.toNat 0).toNat)
    pure .fall) s

end Sys2Proof.Machine
end

