-- ==== Sys2Proof/Machine/Elementwise.lean ====
section
/-!
DEFINITION. The instructions of class 110 (R318 to R338): elementwise arithmetic, conversion, bit operations, comparison, layout and
reductions of tiles.
-/
namespace Sys2Proof.Machine

/-! ### The frame (R319 to R322) -/

/-- An instruction of the vector engine: one of FP64 is an X instruction (R322). -/
def vector (f : Frame) (r : FmtT) (body : M Fin') (s : State) : Out :=
  engineInstr f (r.faOf == .f64 || r.fdOf == .f64) 2 body s

/-- A source of format FA that is no MX tile (R319). -/
def srcA (r : FmtT) : M Tile := needT r.ta.val fun t => t.fmt == r.fa && !(r.faOf.isMx)

/-- A further source of the shape and format of tA. -/
def srcLike (r : FmtT) (n : Nat) (a : Tile) : M Tile :=
  needT n fun t => t.fmt == r.fa && t.rows == a.rows && t.cols == a.cols

/-- The seed of .sr: gGA, or the next register where GA holds a value (R321). -/
def seedOf (r : FmtT) (value : Bool) : M Word :=
  if r.rnd == .sr then getG (r.ga.val + (if value then 1 else 0)) else pure 0

/-- The random number of a result element (R173, R321). -/
def srAt (r : FmtT) (seed : Word) (i j : Nat) : Nat := if r.rnd == .sr then srBits seed (128 * i + j) else 0

/-- Deliver a result of a shape, element by element: flags, metadata, cortex (R320, R322). -/
def deliverT (r : FmtT) (rows cols : Nat) (dom : Bool) (e : Nat → Nat → Nat × Flags) : M Fin' := do
  let outs := (Tile.positions rows cols).map fun p => e p.1 p.2
  addFlags (Flags.all (outs.map Prod.snd))
  setT r.td.val (Tile.make rows cols r.fdOf dom (outs.map Prod.fst))
  pure .fall

/-- The result's shape meets R206 with the width of FD (R320). -/
def needShape (r : FmtT) (rows cols : Nat) : M Unit := shapeIf (!(r.fdOf.shapeOk rows cols)) r.td.val

/-! ### Arithmetic (R324, R325, R327, R328) -/

/-- The second operand: a tile or a broadcast scalar. -/
inductive Operand2
  | tile (t : Tile)
  | scalar (g : Word)
deriving DecidableEq, Repr

/-- Its value at an element. -/
def Operand2.value (o : Operand2) (fa : Fmt) (i j : Nat) : Val :=
  match o with
  | .tile t => t.value i j
  | .scalar g => scalarVal fa g

/-- Its integer at an element. -/
def Operand2.int (o : Operand2) (i j : Nat) : Int :=
  match o with
  | .tile t => t.int i j
  | .scalar g => signedOf 64 g.toNat

/-- One element of the arithmetic on floating or integer formats. -/
def arithElem (r : FmtT) (op : TileOp) (dom : Bool) (seed : Word) (a b c : Operand2) (i j : Nat) : Nat × Flags :=
  match r.fdOf.int? with
  | some (w, signed) => deliverInt w signed r.sat (op.evalInt (a.int i j) (b.int i j) (c.int i j))
  | none =>
    let (v, f) := op.eval (r.rnd == .rd) (a.value r.faOf i j) (b.value r.faOf i j) (c.value r.faOf i j)
    let (e, g) := r.fdOf.encode dom r.rnd (srAt r seed i j) r.sat v
    (e, f ||| g)

/-- The second source: tB, or with .bs the scalar in gGA (R321); the result has the shape of tA (R320). -/
def operandB (r : FmtT) (bs : Bool) (a : Tile) : M Operand2 :=
  if bs then do
    needShape r a.rows a.cols
    noUe r true [r.ta.val]
    let g ← getG r.ga.val
    pure (.scalar g)
  else do
    let b ← srcLike r r.tb.val a
    needShape r a.rows a.cols
    noUe r false [r.ta.val, r.tb.val]
    pure (.tile b)

/-- TADD, TSUB, TMUL. -/
def arith2 (op : TileOp) (f : Frame) (r : FmtT) (s : State) : Out :=
  vector f r (do
    let a ← srcA r
    let b ← operandB r r.bs a
    let seed ← seedOf r r.bs
    let dom ← domOf r.dm
    deliverT r a.rows a.cols dom (arithElem r op dom seed (.tile a) b (.tile a))) s

/-- TADD (R324, R325). -/
def execTadd (f : Frame) (r : FmtT) (s : State) : Out := arith2 .add f r s
/-- TSUB (R324, R325). -/
def execTsub (f : Frame) (r : FmtT) (s : State) : Out := arith2 .sub f r s
/-- TMUL (R324, R325). -/
def execTmul (f : Frame) (r : FmtT) (s : State) : Out := arith2 .mul f r s

/-- TFMA (R324). -/
def execTfma (f : Frame) (r : FmtT) (s : State) : Out :=
  vector f r (do
    let a ← srcA r
    let b ← srcLike r r.tb.val a
    let c ← srcLike r r.tc.val a
    needShape r a.rows a.cols
    noUe r false [r.ta.val, r.tb.val, r.tc.val]
    let seed ← seedOf r false
    let dom ← domOf r.dm
    deliverT r a.rows a.cols dom (arithElem r .fma dom seed (.tile a) (.tile b) (.tile c))) s

/-- TABS, TNEG. -/
def arith1 (op : TileOp) (f : Frame) (r : FmtT) (s : State) : Out :=
  vector f r (do
    let a ← srcA r
    needShape r a.rows a.cols
    noUe r false [r.ta.val]
    let seed ← seedOf r false
    let dom ← domOf r.dm
    deliverT r a.rows a.cols dom (arithElem r op dom seed (.tile a) (.tile a) (.tile a))) s

/-- TABS (R325, R327). -/
def execTabs (f : Frame) (r : FmtT) (s : State) : Out := arith1 .abs f r s
/-- TNEG (R325, R327). -/
def execTneg (f : Frame) (r : FmtT) (s : State) : Out := arith1 .neg f r s

/-- TSCALE (R327). -/
def execTscale (f : Frame) (r : FmtT) (s : State) : Out :=
  vector f r (do
    let a ← srcA r
    let g ← operandB r true a
    let seed ← seedOf r true
    let dom ← domOf r.dm
    deliverT r a.rows a.cols dom (arithElem r .mul dom seed (.tile a) g (.tile a))) s

/-- TRCP, TRSQ, TEXP2, TLOG2. -/
def funcT (fn : Func) (f : Frame) (r : FmtT) (s : State) : Out :=
  vector f r (do
    let a ← srcA r
    needShape r a.rows a.cols
    noUe r false [r.ta.val]
    let seed ← seedOf r false
    let dom ← domOf r.dm
    let elem (i j : Nat) : Nat × Flags :=
      let (v, x) := fn.eval (a.value i j)
      let (e, y) := r.fdOf.encode dom r.rnd (srAt r seed i j) r.sat v
      (e, x ||| y)
    deliverT r a.rows a.cols dom elem) s

/-- TRCP (R328). -/
def execTrcp (f : Frame) (r : FmtT) (s : State) : Out := funcT .rcp f r s
/-- TRSQ (R328). -/
def execTrsq (f : Frame) (r : FmtT) (s : State) : Out := funcT .rsq f r s
/-- TEXP2 (R328). -/
def execTexp2 (f : Frame) (r : FmtT) (s : State) : Out := funcT .exp2 f r s
/-- TLOG2 (R328). -/
def execTlog2 (f : Frame) (r : FmtT) (s : State) : Out := funcT .log2 f r s

/-! ### TMIN, TMAX (R326) -/

/-- The second operand of TMIN and TMAX as an encoding with its domain, and the conversion's flags: OF is not among them. -/
def pickOperand (fa : Fmt) (dom : Bool) (o : Operand2) (i j : Nat) : (Nat × Bool) × Flags :=
  match o with
  | .tile t => ((t.enc i j, t.dom), 0)
  | .scalar g =>
    let (e, x) := scalarInto fa dom g
    ((e, dom), x &&& ~~~Flags.ovf)

/-- TMIN, TMAX: a scalar is converted into FA in the domain of tA. -/
def pickT (big : Bool) (f : Frame) (r : FmtT) (s : State) : Out :=
  vector f r (do
    let a ← srcA r
    let b ← operandB r r.bs a
    let dom ← domOf r.dm
    let elem (i j : Nat) : Nat × Flags :=
      let (y, x) := pickOperand r.faOf a.dom b i j
      let (e, z) := pickEnc r.faOf big (a.enc i j, a.dom) y
      (e.1, x ||| z)
    deliverT r a.rows a.cols dom elem) s

/-- TMIN (R326). -/
def execTmin (f : Frame) (r : FmtT) (s : State) : Out := pickT false f r s
/-- TMAX (R326). -/
def execTmax (f : Frame) (r : FmtT) (s : State) : Out := pickT true f r s

/-! ### TCVT (R329, R330) -/

/-- Convert an element of tA (R175): FA = FD in one domain is a copy. -/
def cvtElem (r : FmtT) (a : Tile) (dom : Bool) (seed : Word) (i j : Nat) : Nat × Flags :=
  let fa := r.faOf
  let fd := r.fdOf
  if fa == fd && (!fa.hasDomain || dom == a.dom) then (a.enc i j, 0)
  else match fd.int?, fa.isInt with
    | some (w, signed), true => deliverInt w signed r.sat (a.int i j)
    | _, _ => fd.encode dom r.rnd (srAt r seed i j) r.sat (a.value i j)

/-- The blocks of a conversion into an MX format: per row and block of 32 columns (R171). -/
def mxBlocks (r : FmtT) (a : Tile) (dom : Bool) (seed : Word) : List (Nat × List Nat × Flags) :=
  (Tile.positions a.rows (a.cols / 32)).map fun p =>
    mxBlock r.fdOf dom r.rnd (fun k => srAt r seed p.1 (32 * p.2 + k)) ((upTo 32).map fun k => a.value p.1 (32 * p.2 + k))

/-- Into an MX format: the elements in tD, the scales in the next tile (R330). -/
def cvtToMx (r : FmtT) (a : Tile) (dom : Bool) (seed : Word) : M Fin' := do
  let bs := mxBlocks r a dom seed
  addFlags (Flags.all (bs.map fun b => b.2.2))
  setT r.td.val (Tile.make a.rows a.cols r.fdOf dom (bs.map fun b => b.2.1).flatten)
  setT (r.td.val + 1) (Tile.make a.rows (a.cols / 32) .ui8 false (bs.map fun b => b.1))
  pure .fall

/-- TCVT (R329, R330). A zero TC names no scale tile (log entry 51). -/
def execTcvt (f : Frame) (r : FmtT) (s : State) : Out :=
  vector f r (do
    let a ← needT r.ta.val fun t => t.fmt == r.fa
    if r.faOf.isMx then do
      shapeIf (r.tc.val == 0) r.tc.val
      let sc ← scaleSource r.tc.val a.rows a.cols
      needShape r a.rows a.cols
      noUe r false [r.ta.val, r.tc.val]
      let seed ← seedOf r false
      let dom ← domOf r.dm
      deliverT r a.rows a.cols dom fun i j => r.fdOf.encode dom r.rnd (srAt r seed i j) r.sat (mxValue a sc i j)
    else do
      needShape r a.rows a.cols
      noUe r false [r.ta.val]
      let seed ← seedOf r false
      let dom ← domOf r.dm
      if r.fdOf.isMx then cvtToMx r a dom seed else deliverT r a.rows a.cols dom (cvtElem r a dom seed)) s

/-! ### Bit operations (R331, R332) -/

/-- The encoding of the second operand of a bit operation. -/
def Operand2.bits (o : Operand2) (w i j : Nat) : Nat :=
  match o with
  | .tile t => t.enc i j
  | .scalar g => g.toNat % 2 ^ w

/-- TAND, TOR, TXOR: FD has the width of FA. -/
def bitsT (op : Nat → Nat → Nat) (f : Frame) (r : FmtT) (s : State) : Out :=
  vector f r (do
    let a ← srcA r
    let b ← operandB r r.bs a
    let dom ← domOf r.dm
    deliverT r a.rows a.cols dom fun i j => (op (a.enc i j) (b.bits r.faOf.width i j), 0)) s

/-- TAND (R331). -/
def execTand (f : Frame) (r : FmtT) (s : State) : Out := bitsT (· &&& ·) f r s
/-- TOR (R331). -/
def execTor (f : Frame) (r : FmtT) (s : State) : Out := bitsT (· ||| ·) f r s
/-- TXOR (R331). -/
def execTxor (f : Frame) (r : FmtT) (s : State) : Out := bitsT (· ^^^ ·) f r s

/-- TSHL, TSHR on one element. -/
def shiftElem (left : Bool) (fa : Fmt) (c e : Nat) : Nat :=
  if left then e * 2 ^ c % 2 ^ fa.width else unsignedOf fa.width (fa.intValue e / 2 ^ c)

/-- A shift by gGA mod the width. -/
def shiftT (left : Bool) (f : Frame) (r : FmtT) (s : State) : Out :=
  vector f r (do
    let a ← srcA r
    noUe r true [r.ta.val]
    let g ← getG r.ga.val
    deliverT r a.rows a.cols false fun i j => (shiftElem left r.faOf (g.toNat % r.faOf.width) (a.enc i j), 0)) s

/-- TSHL (R332). -/
def execTshl (f : Frame) (r : FmtT) (s : State) : Out := shiftT true f r s
/-- TSHR (R332). -/
def execTshr (f : Frame) (r : FmtT) (s : State) : Out := shiftT false f r s

/-! ### Comparison and selection (R333, R334) -/

/-- A comparison of integers by its condition code. -/
def icond (code : Nat) (a b : Int) : Bool :=
  match code with
  | 2 => a == b
  | 3 => a != b
  | 4 => a < b
  | _ => b ≤ a

/-- TCMP (R333). -/
def execTcmp (f : Frame) (r : FmtT) (s : State) : Out :=
  vector f r (do
    let code := r.var.val % 16
    let a ← srcA r
    let b ← operandB r (r.var.val ≥ 16) a
    let elem (i j : Nat) : Nat × Flags :=
      let (v, x) := if r.faOf.isInt then (icond code (a.int i j) (b.int i j), 0)
        else fcond code (a.value i j) (b.value r.faOf i j)
      (if v then 1 else 0, x)
    deliverT r a.rows a.cols false elem) s

/-- TSEL (R334). -/
def execTsel (f : Frame) (r : FmtT) (s : State) : Out :=
  vector f r (do
    let a ← srcA r
    let b ← needT r.tb.val fun t => t.fmt == r.fa && t.rows == a.rows && t.cols == a.cols && t.dom == a.dom
    let c ← needT r.tc.val fun t => t.fmt == some .ui8 && t.rows == a.rows && t.cols == a.cols
    noUe r false [r.ta.val, r.tb.val, r.tc.val]
    deliverT r a.rows a.cols a.dom fun i j => (if c.enc i j != 0 then a.enc i j else b.enc i j, 0)) s

/-! ### Layout (R335 to R337) -/

/-- TTRN (R335). -/
def execTtrn (f : Frame) (r : FmtT) (s : State) : Out :=
  vector f r (do
    let a ← srcA r
    needShape r a.cols a.rows
    noUe r false [r.ta.val]
    deliverT r a.cols a.rows a.dom fun i j => (a.enc j i, 0)) s

/-- TBROW (R336). -/
def execTbrow (f : Frame) (r : FmtT) (s : State) : Out :=
  vector f r (do
    let a ← needT r.ta.val fun t => t.fmt == r.fa && !(r.faOf.isMx) && t.rows == 1
    let g ← peekG r.ga.val
    needShape r g.toNat a.cols
    noUe r true [r.ta.val]
    deliverT r g.toNat a.cols a.dom fun _ j => (a.enc 0 j, 0)) s

/-- TBCOL (R336). -/
def execTbcol (f : Frame) (r : FmtT) (s : State) : Out :=
  vector f r (do
    let a ← needT r.ta.val fun t => t.fmt == r.fa && !(r.faOf.isMx) && t.cols == 1
    let g ← peekG r.ga.val
    needShape r a.rows g.toNat
    noUe r true [r.ta.val]
    deliverT r a.rows g.toNat a.dom fun i _ => (a.enc i 0, 0)) s

/-- The integer that TIOTA writes at (m, n) (R337). -/
def iotaInt (var : Nat) (v : Int) (cols m n : Nat) : Int :=
  match var with
  | 1 => v + m
  | 2 => v + n
  | _ => v + ((cols * m + n : Nat) : Int)

/-- TIOTA (R337). -/
def execTiota (f : Frame) (r : FmtT) (s : State) : Out :=
  vector f r (do
    let rows := r.rowsm1.val + 1
    let cols := r.colsm1.val + 1
    needShape r rows cols
    let g ← getG r.ga.val
    let seed ← seedOf r true
    let dom ← domOf r.dm
    let elem (i j : Nat) : Nat × Flags :=
      let x := iotaInt r.var.val (signedOf 64 g.toNat) cols i j
      match r.fdOf.int? with
      | some (w, signed) => deliverInt w signed r.sat x
      | none => r.fdOf.encode dom r.rnd (srAt r seed i j) r.sat (.ofInt x)
    deliverT r rows cols dom elem) s

/-! ### Reductions (R338) -/

/-- A floating .sum of one line: the elements exactly in FD, padded with +0 to a power of two, added by the fixed tree. -/
def lineSum (fd : Fmt) (rnd : Rnd) (sat : Bool) (vs : List Val) : Nat × Flags :=
  match fd.float? false with
  | none => (0, 0)
  | some s =>
    let leaves := vs.map fun v => s.encode .rne 0 false v
    let pad := List.replicate (treeSize vs.length - vs.length) 0
    let (e, f) := treeSum s rnd sat 7 (leaves.map Prod.fst ++ pad)
    (e, f ||| Flags.all (leaves.map Prod.snd))

/-- The smallest or largest of a line by R326, in the line's order. The first element is compared with itself, so that a line of one
element raises the flags and gives the NaN of R168 and R326 as a longer one does (log entry 51). -/
def linePick (fa : Fmt) (dom big : Bool) : List Nat → Nat × Flags
  | [] => (0, 0)
  | e :: es =>
    (e :: es).foldl (fun (acc : Nat × Flags) x =>
      let (p, f) := pickEnc fa big (acc.1, dom) (x, dom)
      (p.1, acc.2 ||| f)) (e, 0)

/-- The magnitude of an element as TABS forms it in FA. -/
def magElem (fa : Fmt) (dom : Bool) (e : Nat) : Nat × Flags := fa.encode dom .rne 0 false (fa.value dom e).abs

/-- One line of a reduction. -/
def reduceLine (r : FmtT) (dom : Bool) (es : List Nat) : Nat × Flags :=
  let fa := r.faOf
  match r.var.val with
  | 0 =>
    if fa.isInt then deliverInt 32 true r.sat (es.foldl (fun x e => x + fa.intValue e) 0)
    else lineSum r.fdOf r.rnd r.sat (es.map fun e => fa.value dom e)
  | 1 => linePick fa dom true es
  | 2 => linePick fa dom false es
  | _ =>
    let ms := es.map fun e => magElem fa dom e
    let (e, f) := linePick fa dom true (ms.map Prod.fst)
    (e, f ||| Flags.all (ms.map Prod.snd))

/-- TREDR (R338). -/
def execTredr (f : Frame) (r : FmtT) (s : State) : Out :=
  vector f r (do
    let a ← srcA r
    needShape r a.rows 1
    noUe r false [r.ta.val]
    let dom ← domOf r.dm
    deliverT r a.rows 1 dom fun i _ => reduceLine r a.dom ((upTo a.cols).map fun j => a.enc i j)) s

/-- TREDC (R338). -/
def execTredc (f : Frame) (r : FmtT) (s : State) : Out :=
  vector f r (do
    let a ← srcA r
    needShape r 1 a.cols
    noUe r false [r.ta.val]
    let dom ← domOf r.dm
    deliverT r 1 a.cols dom fun _ j => reduceLine r a.dom ((upTo a.rows).map fun i => a.enc i j)) s

end Sys2Proof.Machine
end

