-- ==== Sys2Proof/Machine/Engine.lean ====
section
/-!
DEFINITION. The copy engine (R341, R344, R345, R347, R348): how a copy or a collective moves one payload or one slot, what makes it
wait, and the fault it stops at.
-/
namespace Sys2Proof.Machine

/-! ### Outcomes of a part -/

/-- A part of an engine operation is done, waits (for a page or an owner, as `ask` says), or meets a fault. -/
inductive Eng (α : Type)
  | ok (a : α) (s : State)
  | wait (ask : Option EngAsk) (s : State)
  | fault (cause : Nat) (addr : Word) (s : State)

/-- Do one thing after another. -/
def Eng.then {α β : Type} (x : Eng α) (f : α → State → Eng β) : Eng β :=
  match x with
  | .ok a s => f a s
  | .wait k s => .wait k s
  | .fault c a s => .fault c a s

/-- Whose accesses they are: the core, the operation's translation, what it waits for, what owners have sent. -/
structure EngCtx where
  core : Nat
  x : Xlat
  ask : Option EngAsk
  got : List (Nat × List Byte)

def EngCtx.asid (e : EngCtx) : Nat := fieldOf e.x.ptroot 0 12

/-! ### Translation and access at home (R97, R344) -/

/-- Translate one address of an engine. -/
def engXlat (e : EngCtx) (s : State) (va : Nat) (acc : Access) : Eng Attr :=
  let page := va - va % 4096
  let ans := match e.ask with
    | some (.page p a) => if p == page then some a else none
    | _ => none
  if !canonical va then .fault 0x10 (wordOf va) s
  else if ans == some (some .pageInvalid) || ans == some (some .pageFail) then .fault 0x11 (wordOf va) s
  else
    let (r, s) := translate s (sorusOf e.core) e.x va acc (ans == some (some .pageOk))
    match r with
    | .ok a => .ok a s
    | .error (.perm _) => .fault 0x12 (wordOf va) s
    | .error (.fault c) => .fault c (wordOf va) s
    | .error (.missing prq) =>
      match ans with
      | some none => .wait e.ask s
      | some (some _) => .fault 0x11 (wordOf va) s
      | none =>
        if !mayRequest s e.x va prq then .fault 0x11 (wordOf va) s
        else
          let s' := requestPage s e.x va acc e.core 2
          if pageAsked s' e.asid page e.core 2 then .wait (some (.page page none)) s' else .wait e.ask s'

/-- What one part moves on a page: a payload of device memory (R115), or a line of an owner's page, which goes in one message (R90). -/
def payloadOf (a : Attr) : Nat := if a.fwd == 0 then 32 else 64

/-- The bytes of a run that lie in one line: the first of them as a unit of the walk, its address, how many. -/
structure LinePiece where
  unit : Nat
  va : Nat
  n : Nat

/-- The piece around the byte of unit i at `va`, with `behind` units of its run before it and `ahead` from it on. -/
def linePiece (i va behind ahead : Nat) : LinePiece :=
  let back := min behind (va % 64)
  ⟨i - back, va - back, min (back + ahead) (64 - (va - back) % 64)⟩

/-- Read n bytes at `va`. An owner sends the whole piece of the run in one message (R90): its parts take their bytes from that. -/
def engRead (e : EngCtx) (s : State) (va n : Nat) (a : Attr) (mode : Mode) (q : LinePiece) : Eng (List Byte) :=
  if a.fwd != 0 then
    match ownerWay s (sorusOf e.core) e.x q.va { a with pa := a.pa - (va - q.va) } with
    | none => .wait e.ask (askAts s (sorusOf e.core) e.x va)
    | some (addr, tag) =>
      match e.got.lookup q.unit, e.ask with
      | some bs, _ => .ok (((bs ++ List.replicate (q.n - bs.length) 0).drop (va - q.va)).take n) s
      | none, some .lost => .fault 0x14 (wordOf (lineOf va)) s
      | none, some (.line id unit) => .wait (some (.line id unit)) s
      | none, _ =>
        let (id, s) := s.newId
        let s := countForward (sampleSent s e.core id q.va 4) (sorusOf e.core) e.asid va false
        .wait (some (.line id q.unit))
          (s.modDev fun d => { d with forwarded := d.forwarded ++ [⟨id, ⟨e.core, 2, none⟩, a.ownerCode, addr, q.n, .read, tag⟩] })
  else if isControl a.pa then
    match devReadBytes s (devBy mode) (devOff a.pa) n with
    | some (bs, s) => .ok bs s
    | none => .fault 0x1B (wordOf va) s
  else if bridgeHeld s e.core (homeOf (lineOf a.pa)) then .wait e.ask s
  else match firstPoison s a.pa n with
    | some p => .fault 0x1A (wordOf (va + (p - a.pa))) (fetchHome s (lineOf p))
    | none =>
      let (bs, s) := homeRead (sampleMiss s e.core va 4 (some (lineOf a.pa)) true) a.pa n
      .ok bs s

/-- The bytes from an address, line by line. -/
def linesOf (va n : Nat) : List (Nat × Nat) :=
  (upTo ((va % 64 + n + 63) / 64)).map fun i =>
    let lo := if i = 0 then va else va - va % 64 + 64 * i
    (lo % 2 ^ 64, min (va + n) (va - va % 64 + 64 * (i + 1)) - lo)

/-- Read lines, each under its own page, from unit i on, with the units of the run before and from it. -/
def engLines (e : EngCtx) (s : State) (i behind ahead : Nat) : List (Nat × Nat) → Eng (List Byte)
  | [] => .ok [] s
  | (va, n) :: t =>
    (engXlat e s va .read).then fun a s =>
    (engRead e s va n a e.x.mode (linePiece i va behind ahead)).then fun bs s =>
    (engLines e s (i + n) (behind + n) (ahead - n) t).then fun r s => .ok (bs ++ r) s

/-- May a write be made: is there room in the dirty log (R86, R88)? -/
def engNote (e : EngCtx) (s : State) (va : Nat) (a : Attr) : Eng Unit :=
  if a.fwd == 0 && isControl a.pa then .ok () s
  else match noteAt s e.core e.x va with
    | some s => .ok () s
    | none => .wait e.ask s

/-- Write bytes of one payload: the identifier of the message that an owner must acknowledge. -/
def engWrite (e : EngCtx) (s : State) (va : Nat) (a : Attr) (mode : Mode) (bs : List Byte) : Eng (Option Nat) :=
  if a.fwd != 0 then
    match ownerWay s (sorusOf e.core) e.x va a with
    | none => .wait e.ask (askAts s (sorusOf e.core) e.x va)
    | some (addr, tag) =>
      let s := countForward s (sorusOf e.core) e.asid va true
      let (id, s) := post s { owner := a.ownerCode, addr := addr, mask := byteMask 0 bs.length, bytes := bs, so := a.kind == 2, tag := tag }
      .ok (some id) s
  else if isControl a.pa then
    match devWriteBytes s (devBy mode) (devOff a.pa) bs with
    | some s => .ok none s
    | none => .fault 0x1B (wordOf va) s
  else if bridgeHeld s e.core (homeOf (lineOf a.pa)) then .wait e.ask s
  else .ok none (homeStore s a.pa bs)

/-! ### Where a unit of a walk lies -/

/-- One side of a part: bytes of global memory, bytes of a row of a slot, or a whole slot. -/
inductive Place
  | mem (va : Nat)
  | row (b : Buf) (slot row x : Nat)
  | slot (b : Buf) (n : Nat)
  | share (i : Nat)
deriving DecidableEq, Repr

/-- The slot and row of the r-th row from a slot on. Fuel: the slots. -/
def rowFrom (k : Core) (b : Buf) : Nat → Nat → Nat → Nat × Nat
  | 0, slot, r => (slot, r)
  | n + 1, slot, r => if r < (slotAt k b slot).rows then (slot, r) else rowFrom k b n (slot + 1) (r - (slotAt k b slot).rows)

/-- The buffer of a space; W stands for none. -/
def spaceBuf (sp : Nat) : Buf := (bufOfSpace sp).getD .w

/-- Source, destination and the units left in the run, for unit `i` of a copy. -/
def Copy.places (c : Copy) (k : Core) (i : Nat) : Place × Place × Nat :=
  let d := c.desc
  let r := i / d.size0
  let o := i % d.size0
  let (os, od) := d.offsets r
  let rest := d.size0 - o
  let slotS := d.src.toNat / 0x1000
  let slotD := d.dst.toNat / 0x1000
  let memS : Place := .mem (d.src + os + wordOf o).toNat
  let memD : Place := .mem (d.dst + od + wordOf o).toNat
  if d.ssp = 0 then
    if d.dsp = 0 then (memS, memD, rest)
    else (memS, .row (spaceBuf d.dsp) (slotD + r / d.rows) (r % d.rows) o, rest)
  else if d.dsp = 0 then
    let (n, row) := rowFrom k (spaceBuf d.ssp) 64 slotS r
    (.row (spaceBuf d.ssp) n row o, memD, rest)
  else (.slot (spaceBuf d.ssp) (slotS + i), .slot (spaceBuf d.dsp) (slotD + i), 1)

/-- Units of a copy: bytes, or slots from slot to slot. -/
def copyUnits (d : CopyDesc) : Nat := if d.ssp != 0 && d.dsp != 0 then d.size0 else d.size0 * d.runs

namespace Coll

def op (c : Coll) : Nat := fieldOf c.ctl 0 3
def ssp (c : Coll) : Nat := fieldOf c.ctl 4 2
def dsp (c : Coll) : Nat := fieldOf c.ctl 6 2
def fmt (c : Coll) : Nat := fieldOf c.ctl 8 5
def rnd (c : Coll) : Nat := fieldOf c.ctl 13 3
def rop (c : Coll) : Nat := fieldOf c.ctl 16 2
def sat (c : Coll) : Bool := bitOf c.ctl 18
def root (c : Coll) : Nat := fieldOf c.ctl 24 7

/-- Is it a reduction? -/
def reduces (c : Coll) : Bool := c.op ≥ 2

/-- The participants in the order of their ranks. -/
def ranks (c : Coll) : List Nat := (upTo 128).filter fun i => c.cores.getLsbD i

/-- Who contributes and who receives (R348). -/
def senders (c : Coll) : List Nat := if c.op == 0 then [c.root] else c.ranks
def receivers (c : Coll) : List Nat := if c.op == 2 then [c.root] else c.ranks

/-- Do slots of the source move whole? A reduction reads their data. -/
def slotSource (c : Coll) : Bool := c.ssp != 0 && !c.reduces

/-- Units of its source: bytes, or slots. -/
def srcUnits (c : Coll) : Nat := if c.slotSource then c.count / 0x1000 else c.count

/-- Bytes that a receiver writes. -/
def outBytes (c : Coll) : Nat := if c.op == 1 then c.count * c.ranks.length else c.count

/-- Units of its destination. -/
def dstUnits (c : Coll) : Nat := if c.dsp != 0 then c.outBytes / 0x1000 else c.outBytes

/-- The places of unit i of its stage. -/
def places (c : Coll) (i : Nat) : Place × Place × Nat :=
  let slotS := c.src.toNat / 0x1000
  if c.stage = .reading then
    if c.slotSource then (.slot (spaceBuf c.ssp) (slotS + i), .share i, 1)
    else if c.ssp != 0 then (.row (spaceBuf c.ssp) (slotS + i / 0x1000) (i / 128 % 32) (i % 128), .share i, min (c.count - i) (128 - i % 128))
    else (.mem (c.src + wordOf i).toNat, .share i, c.count - i)
  else if c.dsp != 0 then (.share i, .slot (spaceBuf c.dsp) (c.dst.toNat / 0x1000 + i), 1)
  else (.share i, .mem (c.dst + wordOf i).toNat, c.outBytes - i)

end Coll

/-- The places of unit i of an engine operation. -/
def EngineOp.places (o : EngineOp) (k : Core) (i : Nat) : Place × Place × Nat :=
  match o with
  | .copy c => c.places k i
  | .coll c => c.places i

/-- Units of its run before unit i. -/
def EngineOp.behind (o : EngineOp) (i : Nat) : Nat :=
  match o with
  | .copy c => i % c.desc.size0
  | .coll _ => i

/-! ### Order on SO pages (R114) -/

/-- Does an address lie on an SO page, as the engine's core translates it? -/
def soAt (e : EngCtx) (s : State) (va : Nat) : Bool := (attrSeen s e.core e.x va).any fun a => a.kind == 2

/-- Is there, among n bytes from an address, an SO page with a byte below `va`? -/
def soBelow (e : EngCtx) (s : State) (va lo n : Nat) : Bool := (pagesOf (lo, n)).any fun a => a < va && soAt e s a

/-- The remaining runs of a range of units: first unit and length. Fuel: the units. -/
def runsOf (o : EngineOp) (k : Core) : Nat → Nat → Nat → List (Nat × Nat)
  | 0, _, _ => []
  | f + 1, lo, hi =>
    if lo ≥ hi then []
    else
      let n := max 1 (min (hi - lo) (o.places k lo).2.2)
      (lo, n) :: runsOf o k f (lo + n) hi

/-- Does a part on an SO page have to wait: for one at a lower address on the same side (R114), for what the operation or its core has sent
to an owner, for an older operation of the core (R107)? -/
def soWaits (e : EngCtx) (s : State) (o : EngineOp) (pick : Place × Place × Nat → Place) (va : Nat) : Bool :=
  let k := s.core e.core
  soAt e s va && (!o.prog.posts.isEmpty || soBehind s e.core || k.nonRet.any (fun n => n.so) ||
    k.engine.any (fun p => p.cx == o.cx && p.seq < o.seq && p.soLeft s e.core) || o.prog.left.any fun r => (runsOf o k (r.2 - r.1) r.1 r.2).any fun x =>
    match pick (o.places k x.1) with
    | .mem lo => soBelow e s va lo x.2
    | _ => false)

/-! ### Slots -/

/-- The slot as rows of a shape and format arrive in it: bytes that have not arrived are the old ones, and the checks follow the
encodings. -/
def reshape (t : Tile) (rows cols : Nat) (f : Fmt) (dom : Bool) : Tile :=
  let w := f.bytes
  Tile.ofFn rows cols f dom fun i j => leNat ((upTo w).map fun x => t.rowByte i (j * w + x))

/-- The slot after bytes of a row have arrived (R341): a word that is written whole loses its mark (R410). -/
def fillRow (t : Tile) (rows cols : Nat) (f : Fmt) (dom : Bool) (row x : Nat) (bs : List Byte) : Tile :=
  let t' := reshape t rows cols f dom
  { storeInTile t' (row * 128 + x) bs with ue := t.ue.filter fun w => !(row * 128 + x ≤ w && w + 8 ≤ row * 128 + x + bs.length) }

/-- The format codes that a slot's metadata can hold (R205). -/
def slotFmts : List Fmt := (upTo 32).filterMap fmtOf

/-- The slot whose data comes from memory without metadata: its format, domain and shape are free among the legal ones (R21, R206); its cortex
is computed from the encodings (R20, R185). -/
def freeSlotOf (s : State) (bytes : List Byte) : Tile × State :=
  let (w, s) := s.free
  let f := (slotFmts[w.toNat % slotFmts.length]?).getD .i8
  let step := if f.isMx then 32 else 1
  let cols := step * (1 + fieldOf w 16 16 % (128 / (step * f.bytes)))
  (Tile.ofFn (1 + fieldOf w 8 5) cols f (f.hasDomain && bitOf w 40) fun i j =>
    leNat ((upTo f.bytes).map fun x => bytes.getD (i * 128 + j * f.bytes + x) 0), s)

/-- What a part carries: bytes or a slot. -/
inductive Load
  | bytes (bs : List Byte)
  | slot (t : Tile)
deriving DecidableEq, Repr

/-- The place whose payloads a part takes whole: the destination in memory, else the source (R130, R137). -/
def unitPlace (p : Place × Place × Nat) : Place :=
  match p.2.1 with
  | .mem va => .mem va
  | _ => p.1

/-- Does unit i begin a payload, or its run? -/
def atPayload (o : EngineOp) (k : Core) (i : Nat) (pay : Place → Nat) : Bool :=
  let q := unitPlace (o.places k i)
  let bound : Bool := match q with
    | .mem va => va % pay q == 0
    | _ => false
  i == 0 || bound || (o.places k (i - 1)).2.2 == 1

/-- Units to the end of the payload of a place. -/
def payLeft (a : Option Attr) (q : Place) (n : Nat) : Nat :=
  match a, q with
  | some a, .mem va => min n (payloadOf a - va % payloadOf a)
  | _, _ => n

/-- Translate a place that lies in memory. -/
def engPlace (e : EngCtx) (s : State) (q : Place) (acc : Access) : Eng (Option Attr) :=
  match q with
  | .mem va => (engXlat e s va acc).then fun a s => .ok (some a) s
  | _ => .ok none s

/-- Read a part of n units from unit u on, `rest` of its run left. -/
def engLoad (e : EngCtx) (s : State) (o : EngineOp) (q : Place) (a : Option Attr) (n u rest : Nat) : Eng Load :=
  let k := s.core e.core
  match q, a with
  | .mem va, some _ => (engLines e s u (o.behind u) rest (linesOf va n)).then fun bs s => .ok (.bytes bs) s
  | .mem _, none => .wait e.ask s
  | .row b slot row x, _ =>
    match slotUeAt k b slot (row * 128 + x) n with
    | some off => .fault 0x36 (wordOf off) s
    | none => .ok (.bytes ((upTo n).map fun i => (slotAt k b slot).dataByte (row * 128 + x + i))) s
  | .slot b m, _ =>
    match slotUeAt k b m 0 0x1280 with
    | some off => .fault 0x36 (wordOf off) s
    | none => .ok (.slot (slotAt k b m)) s
  | .share i, _ =>
    match o with
    | .coll c =>
      if c.dsp != 0 then match c.share.slots[i]? with
        | some t => .ok (.slot t) s
        | none =>
          let (t, s) := freeSlotOf s ((c.share.bytes.drop (i * 0x1000)).take 0x1000)
          .ok (.slot t) s
      else .ok (.bytes ((c.share.bytes.drop i).take n)) s
    | .copy _ => .wait e.ask s

/-- Replace bytes of a list from an index, the list grown with zeros. -/
def putAt (l : List Byte) (i : Nat) (bs : List Byte) : List Byte :=
  (l ++ List.replicate (i - l.length) 0).take i ++ bs ++ l.drop (i + bs.length)

/-- The share of a collective with a part read into it. -/
def Share.put (h : Share) (i : Nat) (x : Load) : Share :=
  match x with
  | .bytes bs => { h with bytes := putAt h.bytes i bs }
  | .slot t => { h with
      slots := (h.slots ++ List.replicate (i - h.slots.length) Tile.empty).take i ++ t :: h.slots.drop (i + 1)
      bytes := putAt h.bytes (i * 0x1000) ((upTo 0x1000).map t.dataByte) }

/-- Write a part: the operation as it then stands, and the message that an owner must acknowledge. -/
def engStore (e : EngCtx) (s : State) (o : EngineOp) (q : Place) (a : Option Attr) (x : Load) : Eng (EngineOp × Option Nat) :=
  match q, a, x with
  | .mem va, some a, .bytes bs => (engWrite e s va a e.x.mode bs).then fun id s => .ok (o, id) s
  | .row b slot row off, _, .bytes bs =>
    match o with
    | .copy c =>
      let f := (fmtOf c.desc.fmt).getD .i8
      .ok (o, none) (s.modCore e.core fun k =>
        putSlot k b slot (fillRow (slotAt k b slot) c.desc.rows c.desc.cols f c.desc.dom row off bs))
    | .coll _ => .ok (o, none) s
  | .slot b n, _, .slot t => .ok (o, none) (s.modCore e.core fun k => putSlot k b n t)
  | .share i, _, x =>
    match o with
    | .coll c => .ok (.coll { c with share := c.share.put i x }, none) s
    | .copy _ => .ok (o, none) s
  | _, _, _ => .wait e.ask s

/-- Move the payload at unit `i`, at most `most` units: the operation as it then stands and the units moved. The part is one payload of its
destination, read from as many source lines as it takes (log entry 85). A part on an SO page waits as `soWaits` says; the destination is
translated and noted before the source is read. -/
def engPart (s : State) (core : Nat) (o : EngineOp) (i most : Nat) : Eng (EngineOp × Nat) :=
  let e : EngCtx := ⟨core, o.xlat, o.prog.ask, o.prog.got⟩
  let (src, dst, rest) := o.places (s.core core) i
  (engPlace e s dst .write).then fun ad s =>
  (engPlace e s src .read).then fun as s =>
  let late := (match src with | .mem va => soWaits e s o (fun p => p.1) va | _ => false) ||
    (match dst with | .mem va => soWaits e s o (fun p => p.2.1) va | _ => false)
  if late then .wait o.prog.ask s
  else
    let n := match dst with
      | .mem _ => payLeft ad dst (min rest most)
      | _ => payLeft as src (min rest most)
    let noted : Eng Unit := match ad, dst with
      | some a, .mem va => engNote e s va a
      | _, _ => .ok () s
    noted.then fun _ s =>
    (engLoad e s o src as n i rest).then fun x s =>
    (engStore e s o dst ad x).then fun r s =>
    .ok (r.1.setProg { r.1.prog with ask := none, posts := r.1.prog.posts ++ r.2.toList }, n) s

/-! ### Progress -/

/-- The range of remaining units that holds a unit. -/
def rangeAt (l : List (Nat × Nat)) (i : Nat) : Option (Nat × Nat) := l.find? fun r => r.1 ≤ i && i < r.2

/-- Take n units from i out of the remaining ranges. -/
def takeUnits (l : List (Nat × Nat)) (i n : Nat) : List (Nat × Nat) :=
  (l.map fun r =>
    if r.1 ≤ i && i < r.2 then
      (if r.1 < i then [(r.1, i)] else []) ++ (if i + n < r.2 then [(i + n, r.2)] else [])
    else [r]).flatten

/-- Split the range that holds a unit, so that one begins at it. -/
def splitAt' (l : List (Nat × Nat)) (i : Nat) : List (Nat × Nat) :=
  (l.map fun r => if r.1 < i && i < r.2 then [(r.1, i), (i, r.2)] else [r]).flatten

/-- Put an engine operation back. -/
def putEngine (s : State) (core idx : Nat) (o : EngineOp) : State :=
  s.modCore core fun k => { k with engine := k.engine.set idx o }

/-! ### Reductions (R142, R348) -/

/-- One element of a reduction: x op y, rounded into the format (R177). No FPSR receives its flags (log entry 56). -/
def reduceElem (f : Fmt) (rop : Nat) (rnd : Rnd) (sat : Bool) (x y : Nat) : Nat :=
  match rop with
  | 0 => match f.int? with
    | some (w, signed) => (deliverInt w signed sat (f.intValue x + f.intValue y)).1
    | none => (f.encode false rnd 0 false (Val.add (rnd == .rd) (f.value false x) (f.value false y)).1).1
  | r => (pickEnc f (r == 1) (x, false) (y, false)).1.1

/-- Two lists of encodings. -/
def reduceList (f : Fmt) (rop : Nat) (rnd : Rnd) (sat : Bool) : List Nat → List Nat → List Nat
  | x :: xs, y :: ys => reduceElem f rop rnd sat x y :: reduceList f rop rnd sat xs ys
  | xs, _ => xs

/-- The encodings in bytes. -/
def encsOf (w n : Nat) (bs : List Byte) : List Nat := Tile.rowElems w bs n

/-- What a receiver writes: the root's share, every share by rank, or the reduction in ascending rank. -/
def Coll.result (c : Coll) : Share :=
  let share (r : Nat) : Share := (c.got.find? fun g => g.core == r).getD ⟨r, [], []⟩
  match c.op with
  | 0 => share c.root
  | 1 => ⟨0, (c.ranks.map fun r => (share r).bytes).flatten, (c.ranks.map fun r => (share r).slots).flatten⟩
  | _ =>
    let f := (fmtOf c.fmt).getD .f32
    let n := c.count / f.bytes
    let encs (r : Nat) : List Nat := encsOf f.bytes n (share r).bytes
    match c.ranks with
    | [] => ⟨0, [], []⟩
    | r :: rs =>
      let rnd := (rndOf c.rnd).getD .rne
      let x := rs.foldl (fun x r => reduceList f c.rop rnd c.sat x (encs r)) (encs r)
      ⟨0, (x.map fun e => leBytes f.bytes e).flatten, []⟩

/-- A collective that holds every contribution begins to write. -/
def Coll.advance (c : Coll) : Coll :=
  if c.stage = .waiting && c.senders.all fun r => c.got.any fun g => g.core == r then
    { c with stage := .writing, share := c.result, prog := { Progress.start c.dstUnits with ranges := c.prog.ranges } }
  else c

/-! ### Moving -/

/-- A share that is read whole leaves for its receivers (R348). -/
def sendShares (s : State) (core idx : Nat) : State :=
  match (s.core core).engine[idx]? with
  | some (.coll c) =>
    if c.stage = .reading && c.prog.left.isEmpty && c.prog.failed.isNone then
      let msgs := c.receivers.map fun d => ({
        dst := d, src := core, id := c.id, op := c.op, count := c.count, fmt := c.fmt, cores := c.cores, nfm := c.nfm
        share := c.share } : CollMsg)
      putEngine (s.modDev fun d => { d with collMsgs := d.collMsgs ++ msgs }) core idx (.coll ({ c with stage := .waiting }).advance)
    else s
  | _ => s

/-- One move of the copy engine of a core: operation `idx` moves the payload that begins at unit `i`. Where the part waits, the
operation keeps what it waits for; where it meets a fault, nothing moves until the engine stops it (R345). -/
def copyPart (s : State) (core idx i : Nat) : State :=
  match (s.core core).engine[idx]? with
  | none => s
  | some o =>
    match rangeAt o.prog.left i with
    | none => s
    | some (lo, hi) =>
      let pay (q : Place) : Nat := match q with
        | .mem va => ((attrSeen s core o.xlat va).map payloadOf).getD 32
        | _ => 1
      if i != lo && !atPayload o (s.core core) i pay then s
      else match engPart s core o i (hi - i) with
        | .ok (o', n) s => sendShares (putEngine s core idx (o'.setProg { o'.prog with left := takeUnits o.prog.left i n })) core idx
        | .wait ask s => putEngine s core idx (o.setProg { o.prog with ask := ask })
        | .fault _ _ s => putEngine s core idx (o.setProg { o.prog with left := splitAt' o.prog.left i })

/-- May the engine issue a part of an operation: not while debug stops its context with ENG = 0 (R442). -/
def engineMoves (k : Core) (o : EngineOp) : Bool := !(isStopped k o.cx) || bitOf k.dbgctl 3

/-- The faults that the parts at the beginning of a remaining range meet. -/
def engineFaults (s : State) (core : Nat) (o : EngineOp) : List (Nat × Word) :=
  o.prog.left.filterMap fun r => match engPart s core o r.1 (r.2 - r.1) with
    | .fault c a _ => some (c, a)
    | _ => none

end Sys2Proof.Machine
end

