-- ==== Sys2Proof/Machine/CopyOps.lean ====
section
/-!
DEFINITION. CPY, CPYL, CPYC and COLL (R24, R25, R29, R30, R33, R136, R141, R299, R340 to R348).
-/
namespace Sys2Proof.Machine

/-! ### Descriptors (R340 to R342) -/

/-- n bytes at an offset of a descriptor as a number. -/
def descNat (bs : List Byte) (off n : Nat) : Nat := leNat ((bs.drop off).take n)

/-- The fields of a copy descriptor. -/
def copyDescOf (bs : List Byte) : CopyDesc where
  src := wordOf (descNat bs 0 8)
  dst := wordOf (descNat bs 8 8)
  ctl := wordOf (descNat bs 0x10 8)
  size := (upTo 6).map fun k => descNat bs (0x18 + 4 * k) 4
  sstr := (upTo 5).map fun k => wordOf (descNat bs (0x30 + 8 * k) 8)
  dstr := (upTo 5).map fun k => wordOf (descNat bs (0x58 + 8 * k) 8)

/-- The reserved bits of CTL are zero. -/
def ctlOk (ctl : Word) : Bool := (ctl &&& (maskOf 34 30 ||| maskOf 28 4 ||| maskOf 14 2 ||| maskOf 3 1)) == 0

/-- Sizes and strides: those used are legal, the others zero. -/
def CopyDesc.dimsOk (d : CopyDesc) : Bool :=
  1 ≤ d.ndim && d.ndim ≤ 6 &&
  ((upTo 6).all fun k => if k < d.ndim then d.size.getD k 0 != 0 else d.size.getD k 0 == 0) &&
  ((upTo 5).all fun k => k + 1 < d.ndim || (d.sstr.getD k 0 == 0 && d.dstr.getD k 0 == 0)) &&
  d.size0 * d.runs ≤ 2 ^ 40

/-- FMT, DOM, ROWSM1 and COLSM1 are zero. -/
def CopyDesc.noSlot (d : CopyDesc) : Bool := fieldOf d.ctl 8 6 == 0 && fieldOf d.ctl 16 12 == 0

/-- The rules of the table of R341; W as a source and C as a destination are judged as A. -/
def CopyDesc.kindOk (d : CopyDesc) : Bool :=
  if d.ssp == 0 && d.dsp == 0 then d.noSlot
  else if d.ssp == 0 then
    match fmtOf d.fmt with
    | none => false
    | some f => f.shapeOk d.rows d.cols && d.size0 == d.cols * f.bytes && (!d.dom || f.hasDomain) &&
        (d.dstr.all fun w => w == 0) && d.runs % d.rows == 0
  else if d.dsp == 0 then d.noSlot && 2 ≤ d.ndim && d.sstr.all fun w => w == 0
  else d.noSlot && d.ndim == 1 && d.size0 ≤ 64

/-- No descriptor error. -/
def CopyDesc.ok (d : CopyDesc) : Bool := ctlOk d.ctl && d.dimsOk && d.kindOk

/-! ### Buffer ranges (R24, R25, R33) -/

/-- One range of whole slots: the buffer, its offset, how many slots, whether it is written. -/
structure SlotRange where
  b : Buf
  off : Word
  n : Nat
  write : Bool
deriving DecidableEq, Repr

namespace SlotRange

def first (r : SlotRange) : Nat := r.off.toNat / 0x1000

/-- BUFSPACE: a forbidden buffer, an area that is no slot data, a slot outside the partition. -/
def spaceBad (r : SlotRange) (k : Core) (cx : Nat) : Bool :=
  r.b == (if r.write then .c else .w) ||
  offSlots r.b r.off.toNat ||
  (upTo (min r.n 64)).any fun i => r.first + i < slotCount r.b && !(slotAllowed k cx r.b (r.first + i))

/-- BUFRANGE: a slot that does not exist. -/
def rangeBad (r : SlotRange) : Bool := r.first + r.n > slotCount r.b

/-- BUFALIGN: an offset that is no slot's base. -/
def alignBad (r : SlotRange) : Bool := r.off.toNat % 0x1000 != 0

end SlotRange

/-- Raise a code at the first range for which a condition holds. -/
def raiseRange (rs : List SlotRange) (code : Nat) (bad : SlotRange → Bool) : M Unit :=
  match rs.find? bad with
  | some r => raise code r.off
  | none => pure ()

/-- Check ranges in the order of R25, then wait for earlier engine work on them (R29). -/
def rangesM (rs : List SlotRange) : M Unit := do
  let s ← get
  let k := s.myCore
  raiseRange rs 0x1C fun r => r.spaceBad k s.mycx
  raiseRange rs 0x1D SlotRange.rangeBad
  raiseRange rs 0x1E SlotRange.alignBad
  if rs.any fun r => slotBusy k r.b r.first r.n r.write then waitFor .other else pure ()

/-- BUFSHAPE of a source slot (R30, R341): it must be VALID, and its rows `width` bytes where that is given. -/
def slotShape (b : Buf) (n : Nat) (width : Option Nat) : M Tile := do
  let t := slotAt (← get).myCore b n
  raiseIf (!t.valid || (width.any fun w => t.cols * t.width != w)) 0x1F (wordOf (n * 0x1000))
  pure t

/-- How many slots from a slot on the runs of a copy need (R341): each VALID one gives its rows; one that is not, or that earlier engine
work still writes, ends the count. Fuel: more than the slots of a buffer. -/
def slotsNeeded (k : Core) (b : Buf) : Nat → Nat → Nat → Nat
  | 0, _, _ => 0
  | f + 1, n, runs =>
    if runs = 0 then 0
    else if n ≥ slotCount b || !(slotAt k b n).valid || slotBusy k b n 1 false then 1
    else 1 + slotsNeeded k b f (n + 1) (runs - (slotAt k b n).rows)

/-- The checks of the source slots of a copy from slots to global memory, over all the slots that its runs need (R25, R341). -/
def slotsToGlobal (b : Buf) (src : Word) (size0 runs : Nat) : M Unit := do
  let n := slotsNeeded (← get).myCore b 66 (src.toNat / 0x1000) runs
  rangesM ((upTo n).map fun i => ⟨b, src + wordOf (i * 0x1000), 1, false⟩)
  each (fun i => do
    let _ ← slotShape b (src.toNat / 0x1000 + i) (some size0)
    pure ()) (upTo n)

/-- The buffer checks of a copy. -/
def copyBuffers (d : CopyDesc) : M Unit := do
  let dst (n : Nat) : List SlotRange := match bufOfSpace d.dsp with
    | some b => [⟨b, d.dst, n, true⟩]
    | none => []
  match bufOfSpace d.ssp with
  | none => rangesM (dst (d.runs / d.rows))
  | some b =>
    if d.dsp == 0 then slotsToGlobal b d.src d.size0 d.runs
    else do
      rangesM (⟨b, d.src, d.size0, false⟩ :: dst d.size0)
      each (fun i => do
        let _ ← slotShape b (d.src.toNat / 0x1000 + i) none
        pure ()) (upTo d.size0)

/-! ### Global ranges at issue (R136, R141, R299) -/

/-- The core's earlier stores to an owner's bytes in the ranges have been acknowledged, or sent to the host (R136). -/
def awaitPosted (rs : List (Nat × Nat)) : M Unit := do
  modify fun s => emptyWc s s.me
  let s ← get
  let forwarded (va : Nat) : Bool := (attrSeen s s.me s.ctx.xlat va).any fun a => a.fwd != 0
  if (s.dev.posted.any (fun p => p.core == some s.me) || soBehind s s.me) && rs.any (fun r => (pagesOf r).any forwarded) then waitFor .other else pure ()

/-- The core's earlier operations at home are performed; the source's dirty bytes go home; the destination's lines go too and are
invalidated, whatever address they are held under (R81). -/
def copyRanges (src dst : List (Nat × Nat)) : M Unit := modify fun s =>
  let core := s.me
  let meets (rs : List (Nat × Nat)) (l : L1Line) : Bool := rs.any (l.inRange s core s.ctx.xlat)
  let s := drainAll s core
  let s := ((s.core core).l1.filter (meets src)).foldl (fun s l => writeBack s core l) s
  let s := ((s.core core).l1.filter (meets dst)).foldl (fun s l => expel s core l) s
  let pinned (r : Nat × Nat) : Bool := s.ctx.pin.any fun p => p.meets r.1 r.2
  if (src ++ dst).any pinned then dropPin s else s

/-- The global ranges of a copy's source and destination. -/
def CopyDesc.globals (d : CopyDesc) : List (Nat × Nat) × List (Nat × Nat) :=
  let runs (on : Bool) (base : Word) (off : Nat → Word) : List (Nat × Nat) :=
    if on then (upTo d.runs).map fun r => ((base + off r).toNat, d.size0) else []
  (runs (d.ssp == 0) d.src fun r => (d.offsets r).1, runs (d.dsp == 0) d.dst fun r => (d.offsets r).2)

/-- The 257th operation of a core's engine waits (R344). -/
def engineRoom : M Unit := do
  modify fun s => settleEngine s s.me
  let k := (← get).myCore
  if k.engine.length ≥ 256 then waitFor .other else pure ()

/-- The next issue number of the context (R346). -/
def nextIssue : M Nat := do
  let n := (← get).ctx.issued + 1
  modify fun s => s.modCtx fun c => { c with issued := n }
  pure n

/-- The start of an engine operation is traced (R446). -/
def traceIssue : M Unit := modify fun s => trace s 3 { traceOf s s.me s.mycx with engine := 4 } s.ctx.pc

/-- Hand an operation to the engine. -/
def toEngine (o : EngineOp) : M Unit := do
  modify fun s => s.modMyCore fun k => { k with engine := k.engine ++ [o] }
  traceIssue

/-- Retire a copy: check its buffers, order its ranges, hand it over (R344). `ue` raises what a register holds uncorrected (R396). -/
def issueCopy (d : CopyDesc) (cell : Option Nat) (ue : M Unit) : M Fin' := do
  copyBuffers d
  ue
  engineRoom
  awaitPosted (d.globals.1 ++ d.globals.2)
  outTurn
  copyRanges d.globals.1 d.globals.2
  let seq ← nextIssue
  let s ← get
  toEngine (.copy ⟨s.mycx, seq, s.ctx.xlat, d, cell,
    { Progress.start (copyUnits d) with ranges := d.globals.1 ++ d.globals.2 }⟩)
  pure .fall

/-! ### The instructions (R343, R344) -/

/-- The 128 bytes of a descriptor, read as an ordinary load. -/
def readDesc (a : Word) : M (List Byte) := do
  alignM a 128
  let ps ← checkAccess a.toNat 128 .read
  loadOnce ps

/-- CPY (R340 to R344). -/
def execCpy (f : Frame) (r : FmtR) (s : State) : Out :=
  instr f (do
    forbidInRegion
    let a ← getG r.a.val
    let bs ← readDesc a
    let d := copyDescOf bs
    raiseIf (!d.ok) 0x21 a
    issueCopy d none (pure ())) s

/-- The descriptor of a CPYL: one run of any length. -/
def linearDesc (src dst : Word) (n : Nat) : CopyDesc := ⟨src, dst, 1, [n, 0, 0, 0, 0, 0], [0, 0, 0, 0, 0], [0, 0, 0, 0, 0]⟩

/-- CPYL (R343). A length of 0 moves nothing. -/
def execCpyl (f : Frame) (r : FmtR) (s : State) : Out :=
  instr f (do
    forbidInRegion
    let c ← getG r.c.val
    raiseIf (c.toNat > 2 ^ 40) 0x21 c
    let a ← peekG r.a.val
    let b ← peekG r.b.val
    let ue : M Unit := do
      needG r.a.val
      needG r.b.val
    if c == 0 then do
      ue
      engineRoom
      let _ ← nextIssue
      pure .fall
    else issueCopy (linearDesc b a c.toNat) none ue) s

/-- CPYC (R343). CPYDESC comes before CELLARG, and CELLARG before every other fault of reading the descriptor (R396). -/
def execCpyc (f : Frame) (r : FmtR) (s : State) : Out :=
  instr f (do
    forbidInRegion
    let a ← getG r.a.val
    let b ← peekG r.b.val
    let x ← attempt (readDesc a)
    match x with
    | .error (.fault e) => do
      let _ ← cellM b false
      throw (.fault e)
    | .error e => throw e
    | .ok bs => do
      let d := copyDescOf bs
      raiseIf (!d.ok) 0x21 a
      let _ ← cellM b false
      issueCopy d (some (b.toNat % 2 ^ 16)) (needG r.b.val)) s

/-! ### COLL (R141, R347, R348) -/

/-- The fields of a collective descriptor, as the caller issues it. -/
def collOf (s : State) (seq : Nat) (bs : List Byte) : Coll where
  cx := s.mycx
  seq := seq
  xlat := s.ctx.xlat
  nfm := bitOf s.ctx.corectl 0
  src := wordOf (descNat bs 0 8)
  dst := wordOf (descNat bs 8 8)
  ctl := wordOf (descNat bs 0x10 8)
  count := descNat bs 0x18 8
  cores := BitVec.ofNat 128 (descNat bs 0x20 16)
  nth := 0
  stage := .waiting
  share := ⟨s.me, [], []⟩
  got := []
  prog := Progress.start 0

/-- No descriptor error (R347). -/
def Coll.ok (c : Coll) (core : Nat) (bs : List Byte) : Bool :=
  let fmtOk := match fmtOf c.fmt with
    | some f => c.reduces && (f == .f32 || f == .bf16 || f == .f16 || f == .i32) && c.count % f.bytes == 0
    | none => !c.reduces && c.fmt == 0
  (c.ctl &&& (maskOf 48 16 ||| maskOf 31 1 ||| maskOf 19 5 ||| maskOf 3 1)) == 0 && descNat bs 0x30 80 == 0 &&
  c.op ≤ 3 && c.rop ≤ 2 && c.rnd ≤ 3 && fmtOk && 1 ≤ c.count && c.count ≤ 2 ^ 32 &&
  c.cores.getLsbD core && c.cores.getLsbD c.root &&
  (!c.reduces || (c.dsp == 0 && (c.ssp == 0 || c.ssp == 3))) &&
  (c.ssp == 0 || (c.src.toNat % 0x1000 == 0 && c.count % 0x1000 == 0)) &&
  (c.dsp == 0 || (c.dst.toNat % 0x1000 == 0 && c.count % 0x1000 == 0))

/-- The slot ranges of a collective. -/
def Coll.slotRanges (c : Coll) : List SlotRange :=
  let range (sp : Nat) (off : Word) (n : Nat) (w : Bool) : List SlotRange := match bufOfSpace sp with
    | some b => [⟨b, off, n, w⟩]
    | none => []
  range c.ssp c.src (c.count / 0x1000) false ++ range c.dsp c.dst (c.outBytes / 0x1000) true

/-- Collectives of an identifier and a set of participants that the core has issued. -/
def collCount (k : Core) (key : Nat × BitVec 128) : Nat := ((k.colls.find? fun p => p.1 == key).map fun p => p.2.1).getD 0

/-- The global ranges of a collective's source and destination. -/
def Coll.globals (c : Coll) : List (Nat × Nat) × List (Nat × Nat) :=
  (if c.ssp == 0 then [(c.src.toNat, c.count)] else [], if c.dsp == 0 then [(c.dst.toNat, c.outBytes)] else [])

/-- Enter a collective: it is counted, and a withdrawal mark for its identifier ends it at once (R348). -/
def enterColl (c : Coll) : M Unit := modify fun s =>
  let core := s.me
  let key := (c.id, c.cores)
  let n := collCount s.myCore key + 1
  let sends := c.senders.contains core
  let c := { c with
    nth := n
    stage := if sends then .reading else .waiting
    prog := { Progress.start (if sends then c.srcUnits else 0) with ranges := c.globals.1 ++ c.globals.2 } }
  let marked := s.myCore.withdrawn.any fun m => m.1 == c.id
  let s := s.modMyCore fun k => { k with
    engine := k.engine ++ [.coll c]
    colls := (key, n, c.asid) :: k.colls.filter fun p => p.1 != key
    withdrawn := k.withdrawn.eraseP fun m => m.1 == c.id }
  if marked then engineStop s core (s.myCore.engine.length - 1) 0x45 0 else s

/-- BUFSHAPE of the source slots of a collective that the core contributes (R30, R347). -/
def collShapes (c : Coll) (core : Nat) : M Unit :=
  match bufOfSpace c.ssp with
  | some b =>
    if c.senders.contains core then
      each (fun i => do
        let _ ← slotShape b (c.src.toNat / 0x1000 + i) none
        pure ()) (upTo (c.count / 0x1000))
    else pure ()
  | none => pure ()

/-- COLL (R347). A second collective of an identifier waits at issue. The lines of its destination are handled at issue as R136 handles those
of a copy, where R141 names the source alone (log entry 56). -/
def execColl (f : Frame) (r : FmtR) (s : State) : Out :=
  instr f (do
    forbidInRegion
    let a ← getG r.a.val
    let bs ← readDesc a
    let s ← get
    let c := collOf s (s.ctx.issued + 1) bs
    raiseIf (!(c.ok s.me bs)) 0x21 a
    rangesM c.slotRanges
    collShapes c s.me
    engineRoom
    let s ← get
    if (collIndex s.myCore c.id).isSome then waitFor .other
    awaitPosted (c.globals.1 ++ c.globals.2)
    outTurn
    copyRanges c.globals.1 c.globals.2
    let _ ← nextIssue
    enterColl c
    traceIssue
    pure .fall) s

end Sys2Proof.Machine
end

