-- ==== Sys2Proof/Machine/EventsMem.lean ====
section
/-!
DEFINITION. The device events of contexts' boundaries, regions, home slices, memory controllers, translation, owners and errors (R46, R52
to R72, R77, R88 to R103, R107, R108, R130, R132, R144 to R154, R401, R409 to R412).
-/
namespace Sys2Proof.Machine

/-! ### Boundaries and regions -/

/-- EVENT_ENTRY (R401): at a boundary, or at a blocking wait. -/
def execEventEntry (c : CtxId) (s : State) : Out :=
  .next (if coreActive s c.core.val && !isStopped (s.core c.core.val) c.cx.val && !(paused (s.core c.core.val) c.cx.val) then
      takeEvent s c.core.val c.cx.val
    else s)

/-- REGION_ABORT (R154): a pending abort, or an empty interval, at a boundary. -/
def execRegionAbort (c : CtxId) (s : State) : Out :=
  let core := c.core.val
  let cx := c.cx.val
  let x := s.ctxAt core cx
  .next (if !coreActive s core || paused (s.core core) cx || !x.regionOpen || x.commit.isSome then s
    else match x.abort with
      | some (cause, code, fcode) => regionAbortNow s core cx cause code fcode
      | none => if x.intervalEmpty then regionAbortNow s core cx 1 0 0 else s)

/-- The attributes of an address for a context: the L1 line that holds it, else the translation. -/
def attrNow (s : State) (core cx va : Nat) (acc : Access) : Option Attr × State :=
  let c := s.ctxAt core cx
  match l1Find s core c.asid va with
  | some l => if l.allows acc c.mode then (some (l.attr va), s) else
      (match translate s (sorusOf core) c.xlat va acc false with
        | (.ok a, s) => (some a, s)
        | (.error _, s) => (none, s))
  | none => if !canonical va then (none, s) else
      (match translate s (sorusOf core) c.xlat va acc false with
        | (.ok a, s) => (some a, s)
        | (.error _, s) => (none, s))

/-- REGION_REGISTRATION (R148 to R151): a line that the open region does not hold yet, while its interval is not empty
(R429); a cause of an abort is left pending. It stands for a registration that reaches the slice before its access has its data, so the
access registers again. -/
def execRegionRegistration (c : CtxId) (va : Word) (write : Bool) (s : State) : Out :=
  let core := c.core.val
  let cx := c.cx.val
  let x := s.ctxAt core cx
  .next (if !coreActive s core || paused (s.core core) cx || !x.regionOpen || x.commit.isSome || x.intervalEmpty then s
    else match attrNow s core cx va.toNat (if write then .write else .read) with
      | (none, s) => s
      | (some a, s) =>
        if a.kind == 2 || !a.c || a.fwd != 0 || x.holdsLine (lineOf a.pa) write || flitHeld s core a.pa then s
        else match touchLine s core cx va.toNat a write with
          | (none, s) => s.modCtxAt core cx fun c => { c with early := (lineOf a.pa, write) :: c.early }
          | (some cause, s) => abortRegion s core cx cause)

/-- NARROWING_MESSAGE (R150): the n-th on its way. -/
def execNarrowingMessage (n : Nat) (s : State) : Out :=
  .next (match s.dev.narrows[n]? with
    | none => s
    | some x => applyNarrow (s.modDev fun d => { d with narrows := d.narrows.eraseIdx n }) x)

/-- REGION_COMMIT_MESSAGE (R153). -/
def execRegionCommitMessage (c : CtxId) (slice : Fin 128) (s : State) : Out :=
  .next (commitSlice s c.core.val c.cx.val slice.val)

/-- REGION_COMMIT_ACK (R153): the first acknowledgement that no relock holds on a bridge comes; RGEND retires once the last has come. -/
def execRegionCommitAck (c : CtxId) (s : State) : Out :=
  .next (s.modCtxAt c.core.val c.cx.val fun x =>
    { x with commit := x.commit.map fun k => { k with acks := k.acks.eraseP fun n => !(bridgeHeld s c.core.val n) } })

/-! ### Home slices -/

/-- The pending operations of a core that home has not performed, oldest first. -/
def pendingOps (k : Core) : List HomeOp := (k.nonRet.map fun n => n.ops).flatten

/-- Perform the oldest pending operation of a core on a line. -/
def performOldest (s : State) (core line : Nat) : State :=
  match (pendingOps (s.core core)).find? fun o => o.line == line with
  | none => s
  | some op =>
    let rec drop : List NonReturning → List NonReturning
      | [] => []
      | n :: t => if n.ops.any fun o => o.line == line then { n with ops := n.ops.eraseP fun o => o.line == line } :: t else n :: drop t
    performHomeOp (s.modCore core fun k => { k with nonRet := drop k.nonRet }) op

/-- HOME_ATOMIC (R130): the oldest operation of a core on the line of its n-th pending one is performed. -/
def execHomeAtomic (core : Fin 128) (n : Nat) (s : State) : Out :=
  .next (match (pendingOps (s.core core.val))[n]? with
    | none => s
    | some o => performOldest s core.val o.line)

/-- Can a peer answer an operation: is it outstanding at a port whose link leads to that peer now (R144)? -/
def answerable (s : State) (id : Nat) : Bool :=
  s.dev.ports.any fun p => p.2.up && (tget p.2.partners p.2.peer Partner.reset).outstanding.any fun r => r.id == id

/-- An operation at a peer is answered: it leaves its port. -/
def forgetRemote (s : State) (id : Nat) : State :=
  let partner (q : Nat × Partner) : Nat × Partner := (q.1, { q.2 with outstanding := q.2.outstanding.filter fun r => r.id != id })
  pumpPeers (s.modDev fun d => { d with
    ports := d.ports.map fun p => (p.1, { p.2 with partners := p.2.partners.map partner }), refused := d.refused.filter fun i => i != id })

/-- The operations that the ports have outstanding. -/
def outstandingOps (s : State) : List Remote :=
  (s.dev.ports.map fun p => (p.2.partners.map fun q => q.2.outstanding).flatten).flatten

/-- REDUCTION_ACK (R132, R144): the oldest operation that home has performed, or that a peer can answer; a peer acknowledges one of its
parts at a time, or refuses it, which raises FWDLOST (R93). -/
def execReductionAck (core : Fin 128) (s : State) : Out :=
  .next (match (s.core core.val).nonRet.find? fun n => n.ops.isEmpty && (n.remote.isEmpty || n.remote.any (answerable s)) with
    | none => s
    | some n =>
      let done (s : State) : State :=
        n.samples.foldl (writeSample core.val) (s.modCore core.val fun k => { k with nonRet := k.nonRet.erase n })
      match n.remote.find? (answerable s) with
      | none => done s
      | some id =>
        let refused := s.dev.refused.contains id
        let n' := { n with remote := n.remote.erase id }
        let s := sampleBack (forgetRemote s id) core.val id
        let s := if n'.remote.isEmpty then done s else s.modCore core.val fun k => { k with nonRet := k.nonRet.replace n n' }
        if refused then postRoot s 0x63 0 else s)

/-- HOME_FILL (R45, R52, R55): an address of a cacheable page is filled into the L1 of a context's core. -/
def execHomeFill (c : CtxId) (va : Word) (s : State) : Out :=
  let core := c.core.val
  let cx := c.cx.val
  .next (if !coreActive s core then s
    else match attrNow s core cx va.toNat .read with
      | (none, s) => s
      | (some a, s) =>
        if a.kind == 2 || !a.c || a.fwd != 0 || flitHeld s core a.pa then s
        else match l1Find s core (s.ctxAt core cx).asid va.toNat with
          | some l => if l.spec.isSome then s else fillLine s core (s.ctxAt core cx).asid va.toNat a 0 (s.ctxAt core cx).regionOpen
          | none =>
            let (stop, s) := makeRoom s core cx (s.ctxAt core cx).regionOpen va.toNat
            if stop then abortRegion s core cx 3 else fillLine s core (s.ctxAt core cx).asid va.toNat a 0 (s.ctxAt core cx).regionOpen)

/-- HOME_WRITEBACK (R46, R47): the n-th line of a core's L1, which an eviction also drops. A SPEC line stays. -/
def execHomeWriteback (core : Fin 128) (n : Nat) (evict : Bool) (s : State) : Out :=
  .next (match (s.core core.val).l1[n]? with
    | none => s
    | some l =>
      if l.spec.isSome then s
      else
        if evict then evictLine s core.val l else writeBack s core.val l)

/-- HOME_STORE (R107, R111): the n-th entry of a core's write-combining buffer is performed at home. -/
def execHomeStore (core : Fin 128) (n : Nat) (s : State) : Out :=
  .next (match (s.core core.val).wc[n]? with
    | none => s
    | some w => sendWcLine s core.val w)

/-- REPLICA_REQUEST (R54): the core's own slice takes a replica of a line that its L1 evicted clean, where its set has an invalid way or
one with a replica. The request waits while home invalidates the line's replicas (R56). -/
def execReplicaRequest (core : Fin 128) (line : Nat) (s : State) : Out :=
  let own := core.val
  let line := lineOf line
  let home := homeOf line
  let ways := l2Ways (s.slice own) line
  let isHome (t : L2Tag) : Bool := !t.rcopy
  .next (if !(s.core own).victims.contains line || (s.slice home).inval.any (fun p => p.1 == line) then s
    else
      let s := s.modCore own fun k => { k with victims := k.victims.filter (· != line) }
      if (ways.filter isHome).length ≥ 16 || ways.any (fun t => t.line == line) then s
      else
        let (_, s) := homeRead s line 64
        let s := s.modSlice home fun k => { k with tags := k.tags.map fun t =>
          if t.line == line && !t.rcopy then { t with repl := true } else t }
        let (victim, s) := anyOf s (if ways.length ≥ 16 then ways.filter fun t => t.rcopy else [])
        let s := match victim with
          | some v => dropWay s own v
          | none => s
        s.modSlice own fun k => { k with tags := ⟨line, false, false, true⟩ :: k.tags })

/-- REPLICA_INVALIDATION (R56): a slice drops its replica and acknowledges. -/
def execReplicaInvalidation (slice : Fin 128) (line : Nat) (s : State) : Out :=
  let line := lineOf line
  let s := s.modSlice slice.val fun k => { k with tags := k.tags.filter fun t => !(t.rcopy && t.line == line) }
  .next (s.modSlice (homeOf line) fun k => { k with inval := k.inval.map fun p =>
    if p.1 == line then (p.1, p.2.filter fun n => n != slice.val) else p })

/-- REPLICA_INVALIDATION_ACKNOWLEDGEMENT (R56): the last one clears REPL. -/
def execReplicaInvalidationAcknowledgement (slice : Fin 128) (line : Nat) (s : State) : Out :=
  let line := lineOf line
  .next (if (s.slice slice.val).inval.any fun p => p.1 == line && p.2.isEmpty then
      s.modSlice slice.val fun k => { k with
        inval := k.inval.filter fun p => p.1 != line
        tags := k.tags.map fun t => if t.line == line && !t.rcopy then { t with repl := false } else t }
    else s)

/-! ### Memory controllers -/

/-- RD32 (R62). -/
def execRd32 (st : Fin 8) (q : MemReq) (s : State) : Out := .next (sendRequest s st.val .rd32 q)
/-- RD64 (R62). -/
def execRd64 (st : Fin 8) (q : MemReq) (s : State) : Out := .next (sendRequest s st.val .rd64 q)
/-- WRT32 (R62). -/
def execWrt32 (st : Fin 8) (q : MemReq) (s : State) : Out := .next (sendRequest s st.val .wrt32 q)
/-- WRT64 (R62). -/
def execWrt64 (st : Fin 8) (q : MemReq) (s : State) : Out := .next (sendRequest s st.val .wrt64 q)
/-- WRTM (R66). -/
def execWrtm (st : Fin 8) (q : MemReq) (s : State) : Out := .next (sendRequest s st.val .wrtm q)

/-- IT_READ (R100). -/
def execItRead (st : Fin 8) (q : ItReq) (s : State) : Out := .next (sendOp s st.val (.table 0 false q))
/-- IT_MOVE (R101). -/
def execItMove (st : Fin 8) (q : ItReq) (s : State) : Out := .next (sendOp s st.val (.table 1 false q))
/-- IT_MOVE_RETIRE (R101). -/
def execItMoveRetire (st : Fin 8) (q : ItReq) (s : State) : Out := .next (sendOp s st.val (.table 2 false q))
/-- MOVE_LINE_COPY (R101). -/
def execMoveLineCopy (st : Fin 8) (n : Nat) (s : State) : Out := .next (moveLine s st.val n)

/-- READ_DATA (R63). -/
def execReadData (st : Fin 8) (n : Nat) (s : State) : Out := .next (deliverReply s st.val n 0)
/-- WRITE_ACKNOWLEDGEMENT (R63). -/
def execWriteAcknowledgement (st : Fin 8) (n : Nat) (s : State) : Out := .next (deliverReply s st.val n 1)
/-- ERROR_REPLY (R63). -/
def execErrorReply (st : Fin 8) (n : Nat) (s : State) : Out := .next (deliverReply s st.val n 7)

/-- RETREQ_READ (R439). -/
def execRetreqRead (st : Fin 8) (s : State) : Out := .next (readRetreq s st.val).2

/-- REFRESH_DUE (R68, R69). -/
def execRefreshDue (st : Fin 8) (pc : Fin 64) (s : State) : Out := .next (refreshFallsDue s st.val pc.val)
/-- REFRESH_DONE (R68, R69). -/
def execRefreshDone (st : Fin 8) (pc : Fin 64) (bank : Fin 64) (s : State) : Out := .next (refreshEnds s st.val pc.val bank.val)
/-- BANK_IDLE_TIMEOUT (R69). -/
def execBankIdleTimeout (st : Fin 8) (pc : Fin 64) (bank : Fin 64) (s : State) : Out :=
  .next (bankIdle s st.val (64 * pc.val + bank.val))

/-- Requests that waited through a memory step are sent, slice by slice, as tags allow (R64, R71). -/
def resumeRequests (s : State) : State :=
  (s.slices.map fun p => p.1).foldl (fun s sl =>
    (upTo 8).foldl (fun s st => sendWaiting (s.slice sl).missq.length s sl st) s) s

/-- Are the slices' tags all free (R71)? A move holds the tag of its operation. -/
def tagsFree (s : State) : Bool := s.slices.all fun p => p.2.sent.isEmpty

/-- RETRAIN_DONE (R71, R72): once the slices' tags are free the controllers refresh, retrain and resume, the core clocks step, and the
boundary's phase is current (R375). -/
def execRetrainDone (s : State) : Out :=
  .next (if !s.dev.retraining || !tagsFree s then s
    else
      let held := s.dev.clkHeld
      let s := resumeRequests ((refreshAll s).modDev fun d => { d with retraining := false, clkHeld := none })
      match held with
      | some (w, ungated) => makePhaseCurrent (stepClocks s w ungated)
      | none => s)

/-- RELOCK_HOLD_END (R59, R432). -/
def execRelockHoldEnd (die : Fin 2) (s : State) : Out :=
  .next (endHold s die.val)

/-! ### Translation -/

/-- PAGE_TABLE_WALK (R77, R80): a context's address is walked to its end. -/
def execPageTableWalk (c : CtxId) (va : Word) (s : State) : Out :=
  let x := s.ctxAt c.core.val c.cx.val
  .next (if canonical va.toNat && coreActive s c.core.val then
      (translate s (sorusOf c.core.val) x.xlat va.toNat .read false).2
    else s)

/-- The engine operations of a core that wait for a page response take it (R97). -/
def answerEngines (s : State) (core asid page : Nat) (f : Fired) : State :=
  let take (o : EngineOp) : EngineOp := match o.prog.ask with
    | some (.page p none) =>
      if p == page && fieldOf o.xlat.ptroot 0 12 == asid then o.setProg { o.prog with ask := some (.page p (some f)) } else o
    | _ => o
  s.modCore core fun k => { k with engine := k.engine.map take }

/-- The n-th page request is answered. -/
def pageResponse (s : State) (n : Nat) (f : Fired) : State :=
  match s.dev.pageReqs[n]? with
  | none => s
  | some q =>
    let s := s.modDev fun d => { d with pageReqs := d.pageReqs.eraseIdx n }
    q.who.foldl (fun s w =>
      if w.2 ≥ 2 then answerEngines s w.1 q.asid q.va f
      else
        let keep (c : Ctx) : Ctx := if c.wait.isSome then { c with pageGot := (q.va, f) :: c.pageGot } else c
        fireWho (s.modCtxAt w.1 w.2 keep) ⟨w.1, w.2, none⟩ (fun k => k == .pageReq q.va) f) s

/-- PAGE_RESPONSE_SUCCESS (R97). -/
def execPageResponseSuccess (n : Nat) (s : State) : Out := .next (pageResponse s n .pageOk)
/-- PAGE_RESPONSE_INVALID (R97). -/
def execPageResponseInvalid (n : Nat) (s : State) : Out := .next (pageResponse s n .pageInvalid)
/-- PAGE_RESPONSE_FAILURE (R97): page requests stop device-wide. -/
def execPageResponseFailure (n : Nat) (s : State) : Out :=
  .next (if (s.dev.pageReqs[n]?).isNone then s else (pageResponse s n .pageFail).modDev fun d => { d with pageOn := false })
/-- PAGE_REQUESTS_ENABLED (R97). -/
def execPageRequestsEnabled (s : State) : Out := .next (s.modDev fun d => { d with pageOn := true })

/-- A write to the host that has waited for a translation takes it (R91). -/
def Posted.translate (p : Posted) (q : AtsReq) (frame : Nat) : Posted :=
  if p.ats = some q then { p with addr := frame * 4096 + (p.addr - q.va), tag := { p.tag with translated := true }, ats := none } else p

/-- ATS_TRANSLATION_COMPLETION (R91): the n-th Translation Request of a sorus is answered with the host frame. The TLB entry that asked keeps
it, if it still stands, and the writes that wait for it take it. -/
def execAtsTranslationCompletion (sorus : Fin 16) (n frame : Nat) (s : State) : Out :=
  .next (match (s.dev.atsReqs.filter fun q => q.sorus == sorus.val)[n]? with
    | none => s
    | some q =>
      let take (e : TlbEntry) : TlbEntry :=
        if e.asid == q.asid && e.va == q.va && fieldOf e.leaf 54 2 == 1 then { e with ats := some (wordOf (frame * 4096)) } else e
      (s.modSorus sorus.val fun k => { k with tlb := k.tlb.map take }).modDev fun d =>
        { d with atsReqs := d.atsReqs.erase q, posted := d.posted.map fun p => p.translate q frame })

/-- Messages to the host that are issued and not completed, with the parts of SO stores that will go under a translation they have. -/
def hostMessages (s : State) : List Nat :=
  (s.dev.forwarded.filter fun w => w.owner == 0).map (fun w => w.id) ++ (s.dev.posted.filter fun p => p.owner == 0).map (fun p => p.id) ++
    (s.cores.map fun p => (p.2.soParts.filter fun e => e.a.fwd == 1 && e.tag.translated).map fun e => e.id).flatten

/-- Combined lines that hold a translation of the host leave at once: no later request may use it (R91). -/
def sendTranslated (s : State) : State :=
  (s.cores.map fun p => p.1).foldl (fun s c =>
    ((s.core c).wc.filter fun w => w.fwd.any fun f => f.tag.translated).foldl (fun s w => sendWcLine s c w) s) s

/-- A message to the host is complete: invalidations that waited for it alone complete, each with an answer (R91). -/
def hostDone (s : State) (id : Nat) : State :=
  let left := s.dev.atsInv.map fun l => l.filter fun i => i != id
  s.modDev fun d => { d with
    atsInv := left.filter fun l => !l.isEmpty
    answers := d.answers ++ (left.filter fun l => l.isEmpty).map fun _ => [] }

/-- ATS_INVALIDATE_REQUEST (R91): translations of an ASID's page go; the completion waits for the requests already issued. -/
def execAtsInvalidateRequest (asid : Nat) (va : Word) (s : State) : Out :=
  let s := sendTranslated s
  let hit (e : TlbEntry) : Bool := (e.asid == asid || bitOf e.leaf 10) && fieldOf e.leaf 54 2 == 1 && va.toNat / 2 ^ e.size == e.va / 2 ^ e.size
  let s : State := { s with sori := s.sori.map fun p =>
    (p.1, { p.2 with tlb := p.2.tlb.map fun e => if hit e then { e with ats := none } else e }) }
  let ids := hostMessages s
  .next (s.modDev fun d =>
    if ids.isEmpty then { d with answers := d.answers ++ [[]] } else { d with atsInv := d.atsInv ++ [ids] })

/-! ### Owners -/

/-- The engine operation that waits for a line takes it, or learns that the owner answered with an error. -/
def answerLine (s : State) (core id : Nat) (err : Bool) (bytes : List Byte) : State :=
  let take (o : EngineOp) : EngineOp := match o.prog.ask with
    | some (.line i unit) =>
      if i != id then o
      else if err then o.setProg { o.prog with ask := some .lost }
      else o.setProg { o.prog with ask := none, got := (unit, bytes) :: o.prog.got }
    | _ => o
  s.modCore core fun k => { k with engine := k.engine.map take }

/-- A posted write has been acknowledged, or sent to the host: it leaves the counts of its core and its engine operation. -/
def postGone (s : State) (p : Posted) : State :=
  let s := s.modDev fun d => { d with posted := d.posted.filter fun q => q.id != p.id }
  let s : State := { s with cores := s.cores.map fun c => (c.1, { c.2 with
    posted := (c.2.posted.map fun l => l.filter fun i => i != p.id).filter fun l => !l.isEmpty
    engine := c.2.engine.map fun o => o.setProg { o.prog with posts := o.prog.posts.filter fun i => i != p.id } }) }
  let s := if p.owner == 0 then hostDone s p.id else s
  match p.core with
  | some c => sendSo (s.core c).soParts.length s c
  | none => s

/-- The answer to a forwarded access reaches who waits for it. -/
def answerForward (s : State) (w : Forwarded) (err : Bool) (bytes : List Byte) : State :=
  let s := sampleBack (hostDone s w.id) w.who.core w.id
  if w.who.cx ≥ 2 then answerLine s w.who.core w.id err bytes
  else
    let kind (k : WaitKind) : Bool := k == .forward w.id || k == .remote w.id
    if err then fireWho s w.who kind .fwdFail
    else
      let waits (c : Ctx) : Bool := match c.wait with
        | some x => kind x.kind
        | none => false
      let s := if w.who.slot.isSome then s else s.modCtxAt w.who.core w.who.cx fun c =>
        if waits c then { c with fwdGot := (answerKey w.addr w.n, bytes) :: c.fwdGot } else c
      fireWho s w.who kind (.value 0)

/-- May a posted write leave: the messages that it follows are gone (R374), but for those to the host that stand before it in order, and it
waits for no translation (R91)? -/
def Posted.ready (p : Posted) (s : State) : Bool :=
  p.ats.isNone && !(p.after.any fun i => s.dev.posted.any fun q => q.id == i && (p.owner != 0 || q.owner != 0))

/-- Can an owner answer a message: a link leads to the peer (R90), and no write posted to the host before it is still to be sent (R123)? -/
def ownerReached (s : State) (owner id : Nat) : Bool :=
  if owner == 0 then !s.dev.posted.any fun p => p.owner == 0 && p.id < id && p.ready s
  else (portTo s (owner - 1)).isSome

/-- FORWARDED_COMPLETION (R93): an owner answers the n-th forwarded request; the numbers after them are the writes posted to peers, which
an owner acknowledges or refuses. -/
def execForwardedCompletion (n : Nat) (err : Bool) (bytes : List Byte) (s : State) : Out :=
  .next (match s.dev.forwarded[n]? with
    | some w => if !ownerReached s w.owner w.id then s else answerForward (s.modDev fun d => { d with forwarded := d.forwarded.eraseIdx n }) w err bytes
    | none =>
      match (s.dev.posted.filter fun p => p.owner != 0)[n - s.dev.forwarded.length]? with
      | none => s
      | some p =>
        if !ownerReached s p.owner p.id || !(p.ready s) then s
        else
        let s := postGone s p
        if err then postRoot s 0x63 0 else s)

/-- The address of a remote operation. -/
def RemoteOp'.pa (op : RemoteOp) : Nat :=
  match op with
  | .read pa _ | .write pa _ | .atomic _ _ pa _ _ | .exactAdd pa _ _ _ | .exactRead pa _ _ | .exactClear pa => pa

/-- RETURNING_OPERATION_REPLY (R132, R144): the value and the flags that a peer returns are free; its error is FWDFAIL (R93). -/
def execReturningOperationReply (c : CtxId) (s : State) : Out :=
  let core := c.core.val
  let cx := c.cx.val
  .next (match (s.ctxAt core cx).wait with
    | some ⟨.remote id, _, none⟩ =>
      match (outstandingOps s).find? fun r => r.id == id && answerable s id with
      | none => s
      | some r =>
        let refused := s.dev.refused.contains id
        let s := sampleBack (forgetRemote s id) core id
        if refused then fireWho s ⟨core, cx, none⟩ (fun k => k == .remote id) .fwdFail else
        let (v, s) := s.free
        let (f, s) := s.free
        let s := s.modCtxAt core cx fun x => { x with fwdGot := (RemoteOp'.pa r.op, leBytes 8 v.toNat ++ [byteOf f 0]) :: x.fwdGot }
        fireWho s ⟨core, cx, none⟩ (fun k => k == .remote id) (.value 0)
    | _ => s)

/-- MIGRATION_HINT (R94, R95): the n-th entry of a TLB reaches the threshold. -/
def execMigrationHint (sorus : Fin 16) (n : Nat) (s : State) : Out :=
  let d := s.dev
  let thresh := max 1 (fieldOf d.mhcfg 8 8)
  .next (match (s.sorus sorus.val).tlb[n]? with
    | none => s
    | some e =>
      if !bitOf d.mhcfg 0 || fieldOf e.leaf 54 2 == 0 || !bitOf e.leaf 53 || e.reads + e.writes < thresh then s
      else
        let s := s.modSorus sorus.val fun k => { k with tlb := k.tlb.set n { e with reads := 0, writes := 0 } }
        let size := 2 ^ (fieldOf d.mhbase 0 3 + 8)
        let prod := fieldOf d.mhidx 0 16 % size
        if (prod + 1) % size == fieldOf d.mhidx 16 16 % size then
          s.modDev fun d => { d with mhidx := mergeMask (maskOf 32 16) (atBit 32 (min (fieldOf d.mhidx 32 16 + 1) 0xFFFF)) d.mhidx }
        else
          let w0 := atBit 62 (fieldOf e.leaf 56 2) ||| atBit 60 (fieldOf e.leaf 54 2) ||| atBit 57 (sizeCode e.size) ||| atBit 45 e.asid |||
            wordOf (e.va / 4096 % 2 ^ 45)
          let w1 := atBit 32 sorus.val ||| atBit 16 e.writes ||| wordOf e.reads
          let s := homeStore s (fieldOf d.mhbase 12 40 * 4096 + prod * 16) (leBytes 8 w0.toNat ++ leBytes 8 w1.toNat)
          s.modDev fun d => { d with mhidx := mergeMask (maskOf 0 16) (wordOf ((prod + 1) % size)) d.mhidx })

/-- DIRTY_LOG_MERGE (R88): at 512 waiting entries the agent merges them. -/
def execDirtyLogMerge (core : Fin 128) (s : State) : Out :=
  .next (if logWaiting (s.core core.val) ≥ 512 then mergeN s core.val 512 else s)

/-! ### The Wenpen links (R144 to R146) -/

/-- Would a read of a peer's operation meet a poisoned granule (R411)? It is answered with an error. -/
def RemoteOp'.poisoned (s : State) (op : RemoteOp) : Bool :=
  match op with
  | .read pa n => (firstPoison s pa n).isSome
  | .atomic _ w32 pa _ _ => (firstPoison s pa (widthOf w32 / 8)).isSome
  | .exactAdd pa _ _ _ | .exactRead pa _ _ => (firstPoison s pa 64).isSome
  | .write .. | .exactClear .. => false

/-- Perform a peer's operation at home: its answer. -/
def performRemote (s : State) (op : RemoteOp) : List Byte × State :=
  match op with
  | .read pa n => homeRead s pa n
  | .write pa bs => ([], homeStore s pa bs)
  | .atomic op w32 pa b c =>
    let (o, s) := homeAtomic s op w32 pa b c
    (leBytes 8 o, s)
  | .exactAdd pa f ext v => ([], performHomeOp s (.exactAdd f ext pa v.toNat))
  | .exactRead pa t rnd =>
    let s := fetchHome s (lineOf pa)
    let (v, f) := exactValue (exactAt s pa)
    let (e, g) := (cellFmt t).encode false rnd 0 false v
    (leBytes 8 e ++ leBytes 1 (f ||| g).toNat, s)
  | .exactClear pa => ([], performHomeOp s (.exactClear pa))

/-- Is an operation one that takes a tag (R144)? -/
def tagged (op : RemoteOp) : Bool :=
  match op with
  | .read .. | .write .. => false
  | _ => true

/-- WENPEN_REMOTE_ACCESS (R145, R146): a tag in the table is answered from it; an address that is no memory is answered with an error. -/
def execWenpenRemoteAccess (port : Fin 4) (tag : BitVec 16) (op : RemoteOp) (s : State) : Out :=
  let peer := (portAt s port.val).peer
  let x := partnerAt s port.val peer
  let say (s : State) (bs : List Byte) : State := s.modDev fun d => { d with answers := d.answers ++ [bs] }
  .next (if !(portAt s port.val).up then s
    else match (if tagged op then x.results.find? fun r => r.1 == tag.toNat else none) with
    | some r => say s r.2
    | none =>
      if (hbmOf s (RemoteOp'.pa op)).isNone then say s []
      else if RemoteOp'.poisoned s op then say (fetchHome s (lineOf (RemoteOp'.pa op))) []
      else
        let (bs, s) := performRemote s op
        let s := if tagged op then setPartner s port.val peer { x with results := ((tag.toNat, bs) :: x.results).take 64 } else s
        say s bs)

/-- WENPEN_RESEND (R145): the operations that have no answer go again under their tags; a port sends at most 64. -/
def execWenpenResend (port : Fin 4) (s : State) : Out :=
  let x := partnerAt s port.val (portAt s port.val).peer
  .next (s.modDev fun d => { d with resent := d.resent ++ (x.outstanding.take 64).map fun r => (port.val, r.tag) })

/-- LINK_RESET (R146): returning operations end with UNKNOWN; each of the others raises FWDLOST. -/
def execLinkReset (port : Fin 4) (s : State) : Out :=
  let peer := (portAt s port.val).peer
  let x := partnerAt s port.val peer
  let s := setPartner s port.val peer { x with outstanding := [], results := [] }
  let s := x.outstanding.foldl (fun s r =>
    if r.returns then fireWho s ⟨r.core, r.cx, none⟩ (fun k => k == .remote r.id) .unknown
    else (postRoot s 0x63 0).modCore r.core fun k => { k with
      nonRet := k.nonRet.map fun n => { n with remote := n.remote.filter fun i => i != r.id } }) s
  .next (fwEvent (pumpPeers s) 0x73 (wordOf port.val))

/-! ### The host link (R108, R451, R452, R456) -/

/-- The offset in device control space of an offset of BAR2: the first five blocks. -/
def barOff (off : Nat) : Option Nat := if off < 0x1400000 then some (off / 0x400000 * 2 ^ 32 + off % 0x400000) else none

/-- A word of the host-control page: the outbound windows. -/
def hostPageRead (s : State) (o : Nat) : Word :=
  if 0x1000 ≤ o && o < 0x1080 then
    let w := tget s.dev.windows ((o - 0x1000) / 16) ⟨0, 0, false⟩
    if o % 16 < 8 then w.base else w.size ||| wordOfBool w.lock
  else 0

/-- A write of the host-control page: 1 to bit 0 of its first word clears the boot counter (R456); a window that is not locked. -/
def hostPageWrite (s : State) (o : Nat) (v : Word) : State :=
  if o == 0 then if bitOf v 0 then s.modDev fun d => { d with fails := 0 } else s
  else if 0x1000 ≤ o && o < 0x1080 then
    let n := (o - 0x1000) / 16
    let w := tget s.dev.windows n ⟨0, 0, false⟩
    if w.lock then s
    else
      let w' : Window := if o % 16 < 8 then { w with base := v &&& maskOf 12 52 } else { w with size := v &&& maskOf 12 36, lock := bitOf v 0 }
      s.modDev fun d => { d with windows := tset d.windows n w' }
  else s

/-- A word of the pending-bit array of BAR4, which follows the table (R451, log entry 101). -/
def msixPba (d : Device) (n : Nat) : Word :=
  d.msixPending.foldl (fun w v => if v / 64 == n then w ||| atBit (v % 64) 1 else w) 0

/-- Pending messages of vectors that are no longer masked are sent. -/
def unmaskMsix (s : State) : State :=
  s.modDev fun d =>
    let (stay, go) := d.msixPending.partition (msixMasked d)
    { d with msixPending := stay, msix := d.msix ++ go.reverse }

/-- The host's accesses are answered with bytes, none where they fail. -/
def hostAccess (s : State) (a : HostAccess) : List Byte × State :=
  match a with
  | .memRead pa n => if (hbmOf s pa).isNone || (firstPoison s pa n).isSome then ([], s) else homeRead s pa n
  | .memWrite pa bs => if (hbmOf s pa).isNone then ([], s) else ([], homeStore s pa bs)
  | .bar0Read off => (leBytes 8 (if off - off % 8 == 0x200 then wordOfBool s.launch.hwake else 0).toNat, s)
  | .bar0Write off v => ([], if off - off % 8 == 0x200 then s.modLaunch fun l => { l with hwake := bitOf v 0 } else s)
  | .bar2Read off =>
    let off := off - off % 8
    if off ≥ 0x1FFE000 then (leBytes 8 (hostPageRead s (off - 0x1FFE000)).toNat, s)
    else match barOff off with
      | none => (leBytes 8 0, s)
      | some o => match devRead s .host o with
        | some (w, s) => (leBytes 8 w.toNat, s)
        | none => ([], s)
  | .bar2Write off v =>
    let off := off - off % 8
    if off ≥ 0x1FFE000 then ([], hostPageWrite s (off - 0x1FFE000) v)
    else match barOff off with
      | none => ([], s)
      | some o => ([], (devWriteBytes s .host o (leBytes 8 v.toNat)).getD s)
  | .msixRead off => (leBytes 8 (if off < 0x8000 then tget s.dev.msixTable (off / 8) 0 else msixPba s.dev (off / 8 - 0x1000)).toNat, s)
  | .msixWrite off v => ([], if off < 0x8000 then unmaskMsix (s.modDev fun d => { d with msixTable := tset d.msixTable (off / 8) v }) else s)

/-- HOST_LINK_ACCESS (R108, R451, R452). -/
def execHostLinkAccess (acc : HostAccess) (s : State) : Out :=
  let (bs, s) := hostAccess s acc
  .next (s.modDev fun d => { d with answers := d.answers ++ [bs] })

/-! ### Errors (R409 to R412) -/

/-- The regions and waiters of a side-array set end, and the firmware is told; the positions that its entries held go to the floor. -/
def sideLost (s : State) (slice set : Nat) : State :=
  let k := s.slice slice
  let bad (e : SideEntry) : Bool := sideSet e.line == set
  let ws := k.waits.filter fun w => sideSet w.line == set
  let s := (k.side.filter bad).foldl (fun s e => e.slots.foldl (fun s w => abortRegion s w.core w.cx 2) s) s
  let s := s.modSlice slice fun k => { k with
    floor := (k.side.filter bad).foldl (fun f e => wmax f (wmax e.wts e.rts)) k.floor
    side := k.side.filter fun e => !(bad e)
    waits := k.waits.filter fun w => sideSet w.line != set }
  let s := ws.foldl (fun s w => fireWho s w.who (WaitKind.onLine w.line) (.value 3)) s
  fwEvent s 0x71 (wordOf slice)

/-- UNCOREUE (R410). -/
def execUncoreue (slice : Fin 128) (set : Nat) (s : State) : Out := .next (sideLost s slice.val (set % 128))

/-- HARD_EVENT_LIMIT (R412). -/
def execHardEventLimit (sorus : Fin 16) (s : State) : Out :=
  .next (if (s.sorus sorus.val).hardEvents < 4 then s
    else postRoot (s.modSorus sorus.val fun k => { k with hardEvents := k.hardEvents - 4 }) 0x64 (wordOf sorus.val))

/-- Poison the granules of a line that hold bytes of a mask. -/
def poisonMask (s : State) (pa : Nat) (m : BitVec 64) : State :=
  let s := if m &&& byteMask 0 32 != 0 then setPoison s pa true else s
  if m &&& byteMask 32 32 != 0 then setPoison s (pa + 32) true else s

/-- An L1 line that holds an uncorrectable flip: clean, it goes; dirty, its bytes go home and are poisoned. A SPEC line's region aborts. -/
def l1Lost (s : State) (core va : Nat) : State :=
  match (s.core core).l1.find? fun l => l.va == lineOf va with
  | none => s
  | some l =>
    let s := expel s core l
    if l.spec.isNone then poisonMask s l.pa l.dirty else s

/-- The address of a DRAM granule whose line its home slice holds: a read of it is served there (R52). -/
def cachedGranule (s : State) (st g : Nat) : Option Nat :=
  ((s.slices.map fun p => (p.2.tags.filter fun t => !t.rcopy).map fun t => [t.line, t.line + 32]).flatten.flatten).find? fun pa =>
    granuleOf s pa == some (st, g)

/-- An uncorrectable flip in a scalar register: the checkpoint of a region holds it too while the register has not been written since RGBEGIN
(R147, R410). -/
def Ctx.damageReg (c : Ctx) (n : Nat) : Ctx :=
  { c with
    gue := c.gue ||| 1#64 <<< n
    ckpt := if c.gnew.getLsbD n then c.ckpt else c.ckpt.map fun k => { k with gue := k.gue ||| 1#64 <<< n } }

/-- An uncorrectable flip in a predicate register, likewise. -/
def Ctx.damagePred (c : Ctx) (n : Nat) : Ctx :=
  { c with
    pue := c.pue ||| 1#8 <<< n
    ckpt := if c.pnew.getLsbD n then c.ckpt else c.ckpt.map fun k => { k with pue := k.pue ||| 1#8 <<< n } }

/-- An uncorrectable flip (R410). -/
def flipNow (s : State) (site : ErrorSite) : State :=
  match site with
  | .scalar c r => s.modCtxAt c.core.val c.cx.val fun x => if r.val = 0 then x else x.damageReg r.val
  | .pred c r => s.modCtxAt c.core.val c.cx.val fun x => if r.val = 0 then x else x.damagePred r.val
  | .tile c t => s.modCtxAt c.core.val c.cx.val fun x =>
      let y := x.tile t.val
      if y.valid then x.damageTile t.val { y with ue := 0 :: y.ue } else x
  | .cortex c t word => s.modCtxAt c.core.val c.cx.val fun x =>
      let y := x.tile t.val
      if y.valid then x.damageTile t.val { y with ue := (0x1000 + 4 * word.val) :: y.ue } else x
  | .slot core b n off => s.modCore core.val fun k =>
      if n.val < slotCount b then
        let t := slotAt k b n.val
        putSlot k b n.val { t with ue := (off.val - off.val % 8) :: t.ue }
      else k
  | .slotCortex core b n word => s.modCore core.val fun k =>
      if n.val < slotCount b then
        let t := slotAt k b n.val
        putSlot k b n.val { t with ue := (0x1000 + 4 * word.val) :: t.ue }
      else k
  | .l1 core va => l1Lost s core.val va.toNat
  | .icache core line => s.modCore core.val fun k => { k with icache := k.icache.eraseIdx line }
  | .storeBuffer core n =>
    let k := s.core core.val
    match k.sbuf[n]? with
    | some e =>
      poisonMask (s.modCore core.val fun k => { k with sbuf := k.sbuf.eraseIdx n }) (lineOf e.a.pa) (byteMask (e.a.pa % 64) e.bs.length)
    | none =>
      match k.wc[n - k.sbuf.length]? with
      | none => s
      | some w =>
        let s := s.modCore core.val fun k => { k with wc := k.wc.eraseIdx (n - k.sbuf.length) }
        if w.fwd.isSome then s else poisonMask s w.pa w.mask
  | .l2 slice line =>
    match (s.slice slice.val).tags.find? fun t => t.line == lineOf line with
    | none => s
    | some t =>
      let s := if t.dirty then poisonMask s t.line (BitVec.allOnes 64) else if t.rcopy then s else settleWay s slice.val t
      let s := if t.repl then dropReplicas s t.line else s
      s.modSlice slice.val fun k => { k with tags := k.tags.erase t }
  | .tlb sorus n => s.modSorus sorus.val fun k => { k with tlb := k.tlb.eraseIdx n }
  | .dram st g => match cachedGranule s st.val g with
    | some pa => s.modSlice (homeOf (lineOf pa)) fun k => { k with under := pa / 32 :: k.under.filter fun x => x != pa / 32 }
    | none => s.modStack st.val fun k => { k with poison := g :: k.poison.filter fun x => x != g }
  | .side slice set => sideLost s slice.val (set % 128)
  | .flight .. | .inBuffer .. | .datapath _ | .matrix .. => s

/-- An error out of reach of ECC (R409): an element in flight differs from its cortex; a datapath errs in the next checked instruction, and
`twice` in its repeat as well. None elsewhere. -/
def pathFlip (s : State) (site : ErrorSite) (twice : Bool) : Option State :=
  match site with
  | .flight c t row col bit => some (s.modCtxAt c.core.val c.cx.val fun x =>
      let y := x.tile t.val
      if y.valid && row.val < y.rows && col.val < y.cols && bit.val < 8 * y.width then
        x.damageTile t.val (y.pokeElem row.val col.val (y.enc row.val col.val ^^^ 2 ^ bit.val))
      else x)
  | .inBuffer core b n row col bit => some (s.modCore core.val fun k =>
      let y := slotAt k b n.val
      if n.val < slotCount b && y.valid && row.val < y.rows && col.val < y.cols && bit.val < 8 * y.width then
        putSlot k b n.val (y.pokeElem row.val col.val (y.enc row.val col.val ^^^ 2 ^ bit.val))
      else k)
  | .datapath c => some (s.modCtxAt c.core.val c.cx.val fun x => { x with pathErr := some twice })
  | .matrix c row col mask => some (s.modCtxAt c.core.val c.cx.val fun x => { x with matErr := some (⟨row.val, col.val, mask⟩, twice) })
  | _ => none

/-- SOFT_ERROR (R67, R409, R410): a single flip under ECC is corrected when it is read; only the memory controllers keep a count of that. -/
def execSoftError (site : ErrorSite) (double : Bool) (s : State) : Out :=
  .next (match pathFlip s site double with
    | some t => t
    | none =>
      if double then flipNow s site
      else match site with
        | .dram st g => s.modStack st.val fun k => { k with flips := g :: k.flips.filter fun x => x != g }
        | _ => s)

end Sys2Proof.Machine
end

