-- ==== Sys2Proof/Machine/EventsRun.lean ====
section
/-!
DEFINITION. The device events of copies and collectives, cells, event units, channels, launches, tasks, phases, containment, debug, the
host and power (R34, R35, R138, R280 to R287, R345, R348, R350, R370 to R390, R413 to R416, R421, R438 to R459).
-/
namespace Sys2Proof.Machine

/-! ### Copies and collectives -/

/-- Has a collective's share nothing more to do (R348)? -/
def collDone (s : State) (core : Nat) (c : Coll) : Bool :=
  c.prog.failed.isSome ||
  (c.stage = .writing && c.prog.left.isEmpty) ||
  (c.stage = .waiting && !c.receivers.contains core && !(s.dev.collMsgs.any fun m => m.src == core && m.id == c.id))

/-- Is every write of an operation issued and acknowledged (R138)? -/
def engineDone (s : State) (core : Nat) (o : EngineOp) : Bool :=
  !o.complete && o.prog.posts.isEmpty &&
  (match o with
    | .copy c => c.prog.failed.isSome || c.prog.left.isEmpty
    | .coll c => collDone s core c)

/-- COPY_COMPLETE (R138, R344, R345): the last write of operation n is acknowledged. -/
def execCopyComplete (core : Fin 128) (n : Nat) (s : State) : Out :=
  .next (match (s.core core.val).engine[n]? with
    | none => s
    | some o =>
      if !engineDone s core.val o then s
      else
        let s := putEngine s core.val n (o.setProg { o.prog with complete := true })
        let s := trace s 4 { traceOf s core.val o.cx with engine := 4 } (s.ctxAt core.val o.cx).pc
        let s := match o with
          | .copy c => (match c.cell, c.prog.failed with
            | some h, none => sendDecr s (some core.val) h 1 0 0
            | some h, some (cause, _) => sendDecr s (some core.val) h 1 1 cause
            | none, _ => s)
          | .coll _ => s
        settleEngine s core.val)

/-- COPY_ENGINE_FAULT (R345): the fault that a part of operation n meets. -/
def execCopyEngineFault (core : Fin 128) (n cause : Nat) (addr : Word) (s : State) : Out :=
  .next (match (s.core core.val).engine[n]? with
    | none => s
    | some o => if engineMoves (s.core core.val) o && (engineFaults s core.val o).contains (cause, addr) then engineStop s core.val n cause addr else s)

/-- A contribution reaches the collective that it belongs to (R348): it is checked, then kept. -/
def takeShare (s : State) (m : CollMsg) (idx : Nat) (c : Coll) : State :=
  if c.prog.failed.isSome then s
  else if c.op != m.op || c.count != m.count || c.fmt != m.fmt || c.cores != m.cores then engineStop s m.dst idx 0x22 0
  else if c.nfm != m.nfm then engineStop s m.dst idx 0x32 0
  else putEngine s m.dst idx (.coll ({ c with got := c.got ++ [m.share] }).advance)

/-- Must a message wait for an older one from its source to its destination that can be taken (R58)? -/
def collBehind (s : State) (m : CollMsg) : Bool :=
  (s.dev.collMsgs.takeWhile fun x => x != m).any fun x => x.src == m.src && x.dst == m.dst && (collIndex (s.core x.dst) x.id).isSome

/-- COLL_MESSAGE (R348, R416). One that no collective of the receiver awaits stays on its way. -/
def execCollMessage (dst src : Fin 128) (id : Nat) (s : State) : Out :=
  .next (match s.dev.collMsgs.find? fun m => m.dst == dst.val && m.src == src.val && m.id == id with
    | none => s
    | some m =>
      if collBehind s m then s else
      let gone := s.modDev fun d => { d with collMsgs := d.collMsgs.erase m }
      if !coreActive s m.dst then lostCollMsg gone m
      else match collIndex (s.core m.dst) id with
        | none => if (s.core m.dst).withdrawn.any fun w => w.1 == id then gone else s
        | some idx => match (s.core m.dst).engine[idx]? with
          | some (.coll c) => takeShare gone m idx c
          | _ => s)

/-- COLL_WITHDRAWAL (R348): it ends the collective of its identifier that stands, whatever its participants, or marks the next one; a core at
which the collective has completed ignores it. -/
def execCollWithdrawal (core : Fin 128) (id : Nat) (s : State) : Out :=
  .next (match s.dev.withdrawals.find? fun w => w.dst == core.val && w.id == id with
    | none => s
    | some w =>
      let s := s.modDev fun d => { d with withdrawals := d.withdrawals.erase w }
      let k := s.core core.val
      let mark : State := s.modCore core.val fun k => { k with withdrawn := k.withdrawn ++ [(id, w.asid)] }
      let standing : Option (Nat × Bool) := match collIndex k id with
        | none => none
        | some i => match k.engine[i]? with
          | some (.coll c) => some (i, c.cores == w.cores && c.nth == w.nth)
          | _ => none
      -- the collective itself has completed here: a later one of its identifier is not meant
      let past : Bool := collCount k (id, w.cores) ≥ w.nth && !(standing.any Prod.snd)
      match standing with
      | some (i, _) => if past then s else
        let s := s.modDev fun d => { d with
          collMsgs := d.collMsgs.filter fun m => !(m.id == id && (m.src == core.val || m.dst == core.val)) }
        engineStop s core.val i 0x45 0
      | none => if past then s else mark)

/-! ### Cells -/

/-- CELL_DECREMENT (R350, R378, R389): held while a continuation of the core waits for its place. -/
def execCellDecrement (n : Nat) (s : State) : Out :=
  .next (match s.dev.decrs[n]? with
    | none => s
    | some d =>
      let gone := s.modDev fun x => { x with decrs := x.decrs.eraseIdx n }
      if !coreActive s d.core then gone
      else if placerWaits s d.core .cell then s
      else
        let c := s.cellAt d.core d.cell
        let c' := c.decremented d.n d.kind d.cause
        let s := gone.setCell d.core d.cell c'
        if c.state == 1 && c'.count == 0 then cellZero s d.core d.cell else s)

/-- CELL_COUNT_ZERO (R350). -/
def execCellCountZero (core : Fin 128) (cell : Fin 256) (s : State) : Out :=
  let c := s.cellAt core.val cell.val
  .next (if c.state == 1 && c.count == 0 && !(placerWaits s core.val .cell) then cellZero s core.val cell.val else s)

/-! ### Event units -/

/-- BARRIER_REPORT (R281). -/
def execBarrierReport (n : Nat) (s : State) : Out :=
  .next (match s.dev.reports[n]? with
    | none => s
    | some r => applyReport (s.modDev fun d => { d with reports := d.reports.eraseIdx n }) r)

/-- BARRIER_PHASE_COMPLETE (R281). -/
def execBarrierPhaseComplete (sorus b : Fin 16) (s : State) : Out :=
  .next (if s.dev.completions.contains (sorus.val, b.val) then
      barrierComplete (s.modDev fun d => { d with completions := d.completions.erase (sorus.val, b.val) }) sorus.val b.val
    else s)

/-- BARRIER_STATE_WRITE (R280). -/
def execBarrierStateWrite (sorus b : Fin 16) (w : Word) (s : State) : Out := .next (writeBarrier s sorus.val b.val w)

/-- MUTEX_STATE_WRITE (R283). -/
def execMutexStateWrite (sorus m : Fin 16) (w : Word) (s : State) : Out := .next (writeMutex s sorus.val m.val w)

/-- CLREV (R285). -/
def execClrev (sorus : Fin 16) (s : State) : Out := .next (clearLines s sorus.val)

/-- CLRMTX (R285). -/
def execClrmtx (sorus : Fin 16) (mask : BitVec 16) (s : State) : Out := .next (clearMutexes s sorus.val mask)

/-- CLRBAR (R285). -/
def execClrbar (sorus : Fin 16) (mask : BitVec 16) (s : State) : Out := .next (clearBarriers s sorus.val mask)

/-! ### Channels (R287) -/

/-- A channel accepts a flit: it leaves its sender's count. -/
def acceptFlit (s : State) (f : Flit) : State :=
  let s := s.modCore f.dst fun k =>
    let c := chanAt k f.chan
    setChan k f.chan { c with flits := c.flits ++ [f] }
  wakeChannel (s.modCore f.src fun k => { k with sends := k.sends - 1 }) f.dst f.chan

/-- Must a flit wait for an earlier one of its sender, a core (log entry 92), to the channel? -/
def flitRefused (s : State) (n : Nat) (f : Flit) : Bool :=
  let same (g : Flit) : Bool := g.src == f.src && g.dst == f.dst && g.chan == f.chan
  (s.dev.flits.take n).any same || (chanAt (s.core f.dst) f.chan).refused.any same

/-- CHANNEL_FLIT_ARRIVAL (R287, R416). -/
def execChannelFlitArrival (n : Nat) (s : State) : Out :=
  .next (match s.dev.flits[n]? with
    | none => s
    | some f =>
      if flitRefused s n f then s
      else
        let s := s.modDev fun d => { d with flits := d.flits.eraseIdx n }
        if !coreActive s f.dst then
          recordCpyErr (s.modCore f.src fun k => { k with sends := k.sends - 1 }) f.src f.scx 0 0x23 0
        else if (chanAt (s.core f.dst) f.chan).flits.length < 16 then acceptFlit s f
        else s.modCore f.dst fun k =>
          let c := chanAt k f.chan
          setChan k f.chan { c with refused := c.refused ++ [f] })

/-- CHANNEL_READY (R287): the oldest refused flit takes a place that is free. -/
def execChannelReady (core : Fin 128) (chan : Fin 8) (s : State) : Out :=
  let c := chanAt (s.core core.val) chan.val
  .next (match c.refused with
    | [] => s
    | f :: rest =>
      if c.flits.length < 16 then acceptFlit (s.modCore core.val fun k => setChan k chan.val { c with refused := rest }) f else s)

/-! ### Launches (R370 to R377) -/

/-- HOST_WINDOW_PACKET (R370, R371): a packet in slot q of the window. -/
def execHostWindowPacket (slot : Fin 8) (p : Packet) (s : State) : Out :=
  let q := slot.val
  .next (if p.queue != q || refuses s p || queueLen s q ≥ 16 then refusePacket s q p (p.asid == fieldOf (queueConf s q) 20 12)
    else (acceptPacket s p false).2)

/-- The words of a packet. -/
def packetWords (p : Packet) : List Word := [p.ctl, p.pc, p.argp, p.cnt, p.shape, p.crec, p.stamp, p.deadline]

/-- MAILBOX_PACKET (R421, R454): firmware's packet in the slot at 0x840 of the mailbox. -/
def execMailboxPacket (p : Packet) (s : State) : Out :=
  let s := s.modDev fun d => { d with mailbox :=
    ((packetWords p).zip (upTo 8)).foldl (fun t x => bytesWrite t (0x840 + 8 * x.2) (BitVec.allOnes 64) x.1) d.mailbox }
  .next (if packetBad s p || queueLen s p.queue ≥ 16 then refusePacket s p.queue p true else (acceptPacket s p true).2)

/-- Is a packet late (R372)? -/
def lateNow (s : State) (q : Queued) : Bool := s.launch.time.toNat > q.ld

/-- The order of the arbiter (R373). -/
def goesBefore (s : State) (a b : Queued) : Bool :=
  if a.pkt.urg != b.pkt.urg then a.pkt.urg
  else if lateNow s a != lateNow s b then !lateNow s a
  else if a.ld != b.ld then a.ld < b.ld
  else a.seq < b.seq

/-- Is a packet eligible? While a phase boundary lasts, no phase is current (R375). -/
def eligible (s : State) (q : Queued) : Bool := q.pkt.phase == 0 || (q.pkt.phase == s.launch.phase && s.dev.clkHeld.isNone)

/-- The packet that the arbiter chooses next. -/
def chosen (s : State) : Option Queued :=
  (s.launch.queued.filter (eligible s)).foldl (fun (o : Option Queued) q => match o with
    | none => some q
    | some p => if goesBefore s q p then some q else some p) none

/-- A free launch counter: one that no launch and no fan-out slot names. -/
def freeCtr (s : State) : Option Nat :=
  (upTo 256).find? fun n => (s.launch.ctrs.lookup n).isNone && !(s.launch.slots.any fun p => p.2.lctr == n)

/-- A free fan-out slot. -/
def freeFan (s : State) : Option Nat := (upTo 4).find? fun n => (s.launch.slots.lookup n).isNone

/-- A fan-out flit enters the start stub of its core, or is lost with its subtree where the core is gone (R376, R389). -/
def stubTake (s : State) (f : FanFlit) : State :=
  if coreActive s f.dst then
    let s := s.modCore f.dst fun k => { k with stub := k.stub ++ [f] }
    runStub s f.dst ((s.core f.dst).stub.length)
  else dropFlit s 0x67 f

/-- Dispatch a packet into fan-out with a counter and a slot (R373, R376, R377). Where no target is active any more, every task ends
KILLED (log entry 31). -/
def dispatch (s : State) (q : Queued) (ctr slot : Nat) : State :=
  let p := q.pkt
  let l := targets s p
  let c : LaunchCtr := {
    seq := q.seq, left := p.count, ended := 0, fcount := 0, last := 0, late := lateNow s q, cancelled := false, faulted := false
    killed := false, pkt := p }
  let s := s.modLaunch fun u => { u with queued := u.queued.filter fun e => e.seq != q.seq, ctrs := tset u.ctrs ctr c }
  let s := trace s 0 (traceOfPacket s q.queue p.asid q.seq) p.pc
  match l with
  | [] => killUnstarted s p.join p.count (some ctr) (if (upTo 16).any fun k => bitOf p.shape k && s.dev.removed.contains k then 0x67 else 0x45)
  | first :: _ =>
    let r : Range := {
      pc := p.pc, argp := p.argp, count := p.count, n := l.length, next := 0, astride := p.astride, join := p.join, lctr := ctr
      nfm := p.nfm, fw := q.fw, gfail := p.gfail }
    let f : FanFlit := ⟨rootCore s, first, 0, slot, r, p.urg, p.asid⟩
    let s := s.modLaunch fun u => { u with slots := tset u.slots slot ⟨ctr, l.length, l⟩ }
    if first == rootCore s then stubTake s f else s.modLaunch fun u => { u with flits := u.flits ++ [f] }

/-- LAUNCH_DISPATCH (R373, R374): a late packet of a DROPLATE queue is dropped when it is chosen, which takes no slot. A
dispatch waits while a topology change is in progress (R377). -/
def execLaunchDispatch (s : State) : Out :=
  .next (match chosen s with
    | none => s
    | some q =>
      if lateNow s q && bitOf (queueConf s q.queue) 1 then clearMarks (completeQueued s q true true false) q.pkt.asid
      else match freeCtr s, freeFan s with
        | some ctr, some slot => if topologyMoves s then s else dispatch s q ctr slot
        | _, _ => s)

/-- FANOUT_FLIT_ARRIVAL (R376, R377). -/
def execFanoutFlitArrival (n : Nat) (s : State) : Out :=
  .next (match s.launch.flits[n]? with
    | none => s
    | some f => stubTake (s.modLaunch fun l => { l with flits := l.flits.eraseIdx n }) f)

/-- LAUNCH_COMPLETION (R374, R462). -/
def execLaunchCompletion (ctr : Fin 256) (s : State) : Out :=
  .next (match s.launch.ctrs.lookup ctr.val with
    | none => s
    | some c =>
      if c.left != 0 then s
      else
        let p := c.pkt
        let st := recordStatus c.late false c.cancelled c.faulted c.killed false c.fcount c.last
        let s := writeRecord s p ⟨st, c.seq, c.ended⟩
        let s := s.modLaunch fun l => { l with ctrs := tdel l.ctrs ctr.val }
        let s := trace s 6 (traceOfPacket s p.queue p.asid c.seq) p.pc
        clearMarks (noteHash s p.asid c.seq) p.asid)

/-- LAUNCH_UNIT_CANCEL (R381): a cancel that a core has sent, or the host's. -/
def execLaunchUnitCancel (l : CancelReq) (s : State) : Out :=
  .next (applyCancel (s.modLaunch fun u => { u with cancels := u.cancels.erase l }) l)

/-! ### Run lists and tasks (R378, R379, R381, R384 to R388) -/

/-- SPILL_RETURN (R378): the first spilled entry of a core returns as a slot of its list is free. -/
def execSpillReturn (core : Fin 128) (s : State) : Out :=
  .next (match s.launch.spill.find? fun p => p.core == core.val with
    | none => s
    | some p =>
      if (s.core core.val).runList.length ≥ 32 then s
      else retryAll ((s.modLaunch fun l => { l with spill := l.spill.erase p }).modCore core.val fun k =>
        { k with runList := k.runList ++ [p.entry] }))

/-- May an entry start: on die 1 no new task does while a change to quiet mode holds a boundary (R388). -/
def canStart (s : State) (core : Nat) (e : Entry) : Bool :=
  !(boundaryHeld s && dieOf core == 1) || (match e.kind with
    | .resume .. => true
    | _ => false)

/-- The entries that a context chooses from: after an eviction those of the evicted task's job, as long as there is one (R378, R385). -/
def heirs (c : Ctx) (cx : Nat) (l : List Entry) : List Entry :=
  match c.heir with
  | none => l
  | some asid =>
    let own := l.filter fun e => e.asid == asid && e.urg == (cx == 1)
    if own.isEmpty then l else own

/-- The entry that a context takes, if it is idle. -/
def startable (s : State) (core cx : Nat) : Option Entry :=
  let k := s.core core
  let c := k.ctx cx
  if !coreActive s core || c.active || c.eventReady || isStopped k cx then none
  else nextEntry (heirs c cx (k.runList.filter (canStart s core))) cx

/-- TASK_START (R379). -/
def execTaskStart (c : CtxId) (s : State) : Out :=
  .next (match startable s c.core.val c.cx.val with
    | none => s
    | some e => retryAll (startEntry s c.core.val c.cx.val e))

/-- TASK_KILL (R381): at the next boundary of a context that a cancel has marked. -/
def execTaskKill (c : CtxId) (s : State) : Out :=
  let x := s.ctxAt c.core.val c.cx.val
  .next (match x.kill with
    | some cause => if x.active && x.commit.isNone then killStep s c.core.val c.cx.val cause else s
    | none => s)

/-- The waits that are blocking points (R384). -/
def WaitKind.blockingPoint : WaitKind → Bool
  | .barrier .. | .mutex .. | .evline .. | .addr _ | .cell _ | .channel _ | .forward _ => true
  | _ => false

/-- Does a context wait at a blocking point? A CHR waits while its channel is empty. -/
def blocked (s : State) (core cx : Nat) : Bool :=
  let k := s.core core
  let c := k.ctx cx
  c.active && c.kill.isNone && (match c.wait with
    | some w => w.kind.blockingPoint && w.fired.isNone && (match w.kind with
      | .channel n => (chanAt k n).flits.isEmpty
      | _ => true)
    | none => false)

/-- The save slot that an eviction of a blocked context would take (R385, R405, R406). -/
def evictSlot (s : State) (core cx : Nat) : Option (Nat × Nat) :=
  let c := s.ctxAt core cx
  match c.task with
  | none => none
  | some t =>
    if blocked s core cx && c.mode == .user && !(paused (s.core core) cx) && !(isStopped (s.core core) cx) && !coreOutstanding (s.core core) &&
        (saveBase s t.asid).isSome then (freeSlot s t.asid).map fun n => (t.asid, n)
    else none

/-- Does something ask for the eviction of a context: an entry of its job that could start, or a change to quiet mode (R385, R388)? -/
def evictAsked (s : State) (core cx asid : Nat) : Bool :=
  (cx == 0 && ((s.core core).runList.any fun e => !e.urg && e.asid == asid && canStart s core e)) ||
  (boundaryHeld s && dieOf core == 1 && die1CellsIdle s)

/-- EVICTION (R385, R388). -/
def execEviction (c : CtxId) (s : State) : Out :=
  let core := c.core.val
  let cx := c.cx.val
  .next (match evictSlot s core cx with
    | none => s
    | some (asid, n) => if coreActive s core && evictAsked s core cx asid then
      (saveTask s core cx asid n false core).modCtxAt core cx fun c => { c with heir := some asid }
    else s)

/-- MIGRATION (R386): the waiting X instruction's task moves to core 7 of its sorus. An open region ends first, by an abort of cause
CONFLICT: its SPEC lines and slots are the core's and the image holds none of them (R407), so the task comes to core 7 at the region's
handler (log entry 32). -/
def execMigration (c : CtxId) (s : State) : Out :=
  let core := c.core.val
  let cx := c.cx.val
  let x := s.ctxAt core cx
  let asks : Bool := match x.wait with
    | some w => w.kind == .migrate
    | none => false
  let asid := x.asid
  let to_ := 8 * sorusOf core + 7
  .next (if !(coreActive s core && x.active && asks && x.kill.isNone) || paused (s.core core) cx || isStopped (s.core core) cx then s
    else if coreOutstanding (s.core core) || (saveBase s asid).isNone then s
    else match freeSlot s asid with
      | none => s
      | some n =>
        let s := if x.regionOpen then (regionAbortNow s core cx 2 0 0).modCtxAt core cx fun c => { c with wait := x.wait } else s
        let s := saveTask s core cx asid n true to_
        placeEntry s core ⟨to_, ⟨asid, cx == 1, .resume n true⟩, .migrating⟩)

/-! ### Phases and deadlock (R375, R390) -/

/-- PHASE_BOUNDARY (R375). -/
def execPhaseBoundary (s : State) : Out := .next (phaseBoundaryNow s)

/-- Is context 0 of the root core between the entry to a DEADLOCK report and its ERET? -/
def inReport (s : State) (core cx : Nat) : Bool := core == rootCore s && cx == 0 && (s.ctxAt core cx).report > 0

/-- The parked line of a core (R390, R441). -/
def lineUp (s : State) (core : Nat) : Bool :=
  (s.core core).stopped.isEmpty &&
  (upTo 2).all fun cx => !(s.ctxAt core cx).active || blocked s core cx || inReport s core cx

/-- Blocked and evicted tasks. -/
def parkedTasks (s : State) : Nat :=
  let at' (core : Nat) : Nat := ((upTo 2).filter fun cx => (s.ctxAt core cx).task.isSome && blocked s core cx).length
  ((activeCores s).map at').foldl (· + ·) 0 + (s.launch.jobs.map fun p => p.2.used.length).foldl (· + ·) 0

/-- Has the mesh, a slice, an engine or a controller an operation outstanding? -/
def meshBusy (s : State) : Bool :=
  let d := s.dev
  let core (k : Core) : Bool := !k.engine.isEmpty || !k.nonRet.isEmpty || !k.posted.isEmpty || !k.soParts.isEmpty || k.sends > 0 || !k.stub.isEmpty ||
    !k.waitingPlace.isEmpty
  d.retraining || !d.flits.isEmpty || !d.decrs.isEmpty || !d.reports.isEmpty || !d.completions.isEmpty || !d.narrows.isEmpty ||
  !d.collMsgs.isEmpty || !d.withdrawals.isEmpty || !d.posted.isEmpty || !d.forwarded.isEmpty ||
  (d.ports.any fun p => p.2.partners.any fun q => !q.2.outstanding.isEmpty) || !d.peerq.isEmpty || !d.atsReqs.isEmpty ||
  (s.slices.any fun p => !p.2.sent.isEmpty || !p.2.missq.isEmpty || !p.2.inval.isEmpty) ||
  (s.stackTab.any fun p => !p.2.replies.isEmpty || !p.2.retry.isEmpty || !p.2.moves.isEmpty) ||
  (s.cores.any fun p => core p.2)

/-- Has the launch unit or a run list something to do? -/
def launchBusy (s : State) : Bool :=
  let l := s.launch
  let core (c : Nat) : Bool := (upTo 2).any fun cx =>
    (s.ctxAt c cx).eventReady || (startable s c cx).isSome || (match evictSlot s c cx with
      | some (asid, _) => evictAsked s c cx asid
      | none => false)
  !l.flits.isEmpty || !l.cancels.isEmpty || (l.queued.any (eligible s)) || (l.ctrs.any fun p => p.2.left == 0) || boundaryReady s ||
  (l.spill.any fun p => (s.core p.core).runList.length < 32) || (activeCores s).any core

/-- DEADLOCK (R390): reported once, to context 0 of the root core. -/
def execDeadlock (s : State) : Out :=
  let n := parkedTasks s
  .next (if s.launch.reported || n == 0 || s.launch.hwake || !s.dev.pageReqs.isEmpty || !((activeCores s).all (lineUp s)) ||
      meshBusy s || launchBusy s then s
    else (postRoot s 0x61 (wordOf n)).modLaunch fun l => { l with reported := true })

/-- A line that falls for another reason than the report's handler lets the condition be reported again (R390). -/
def noteLines (s : State) : State :=
  if s.launch.reported && !((activeCores s).all (lineUp s)) then s.modLaunch fun l => { l with reported := false } else s

/-! ### Containment (R413 to R416) -/

/-- CONTAINMENT_FENCE (R415): the command, or the fence that a store has asked for. -/
def execContainmentFence (e : Fin 16) (s : State) : Out :=
  let n := e.val
  let s := if (containAt s n).state == 1 then s else containCommand s n 1
  .next (if (containAt s n).state == 1 then runFence s n else s)

/-- CONTAINMENT_RESET (R414). -/
def execContainmentReset (e : Fin 16) (s : State) : Out :=
  let n := e.val
  let s := if (containAt s n).state == 3 then s else containCommand s n 2
  .next (if (containAt s n).state == 3 then containResetNow s n else s)

/-- SELF_TEST_DONE (R414). -/
def execSelfTestDone (e : Fin 16) (pass : Bool) (s : State) : Out :=
  let x := containAt s e.val
  .next (if x.state == 3 then setContain s e.val { x with state := if pass then 4 else 5 } else s)

/-- CONTAINMENT_RELEASE (R414). -/
def execContainmentRelease (e : Fin 16) (s : State) : Out := .next (containCommand s e.val 3)

/-- CONTAINMENT_CLEAR_COUNTS (R413). -/
def execContainmentClearCounts (e : Fin 16) (s : State) : Out := .next (containCommand s e.val 0)

/-! ### Registers written by other agents -/

/-- BUFPART_WRITE (R33, R34): it waits for the engine's work on the buffers. -/
def execBufpartWrite (core : Fin 128) (w : Word) (s : State) : Out :=
  .next (if anySlotBusy (s.core core.val) then s else s.modCore core.val fun k => { k with bufpart := bufpartWord w })

/-- BUFV_CLEAR (R35). -/
def execBufvClear (core : Fin 128) (buf : Buf) (mask : Word) (s : State) : Out :=
  .next (if anySlotBusy (s.core core.val) then s else s.modCore core.val fun k => clearSlots k buf mask)

/-- GQUERY (R438). -/
def execGquery (w : Word) (s : State) : Out := .next (gqueryNow s w)

/-- SPMC_SEL_WRITE (R443): COUNT is cleared. -/
def execSpmcSelWrite (sorus n : Fin 16) (w : Word) (s : State) : Out :=
  .next (s.modSorus sorus.val fun k => { k with spmc := tset k.spmc n.val (spmcWord w) })

/-- REGISTER_WRITE (R353): a register that the context's mode may write. A buffer register waits for the engine's work (R34, R35). -/
def execRegisterWrite (c : CtxId) (num : Nat) (w : Word) (s : State) : Out :=
  let x := s.ctxAt c.core.val c.cx.val
  let held := 0x4C0 ≤ num && num ≤ 0x4C3 && anySlotBusy (s.core c.core.val)
  .next (if csrAssigned num && csrMayWrite x.mode num && !held then csrPut s c.core.val c.cx.val num w w else s)

/-! ### Debug (R440 to R442) -/

/-- Set DBGCTL's HALT and STEP. -/
def dbgSet (s : State) (core : Nat) (halt step : Bool) : State :=
  dbgStore s core (maskOf 1 2) (atBit 1 (if halt then 1 else 0) ||| atBit 2 (if step then 1 else 0))

/-- DEBUG_HALT (R440, R441). -/
def execDebugHalt (core : Fin 128) (s : State) : Out := .next (dbgStore s core.val (maskOf 1 1) (maskOf 1 1))

/-- DEBUG_RESUME (R441). -/
def execDebugResume (core : Fin 128) (s : State) : Out := .next (dbgSet s core.val false false)

/-- DEBUG_STEP (R442). -/
def execDebugStep (core : Fin 128) (s : State) : Out := .next (dbgSet s core.val false true)

/-- DEBUG_STOP (R441): a stop that was asked for, at the context's boundary. -/
def execDebugStop (core : Fin 128) (s : State) : Out :=
  let k := s.core core.val
  let c := k.ctx (dbgCx k)
  .next (if coreActive s core.val && haltAsked k (dbgCx k) && c.active && c.commit.isNone then debugStopNow s core.val 1 else s)

/-- DEBUG_WINDOW_ACCESS (R441): a read is answered. -/
def execDebugWindowAccess (core : Fin 128) (off : Nat) (w : Option Word) (s : State) : Out :=
  .next (match w with
    | none => s.modDev fun d => { d with answers := d.answers ++ [leBytes 8 (windowWord s core.val (off - off % 8)).toNat] }
    | some _ => windowAccess s core.val off w)

/-! ### The hash pass (R449, R450) -/

/-- Hash one page and append its record; a page that is no longer mapped as it was, or that the host owns, has none. -/
def hashPage (seq asid : Nat) (s : State) (page : Nat × Nat) : State :=
  let root := fieldOf (s.job asid).ptroot 18 34 * 2 ^ 18
  match (walkFrom s 0 asid page.2 root [] [0, 1, 2, 3]).1 with
  | .error _ => s
  | .ok l =>
    let a := attrOf l.word page.2 l.size
    if l.size != page.1 || a.fwd != 0 || (hbmOf s a.pa).isNone || !bitOf s.dev.hashRing.ctl 0 then s
    else
      let h := sha256 (physRead s a.pa (2 ^ page.1))
      let w0 := atBit 57 (sizeCode page.1) ||| atBit 45 asid ||| wordOf (page.2 / 4096 % 2 ^ 45)
      let (r, s) := ringAppend s s.dev.hashRing
        [w0, wordOf seq, wordOfBytes (h.take 8), wordOfBytes ((h.drop 8).take 8)]
      s.modDev fun d => { d with hashRing := r }

/-- HASH_PASS (R449): of the oldest launch of a job that has completed and awaits its pass; the logs are merged first. -/
def execHashPass (asid : Nat) (s : State) : Out :=
  .next (match (s.job asid).hashDue with
    | [] => s
    | seq :: rest =>
      let s := (activeCores s).foldl (fun s c => mergeAll s c) s
      let pages := (s.job asid).hashPages
      pages.foldl (hashPage seq asid) (s.modJob asid fun j => { j with hashDue := rest, hashPages := [] }))

/-! ### The host, firmware and power (R454 to R459) -/

/-- HOST_DOORBELL (R454). -/
def execHostDoorbell (s : State) : Out := .next (s.modDev fun d => { d with bell0 := true })

/-- n free bytes. -/
def freeBytes (n : Nat) (s : State) : List Byte × State :=
  ((upTo n).map fun i => byteOf (Config.freeWord (s.fresh + i / 8)) (i % 8), { s with fresh := s.fresh + (n + 7) / 8 })

/-- ATTESTATION_REQUEST (R454): the host writes the nonce and rings; the report's parts are answered one after the other: nonce,
version, BOOTSTAT, the two measurements, the signature. What no rule fixes is free. -/
def execAttestationRequest (nonce : List Byte) (s : State) : Out :=
  let nonce := nonce.take 32 ++ List.replicate (32 - nonce.length) 0
  let s := s.modDev fun d => { d with
    bell0 := true
    mailbox := (upTo 32).foldl (fun t i => tset t (0x900 + i) (nonce.getD i 0)) d.mailbox }
  let (version, s) := match s.dev.firmware with
    | some v => (leBytes 8 v, s)
    | none => freeBytes 8 s
  let (rom, s) := freeBytes 48 s
  let (image, s) := freeBytes 48 s
  let (sign, s) := freeBytes 96 s
  .next (s.modDev fun d => { d with answers := d.answers ++ [nonce, version, leBytes 8 (bootstat d).toNat, rom, image, sign] })

/-- BOOT_COUNTER_CLEAR (R456). -/
def execBootCounterClear (s : State) : Out := .next (s.modDev fun d => { d with fails := 0 })

/-- BOOTOK (R455). -/
def execBootok (s : State) : Out := .next (bootOkNow s)

/-- BOOT_WATCHDOG (R456): 2 s without BOOTOK, once a start. -/
def execBootWatchdog (s : State) : Out :=
  .next (if s.dev.judged then s else if s.dev.bootOk then s.modDev fun d => { d with judged := true } else startFailed s 6 5)

/-- DEVICE_RESET (R456). -/
def execDeviceReset (s : State) : Out := .next (resetDevice s)

/-- CLAMP_STEP_DOWN (R459): the first step of an episode raises CLAMP. -/
def execClampStepDown (die : Fin 2) (s : State) : Out :=
  let n := die.val
  let v := clockAfter s n
  .next (if v ≤ 1 then s
    else
      let running := if n == 0 then s.dev.clamp0 else s.dev.clamp1
      let s := if running then s else fwEvent s 0x72 (wordOf n)
      stepClock (s.modDev fun d => if n == 0 then { d with clamp0 := true } else { d with clamp1 := true }) n (v - 1) false)

/-- CLAMP_STEP_UP (R459): up to the clock that PHASE commanded, which ends the episode. -/
def execClampStepUp (die : Fin 2) (s : State) : Out :=
  let n := die.val
  let v := clockAfter s n
  let cmd := capClock s n (if n == 0 then s.dev.cmd0 else s.dev.cmd1)
  let running := if n == 0 then s.dev.clamp0 else s.dev.clamp1
  .next (if !running || v == 0 then s
    else
      let s := if v < cmd then stepClock s n (v + 1) false else s
      if v + 1 < cmd then s else s.modDev fun d => if n == 0 then { d with clamp0 := false } else { d with clamp1 := false })

/-- Everything but the always-on records is gone with the power. -/
def unpowered (s : State) : State :=
  { State.reset with turns := s.turns, fresh := s.fresh, dev := { Device.reset with power := false, dev := s.dev.dev } }

/-- THERMAL_TRIP (R456, R459): the package powers off; before BOOTOK it fails the start. -/
def execThermalTrip (s : State) : Out :=
  let s := if s.dev.bootOk || s.dev.judged then s.modDev fun d => { d with reason := 7, stage := 5 } else startFailed s 7 5
  .next ((unpowered s).modDev fun d => { d with
    fails := s.dev.fails, reason := s.dev.reason, stage := s.dev.stage, bootOk := s.dev.bootOk })

/-- POWER_LOSS (R456): the counter of failed starts is lost too. -/
def execPowerLoss (s : State) : Out := .next (unpowered s)

end Sys2Proof.Machine
end

