-- ==== Sys2Proof/Machine/Turns.lean ====
section
/-!
DEFINITION. What a turn does: the moves of clocks, replacement, the copy engines and the environment (log entries 1 and 7).
-/
namespace Sys2Proof.Machine

/-! ### Clocks and counters (R372, R433, R443, R444) -/

/-- The increment of NCYC at a clock of F × 100 MHz: round(2^16 × 32 / F). -/
def ncycStep (f : Nat) : Nat := if f == 0 then 0 else (2 * 2 ^ 21 + f) / (2 * f)

/-- n events of a code in any of some contexts of a core: every counter that selects them counts (R443, R444). -/
def countCore (s : State) (core event n : Nat) (cxs : List Nat) : State :=
  if event == 0 || event > 0x0C || n == 0 then s
  else
    let takes (w : Word) : Bool := bitOf w 8 && fieldOf w 0 8 == event && cxs.any fun cx => bitOf w (9 + cx)
    let bump (k : Core) (t : Tab Word) (i : Nat) : Tab Word :=
      if takes (tget k.pmsel i 0) then tset t i (tget t i 0 + wordOf n) else t
    s.modCore core fun k => { k with pmc := (upTo 8).foldl (bump k) k.pmc }

/-- n core clocks of a core that is not gated (R433, R443), which the counters of clocks count (R444). -/
def coreClocks (s : State) (core n : Nat) : State :=
  let f := clockOf s (dieOf core)
  if !coreActive s core || f == 0 then s
  else
    let full := if (s.core core).nonRet.length ≥ 64 then n else 0
    let gated := (upTo 2).filter (blocked s core)
    let s := s.modCore core fun k => { k with cyc := k.cyc + wordOf n, ncyc := k.ncyc + wordOf (n * ncycStep f) }
    countCore (countCore (countCore s core 0x01 n [0, 1]) core 0x0B full [0, 1]) core 0x0C n gated

/-- n events of a code of a sorus: COUNT saturates. -/
def countSorus (s : State) (sorus event n : Nat) : State :=
  if event < 0x20 || event > 0x27 then s
  else
    let add (w : Word) : Word :=
      if fieldOf w 56 8 == event then mergeMask (maskOf 0 48) (wordOf (min (fieldOf w 0 48 + n) (2 ^ 48 - 1))) w else w
    s.modSorus sorus fun k => { k with spmc := k.spmc.map fun p => (p.1, add p.2) }

/-- The events of a context in a step from `s` to `t` (R444; log entry 74): instructions retired, L1 data misses (the lines that came), executions
and repeats of the matrix instructions, repeats of the checker stage, region aborts. `mma`: the step executes a matrix instruction. -/
def coreEvents (s t : State) (mma : Bool) (core cx : Nat) : List (Nat × Nat) :=
  let a := s.ctxAt core cx
  let b := t.ctxAt core cx
  let flag (x : Bool) : Nat := if x then 1 else 0
  let retired := b.retired - a.retired
  let repeats := if retired == 0 then 0 else (b.mec3 - a.mec3).toNat
  let came := (t.core core).l1.filter fun l => !((s.core core).l1.any fun m => m.asid == l.asid && m.va == l.va)
  let mine := cx == if core == t.me then t.mycx else 0
  [(0x02, retired), (0x04, if mine then came.length else 0), (0x05, if mma && retired != 0 then 1 + repeats else 0),
    (0x06, flag (a.active && b.active && ((a.pathErr.isSome && b.pathErr.isNone) || (a.injScalar.isSome && b.injScalar.isNone)))),
    (0x07, repeats), (0x09, flag (a.regionOpen && !b.regionOpen && fieldOf b.erstat 0 4 != 0))]

/-- The events of a sorus in a step (R444; log entry 74): lines that its slices took from memory, translations that came from a walk, operations of its
event unit, lines forwarded. -/
def sorusEvents (s t : State) (k : Nat) : List (Nat × Nat) :=
  let a := s.sorus k
  let b := t.sorus k
  let fresh (h : Nat) : Nat := ((t.slice h).tags.filter fun g => !g.rcopy && !((s.slice h).tags.any fun o => o.line == g.line)).length
  let lines (u : Sorus) : Nat := (u.tlb.map fun e => e.reads + e.writes).foldl (· + ·) 0
  let known (e : TlbEntry) : Bool := a.tlb.any fun o => o.asid == e.asid && o.va == e.va && o.size == e.size
  [(0x21, ((coresOf k).map fresh).foldl (· + ·) 0), (0x23, (b.tlb.filter fun e => !(known e)).length),
    (0x26, if a.barriers == b.barriers && a.mutexes == b.mutexes && a.evlines == b.evlines then 0 else 1), (0x27, lines b - lines a)]

/-- The counters after a step from `s` to `t` (R443, R444). -/
def counted (s t : State) (mma : Bool) : State :=
  let ofCore (core : Nat) (u : State) (cx : Nat) : State :=
    (coreEvents s t mma core cx).foldl (fun u e => countCore u core e.1 e.2 [cx]) u
  let ofSorus (u : State) (k : Nat) : State := (sorusEvents s t k).foldl (fun u e => countSorus u k e.1 e.2) u
  let cores := (t.cores.filter fun p => p.2.pmsel.any fun q => bitOf q.2 8).map Prod.fst
  let sori := (t.sori.filter fun p => p.2.spmc.any fun q => fieldOf q.2 56 8 != 0).map Prod.fst
  sori.foldl ofSorus (cores.foldl (fun u core => (upTo 2).foldl (ofCore core) u) t)

/-! ### Replacement (R45, R49, R52, R56, R78, R148, R278) -/

/-- The L1 evicts the lines at an address: dirty bytes go home. A SPEC line stays (R460). -/
def evictL1 (s : State) (core va : Nat) : State :=
  ((s.core core).l1.filter fun l => l.va == lineOf va && l.spec.isNone).foldl (fun s l =>
    evictLine s core l) s

/-- A slice evicts a line: a replica goes at once; a line with REPL first has its replicas invalidated; one with waiters goes only
when every way of its set holds such a line. -/
def evictL2 (s : State) (slice line : Nat) : State :=
  let k := s.slice slice
  let ways := l2Ways k line
  match k.tags.find? fun t => t.line == lineOf line with
  | none => s
  | some t =>
    if t.rcopy then s.modSlice slice fun k => { k with tags := k.tags.erase t }
    else if k.waited t && !(ways.length ≥ 16 && ways.all k.waited) then s
    else if t.repl then
      if k.inval.any fun p => p.1 == t.line then s
      else s.modSlice slice fun k => { k with inval := k.inval ++ [(t.line, otherDie slice)] }
    else dropHome s slice t

/-- A side array evicts an entry without an occupied slot: the floor rises (R148). -/
def evictSide (s : State) (slice idx : Nat) : State :=
  s.modSlice slice fun k => match k.side[idx]? with
    | some e => if e.slots.isEmpty then { k with side := k.side.eraseIdx idx, floor := wmax k.floor (wmax e.wts e.rts) } else k
    | none => k

/-! ### The copy engine (R442) -/

/-- A part of operation idx of a core. -/
def enginePart (s : State) (core idx i : Nat) : State :=
  match (s.core core).engine[idx]? with
  | none => s
  | some o => if coreActive s core && engineMoves (s.core core) o then copyPart s core idx i else s

/-! ### Turns -/

/-- The oldest entry of a write-combining buffer leaves. -/
def sendOldestWc (s : State) (core : Nat) : State :=
  match (s.core core).wc with
  | [] => s
  | w :: _ => sendWcLine s core w

/-- The oldest message posted to the host that is ready has been sent: they leave in order (R123). An MSI-X message goes behind the STATUS word
that it follows (R374), and a write that waits for its translation holds none of the others. -/
def sendPosted (s : State) : State :=
  match s.dev.posted.find? fun p => p.owner == 0 && p.ready s with
  | none => s
  | some p =>
    let s := postGone s p
    match p.msix with
    | some v => deliverMsix s v
    | none => s

/-- A Wenpen port comes up with a peer, or goes down; in minimal mode it stays down (R456). -/
def portUp (s : State) (port peer : Nat) (up : Bool) : State :=
  if s.dev.minimal then s else pumpPeers (setPort s port { portAt s port with peer := peer, up := up })

/-- A peer answers an outstanding operation with an error, which its reply or acknowledgement carries (R93, R132). -/
def peerRefuses (s : State) (id : Nat) : State :=
  if answerable s id then s.modDev fun d => { d with refused := id :: d.refused } else s

/-- A barrier report moves on: its unit sends it, or it reaches the root's port (R280, log entry 25). -/
def reportMoves (s : State) (n : Nat) : State :=
  match s.dev.reports[n]? with
  | none => s
  | some r => s.modDev fun d => { d with
      reports := d.reports.set n { r with stage := if r.stage == .prepared then .mesh else .port } }

/-- A stage of a start stops with a reason (R456, R457; log entry 96), which fails the start once. -/
def startStops (s : State) (reason stage : Nat) : State :=
  if s.dev.judged || s.dev.bootOk then s else startFailed s reason stage

/-- The boot ROM checks an image: its signature and the hash of its key, then its version. An accepted image runs (R454, R457). -/
def checkImage (s : State) (key : List Byte) (version : Nat) (signed : Bool) : State :=
  if !(signed && Config.keyFused key) then startStops s 1 1
  else if version < Config.minVersion then startStops s 2 1
  else s.modDev fun d => { d with firmware := some version }

/-- Does a request lie inside a window, from BASE for SIZE bytes (R452)? -/
def Window.holds (w : Window) (addr n : Nat) : Bool := w.base.toNat ≤ addr && addr + n ≤ w.base.toNat + fieldOf w.size 12 36 * 4096

/-- The management core asks the host (R452; log entry 96): a request inside a window is sent; outside, a read is answered with 0xFF bytes and a write is
discarded. -/
def managementAsks (s : State) (r : ManagementReq) : State :=
  if (upTo 8).any fun i => (tget s.dev.windows i ⟨0, 0, false⟩).holds r.addr r.n then s.modDev fun d => { d with managed := d.managed ++ [r] }
  else match r.data with
    | some _ => s
    | none => s.modDev fun d => { d with managedReads := d.managedReads ++ [List.replicate r.n 0xFF] }

/-- The turn of an agent that is no context and no event of the table. -/
def agentTurn (s : State) (t : Turn) : State :=
  match t with
  | .run _ | .dev _ => s
  | .coreClocks core n => coreClocks s core.val n
  | .localTime n => s.modLaunch fun l => { l with time := l.time + wordOf n }
  | .copyPart core idx at_ => enginePart s core.val idx at_
  | .evictL1 core va => evictL1 s core.val va
  | .evictTlb sorus idx => s.modSorus sorus.val fun k => { k with tlb := k.tlb.eraseIdx idx }
  | .evictPtr sorus idx => s.modSorus sorus.val fun k => { k with ptrs := k.ptrs.eraseIdx idx }
  | .walker sorus n => s.modSorus sorus.val fun k => { k with walker := n.val }
  | .evictICache core idx => s.modCore core.val fun k => { k with icache := k.icache.eraseIdx idx }
  | .sendWc core => sendOldestWc s core.val
  | .holdStores core hold => setHold s core.val hold
  | .performStore core idx => performOne s core.val idx
  | .evictL2 slice line => evictL2 s slice.val line
  | .evictSide slice idx => evictSide s slice.val idx
  | .count core event cx n => countCore s core.val event n [cx.val]
  | .countSorus sorus event n => countSorus s sorus.val event n
  | .reportMoves n => reportMoves s n
  | .wenpenUp port peer up => portUp s port.val peer.val up
  | .postedSent => sendPosted s
  | .peerRefuses id => peerRefuses s id
  | .startStops reason stage => startStops s reason.val stage.val
  | .management addr n data => managementAsks s ⟨addr, n, data⟩
  | .space host off data => spaceAccess s host off data
  | .image key version signed => checkImage s key version signed

/-! ### What the mesh holds back (R57 to R59) -/

/-- Messages of one class from one source to one destination arrive in the order they were sent (R58): is one before the n-th? -/
def overtakes {α : Type} (l : List α) (n : Nat) (same : α → α → Bool) : Bool :=
  match l[n]? with
  | some m => (l.take n).any (same m)
  | none => false

/-- Is a flit kept at its sender, because an earlier one to the channel was refused (R287)? -/
def flitKept (s : State) (f : Flit) : Bool :=
  (chanAt (s.core f.dst) f.chan).refused.any fun g => g.src == f.src && g.dst == f.dst && g.chan == f.chan

/-- Does a relock hold an operation of a core at the home of an address? -/
def opHeld (s : State) (core : Nat) (pa : Option Nat) : Bool := portHeld s core || pa.any (flitHeld s core)

/-- Does a relock hold a combined line of a core? -/
def wcHeld (s : State) (core : Nat) (w : Option WcLine) : Bool :=
  opHeld s core (w.bind fun w => if w.fwd.isSome then none else some w.pa)

/-- Does a relock hold run on either die? -/
def anyRelock (s : State) : Bool := !s.dev.relock0.isEmpty || !s.dev.relock1.isEmpty

/-- Does the mesh hold back the message of a device event: a FIFO that a relock holds, or an earlier message of its source to its
destination? -/
def meshHolds (s : State) (i : Instr) : Bool :=
  let d := s.dev
  match i with
  | .channelFlitArrival n =>
    (match d.flits[n]? with
      | some f => portHeld s f.src || portHeld s f.dst
      | none => false) || overtakes d.flits n fun f g => g.src == f.src && g.dst == f.dst && !flitKept s g
  | .channelReady core _ => portHeld s core.val
  | .cellDecrement n =>
    (match d.decrs[n]? with
      | some x => portHeld s x.core || x.src.any (portHeld s)
      | none => false) || overtakes d.decrs n fun x y => x.src.isSome && y.src == x.src && y.core == x.core
  | .fanoutFlitArrival n =>
    (match s.launch.flits[n]? with
      | some f => portHeld s f.dst || portHeld s f.src
      | none => false) || overtakes s.launch.flits n fun f g => g.src == f.src && g.dst == f.dst && g.urg == f.urg
  | .narrowingMessage n =>
    (match d.narrows[n]? with
      | some x => portHeld s x.core || bridgeHeld s x.slice x.core
      | none => false) || overtakes d.narrows n fun x y => y.slice == x.slice && y.core == x.core
  | .collMessage dst src _ => portHeld s dst.val || portHeld s src.val
  | .collWithdrawal core _ => portHeld s core.val
  | .barrierReport n =>
    (match d.reports[n]? with
      | some r => bridgeHeld s (8 * r.src) (8 * r.dst)
      | none => false) || overtakes d.reports n fun r q => q.src == r.src && q.dst == r.dst
  | .barrierPhaseComplete sorus b => bridgeHeld s (8 * sorus.val) (8 * (barrierAt s sorus.val b.val).root)
  | .regionCommitMessage c slice => portHeld s c.core.val || bridgeHeld s c.core.val slice.val
  | .regionCommitAck c | .homeFill c _ | .returningOperationReply c | .regionRegistration c _ _ => portHeld s c.core.val
  | .homeAtomic core n => opHeld s core.val ((pendingOps (s.core core.val))[n]?.map HomeOp.line)
  | .reductionAck core => portHeld s core.val || (anyRelock s && (s.core core.val).nonRet.any fun n => n.far)
  | .homeWriteback core n _ => opHeld s core.val ((s.core core.val).l1[n]?.map L1Line.pa)
  | .homeStore core n => wcHeld s core.val (s.core core.val).wc[n]?
  | .replicaRequest core line => bridgeHeld s core.val (homeOf (lineOf line))
  | .replicaInvalidation slice line => bridgeHeld s slice.val (homeOf (lineOf line))
  | _ => false

/-- Does a relock hold what an agent of a core sends (R59)? -/
def agentHeld (s : State) (t : Turn) : Bool :=
  match t with
  | .copyPart core _ _ => portHeld s core.val
  | .evictL1 core va => portHeld s core.val || (s.core core.val).l1.any fun l => l.va == lineOf va && flitHeld s core.val l.pa
  | .sendWc core => wcHeld s core.val (s.core core.val).wc.head?
  | .performStore core n => opHeld s core.val ((s.core core.val).sbuf[n]?.map fun e => e.a.pa)
  | .holdStores core hold => !hold && (s.core core.val).sbuf.any fun e => flitHeld s core.val e.a.pa
  | _ => false

/-! ### The checker stage (R249, R250) -/

/-- Does the checker stage check an instruction (R249)? -/
def isChecked (i : Instr) : Bool :=
  let code := i.code
  code < 0x080 || (0x081 ≤ code && code ≤ 0x088) || (0x100 ≤ code && code ≤ 0x105)

/-- An instruction whose datapath erred comes to retirement (R250, R409): its repeat retires it, or errs as well and takes SCALARCHK with
nothing of it written. An injection of KIND 2 is consumed by the execution that the check repeats (R422). -/
def repeated (s : State) (i : Instr) (o : Out) : Out :=
  let core := s.me
  let cx := s.mycx
  match s.ctx.pathErr with
  | none => o
  | some twice =>
    match o with
    | .next t =>
      if i.isEvent || !isChecked i || !isEnabled i s.ctx || (t.ctxAt core cx).retired != s.ctx.retired + 1 then o
      else
        let clear (s : State) : State := s.modCtxAt core cx fun c =>
          { c with pathErr := none, injScalar := if i.code < 0x080 then none else c.injScalar }
        .next (if twice then faultNow (clear s) core cx (mkFault 0x33 0) else clear t)
    | o => o

/-- What the next move is: a move that is complete, or an instruction or event to execute. -/
def nextMove (s : State) : Next :=
  match s.turns with
  | [] => (match nextCtx s with
    | none => .moved s
    | some c => ctxMove s c)
  | t :: rest =>
    let s := { s with turns := rest }
    match t with
    | .run c => ctxMove s c
    | .dev i => if i.isEvent && !meshHolds s i then .run i s else .moved s
    | t => .moved (if agentHeld s t then s else agentTurn s t)

/-- Without power only a reset moves the machine (R456, R459). -/
def unpoweredMove (s : State) : Option (Instr × State) :=
  match s.turns with
  | .dev .deviceReset :: rest => some (.deviceReset, { s with turns := rest })
  | _ => none

/-- What follows every move of the machine from `s` to `t`: the counters, and the parked lines (R390, R444). -/
def settled (s t : State) (mma : Bool) : State := noteLines (counted s t mma)

/-- What a step makes of the outcome of an instruction or event. `s` is the state before the step, `u` the one that executes it. -/
def noted (s u : State) (i : Instr) (o : Out) : Out :=
  match repeated u i o with
  | .next t => .next (settled s t (0x140 ≤ i.code && i.code ≤ 0x143))
  | o => o

end Sys2Proof.Machine
end

