-- ==== Sys2Proof/Machine/Dispatch.lean ====
section
/-!
DEFINITION. From an instruction to its meaning, one arm per constructor of Instr.
-/
namespace Sys2Proof.Machine

/-- The meaning of an instruction or a device event. -/
def exec (i : Instr) (s : State) : Host.Outcome State Fault Refusal :=
  match i with
  | .add f r => Sys2Proof.Machine.execAdd f r s
  | .sub f r => Sys2Proof.Machine.execSub f r s
  | .mul f r => Sys2Proof.Machine.execMul f r s
  | .mulh f r => Sys2Proof.Machine.execMulh f r s
  | .mulhu f r => Sys2Proof.Machine.execMulhu f r s
  | .div f r => Sys2Proof.Machine.execDiv f r s
  | .divu f r => Sys2Proof.Machine.execDivu f r s
  | .rem f r => Sys2Proof.Machine.execRem f r s
  | .remu f r => Sys2Proof.Machine.execRemu f r s
  | .andR f r => Sys2Proof.Machine.execAndR f r s
  | .orR f r => Sys2Proof.Machine.execOrR f r s
  | .xorR f r => Sys2Proof.Machine.execXorR f r s
  | .andn f r => Sys2Proof.Machine.execAndn f r s
  | .shl f r => Sys2Proof.Machine.execShl f r s
  | .shr f r => Sys2Proof.Machine.execShr f r s
  | .sar f r => Sys2Proof.Machine.execSar f r s
  | .rot f r => Sys2Proof.Machine.execRot f r s
  | .minR f r => Sys2Proof.Machine.execMinR f r s
  | .maxR f r => Sys2Proof.Machine.execMaxR f r s
  | .minu f r => Sys2Proof.Machine.execMinu f r s
  | .maxu f r => Sys2Proof.Machine.execMaxu f r s
  | .addImm f r => Sys2Proof.Machine.execAddImm f r s
  | .subImm f r => Sys2Proof.Machine.execSubImm f r s
  | .mulImm f r => Sys2Proof.Machine.execMulImm f r s
  | .mulhImm f r => Sys2Proof.Machine.execMulhImm f r s
  | .mulhuImm f r => Sys2Proof.Machine.execMulhuImm f r s
  | .divImm f r => Sys2Proof.Machine.execDivImm f r s
  | .divuImm f r => Sys2Proof.Machine.execDivuImm f r s
  | .remImm f r => Sys2Proof.Machine.execRemImm f r s
  | .remuImm f r => Sys2Proof.Machine.execRemuImm f r s
  | .andImm f r => Sys2Proof.Machine.execAndImm f r s
  | .orImm f r => Sys2Proof.Machine.execOrImm f r s
  | .xorImm f r => Sys2Proof.Machine.execXorImm f r s
  | .andnImm f r => Sys2Proof.Machine.execAndnImm f r s
  | .shlImm f r => Sys2Proof.Machine.execShlImm f r s
  | .shrImm f r => Sys2Proof.Machine.execShrImm f r s
  | .sarImm f r => Sys2Proof.Machine.execSarImm f r s
  | .rotImm f r => Sys2Proof.Machine.execRotImm f r s
  | .minImm f r => Sys2Proof.Machine.execMinImm f r s
  | .maxImm f r => Sys2Proof.Machine.execMaxImm f r s
  | .minuImm f r => Sys2Proof.Machine.execMinuImm f r s
  | .maxuImm f r => Sys2Proof.Machine.execMaxuImm f r s
  | .clz f r => Sys2Proof.Machine.execClz f r s
  | .ctz f r => Sys2Proof.Machine.execCtz f r s
  | .popc f r => Sys2Proof.Machine.execPopc f r s
  | .sext f r => Sys2Proof.Machine.execSext f r s
  | .zext f r => Sys2Proof.Machine.execZext f r s
  | .sel f r => Sys2Proof.Machine.execSel f r s
  | .cmp f r => Sys2Proof.Machine.execCmp f r s
  | .cmpImm f r => Sys2Proof.Machine.execCmpImm f r s
  | .plogic f r => Sys2Proof.Machine.execPlogic f r s
  | .fmin f r => Sys2Proof.Machine.execFmin f r s
  | .fmax f r => Sys2Proof.Machine.execFmax f r s
  | .fcmp f r => Sys2Proof.Machine.execFcmp f r s
  | .fadd f r => Sys2Proof.Machine.execFadd f r s
  | .fsub f r => Sys2Proof.Machine.execFsub f r s
  | .fmul f r => Sys2Proof.Machine.execFmul f r s
  | .ffma f r => Sys2Proof.Machine.execFfma f r s
  | .fdiv f r => Sys2Proof.Machine.execFdiv f r s
  | .fsqrt f r => Sys2Proof.Machine.execFsqrt f r s
  | .li f r => Sys2Proof.Machine.execLi f r s
  | .lea f r => Sys2Proof.Machine.execLea f r s
  | .fcvt f r => Sys2Proof.Machine.execFcvt f r s
  | .fclass f r => Sys2Proof.Machine.execFclass f r s
  | .ld f r => Sys2Proof.Machine.execLd f r s
  | .ldAcq f r => Sys2Proof.Machine.execLdAcq f r s
  | .st f r => Sys2Proof.Machine.execSt f r s
  | .stRel f r => Sys2Proof.Machine.execStRel f r s
  | .ldEv f r => Sys2Proof.Machine.execLdEv f r s
  | .stEv f r => Sys2Proof.Machine.execStEv f r s
  | .ldl f r => Sys2Proof.Machine.execLdl f r s
  | .stl f r => Sys2Proof.Machine.execStl f r s
  | .pref f r => Sys2Proof.Machine.execPref f r s
  | .amo f r => Sys2Proof.Machine.execAmo f r s
  | .red f r => Sys2Proof.Machine.execRed f r s
  | .rede f r => Sys2Proof.Machine.execRede f r s
  | .rde f r => Sys2Proof.Machine.execRde f r s
  | .clre f r => Sys2Proof.Machine.execClre f r s
  | .nop f r => Sys2Proof.Machine.execNop f r s
  | .b f r => Sys2Proof.Machine.execB f r s
  | .bc f r => Sys2Proof.Machine.execBc f r s
  | .bcmp f r => Sys2Proof.Machine.execBcmp f r s
  | .call f r => Sys2Proof.Machine.execCall f r s
  | .callr f r => Sys2Proof.Machine.execCallr f r s
  | .ret f r => Sys2Proof.Machine.execRet f r s
  | .jmpr f r => Sys2Proof.Machine.execJmpr f r s
  | .rept f r => Sys2Proof.Machine.execRept f r s
  | .trap f r => Sys2Proof.Machine.execTrap f r s
  | .tend f r => Sys2Proof.Machine.execTend f r s
  | .csrr f r => Sys2Proof.Machine.execCsrr f r s
  | .csrw f r => Sys2Proof.Machine.execCsrw f r s
  | .csrxSwap f r => Sys2Proof.Machine.execCsrxSwap f r s
  | .csrxSet f r => Sys2Proof.Machine.execCsrxSet f r s
  | .csrxClr f r => Sys2Proof.Machine.execCsrxClr f r s
  | .ecall f r => Sys2Proof.Machine.execEcall f r s
  | .eret f r => Sys2Proof.Machine.execEret f r s
  | .tlbiAll f r => Sys2Proof.Machine.execTlbiAll f r s
  | .tlbiAsid f r => Sys2Proof.Machine.execTlbiAsid f r s
  | .tlbiVa f r => Sys2Proof.Machine.execTlbiVa f r s
  | .l1invI f r => Sys2Proof.Machine.execL1invI f r s
  | .l1invD f r => Sys2Proof.Machine.execL1invD f r s
  | .l1wb f r => Sys2Proof.Machine.execL1wb f r s
  | .harvestAll f r => Sys2Proof.Machine.execHarvestAll f r s
  | .harvestSor f r => Sys2Proof.Machine.execHarvestSor f r s
  | .phase f r => Sys2Proof.Machine.execPhase f r s
  | .phaseNow f r => Sys2Proof.Machine.execPhaseNow f r s
  | .bkpt f r => Sys2Proof.Machine.execBkpt f r s
  | .dbginj f r => Sys2Proof.Machine.execDbginj f r s
  | .fenceAcq f r => Sys2Proof.Machine.execFenceAcq f r s
  | .fenceRel f r => Sys2Proof.Machine.execFenceRel f r s
  | .fenceFull f r => Sys2Proof.Machine.execFenceFull f r s
  | .fenceEng f r => Sys2Proof.Machine.execFenceEng f r s
  | .waitcnt f r => Sys2Proof.Machine.execWaitcnt f r s
  | .waita f r => Sys2Proof.Machine.execWaita f r s
  | .wake f r => Sys2Proof.Machine.execWake f r s
  | .bar f r => Sys2Proof.Machine.execBar f r s
  | .bara f r => Sys2Proof.Machine.execBara f r s
  | .barw f r => Sys2Proof.Machine.execBarw f r s
  | .evsig f r => Sys2Proof.Machine.execEvsig f r s
  | .evwait f r => Sys2Proof.Machine.execEvwait f r s
  | .mtxl f r => Sys2Proof.Machine.execMtxl f r s
  | .mtxu f r => Sys2Proof.Machine.execMtxu f r s
  | .chs f r => Sys2Proof.Machine.execChs f r s
  | .chr f r => Sys2Proof.Machine.execChr f r s
  | .chp f r => Sys2Proof.Machine.execChp f r s
  | .rgbegin f r => Sys2Proof.Machine.execRgbegin f r s
  | .rgend f r => Sys2Proof.Machine.execRgend f r s
  | .rgabort f r => Sys2Proof.Machine.execRgabort f r s
  | .rgbound f r => Sys2Proof.Machine.execRgbound f r s
  | .tspawn f r => Sys2Proof.Machine.execTspawn f r s
  | .tdec f r => Sys2Proof.Machine.execTdec f r s
  | .tjoin f r => Sys2Proof.Machine.execTjoin f r s
  | .tcancelCell f r => Sys2Proof.Machine.execTcancelCell f r s
  | .tcancelLnch f r => Sys2Proof.Machine.execTcancelLnch f r s
  | .tcancelGraph f r => Sys2Proof.Machine.execTcancelGraph f r s
  | .tcancelPhase f r => Sys2Proof.Machine.execTcancelPhase f r s
  | .tcancelJob f r => Sys2Proof.Machine.execTcancelJob f r s
  | .lnch f r => Sys2Proof.Machine.execLnch f r s
  | .tld f r => Sys2Proof.Machine.execTld f r s
  | .tst f r => Sys2Proof.Machine.execTst f r s
  | .tldl f r => Sys2Proof.Machine.execTldl f r s
  | .tstl f r => Sys2Proof.Machine.execTstl f r s
  | .trede f r => Sys2Proof.Machine.execTrede f r s
  | .trde f r => Sys2Proof.Machine.execTrde f r s
  | .tzero f r => Sys2Proof.Machine.execTzero f r s
  | .tfill f r => Sys2Proof.Machine.execTfill f r s
  | .tmov f r => Sys2Proof.Machine.execTmov f r s
  | .tretag f r => Sys2Proof.Machine.execTretag f r s
  | .tget f r => Sys2Proof.Machine.execTget f r s
  | .tsete f r => Sys2Proof.Machine.execTsete f r s
  | .cpy f r => Sys2Proof.Machine.execCpy f r s
  | .cpyl f r => Sys2Proof.Machine.execCpyl f r s
  | .cpyc f r => Sys2Proof.Machine.execCpyc f r s
  | .coll f r => Sys2Proof.Machine.execColl f r s
  | .mma f r => Sys2Proof.Machine.execMma f r s
  | .mmasp f r => Sys2Proof.Machine.execMmasp f r s
  | .mmamx f r => Sys2Proof.Machine.execMmamx f r s
  | .mmax f r => Sys2Proof.Machine.execMmax f r s
  | .tchk f r => Sys2Proof.Machine.execTchk f r s
  | .tchkFix f r => Sys2Proof.Machine.execTchkFix f r s
  | .tcfix f r => Sys2Proof.Machine.execTcfix f r s
  | .tcgen f r => Sys2Proof.Machine.execTcgen f r s
  | .tcrd f r => Sys2Proof.Machine.execTcrd f r s
  | .tadd f r => Sys2Proof.Machine.execTadd f r s
  | .tsub f r => Sys2Proof.Machine.execTsub f r s
  | .tmul f r => Sys2Proof.Machine.execTmul f r s
  | .tfma f r => Sys2Proof.Machine.execTfma f r s
  | .tmin f r => Sys2Proof.Machine.execTmin f r s
  | .tmax f r => Sys2Proof.Machine.execTmax f r s
  | .tabs f r => Sys2Proof.Machine.execTabs f r s
  | .tneg f r => Sys2Proof.Machine.execTneg f r s
  | .tscale f r => Sys2Proof.Machine.execTscale f r s
  | .trcp f r => Sys2Proof.Machine.execTrcp f r s
  | .trsq f r => Sys2Proof.Machine.execTrsq f r s
  | .texp2 f r => Sys2Proof.Machine.execTexp2 f r s
  | .tlog2 f r => Sys2Proof.Machine.execTlog2 f r s
  | .tcvt f r => Sys2Proof.Machine.execTcvt f r s
  | .tand f r => Sys2Proof.Machine.execTand f r s
  | .tor f r => Sys2Proof.Machine.execTor f r s
  | .txor f r => Sys2Proof.Machine.execTxor f r s
  | .tshl f r => Sys2Proof.Machine.execTshl f r s
  | .tshr f r => Sys2Proof.Machine.execTshr f r s
  | .tcmp f r => Sys2Proof.Machine.execTcmp f r s
  | .tsel f r => Sys2Proof.Machine.execTsel f r s
  | .ttrn f r => Sys2Proof.Machine.execTtrn f r s
  | .tredr f r => Sys2Proof.Machine.execTredr f r s
  | .tredc f r => Sys2Proof.Machine.execTredc f r s
  | .tbrow f r => Sys2Proof.Machine.execTbrow f r s
  | .tbcol f r => Sys2Proof.Machine.execTbcol f r s
  | .tiota f r => Sys2Proof.Machine.execTiota f r s
  | .eventEntry c => Sys2Proof.Machine.execEventEntry c s
  | .regionAbort c => Sys2Proof.Machine.execRegionAbort c s
  | .regionRegistration c va write => Sys2Proof.Machine.execRegionRegistration c va write s
  | .narrowingMessage n => Sys2Proof.Machine.execNarrowingMessage n s
  | .regionCommitMessage c slice => Sys2Proof.Machine.execRegionCommitMessage c slice s
  | .regionCommitAck c => Sys2Proof.Machine.execRegionCommitAck c s
  | .homeAtomic core n => Sys2Proof.Machine.execHomeAtomic core n s
  | .reductionAck core => Sys2Proof.Machine.execReductionAck core s
  | .homeFill c va => Sys2Proof.Machine.execHomeFill c va s
  | .homeWriteback core n evict => Sys2Proof.Machine.execHomeWriteback core n evict s
  | .homeStore core n => Sys2Proof.Machine.execHomeStore core n s
  | .replicaRequest core line => Sys2Proof.Machine.execReplicaRequest core line s
  | .replicaInvalidation slice line => Sys2Proof.Machine.execReplicaInvalidation slice line s
  | .rd32 st q => Sys2Proof.Machine.execRd32 st q s
  | .rd64 st q => Sys2Proof.Machine.execRd64 st q s
  | .wrt32 st q => Sys2Proof.Machine.execWrt32 st q s
  | .wrt64 st q => Sys2Proof.Machine.execWrt64 st q s
  | .wrtm st q => Sys2Proof.Machine.execWrtm st q s
  | .itRead st q => Sys2Proof.Machine.execItRead st q s
  | .itMove st q => Sys2Proof.Machine.execItMove st q s
  | .itMoveRetire st q => Sys2Proof.Machine.execItMoveRetire st q s
  | .moveLineCopy st n => Sys2Proof.Machine.execMoveLineCopy st n s
  | .readData st n => Sys2Proof.Machine.execReadData st n s
  | .writeAcknowledgement st n => Sys2Proof.Machine.execWriteAcknowledgement st n s
  | .errorReply st n => Sys2Proof.Machine.execErrorReply st n s
  | .retreqRead st => Sys2Proof.Machine.execRetreqRead st s
  | .refreshDue st pc => Sys2Proof.Machine.execRefreshDue st pc s
  | .refreshDone st pc bank => Sys2Proof.Machine.execRefreshDone st pc bank s
  | .bankIdleTimeout st pc bank => Sys2Proof.Machine.execBankIdleTimeout st pc bank s
  | .retrainDone => Sys2Proof.Machine.execRetrainDone s
  | .relockHoldEnd die => Sys2Proof.Machine.execRelockHoldEnd die s
  | .pageTableWalk c va => Sys2Proof.Machine.execPageTableWalk c va s
  | .pageResponseSuccess n => Sys2Proof.Machine.execPageResponseSuccess n s
  | .pageResponseInvalid n => Sys2Proof.Machine.execPageResponseInvalid n s
  | .pageResponseFailure n => Sys2Proof.Machine.execPageResponseFailure n s
  | .atsTranslationCompletion sorus n frame => Sys2Proof.Machine.execAtsTranslationCompletion sorus n frame s
  | .atsInvalidateRequest asid va => Sys2Proof.Machine.execAtsInvalidateRequest asid va s
  | .forwardedCompletion n err bytes => Sys2Proof.Machine.execForwardedCompletion n err bytes s
  | .migrationHint sorus n => Sys2Proof.Machine.execMigrationHint sorus n s
  | .dirtyLogMerge core => Sys2Proof.Machine.execDirtyLogMerge core s
  | .wenpenRemoteAccess port tag op => Sys2Proof.Machine.execWenpenRemoteAccess port tag op s
  | .wenpenResend port => Sys2Proof.Machine.execWenpenResend port s
  | .linkReset port => Sys2Proof.Machine.execLinkReset port s
  | .hostLinkAccess acc => Sys2Proof.Machine.execHostLinkAccess acc s
  | .copyComplete core n => Sys2Proof.Machine.execCopyComplete core n s
  | .copyEngineFault core n cause addr => Sys2Proof.Machine.execCopyEngineFault core n cause addr s
  | .collMessage dst src id => Sys2Proof.Machine.execCollMessage dst src id s
  | .collWithdrawal core id => Sys2Proof.Machine.execCollWithdrawal core id s
  | .cellDecrement n => Sys2Proof.Machine.execCellDecrement n s
  | .cellCountZero core cell => Sys2Proof.Machine.execCellCountZero core cell s
  | .barrierReport n => Sys2Proof.Machine.execBarrierReport n s
  | .barrierPhaseComplete sorus b => Sys2Proof.Machine.execBarrierPhaseComplete sorus b s
  | .barrierStateWrite sorus b w => Sys2Proof.Machine.execBarrierStateWrite sorus b w s
  | .mutexStateWrite sorus m w => Sys2Proof.Machine.execMutexStateWrite sorus m w s
  | .clrev sorus => Sys2Proof.Machine.execClrev sorus s
  | .clrmtx sorus mask => Sys2Proof.Machine.execClrmtx sorus mask s
  | .clrbar sorus mask => Sys2Proof.Machine.execClrbar sorus mask s
  | .channelFlitArrival n => Sys2Proof.Machine.execChannelFlitArrival n s
  | .channelReady core chan => Sys2Proof.Machine.execChannelReady core chan s
  | .hostWindowPacket slot p => Sys2Proof.Machine.execHostWindowPacket slot p s
  | .mailboxPacket p => Sys2Proof.Machine.execMailboxPacket p s
  | .launchDispatch => Sys2Proof.Machine.execLaunchDispatch s
  | .fanoutFlitArrival n => Sys2Proof.Machine.execFanoutFlitArrival n s
  | .spillReturn core => Sys2Proof.Machine.execSpillReturn core s
  | .taskStart c => Sys2Proof.Machine.execTaskStart c s
  | .launchCompletion ctr => Sys2Proof.Machine.execLaunchCompletion ctr s
  | .launchUnitCancel l => Sys2Proof.Machine.execLaunchUnitCancel l s
  | .taskKill c => Sys2Proof.Machine.execTaskKill c s
  | .eviction c => Sys2Proof.Machine.execEviction c s
  | .migration c => Sys2Proof.Machine.execMigration c s
  | .phaseBoundary => Sys2Proof.Machine.execPhaseBoundary s
  | .deadlock => Sys2Proof.Machine.execDeadlock s
  | .hardEventLimit sorus => Sys2Proof.Machine.execHardEventLimit sorus s
  | .uncoreue slice set => Sys2Proof.Machine.execUncoreue slice set s
  | .containmentFence e => Sys2Proof.Machine.execContainmentFence e s
  | .containmentReset e => Sys2Proof.Machine.execContainmentReset e s
  | .selfTestDone e pass => Sys2Proof.Machine.execSelfTestDone e pass s
  | .containmentRelease e => Sys2Proof.Machine.execContainmentRelease e s
  | .containmentClearCounts e => Sys2Proof.Machine.execContainmentClearCounts e s
  | .bufpartWrite core w => Sys2Proof.Machine.execBufpartWrite core w s
  | .bufvClear core buf mask => Sys2Proof.Machine.execBufvClear core buf mask s
  | .gquery w => Sys2Proof.Machine.execGquery w s
  | .debugHalt core => Sys2Proof.Machine.execDebugHalt core s
  | .debugResume core => Sys2Proof.Machine.execDebugResume core s
  | .debugStep core => Sys2Proof.Machine.execDebugStep core s
  | .debugStop core => Sys2Proof.Machine.execDebugStop core s
  | .debugWindowAccess core off w => Sys2Proof.Machine.execDebugWindowAccess core off w s
  | .spmcSelWrite sorus n w => Sys2Proof.Machine.execSpmcSelWrite sorus n w s
  | .hashPass asid => Sys2Proof.Machine.execHashPass asid s
  | .hostDoorbell => Sys2Proof.Machine.execHostDoorbell s
  | .attestationRequest nonce => Sys2Proof.Machine.execAttestationRequest nonce s
  | .bootCounterClear => Sys2Proof.Machine.execBootCounterClear s
  | .bootok => Sys2Proof.Machine.execBootok s
  | .bootWatchdog => Sys2Proof.Machine.execBootWatchdog s
  | .deviceReset => Sys2Proof.Machine.execDeviceReset s
  | .clampStepDown die => Sys2Proof.Machine.execClampStepDown die s
  | .clampStepUp die => Sys2Proof.Machine.execClampStepUp die s
  | .thermalTrip => Sys2Proof.Machine.execThermalTrip s
  | .registerWrite c num w => Sys2Proof.Machine.execRegisterWrite c num w s
  | .powerLoss => Sys2Proof.Machine.execPowerLoss s
  | .pageRequestsEnabled => Sys2Proof.Machine.execPageRequestsEnabled s
  | .softError site double => Sys2Proof.Machine.execSoftError site double s
  | .replicaInvalidationAcknowledgement slice line => Sys2Proof.Machine.execReplicaInvalidationAcknowledgement slice line s
  | .returningOperationReply c => Sys2Proof.Machine.execReturningOperationReply c s

end Sys2Proof.Machine
end

