-- ==== Sys2Proof/Machine/Step.lean ====
section
/-!
DEFINITION. One step of the machine, and placing an instruction where the next step fetches (log entry 1).
-/
namespace Sys2Proof.Machine

/-- One step: the next turn, or, with none listed, the move of a context (log entry 1). -/
def step (s : State) : Host.Outcome State Fault Refusal :=
  if s.dev.power then
    match nextMove s with
    | .moved t => .next (settled s t false)
    | .run i u => noted s u i (exec i u)
  else match unpoweredMove s with
    | some (i, s) => exec i s
    | none => .fault .poweredOff

/-- `s` with an instruction of the table stored where the current context fetches next. -/
def State.withFetchWord (s : State) (nbits w : Nat) : State := placeAt s (leBytes 16 (w % 2 ^ nbits))

end Sys2Proof.Machine
end

