-- ==== Sys2Proof/Safety.lean ====
section
/-!
DEFINITION. What counts as a safe run, and the words in which claims are stated: when an instruction is enabled, what it may read, what
retires it, and what it leaves unchanged.
-/
namespace Sys2Proof.Machine

/-- A step that goes on. -/
def Goes (s t : State) : Prop := step s = .next t

/-- States that steps reach from a state. -/
inductive Reaches : State → State → Prop
  | refl (s : State) : Reaches s s
  | next {s t u : State} : Reaches s t → Goes t u → Reaches s u

/-- Memory in its canonical form (R14; log entry 5): addresses rising, no zero byte listed. -/
def State.memOk (s : State) : Prop := memWf s.mem = true

/-- A context's p0 is true (R9, R232). -/
def Ctx.p0True (c : Ctx) : Prop := c.p.getLsbD 0 = true

/-- A run is safe while every step goes on: nothing but the loss of power ends one. -/
def Safe (s : State) : Prop := ∀ t, Reaches s t → ∃ u, Goes t u

/-! ### When an instruction executes -/

/-- Register i can be read: no uncorrectable flip (R410). -/
def Ctx.readable (c : Ctx) (i : Nat) : Bool := !(i != 0 && c.gue.getLsbD i)

/-- Predicate i can be read (R410). -/
def Ctx.pReadable (c : Ctx) (i : Nat) : Bool := !(i != 0 && c.pue.getLsbD i)

/-- An instruction whose predicate can be read and does not disable it (R196). -/
def Enabled (f : Frame) (s : State) : Prop :=
  f.pr = 0 ∨ (s.ctx.pReadable f.pr.val = true ∧ s.ctx.pred f.pr.val ≠ f.pn)

/-- An instruction that its predicate disables (R196). -/
def Disabled (f : Frame) (s : State) : Prop :=
  f.pr ≠ 0 ∧ s.ctx.pReadable f.pr.val = true ∧ s.ctx.pred f.pr.val = f.pn

/-- No debug step of the acting context runs (R442). -/
def NoStep (s : State) : Prop := s.myCore.stepping = false

/-! ### What an instruction leaves unchanged -/

/-- Everything but the acting context is as before: the turns, the sori, slices and stacks, memory, the launch unit, the device, every
core's other fields, every other context; and every byte of device memory reads as before. -/
structure OutsideKept (s t : State) : Prop where
  rest : { t with cores := s.cores } = s
  core : ∀ n, { t.core n with c0 := (s.core n).c0, c1 := (s.core n).c1 } = s.core n
  ctx : ∀ n x, ¬(n = s.me ∧ (x = 0 ↔ s.mycx = 0)) → t.ctxAt n x = s.ctxAt n x
  byte : ∀ a, physByte t a = physByte s a

/-- The context has retired one instruction to a successor: REPT steps (R255), the count of retired instructions rises, no wait stands. -/
structure Stepped (next : Word) (c d : Ctx) : Prop where
  pc : d.pc = (c.stepRept next).pc
  reptst : d.reptst = (c.stepRept next).reptst
  retired : d.retired = c.retired + 1
  wait : d.wait = none

/-- Every register of the context but the scalar registers, the predicates, FPSR, the PC and REPTST is as before: tiles, the registers of
an exception, the special registers, the region. An armed scalar injection is used up (R361), and the marks of what a region has written
(log entry 87) go with the registers. -/
def SpecialsKept (c d : Ctx) : Prop :=
  { d with
    g := c.g, gue := c.gue, p := c.p, pue := c.pue, fpsr := c.fpsr, pc := c.pc, reptst := c.reptst, retired := c.retired
    wait := c.wait, fwdGot := c.fwdGot, pageGot := c.pageGot, injScalar := c.injScalar
    gnew := c.gnew, pnew := c.pnew } = c

/-- Every scalar register but one is as before; that one holds a value, g0 nothing (R9, R232). -/
def RegsAre (c d : Ctx) (i : Nat) (v : Word) : Prop := ∀ j, d.reg j = if j = i ∧ i ≠ 0 then v else c.reg j

/-- Every predicate register but one is as before; that one holds a value, p0 nothing (R9, R232). -/
def PredsAre (c d : Ctx) (i : Nat) (v : Bool) : Prop := ∀ j, j < 8 → d.pred j = if j = i ∧ i ≠ 0 then v else c.pred j

/-- The address after an instruction. -/
def afterPc (f : Frame) (s : State) : Word := s.ctx.pc + wordOf f.len.bytes

/-- An instruction that writes one scalar register, sets flags, retires to `next` and does nothing else. -/
structure SetsReg (next : Word) (s t : State) (d : Nat) (v : Word) (fl : Flags) : Prop where
  outside : OutsideKept s t
  step : Stepped next s.ctx t.ctx
  specials : SpecialsKept s.ctx t.ctx
  regs : RegsAre s.ctx t.ctx d v
  flips : t.ctx.gue = if d = 0 then s.ctx.gue else s.ctx.gue &&& ~~~(1#64 <<< d)
  preds : t.ctx.p = s.ctx.p ∧ t.ctx.pue = s.ctx.pue
  flags : t.ctx.fpsr = s.ctx.fpsr ||| fl.setWidth 64

/-- An instruction that writes one predicate register, sets flags, retires to `next` and does nothing else. -/
structure SetsPred (next : Word) (s t : State) (d : Nat) (v : Bool) (fl : Flags) : Prop where
  outside : OutsideKept s t
  step : Stepped next s.ctx t.ctx
  specials : SpecialsKept s.ctx t.ctx
  regs : t.ctx.g = s.ctx.g ∧ t.ctx.gue = s.ctx.gue
  flips : t.ctx.pue = if d = 0 then s.ctx.pue else s.ctx.pue &&& ~~~(1#8 <<< d)
  preds : PredsAre s.ctx t.ctx d v
  flags : t.ctx.fpsr = s.ctx.fpsr ||| fl.setWidth 64

/-! ### Instructions that reach beyond their context -/

/-- A core without its contexts. -/
def Core.bare (k : Core) : Core := { k with c0 := Ctx.reset, c1 := Ctx.reset }

/-- All but the acting context is as before, up to what `m` erases of the state and `k` of the acting core. -/
structure Kept (m : State → State) (k : Core → Core) (s t : State) : Prop where
  rest : m { t with cores := [] } = m { s with cores := [] }
  cur : t.cur = s.cur
  others : ∀ n, n ≠ s.me → t.core n = s.core n
  mine : k t.myCore.bare = k s.myCore.bare
  other : t.ctxAt s.me (1 - s.mycx) = s.ctxAt s.me (1 - s.mycx)

/-- The instruction retires to the next one: its context becomes `c`, retired; all else as `Kept` says. -/
structure Done (m : State → State) (k : Core → Core) (f : Frame) (s t : State) (c : Ctx) : Prop where
  ctx : t.ctx = c.retire (afterPc f s)
  kept : Kept m k s t

/-- Every byte of device memory reads as before. -/
def BytesKept (s t : State) : Prop := ∀ a, physByte t a = physByte s a

/-- Bytes are stored at a device-physical address, and every byte that lies elsewhere in memory (R61) reads as before. -/
structure Stores (s t : State) (pa : Nat) (bs : List Byte) : Prop where
  stored : ∀ i, i < bs.length → physByte t (pa + i) = bs.getD i 0
  others : ∀ a, (∀ i, i < bs.length → keyOf s a ≠ keyOf s (pa + i)) → physByte t a = physByte s a

/-- What erases nothing. -/
def nothing {α : Type} (x : α) : α := x

/-- The slices' own state: tags, positions, lists of waiters. -/
def noSlices (s : State) : State := { s with slices := [] }

/-- Memory, and the slices' own state. -/
def noMemory (s : State) : State := { s with slices := [], mem := [] }

/-- Memory with the stacks, and the slices' own state. -/
def noStacks (s : State) : State := { s with slices := [], mem := [], stackTab := [] }

/-- Every stack is as before but for what it knows of poison, flips, corrected reads and frames to retire (R66, R67, R103). -/
def StacksKept (s t : State) : Prop :=
  ∀ n, { t.stack n with
    poison := (s.stack n).poison, flips := (s.stack n).flips, corrected := (s.stack n).corrected, retreq := (s.stack n).retreq } = s.stack n

/-- The lines of an L1. -/
def noL1 (k : Core) : Core := { k with l1 := [] }

/-- The non-returning operations of a core. -/
def noOps (k : Core) : Core := { k with nonRet := [] }

/-- The write-combining buffer of a core. -/
def noWc (k : Core) : Core := { k with wc := [] }

/-! ### Accesses -/

/-- No relock hold runs (R59). -/
def NoHold (s : State) : Prop := s.dev.relock0 = [] ∧ s.dev.relock1 = []

/-- An instruction that runs for the first time, with nothing of its core on the way: the store buffer and the write-combining buffer
empty, no reduction pending, no SPEC line, no SO store to an owner or SO part of a copy outstanding, no miss sampled, no region open, no wait
standing, no page request answered, no relock hold running (R59); and its stores are performed at once (log entry 13). -/
structure Settled (s : State) : Prop where
  step : NoStep s
  wait : s.ctx.wait = none
  region : s.ctx.regionOpen = false
  stores : s.myCore.sbuf = []
  hold : s.myCore.holdStores = false
  wc : s.myCore.wc = []
  ops : s.myCore.nonRet = []
  ordered : s.dev.posted.any (fun p => p.so && p.core == some s.me) = false
  parts : s.myCore.soParts = []
  relock : NoHold s
  pages : s.ctx.pageGot = []
  copies : s.myCore.engine.any (fun o => o.soLeft s s.me) = false
  spec : ∀ l ∈ s.myCore.l1, l.spec = none
  sample : bitOf s.myCore.sbase 0 = false
  pin : s.ctx.pin = none

/-- n bytes at va, inside one line, on a device-owned DRAM page that the sorus's TLB holds and that allows the access in the context's
mode (R13, R74, R76). -/
structure Mapped (s : State) (va n : Nat) (acc : Access) (a : Attr) : Prop where
  canonical : canonical va = true
  size : 0 < n
  line : va % 64 + n ≤ 64
  page : ∃ e, ((s.sorus (sorusOf s.me)).tlb.find? fun e =>
      (e.asid == s.ctx.asid || bitOf e.leaf 10) && va / 2 ^ e.size == e.va / 2 ^ e.size) = some e ∧
    a = attrOf e.leaf va e.size ∧ leafAllows e.leaf acc s.ctx.mode = true
  owner : a.fwd = 0
  offset : a.pa % 64 = va % 64
  there : ∀ i, i < 64 → (keyOf s (lineOf a.pa + i)).isSome

/-- A home slice takes a line in without evicting another one: it holds the line, or its set has a free way (R52). -/
def HomeRoom (s : State) (line : Nat) : Prop :=
  (s.slice (homeOf line)).tags.any (fun t => t.line == line && !t.rcopy) = true ∨ (l2Ways (s.slice (homeOf line)) line).length < 16

/-- The same of a side array (R148). -/
def SideRoom (s : State) (line : Nat) : Prop :=
  (s.slice (homeOf line)).side.any (fun e => e.line == line) = true ∨
    ((s.slice (homeOf line)).side.filter fun e => sideSet e.line == sideSet line).length < 16

/-- Is a bit of the granule of an address flipped (R66, R67)? -/
def flippedAt (s : State) (pa : Nat) : Bool :=
  match granuleOf s pa with
  | some (st, g) => (s.stack st).flips.contains g
  | none => false

/-- The line of an access is nowhere but at home, no byte of it is poisoned and no bit flipped, and the caches have room for it. -/
structure AtHome (s : State) (va : Nat) (a : Attr) : Prop where
  miss : l1Find s s.me s.ctx.asid va = none
  ways : (s.myCore.l1.filter fun l => l1Set l.va == l1Set va).length < 10
  alone : holders s (sorusOf s.me) (lineOf a.pa) = []
  clean : ∀ i, i < 64 → poisonedAt s (lineOf a.pa + i) = false
  sound : ∀ i, i < 64 → flippedAt s (lineOf a.pa + i) = false
  room : HomeRoom s (lineOf a.pa)

/-- No registrant of a region and no waiter meets a write to a line (R152, R276), and its slice has room for the line and its position. -/
structure Unwatched (s : State) (line : Nat) : Prop where
  room : HomeRoom s line
  side : SideRoom s line
  sound : homeHolds s line = true ∨ ∀ i, i < 64 → poisonedAt s (line + i) = false ∧ flippedAt s (line + i) = false
  slots : ∀ e ∈ (s.slice (homeOf line)).side, e.line = line → e.slots = []
  waits : ∀ e ∈ (s.slice (homeOf line)).waits, e.line ≠ line

/-- The page of an access is in the dirty filter, so that a store notes nothing (R86). -/
def Noted (s : State) (va : Nat) : Prop := noteAt s s.me s.ctx.xlat va = some s

/-- A page whose accesses are served at home: C = 0 and RC, or SO (R107, R109). -/
def Attr.uncached (a : Attr) : Prop := a.kind = 2 ∨ (a.kind = 0 ∧ a.c = false)

/-- A page whose accesses go through the L1 (R106). -/
def Attr.cached (a : Attr) : Prop := a.kind ≠ 2 ∧ a.c = true

/-- The page of an access is in the sorus's TLB and refuses it (R76). -/
structure Refused (s : State) (va : Nat) (acc : Access) : Prop where
  canonical : canonical va = true
  miss : l1Find s s.me s.ctx.asid va = none
  wait : s.ctx.wait = none
  relock : NoHold s
  pages : s.ctx.pageGot = []
  page : ∃ e, ((s.sorus (sorusOf s.me)).tlb.find? fun e =>
      (e.asid == s.ctx.asid || bitOf e.leaf 10) && va / 2 ^ e.size == e.va / 2 ^ e.size) = some e ∧
    leafAllows e.leaf acc s.ctx.mode = false

/-- No clean byte that could be stale at a scope stays in a core's L1 (R124). -/
def Acquired (core : Nat) (k : Core) (sc : Scope) : Prop :=
  ∀ l ∈ k.l1, l.spec = none → (if l.uo then coreScope core else sorScope core).contains sc = false → l.pres = l.dirty ∧ l.dirty ≠ 0

/-- No dirty byte that a release at a scope writes back stays in a core's L1 (R123). -/
def Released (core : Nat) (k : Core) (sc : Scope) : Prop :=
  ∀ l ∈ k.l1, l.spec = none → l.dirty ≠ 0 → (markScope core l).contains sc = true

/-- The scope that an instruction names, as its entry stands (R118, R121). -/
def ScopeIs (s : State) (r : Nat) (sc : Scope) : Prop := resolveScope s s.me (fieldOf s.ctx.sctbl 0 6) r = some sc

end Sys2Proof.Machine
end

