-- ==== Sys2Proof/Certificates/Slice0/Obligations.lean ====
section
/-!
DEFINITION. The statements for the provers, each from a rule of the spec, and the words they are stated in.
-/
namespace Sys2Proof.Spec
open Sys2Proof.Machine

/-! ### Class 000: integers -/

/-- The register forms of R234, each with its operation. -/
def aluRForms : List ((Frame → FmtR → Instr) × AluOp) := [
  (.add, .add), (.sub, .sub), (.mul, .mul), (.mulh, .mulh), (.mulhu, .mulhu), (.div, .div), (.divu, .divu), (.rem, .rem),
  (.remu, .remu), (.andR, .and), (.orR, .or), (.xorR, .xor), (.andn, .andn), (.shl, .shl), (.shr, .shr), (.sar, .sar),
  (.rot, .rot), (.minR, .min), (.maxR, .max), (.minu, .minu), (.maxu, .maxu)]

/-- The immediate forms of R235. -/
def aluIForms : List ((Frame → FmtI → Instr) × AluOp) := [
  (.addImm, .add), (.subImm, .sub), (.mulImm, .mul), (.mulhImm, .mulh), (.mulhuImm, .mulhu), (.divImm, .div),
  (.divuImm, .divu), (.remImm, .rem), (.remuImm, .remu), (.andImm, .and), (.orImm, .or), (.xorImm, .xor), (.andnImm, .andn),
  (.shlImm, .shl), (.shrImm, .shr), (.sarImm, .sar), (.rotImm, .rot), (.minImm, .min), (.maxImm, .max), (.minuImm, .minu),
  (.maxuImm, .maxu)]

/-- r of R234's table on W-bit words, with the fixed results of R236. -/
def aluBits (op : AluOp) {w : Nat} (a b : BitVec w) : BitVec w :=
  match op with
  | .add => a + b
  | .sub => a - b
  | .mul => a * b
  | .mulh => BitVec.ofInt w (a.toInt * b.toInt / 2 ^ w)
  | .mulhu => BitVec.ofNat w (a.toNat * b.toNat / 2 ^ w)
  | .div => if b = 0 then BitVec.allOnes w else a.sdiv b
  | .divu => if b = 0 then BitVec.allOnes w else a / b
  | .rem => if b = 0 then a else a.srem b
  | .remu => if b = 0 then a else a % b
  | .and => a &&& b
  | .or => a ||| b
  | .xor => a ^^^ b
  | .andn => a &&& ~~~b
  | .shl => a <<< (b.toNat % w)
  | .shr => a >>> (b.toNat % w)
  | .sar => a.sshiftRight (b.toNat % w)
  | .rot => a.rotateLeft (b.toNat % w)
  | .min => if a.sle b then a else b
  | .max => if b.sle a then a else b
  | .minu => if a.ule b then a else b
  | .maxu => if b.ule a then a else b

/-- gD of R234: W = 32 reads the low halves and sign-extends. -/
def aluResult (op : AluOp) (w32 : Bool) (a b : Word) : Word :=
  if w32 then (aluBits op (a.setWidth 32) (b.setWidth 32)).signExtend 64 else aluBits op a b

end Sys2Proof.Spec

open Sys2Proof Sys2Proof.Machine Sys2Proof.Spec

/-- R234, R236, R232: every register form of the 21 integer operations, enabled and with readable sources, retires with its result in
gD (nothing in g0), no flag, and nothing else changed.
R235, R236, R232: the same of every immediate form, whose b is the immediate. -/
def Obligations.IntegerOperations : Prop :=
  (∀ p ∈ aluRForms, ∀ (f : Frame) (r : FmtR) (s : State), Enabled f s → NoStep s →
    s.ctx.readable r.a.val = true → s.ctx.readable r.b.val = true →
    ∃ t, exec (p.1 f r) s = .next t ∧
      SetsReg (afterPc f s) s t r.d.val (aluResult p.2 (r.ty == .i32) (s.ctx.reg r.a.val) (s.ctx.reg r.b.val)) 0) ∧
  (∀ p ∈ aluIForms, ∀ (f : Frame) (r : FmtI) (s : State), Enabled f s → NoStep s → s.ctx.readable r.a.val = true →
    ∃ t, exec (p.1 f r) s = .next t ∧
      SetsReg (afterPc f s) s t r.d.val (aluResult p.2 (r.var.val % 2 == 1) (s.ctx.reg r.a.val) r.imm) 0)

namespace Sys2Proof.Spec
open Sys2Proof.Machine

/-! ### Class 000: counts, selection, comparison, constants -/

/-- Zeros above the highest one bit of the low w bits (R237). -/
def leadingZeros (w : Nat) (a : Word) : Nat := ((List.range w).takeWhile fun i => !a.getLsbD (w - 1 - i)).length

/-- Zeros below the lowest one bit of the low w bits (R237). -/
def trailingZeros (w : Nat) (a : Word) : Nat := ((List.range w).takeWhile fun i => !a.getLsbD i).length

/-- One bits among the low w bits (R237). -/
def oneBits (w : Nat) (a : Word) : Nat := ((List.range w).filter fun i => a.getLsbD i).length

/-- The condition of R200 between two words of w bits. -/
def condBits (c : Cond) {w : Nat} (a b : BitVec w) : Bool :=
  match c with
  | .always => true
  | .never => false
  | .eq => a == b
  | .ne => a != b
  | .lt => a.slt b
  | .ge => b.sle a
  | .ltu => a.ult b
  | .geu => b.ule a

/-- The condition on the low 32 bits or on all 64 (R240). -/
def condResult (c : Cond) (w32 : Bool) (a b : Word) : Bool :=
  if w32 then condBits c (a.setWidth 32) (b.setWidth 32) else condBits c a b

/-- W of an integer register form (R234). -/
def widthBits (r : FmtR) : Nat := if r.ty == .i32 then 32 else 64

end Sys2Proof.Spec

/-- R237: CLZ, CTZ and POPC count within the low W bits of gA; of a zero the first two return W.
R238, R239, R242: SEXT and ZEXT take the low 8, 16 or 32 bits, SEL takes gA or gB by predicate C, LI sets the immediate, and LEA sets
the PC or gA plus the immediate. -/
def Obligations.CountsSelectionConstants : Prop :=
  (∀ (f : Frame) (r : FmtR) (s : State), Enabled f s → NoStep s → s.ctx.readable r.a.val = true →
    (∃ t, exec (.clz f r) s = .next t ∧
      SetsReg (afterPc f s) s t r.d.val (BitVec.ofNat 64 (leadingZeros (widthBits r) (s.ctx.reg r.a.val))) 0) ∧
    (∃ t, exec (.ctz f r) s = .next t ∧
      SetsReg (afterPc f s) s t r.d.val (BitVec.ofNat 64 (trailingZeros (widthBits r) (s.ctx.reg r.a.val))) 0) ∧
    (∃ t, exec (.popc f r) s = .next t ∧
      SetsReg (afterPc f s) s t r.d.val (BitVec.ofNat 64 (oneBits (widthBits r) (s.ctx.reg r.a.val))) 0)) ∧
  (∀ (f : Frame) (s : State), Enabled f s → NoStep s →
    (∀ (r : FmtR) (n : Nat), (r.var.val, n) ∈ [(0, 8), (1, 16), (2, 32)] → s.ctx.readable r.a.val = true →
      (∃ t, exec (.sext f r) s = .next t ∧
        SetsReg (afterPc f s) s t r.d.val (((s.ctx.reg r.a.val).setWidth n).signExtend 64) 0) ∧
      (∃ t, exec (.zext f r) s = .next t ∧
        SetsReg (afterPc f s) s t r.d.val (((s.ctx.reg r.a.val).setWidth n).setWidth 64) 0)) ∧
    (∀ r : FmtR, s.ctx.readable r.a.val = true → s.ctx.readable r.b.val = true → s.ctx.pReadable r.c.val = true →
      ∃ t, exec (.sel f r) s = .next t ∧
        SetsReg (afterPc f s) s t r.d.val (if s.ctx.pred r.c.val then s.ctx.reg r.a.val else s.ctx.reg r.b.val) 0) ∧
    (∀ r : FmtI, ∃ t, exec (.li f r) s = .next t ∧ SetsReg (afterPc f s) s t r.d.val r.imm 0) ∧
    (∀ r : FmtI, s.ctx.readable r.a.val = true → ∃ t, exec (.lea f r) s = .next t ∧
      SetsReg (afterPc f s) s t r.d.val ((if r.var = 0 then s.ctx.pc else s.ctx.reg r.a.val) + r.imm) 0))

/-- R240, R241, R232: CMP in both forms writes the condition of R200 to pD (nothing to p0), and PLOGIC the truth table's bit. -/
def Obligations.PredicateResults : Prop :=
  ∀ (f : Frame) (s : State), Enabled f s → NoStep s →
    (∀ (r : FmtR) (c : Cond), condOf (r.var.val % 16) = some c → s.ctx.readable r.a.val = true → s.ctx.readable r.b.val = true →
      ∃ t, exec (.cmp f r) s = .next t ∧
        SetsPred (afterPc f s) s t r.d.val (condResult c (r.ty == .i32) (s.ctx.reg r.a.val) (s.ctx.reg r.b.val)) 0) ∧
    (∀ (r : FmtI) (c : Cond), condOf (r.var.val % 16) = some c → s.ctx.readable r.a.val = true →
      ∃ t, exec (.cmpImm f r) s = .next t ∧
        SetsPred (afterPc f s) s t r.d.val (condResult c (r.var.val / 16 == 1) (s.ctx.reg r.a.val) r.imm) 0) ∧
    (∀ r : FmtR, s.ctx.pReadable r.a.val = true → s.ctx.pReadable r.b.val = true →
      ∃ t, exec (.plogic f r) s = .next t ∧
        SetsPred (afterPc f s) s t r.d.val
          (r.var.val.testBit (2 * (s.ctx.pred r.a.val).toNat + (s.ctx.pred r.b.val).toNat)) 0)

namespace Sys2Proof.Spec
open Sys2Proof.Machine

/-! ### Class 000: floating point -/

/-- The exact value and the flags beyond NX, OF and UF that R244 gives FADD, FSUB, FMUL, FDIV, FSQRT and FFMA on the values of gA, gB
and gC; an exact zero sum is −0 under .rd. -/
def floatForms : List ((Frame → FmtR → Instr) × (Rnd → Val → Val → Val → Val × Flags)) := [
  (.fadd, fun m a b _ => Val.add (m == .rd) a b),
  (.fsub, fun m a b _ => Val.add (m == .rd) a b.neg),
  (.fmul, fun _ a b _ => Val.mul a b),
  (.fdiv, fun _ a b _ => Val.div a b),
  (.fsqrt, fun _ a _ _ => Val.sqrt a),
  (.ffma, fun m a b c =>
    ((Val.add (m == .rd) (Val.mul a b).1 c).1, (Val.mul a b).2 ||| (Val.add (m == .rd) (Val.mul a b).1 c).2))]

/-- The random number of .sr from the seed register SC names; none for the other modes (R173, R244). -/
def seedOfReg (r : FmtR) (s : State) : Nat := if r.rnd == .sr then srBits (s.ctx.reg r.sc.val) 0 else 0

/-- The seed register can be read where it is used. -/
def SeedReadable (r : FmtR) (s : State) : Prop := r.rnd = .sr → s.ctx.readable r.sc.val = true

/-- A value rounded once into the destination format with its flags; the register's higher bits are zero (R243). -/
def roundedReg (r : FmtR) (s : State) (v : Val × Flags) : Word × Flags :=
  let e := (tySpec r.ty).encode r.rnd (seedOfReg r s) false v.1
  (BitVec.ofNat 64 e.1, e.2 ||| v.2)

/-- gD and FPSR take a rounded value. -/
def SetsFloat (f : Frame) (r : FmtR) (s t : State) (v : Val × Flags) : Prop :=
  SetsReg (afterPc f s) s t r.d.val (roundedReg r s v).1 (roundedReg r s v).2

/-- An integer that FCVT delivers, and its flags (R175, R247). -/
def fcvtInt (r : FmtR) (s : State) : Nat × Flags :=
  floatToInt (tyBits r.ty) (r.var.val / 16 == 0) r.rnd (seedOfReg r s) (r.var.val / 8 % 2 == 1) (fcvtVal r (s.ctx.reg r.a.val))

/-- What FMIN (`big` false) or FMAX returns of two encodings (R245). -/
def minmaxOf (t : Ty) (big : Bool) (a b : Nat) : Nat :=
  let x := (tySpec t).value a
  let y := (tySpec t).value b
  if x.isNan && y.isNan then (tySpec t).nanCode
  else if x.isNan then b
  else if y.isNan then a
  else if picksFirst big x y then a else b

end Sys2Proof.Spec

/-- R243, R244: the six floating-point operations round the exact value once into the low bits of gD and gather its flags into FPSR.
R245, R246, R248: FMIN and FMAX return an operand exactly (the other one of a NaN, the canonical NaN of two), FCMP the condition of
its table, FCLASS the one bit of the operand's class; a signalling NaN sets IV where the rule says so.
R247, R175: FCVT copies between equal formats exactly, rounds a floating value or an integer into a floating format, and converts a
floating value to an integer whose range, saturation and flags follow the table. -/
def Obligations.FloatOperations : Prop :=
  (∀ p ∈ floatForms, ∀ (f : Frame) (r : FmtR) (s : State), Enabled f s → NoStep s → SeedReadable r s →
    s.ctx.readable r.a.val = true → s.ctx.readable r.b.val = true → s.ctx.readable r.c.val = true →
    ∃ t, exec (p.1 f r) s = .next t ∧
      SetsFloat f r s t (p.2 r.rnd (tyVal r.ty (s.ctx.reg r.a.val)) (tyVal r.ty (s.ctx.reg r.b.val)) (tyVal r.ty (s.ctx.reg r.c.val)))) ∧
  ((∀ (f : Frame) (r : FmtR) (s : State), Enabled f s → NoStep s → s.ctx.readable r.a.val = true → s.ctx.readable r.b.val = true →
    ∀ a b x y, a = tyEnc r.ty (s.ctx.reg r.a.val) → b = tyEnc r.ty (s.ctx.reg r.b.val) →
      x = (tySpec r.ty).value a → y = (tySpec r.ty).value b →
      (∀ p ∈ [((Instr.fmin : Frame → FmtR → Instr), false), (Instr.fmax, true)],
        ∃ t, exec (p.1 f r) s = .next t ∧
          SetsReg (afterPc f s) s t r.d.val (BitVec.ofNat 64 (minmaxOf r.ty p.2 a b)) (x.sigFlag ||| y.sigFlag)) ∧
      (∃ t, exec (.fcmp f r) s = .next t ∧ SetsPred (afterPc f s) s t r.d.val (fcond r.var.val x y).1 (fcond r.var.val x y).2) ∧
      (∃ t, exec (.fclass f r) s = .next t ∧
        ∃ n, n < 10 ∧ classBit (tySpec r.ty) a = n ∧ SetsReg (afterPc f s) s t r.d.val (1#64 <<< n) 0)) ∧
  (∀ (f : Frame) (r : FmtR) (s : State), Enabled f s → NoStep s → SeedReadable r s → s.ctx.readable r.a.val = true →
    (r.ty.isInt = false → fcvtSrc r = r.ty →
      ∃ t, exec (.fcvt f r) s = .next t ∧ SetsReg (afterPc f s) s t r.d.val (BitVec.ofNat 64 (tyEnc r.ty (s.ctx.reg r.a.val))) 0) ∧
    (r.ty.isInt = false → fcvtSrc r ≠ r.ty →
      ∃ t, exec (.fcvt f r) s = .next t ∧ SetsFloat f r s t (fcvtVal r (s.ctx.reg r.a.val), 0)) ∧
    (r.ty.isInt = true →
      ∃ t, exec (.fcvt f r) s = .next t ∧
        SetsReg (afterPc f s) s t r.d.val
          (if r.ty == .i32 && r.var.val / 16 == 0 then (BitVec.ofNat 32 (fcvtInt r s).1).signExtend 64
            else BitVec.ofNat 64 (fcvtInt r s).1) (fcvtInt r s).2)))

namespace Sys2Proof.Spec
open Sys2Proof.Machine

/-! ### Class 010: control -/

/-- An instruction that goes to `next`, writes one register (none with d = 0) and does nothing else. -/
def Jumps (next : Word) (s t : State) (d : Nat) (v : Word) : Prop := SetsReg next s t d v 0 ∧ t.ctx.injScalar = s.ctx.injScalar

/-- PC + 4 × OFF26 (R200). -/
def targetOf (s : State) (r : FmtB) : Word := s.ctx.pc + r.off.signExtend 64 * 4

/-- No retired store of the acting core waits in the store buffer (R105). -/
def StoresDone (s : State) : Prop := s.myCore.sbuf = []

/-- No region is open in the acting context. -/
def NoRegion (s : State) : Prop := s.ctx.regionOpen = false

/-- No trace record is written: the ring is off (R445). -/
def NoTrace (s : State) : Prop := bitOf s.dev.trace.ctl 0 = false

/-- A trap of the acting context is delivered: TVEC.EN = 1, INTRAP = 0, no region open (R402); no trace, no debug step. -/
structure TrapReady (s : State) : Prop where
  enabled : bitOf s.ctx.tvec 0 = true
  outside : bitOf s.ctx.estat 2 = false
  region : NoRegion s
  trace : NoTrace s
  step : NoStep s

/-- What a delivered trap leaves in its context (R397, R398, R399, R402): c before, d after. -/
structure Trapped (c : Ctx) (cx code : Nat) (faddr fpc : Word) (seq : Nat) (d : Ctx) : Prop where
  cause : fieldOf d.fcause 0 7 = code
  event : bitOf d.fcause 9 = false
  context : fieldOf d.fcause 10 1 = cx
  fpc : d.fpc = fpc
  faddr : d.faddr = faddr
  fseq : d.fseq = BitVec.ofNat 64 seq
  pmode : fieldOf d.estat 0 2 = c.mode.code
  inTrap : bitOf d.estat 2 = true
  endf : bitOf d.estat 7 = false
  mode : d.mode = .supervisor
  pc : d.pc = (c.tvec >>> 9 <<< 9) + BitVec.ofNat 64 (code / 16 * 0x40)
  regs : d.g = c.g ∧ d.p = c.p ∧ d.tiles = c.tiles ∧ d.fpsr = c.fpsr ∧ d.tvec = c.tvec ∧ d.sscr = c.sscr ∧ d.taskjoin = c.taskjoin ∧
    d.corectl = c.corectl ∧ d.ptroot = c.ptroot ∧ d.task = c.task ∧ d.active = c.active

/-- The acting context takes a trap at the PC of its instruction; nothing outside the context changes (R394, R402). -/
def Faults (s t : State) (code : Nat) (faddr : Word) : Prop :=
  Trapped s.ctx s.mycx code faddr s.ctx.pc s.ctx.retired t.ctx ∧ OutsideKept s t

/-- The acting context's instruction retires and a trap follows: FPC is the next instruction (R394). -/
def RetiresAndTraps (f : Frame) (s t : State) (code : Nat) (faddr : Word) : Prop :=
  Trapped s.ctx s.mycx code faddr (s.ctx.stepRept (afterPc f s)).pc (s.ctx.retired + 1) t.ctx ∧ OutsideKept s t

/-- What ERET restores where ENDF = 0 (R403): c before, d after. -/
structure Returned (c d : Ctx) : Prop where
  pc : d.pc = c.fpc
  mode : d.mode = modeOf (fieldOf c.estat 0 2)
  inTrap : bitOf d.estat 2 = false
  pmode : fieldOf d.estat 0 2 = fieldOf c.estat 0 2
  regs : d.g = c.g ∧ d.p = c.p ∧ d.tiles = c.tiles ∧ d.fpsr = c.fpsr ∧ d.reptst = c.reptst ∧ d.fcause = c.fcause ∧ d.fpc = c.fpc ∧
    d.faddr = c.faddr ∧ d.tvec = c.tvec

end Sys2Proof.Spec

/-- R200, R251, R252, R259: NOP goes on; B, BC, BCMP and CALL go to PC + 4 × OFF26 where their condition holds; CALLR, RET and JMPR go to
gA; CALL and CALLR leave the next address in their link register, CALLR reading its target first. Nothing else changes. -/
def Obligations.Branches : Prop :=
  ∀ (f : Frame) (s : State), Enabled f s → NoStep s →
    (∀ r : FmtR, ∃ t, exec (.nop f r) s = .next t ∧ Jumps (afterPc f s) s t 0 0) ∧
    (∀ r : FmtB, ∃ t, exec (.b f r) s = .next t ∧ Jumps (targetOf s r) s t 0 0) ∧
    (∀ r : FmtB, s.ctx.pReadable r.a.val = true → ∃ t, exec (.bc f r) s = .next t ∧
      Jumps (if s.ctx.pred r.a.val = (r.cond == .always) then targetOf s r else afterPc f s) s t 0 0) ∧
    (∀ r : FmtB, s.ctx.readable r.a.val = true → s.ctx.readable r.b.val = true → ∃ t, exec (.bcmp f r) s = .next t ∧
      Jumps (if condBits r.cond (s.ctx.reg r.a.val) (s.ctx.reg r.b.val) then targetOf s r else afterPc f s) s t 0 0) ∧
    (∀ r : FmtB, ∃ t, exec (.call f r) s = .next t ∧ Jumps (targetOf s r) s t r.a.val (afterPc f s)) ∧
    (∀ r : FmtR, s.ctx.readable r.a.val = true →
      (∃ t, exec (.callr f r) s = .next t ∧ Jumps (s.ctx.reg r.a.val) s t r.d.val (afterPc f s)) ∧
      (∃ t, exec (.ret f r) s = .next t ∧ Jumps (s.ctx.reg r.a.val) s t 0 0) ∧
      (∃ t, exec (.jmpr f r) s = .next t ∧ Jumps (s.ctx.reg r.a.val) s t 0 0))

/-- R254, R255, R464: a REPT with a count above 0 starts its block at the next instruction: COUNT, STEP and k − 1 in REPTST, pass offset
and position 0, the block's address in REPTPC, the hold released. With a count of 0 the block is skipped and COUNT is 0. -/
def Obligations.ReptBlocks : Prop :=
  ∀ (f : Frame) (r : FmtI) (s : State), Enabled f s → NoStep s → s.ctx.readable r.a.val = true →
    ((s.ctx.reg r.a.val + r.imm).toNat % 2 ^ 32 ≠ 0 → ∃ t, exec (.rept f r) s = .next t ∧ OutsideKept s t ∧
      t.ctx.pc = afterPc f s ∧ t.ctx.reptpc = afterPc f s ∧
      fieldOf t.ctx.reptst 32 32 = (s.ctx.reg r.a.val + r.imm).toNat % 2 ^ 32 ∧
      fieldOf t.ctx.reptst 20 4 = 0 ∧ fieldOf t.ctx.reptst 16 4 = r.sc.val % 16 ∧
      fieldOf t.ctx.reptst 8 4 = r.var.val % 16 ∧ fieldOf t.ctx.reptst 0 4 = 0 ∧
      t.ctx.hold = false ∧ t.ctx.retired = s.ctx.retired + 1 ∧ t.ctx.g = s.ctx.g ∧ t.ctx.p = s.ctx.p ∧ t.ctx.tiles = s.ctx.tiles) ∧
    (∀ next u, (s.ctx.reg r.a.val + r.imm).toNat % 2 ^ 32 = 0 →
      (skipM (r.var.val % 16 + 1) (afterPc f s)).run s = .ok next u → NoStep u →
      ∃ t, exec (.rept f r) s = .next t ∧ t.ctx.pc = next ∧ fieldOf t.ctx.reptst 32 32 = 0)

/-- R260, R354, R360: TRAP and ECALL retire and then raise TRAPINST, ECALLU or ECALLS with FADDR the immediate and FPC the next
instruction; ECALL in firmware mode is ILLEGAL; BKPT raises BKPT with FADDR the immediate where debug is off, and stops a selected context
where it is on.
R403: in supervisor or firmware mode ERET with ENDF = 0 goes back to FPC in the mode PMODE with INTRAP = 0 and changes no register;
with ENDF = 1 it leaves the context idle in user mode with INTRAP and ENDF clear (the model's choice, log entry 41), and ends the task as
faulted: outside a GFAIL launch, a
FAULTED decrement with FCAUSE.CODE to the cell of TASKJOIN, and one task less in its launch's counter, counted as faulted. -/
def Obligations.RaisingAndReturning : Prop :=
  (∀ (f : Frame) (r : FmtI) (s : State), Enabled f s → TrapReady s →
    (∃ t, exec (.trap f r) s = .next t ∧ RetiresAndTraps f s t 0x05 r.imm) ∧
    (s.ctx.mode = .user → ∃ t, exec (.ecall f r) s = .next t ∧ RetiresAndTraps f s t 0x06 r.imm) ∧
    (s.ctx.mode = .supervisor → ∃ t, exec (.ecall f r) s = .next t ∧ RetiresAndTraps f s t 0x07 r.imm) ∧
    (s.ctx.mode = .firmware → ∃ t, exec (.ecall f r) s = .next t ∧ Faults s t 0x00 0) ∧
    (bitOf s.myCore.dbgctl 0 = false → ∃ t, exec (.bkpt f r) s = .next t ∧ Faults s t 0x08 r.imm) ∧
    (bitOf s.myCore.dbgctl 0 = true → dbgCx s.myCore = s.mycx → ∃ t, exec (.bkpt f r) s = .next t ∧
      isStopped t.myCore s.mycx = true ∧ t.ctx = s.ctx.retire (afterPc f s) ∧ t.mem = s.mem ∧ fieldOf t.myCore.dbgctl 6 3 = 2)) ∧
  (∀ (f : Frame) (r : FmtR) (s : State), Enabled f s → NoStep s → s.ctx.mode ≠ .user →
    (bitOf s.ctx.estat 7 = false → ∃ t, exec (.eret f r) s = .next t ∧ Returned s.ctx t.ctx ∧ OutsideKept s t) ∧
    (bitOf s.ctx.estat 7 = true → NoTrace s → NoRegion s → StoresDone s → ∃ t, exec (.eret f r) s = .next t ∧
      t.ctx.active = false ∧ t.ctx.task = none ∧ t.ctx.mode = .user ∧ bitOf t.ctx.estat 2 = false ∧ bitOf t.ctx.estat 7 = false ∧
      t.ctx.g = s.ctx.g ∧ (s.ctx.task = none → t.mem = s.mem) ∧
      (∀ k, s.ctx.task = some k →
        (∀ n c, k.lctr = some n → s.launch.ctrs.lookup n = some c → c.pkt.gfail = false) → t.mem = s.mem ∧
        t.dev.decrs = s.dev.decrs ++ (if fieldOf s.ctx.taskjoin 0 16 = 0xFFFF then []
          else [⟨fieldOf s.ctx.taskjoin 8 7, fieldOf s.ctx.taskjoin 0 8, 1, 1, fieldOf s.ctx.fcause 0 7, some s.me⟩]) ∧
        ∀ n c, k.lctr = some n → s.launch.ctrs.lookup n = some c → ∃ d, t.launch.ctrs.lookup n = some d ∧ d.left = c.left - 1 ∧
          d.ended = c.ended ∧ d.fcount = min (c.fcount + 1) 0xFFFF ∧ d.last = fieldOf s.ctx.fcause 0 7 ∧ d.faulted = true)))

namespace Sys2Proof.Spec
open Sys2Proof.Machine

/-! ### Class 001: memory -/

/-- (gA + offset) mod 2^64 (R265). -/
def eaOf (s : State) (r : FmtM) : Word := s.ctx.reg r.a.val + r.off

/-- The bits of a size and whether it is sign-extended (R199). -/
def sizeOf (sz : Sz) : Nat × Bool :=
  match sz with
  | .byte => (8, false)
  | .half => (16, false)
  | .word => (32, false)
  | .dword => (64, false)
  | .byteSx => (8, true)
  | .halfSx => (16, true)
  | .wordSx => (32, true)

/-- A little-endian word of w bits from bytes. -/
def fromBytes (w : Nat) (bs : List Byte) : BitVec w := BitVec.ofNat w (bs.foldr (fun b n => b.toNat + 256 * n) 0)

/-- gD of a load: the zero- or sign-extended bytes, little-endian (R265). -/
def loadedWord (sz : Sz) (bs : List Byte) : Word :=
  let (w, sx) := sizeOf sz
  if sx then (fromBytes w bs).signExtend 64 else (fromBytes w bs).setWidth 64

/-- The low n bytes of a word, the least significant first (R265). -/
def lowBytes (n : Nat) (w : Word) : List Byte := (List.range n).map fun i => (w >>> (8 * i)).setWidth 8

/-- Bytes of a size. -/
def sizeBytes (sz : Sz) : Nat := (sizeOf sz).1 / 8

/-- The bytes of device memory from an address up. -/
def memBytes (s : State) (pa n : Nat) : List Byte := (List.range n).map fun i => physByte s (pa + i)

end Sys2Proof.Spec

/-- R265, R266, R106, R107, R125: a load whose line is nowhere but at home puts the bytes at home, extended, in gD, on a page of any kind;
LD.acq does so too, and its acquire leaves no byte that could be stale at its scope. Memory and all else are as before, but for the
slices' own state and the line that a cached page brings into the L1. -/
def Obligations.LoadsFromHome : Prop :=
  ∀ (f : Frame) (r : FmtM) (s : State) (a : Attr), Enabled f s → Settled s → s.ctx.readable r.a.val = true →
    Mapped s (eaOf s r).toNat (sizeBytes r.sz) .read a → AtHome s (eaOf s r).toNat a →
    (∃ t, exec (.ld f r) s = .next t ∧ BytesKept s t ∧
      Done noSlices noL1 f s t (s.ctx.setReg r.d.val (loadedWord r.sz (memBytes s a.pa (sizeBytes r.sz))))) ∧
    (∀ sc, ScopeIs s r.sc.val sc → (eaOf s r).toNat % sizeBytes r.sz = 0 →
      ∃ t, exec (.ldAcq f r) s = .next t ∧ BytesKept s t ∧ Acquired s.me t.myCore sc ∧
        Done noSlices noL1 f s t (s.ctx.setReg r.d.val (loadedWord r.sz (memBytes s a.pa (sizeBytes r.sz)))))

/-- R265, R107, R109, R126: a store on a page that is served at home, and ST.rel on a page of any kind, put the low bytes of the data
register at home at the address; no other byte of memory changes, and no register. -/
def Obligations.StoresReachHome : Prop :=
  ∀ (f : Frame) (r : FmtM) (s : State) (a : Attr), Enabled f s → Settled s → s.memOk →
    s.ctx.readable r.a.val = true → s.ctx.readable r.d.val = true →
    Mapped s (eaOf s r).toNat (sizeBytes r.sz) .write a → AtHome s (eaOf s r).toNat a → Noted s (eaOf s r).toNat →
    Unwatched s (lineOf a.pa) →
    (a.uncached → ∃ t, exec (.st f r) s = .next t ∧ Done noMemory nothing f s t s.ctx ∧
      Stores s t a.pa (lowBytes (sizeBytes r.sz) (s.ctx.reg r.d.val))) ∧
    (∀ sc, ScopeIs s r.sc.val sc → (eaOf s r).toNat % sizeBytes r.sz = 0 → Released s.me s.myCore sc → s.myCore.posted = [] →
      s.dev.posted = [] → ∃ t, exec (.stRel f r) s = .next t ∧ Done noMemory nothing f s t s.ctx ∧
        Stores s t a.pa (lowBytes (sizeBytes r.sz) (s.ctx.reg r.d.val)))

/-- R43, R44, R45, R111, R265: a store on a cached page stays in the L1: an RC line was filled from home first and is marked for the
sorus, a UO line holds the stored bytes alone and is marked for the core; the stored bytes are present and dirty. On a UO page with C = 0
it stays in the write-combining buffer. Memory is as before.
R105: where the core's stores wait, a store on a page of any kind retires into the store buffer, from which the core's own loads take its
bytes; nothing else of the core and no memory changes. -/
def Obligations.StoresStayInCore : Prop :=
  ∀ (f : Frame) (r : FmtM) (s : State) (a : Attr), Enabled f s → Settled s →
    s.ctx.readable r.a.val = true → s.ctx.readable r.d.val = true →
    Mapped s (eaOf s r).toNat (sizeBytes r.sz) .write a → AtHome s (eaOf s r).toNat a → Noted s (eaOf s r).toNat →
    (a.cached → ∃ t l, exec (.st f r) s = .next t ∧ Done noSlices noL1 f s t s.ctx ∧ BytesKept s t ∧
      l1Find t t.me s.ctx.asid (eaOf s r).toNat = some l ∧ l.pa = lineOf a.pa ∧ l.uo = (a.kind != 0) ∧ l.mark = (if a.kind = 0 then 1 else 0) ∧
      (∀ i, i < 64 → l.dirty.getLsbD i = decide ((eaOf s r).toNat % 64 ≤ i ∧ i < (eaOf s r).toNat % 64 + sizeBytes r.sz)) ∧
      (∀ i, i < 64 → l.pres.getLsbD i = (decide (a.kind = 0) || l.dirty.getLsbD i)) ∧
      (∀ i, i < 64 → l.pres.getLsbD i = true → l.data.getD i 0 =
        if l.dirty.getLsbD i then (lowBytes (sizeBytes r.sz) (s.ctx.reg r.d.val)).getD (i - (eaOf s r).toNat % 64) 0
        else physByte s (lineOf a.pa + i))) ∧
    (a.kind = 1 → a.c = false → ∃ t w, exec (.st f r) s = .next t ∧ Done nothing noWc f s t s.ctx ∧ BytesKept s t ∧
      t.myCore.wc = [w] ∧ w.pa = lineOf a.pa ∧
      (∀ i, i < 64 → w.mask.getLsbD i = decide (a.pa % 64 ≤ i ∧ i < a.pa % 64 + sizeBytes r.sz)) ∧
      (∀ i, i < sizeBytes r.sz → w.data.getD (a.pa % 64 + i) 0 = (lowBytes (sizeBytes r.sz) (s.ctx.reg r.d.val)).getD i 0)) ∧
    (∀ u, u = s.modMyCore (fun k => { k with holdStores := true }) → ∃ t, exec (.st f r) u = .next t ∧
      Done nothing (fun k => { k with sbuf := [] }) f u t u.ctx ∧ BytesKept u t ∧
      ∀ bs, bs.length = sizeBytes r.sz → storesOver t.myCore a.pa bs = lowBytes (sizeBytes r.sz) (s.ctx.reg r.d.val))

namespace Sys2Proof.Spec
open Sys2Proof.Machine

/-- The new value of an atomic by its code on words of w bits, none where nothing is written (R270, R271). -/
def newValue (code : Nat) {w : Nat} (o b c : BitVec w) : Option (BitVec w) :=
  match code with
  | 0 => some (o + b)
  | 1 => some (o &&& b)
  | 2 => some (o ||| b)
  | 3 => some (o ^^^ b)
  | 4 => some (if o.sle b then o else b)
  | 5 => some (if b.sle o then o else b)
  | 6 => some (if o.ule b then o else b)
  | 7 => some (if b.ule o then o else b)
  | 8 => some b
  | _ => if o = c then some b else none

/-- What an atomic of w bits does at home: the old value sign-extended, and the new value's bytes stored, if any. -/
def AtomicDone (w : Nat) (code : Nat) (b c : Word) (s t : State) (pa : Nat) (old : Word) : Prop :=
  let o := fromBytes w (memBytes s pa (w / 8))
  old = o.signExtend 64 ∧
  match newValue code o (b.setWidth w) (c.setWidth w) with
  | some m => Stores s t pa (lowBytes (w / 8) (m.setWidth 64))
  | none => BytesKept s t

/-- Bytes of an atomic's operand (R270). -/
def atomicBits (r : FmtR) : Nat := if r.ty == .i32 then 32 else 64

/-- One non-returning operation of the acting context waits to be performed at home (R132); on an SO page it is one of the core's SO
accesses (R107). -/
def OnePending (s t : State) (a : Attr) (o : HomeOp) : Prop :=
  ∃ q, t.myCore.nonRet = [q] ∧ q.cx = s.mycx ∧ q.ops = [o] ∧ q.remote = [] ∧ q.so = (a.kind == 2)

/-- An access of n bytes at gA, aligned, served at home, with nothing in the way. -/
structure HomeOpReady (s : State) (ea : Word) (n : Nat) (acc : Access) (a : Attr) : Prop where
  aligned : ea.toNat % n = 0
  mapped : Mapped s ea.toNat n acc a
  home : AtHome s ea.toNat a
  noted : Noted s ea.toNat
  quiet : Unwatched s (lineOf a.pa)

end Sys2Proof.Spec

/-- R270, R271: an AMO reads, changes and writes its 32 or 64 bits at home in one step; gD takes the old value, sign-extended; a CAS that
fails writes nothing. No other byte of memory and no other register changes. -/
def Obligations.AtomicsAtHome : Prop :=
  ∀ (f : Frame) (r : FmtR) (s : State) (a : Attr), Enabled f s → Settled s → s.memOk →
    s.ctx.readable r.a.val = true → s.ctx.readable r.b.val = true → s.ctx.readable r.c.val = true →
    r.var.val < 10 → HomeOpReady s (s.ctx.reg r.a.val) (atomicBits r / 8) .both a →
    ∃ t v, exec (.amo f r) s = .next t ∧ Done noMemory nothing f s t (s.ctx.setReg r.d.val v) ∧
      AtomicDone (atomicBits r) r.var.val (s.ctx.reg r.b.val) (s.ctx.reg r.c.val) s t a.pa v

/-- R132, R182, R183, R272, R273: RED, REDE and CLRE retire at once and leave one pending operation of the core, which at home stores the
new value, adds the value to the exact cell, or clears the cell; RDE puts the cell's value, rounded once, in gD with its flags. -/
def Obligations.ReductionsAndCells : Prop :=
  ∀ (f : Frame) (r : FmtR) (s : State) (a : Attr), Enabled f s → Settled s → s.memOk →
    s.ctx.readable r.a.val = true → s.ctx.readable r.b.val = true →
    (r.var.val < 8 → HomeOpReady s (s.ctx.reg r.a.val) (atomicBits r / 8) .write a →
      ∃ t o v, exec (.red f r) s = .next t ∧ Done nothing noOps f s t s.ctx ∧ BytesKept s t ∧ OnePending s t a o ∧
        AtomicDone (atomicBits r) r.var.val (s.ctx.reg r.b.val) 0 t (performHomeOp t o) a.pa v) ∧
    (r.ty = .f16 ∨ r.ty = .bf16 ∨ r.ty = .f32 → HomeOpReady s (s.ctx.reg r.a.val) 64 .write a →
      ∃ t o, exec (.rede f r) s = .next t ∧ Done nothing noOps f s t s.ctx ∧ BytesKept s t ∧ OnePending s t a o ∧
        Stores t (performHomeOp t o) a.pa (exactBytes (exactAdd (exactAt s a.pa) (tyVal r.ty (s.ctx.reg r.b.val))))) ∧
    (HomeOpReady s (s.ctx.reg r.a.val) 64 .write a →
      ∃ t o, exec (.clre f r) s = .next t ∧ Done nothing noOps f s t s.ctx ∧ BytesKept s t ∧ OnePending s t a o ∧ Stores t (performHomeOp t o) a.pa (List.replicate 64 0)) ∧
    (HomeOpReady s (s.ctx.reg r.a.val) 64 .both a → (a.kind = 2 → s.ctx.fwdGot = []) →
      ∀ v e, v = exactValue (exactAt s a.pa) → e = (tySpec r.ty).encode r.rnd 0 false v.1 →
        ∃ t, exec (.rde f r) s = .next t ∧ BytesKept s t ∧ Done noSlices nothing f s t
          ({ s.ctx with fpsr := s.ctx.fpsr ||| (v.2 ||| e.2).setWidth 64 }.setReg r.d.val (BitVec.ofNat 64 e.1)))

/-- R45, R84, R265: a load that finds all its bytes present in an L1 line that allows the access takes them from the line; only gD
changes.
R269: PREF of a cached page that allows a read brings the line into the L1, clean; PREF of a non-canonical address does nothing;
no register changes and no fault is raised. -/
def Obligations.LoadsFromL1AndPrefetch : Prop :=
  (∀ (f : Frame) (r : FmtM) (s : State) (l : L1Line), Enabled f s → NoStep s → s.ctx.regionOpen = false → StoresDone s →
    s.ctx.readable r.a.val = true → canonical (eaOf s r).toNat = true → (eaOf s r).toNat % 64 + sizeBytes r.sz ≤ 64 →
    l1Find s s.me s.ctx.asid (eaOf s r).toNat = some l → l.spec = none → l.rd = true → (s.ctx.mode = .user → l.usr = true) →
    isControl (l.pa + (eaOf s r).toNat % 64) = false →
    (∀ i, i < sizeBytes r.sz → l.pres.getLsbD ((eaOf s r).toNat % 64 + i) = true) →
    ∃ t, exec (.ld f r) s = .next t ∧
      SetsReg (afterPc f s) s t r.d.val (loadedWord r.sz ((l.data.drop ((eaOf s r).toNat % 64)).take (sizeBytes r.sz))) 0) ∧
  (∀ (f : Frame) (r : FmtM) (s : State), Enabled f s → Settled s →
    (∀ a, Mapped s (eaOf s r).toNat 1 .read a → AtHome s (eaOf s r).toNat a → a.cached →
      ∃ t l, exec (.pref f r) s = .next t ∧ Done noSlices noL1 f s t s.ctx ∧ BytesKept s t ∧
        l1Find t t.me s.ctx.asid (eaOf s r).toNat = some l ∧ l.dirty = 0 ∧ l.pres = BitVec.allOnes 64 ∧
        l.data = memBytes s (lineOf a.pa) 64) ∧
    (canonical (eaOf s r).toNat = false → ∃ t, exec (.pref f r) s = .next t ∧ SetsReg (afterPc f s) s t 0 0 0))

namespace Sys2Proof.Spec
open Sys2Proof.Machine

/-- The forms of class 001 with an offset and what they need of their page (R76); whether a misaligned address faults (R264). -/
def memForms : List ((Frame → FmtM → Instr) × Access × Bool) := [
  (.ld, .read, false), (.st, .write, false), (.ldAcq, .read, true), (.stRel, .write, true)]

/-- The atomic forms: what they need of their page, their access's bytes. -/
def homeForms : List ((Frame → FmtR → Instr) × Access × (FmtR → Nat)) := [
  (.amo, .both, fun r => atomicBits r / 8), (.red, .write, fun r => atomicBits r / 8), (.rede, .write, fun _ => 64),
  (.clre, .write, fun _ => 64), (.rde, .both, fun _ => 64)]

end Sys2Proof.Spec

/-- R13, R76, R264, R396, R402: an access of class 001 raises ATOMALIGN at a misaligned address where its form needs alignment, NONCANON at
a non-canonical address and PERM where the page refuses it, with FADDR the address; the trap is taken and nothing else changes. -/
def Obligations.AccessFaults : Prop :=
  ∀ (f : Frame) (s : State), Enabled f s → TrapReady s →
    (∀ p ∈ memForms, ∀ r : FmtM, s.ctx.readable r.a.val = true → s.ctx.readable r.d.val = true →
      (p.2.2 = true → (eaOf s r).toNat % sizeBytes r.sz ≠ 0 →
        ∃ t, exec (p.1 f r) s = .next t ∧ Faults s t 0x19 (eaOf s r)) ∧
      ((eaOf s r).toNat % sizeBytes r.sz = 0 →
        (canonical (eaOf s r).toNat = false → ∃ t, exec (p.1 f r) s = .next t ∧ Faults s t 0x10 (eaOf s r)) ∧
        (Refused s (eaOf s r).toNat p.2.1 → ∃ t, exec (p.1 f r) s = .next t ∧ Faults s t 0x12 (eaOf s r)))) ∧
    (∀ p ∈ homeForms, ∀ r : FmtR, s.ctx.readable r.a.val = true → s.ctx.readable r.b.val = true → s.ctx.readable r.c.val = true →
      ((s.ctx.reg r.a.val).toNat % p.2.2 r ≠ 0 → ∃ t, exec (p.1 f r) s = .next t ∧ Faults s t 0x19 (s.ctx.reg r.a.val)) ∧
      ((s.ctx.reg r.a.val).toNat % p.2.2 r = 0 →
        (canonical (s.ctx.reg r.a.val).toNat = false → ∃ t, exec (p.1 f r) s = .next t ∧ Faults s t 0x10 (s.ctx.reg r.a.val)) ∧
        (Refused s (s.ctx.reg r.a.val).toNat p.2.1 → ∃ t, exec (p.1 f r) s = .next t ∧ Faults s t 0x12 (s.ctx.reg r.a.val))))

namespace Sys2Proof.Spec
open Sys2Proof.Machine

/-! ### The frame of every instruction -/

/-- Does a mode have the right to an instruction (R39, R209, R316, R352, R354 to R358, R361)? -/
def hasRight (i : Instr) (m : Mode) : Bool :=
  match i with
  | .eret .. | .tlbiAll .. | .tlbiAsid .. | .tlbiVa .. | .harvestAll .. | .harvestSor .. | .phase .. | .phaseNow ..
  | .tcgen .. => m != .user
  | .dbginj .. => m == .firmware
  | .csrr _ r => csrAssigned r.imm.toNat && csrMayRead m r.imm.toNat
  | .csrw _ r | .csrxSwap _ r | .csrxSet _ r | .csrxClr _ r => csrAssigned r.imm.toNat && csrMayWrite m r.imm.toNat
  | _ => true

end Sys2Proof.Spec

/-- R196: an instruction of any class whose predicate disables it retires and has no other effect, where its mode has the right to it. -/
def Obligations.DisabledInstructions : Prop :=
  ∀ (i : Instr) (f : Frame) (b : Body) (s : State), i.parts? = some (f, b) → hasRight i s.ctx.mode = true → Disabled f s → NoStep s →
    ∃ t, exec i s = .next t ∧ SetsReg (afterPc f s) s t 0 0 0

namespace Sys2Proof.Spec
open Sys2Proof.Machine

/-! ### Status registers -/

/-- The numbers that R362 assigns, as ranges. -/
def csrRanges : List (Nat × Nat) := [
  (0x001, 0x002), (0x008, 0x00D), (0x010, 0x012), (0x020, 0x020), (0x040, 0x043), (0x100, 0x107), (0x110, 0x111), (0x120, 0x127),
  (0x400, 0x400), (0x410, 0x417), (0x480, 0x487), (0x4C0, 0x4C3), (0x4C8, 0x4CB), (0x800, 0x801), (0x820, 0x82F), (0x880, 0x882),
  (0x900, 0x900), (0xC00, 0xC00), (0xF00, 0xF00)]

def Assigned (n : Nat) : Prop := ∃ p ∈ csrRanges, p.1 ≤ n ∧ n ≤ p.2

/-- The numbers without a field that can be written (R116, R158, R256, R289, R346, R351, R359, R366, R443, R455). -/
def readOnlyRanges : List (Nat × Nat) := [
  (0x010, 0x010), (0x012, 0x012), (0x020, 0x020), (0x040, 0x043), (0x100, 0x107), (0x110, 0x111), (0x4CA, 0x4CA), (0x800, 0x801),
  (0x900, 0x900)]

def ReadOnly (n : Nat) : Prop := ∃ p ∈ readOnlyRanges, p.1 ≤ n ∧ n ≤ p.2

/-- May a mode read a number (R38)? -/
def MayRead (m : Mode) (n : Nat) : Prop := n < 0x400 ∨ (n < 0xF00 ∧ m ≠ .user) ∨ m = .firmware

/-- May a mode write a number: REPTST, REPTPC and the counters are read-only from user mode (R38, R256, R443)? -/
def MayWrite (m : Mode) (n : Nat) : Prop :=
  MayRead m n ∧ ¬ReadOnly n ∧ (m = .user → n < 0x100 ∧ n ≠ 0x00C ∧ n ≠ 0x00D)

/-- The registers of a context by number (R362). -/
def ctxRegs : List (Nat × (Ctx → Word)) := [
  (0x001, fun c => c.fpsr), (0x002, fun c => c.tcfg), (0x008, fun c => c.mec0), (0x009, fun c => c.mec1), (0x00A, fun c => c.mec2),
  (0x00B, fun c => c.mec3), (0x00C, fun c => c.reptst), (0x00D, fun c => c.reptpc), (0x010, fun c => c.chlast),
  (0x011, fun c => c.cpyerr), (0x012, fun c => c.cpyfa), (0x020, fun c => c.taskjoin), (0x040, fun c => c.erlo),
  (0x041, fun c => c.erhi), (0x042, fun c => c.erpos), (0x043, fun c => c.erstat), (0x400, fun c => c.corectl),
  (0x410, fun c => c.fcause), (0x411, fun c => c.fpc), (0x412, fun c => c.faddr), (0x413, fun c => c.frow), (0x414, fun c => c.fseq),
  (0x416, fun c => c.tvec), (0x417, fun c => c.sscr), (0x4C8, fun c => c.ptroot), (0x4C9, fun c => c.pasidr),
  (0x4CB, fun c => c.sctbl)]

/-- ESTAT as it is read: bits [5:4] hold the current mode (R399). -/
def estatRead (c : Ctx) : Word :=
  (c.estat &&& ~~~(0x30#64)) ||| (match c.mode with
    | .user => 0
    | .supervisor => 0x10
    | .firmware => 0x20)

/-- The bits of a context's register that a write changes (R9 and the field maps that R362 names). -/
def writeMasks : List (Nat × Word) := [
  (0x001, 0x3F), (0x002, 0x3), (0x008, 0xFFFFFFFFFFFFFFFF), (0x009, 0xFFFFFFFFFFFFFFFF), (0x00A, 0xFFFFFFFFFFFFFFFF),
  (0x00B, 0xFFFFFFFFFFFFFFFF), (0x00C, 0xFFFFFFFF00FF0F0F), (0x00D, 0xFFFFFFFFFFFFFFFC), (0x400, 0x1), (0x410, 0x7F0FFF),
  (0x411, 0xFFFFFFFFFFFFFFFF), (0x412, 0xFFFFFFFFFFFFFFFF), (0x413, 0xFFFFFFFF0000003F), (0x414, 0xFFFFFFFFFFFFFFFF),
  (0x415, 0x87), (0x416, 0xFFFFFFFFFFFFFE01), (0x417, 0xFFFFFFFFFFFFFFFF), (0x4C8, 0xFFFFFFFFC0FFF), (0x4C9, 0x3FFFFF),
  (0x4CB, 0x3F)]

/-- A register after a write of v: the bits of the mask are v's, the others stay; PMODE 11 is written as 00 (R8, R399). -/
def written (n : Nat) (m old v : Word) : Word :=
  let w := (v &&& m) ||| (old &&& ~~~m)
  if n = 0x415 ∧ w &&& 3 = 3 then w &&& ~~~3 else w

/-- An instruction that may wait for engine work on the buffers does not (R34, R35). -/
def BuffersIdle (s : State) : Prop := s.myCore.engine = []

end Sys2Proof.Spec

/-- R38, R39, R353, R362: CSRR of an assigned number that the mode may read puts the register in gD and changes nothing else. The context's
registers are read by their numbers; CYC, NCYC, the counters, their selections and BUFPART are the core's.
R8, R353, R362: CSRW and CSRX.swap write gA, CSRX.set the old value or gA, CSRX.clr the old value and not gA, to the writable bits of a
context's register; CSRX returns the old value in gD. Every other status register of the context, every other register and every byte of
memory is as before. -/
def Obligations.StatusRegisterAccess : Prop :=
  (∀ (f : Frame) (r : FmtI) (s : State), Enabled f s → NoStep s → Assigned r.imm.toNat →
    MayRead s.ctx.mode r.imm.toNat →
    ∃ t v, exec (.csrr f r) s = .next t ∧ SetsReg (afterPc f s) s t r.d.val v 0 ∧
      (∀ p ∈ ctxRegs, r.imm.toNat = p.1 → v = p.2 s.ctx) ∧ (r.imm.toNat = 0x415 → v = estatRead s.ctx) ∧
      (r.imm.toNat = 0x110 → v = s.myCore.cyc) ∧ (r.imm.toNat = 0x111 → v = s.myCore.ncyc) ∧
      (∀ i, i < 8 → r.imm.toNat = 0x120 + i → v = tget s.myCore.pmc i 0) ∧
      (∀ i, i < 8 → r.imm.toNat = 0x480 + i → v = tget s.myCore.pmsel i 0) ∧
      (r.imm.toNat = 0x4C0 → v = s.myCore.bufpart)) ∧
  (∀ (f : Frame) (r : FmtI) (s : State), Enabled f s → NoStep s → NoRegion s → s.ctx.readable r.a.val = true →
    ∀ p ∈ writeMasks, r.imm.toNat = p.1 → MayWrite s.ctx.mode p.1 →
      (if p.1 = 0x00C then s.ctx.hold = true else s.ctx.inBlock = false) →
      ∀ old, old = csrRead s s.me s.mycx p.1 →
      ∀ q ∈ [((Instr.csrw : Frame → FmtI → Instr), s.ctx.reg r.a.val, false), (Instr.csrxSwap, s.ctx.reg r.a.val, true),
          (Instr.csrxSet, old ||| s.ctx.reg r.a.val, true), (Instr.csrxClr, old &&& ~~~(s.ctx.reg r.a.val), true)],
        ∃ t, exec (q.1 f r) s = .next t ∧ csrRead t t.me t.mycx p.1 = written p.1 p.2 old q.2.1 ∧
          (∀ n, n ≠ p.1 → csrRead t t.me t.mycx n = csrRead s s.me s.mycx n) ∧
          t.ctx.pc = afterPc f s ∧ t.ctx.mode = s.ctx.mode ∧ t.ctx.retired = s.ctx.retired + 1 ∧
          RegsAre s.ctx t.ctx (if q.2.2 then r.d.val else 0) old ∧ t.ctx.p = s.ctx.p ∧ t.ctx.tiles = s.ctx.tiles ∧ BytesKept s t)

/-- R33, R35: a write of BUFPART takes each field, or its limit where the value is above it; a write of ones to BUFVW, BUFVA and BUFVC
clears the slots it names, whatever the partition, and no other. -/
def Obligations.BufferRegisterWrites : Prop :=
  ∀ (f : Frame) (r : FmtI) (s : State), Enabled f s → NoStep s → NoRegion s → BuffersIdle s → s.ctx.mode ≠ .user →
    s.ctx.readable r.a.val = true →
    (r.imm.toNat = 0x4C0 → ∃ t, exec (.csrw f r) s = .next t ∧
      fieldOf t.myCore.bufpart 0 7 = min (fieldOf (s.ctx.reg r.a.val) 0 7) 64 ∧
      fieldOf t.myCore.bufpart 8 6 = fieldOf (s.ctx.reg r.a.val) 8 6 ∧
      fieldOf t.myCore.bufpart 16 6 = min (fieldOf (s.ctx.reg r.a.val) 16 6) 32 ∧
      Done nothing (fun k => { k with bufpart := 0 }) f s t s.ctx ∧ BytesKept s t) ∧
    (∀ b n, (b, n) ∈ [(Buf.w, 0x4C1), (Buf.a, 0x4C2), (Buf.c, 0x4C3)] → r.imm.toNat = n →
      ∃ t, exec (.csrw f r) s = .next t ∧
        (∀ i, slotAt t.myCore b i = if i < 64 ∧ (s.ctx.reg r.a.val).getLsbD i = true then Tile.empty else slotAt s.myCore b i) ∧
        (∀ b', b' ≠ b → t.myCore.buf b' = s.myCore.buf b') ∧
        Done nothing (fun k => { k with bufW := [], bufA := [], bufC := [] }) f s t s.ctx ∧ BytesKept s t)

/-- R38, R39: an access to a number that is not assigned is ILLEGAL; one without the right, and a write of a read-only register, is PRIV.
R209, R218, R354 to R358, R361: the supervisor's instructions in user mode, and the firmware's in any other mode, raise PRIV, also where
their predicate disables them. R352: TCANCEL of a phase or a job, which R209 does not mark, raises it in user mode where it is enabled. -/
def Obligations.PrivilegeRules : Prop :=
  (∀ (f : Frame) (r : FmtI) (s : State), Enabled f s → TrapReady s →
    (¬Assigned r.imm.toNat → ∀ i ∈ [Instr.csrr f r, .csrw f r, .csrxSwap f r, .csrxSet f r, .csrxClr f r],
      ∃ t, exec i s = .next t ∧ Faults s t 0x00 0) ∧
    (Assigned r.imm.toNat → ¬MayRead s.ctx.mode r.imm.toNat → ∃ t, exec (.csrr f r) s = .next t ∧ Faults s t 0x01 0) ∧
    (Assigned r.imm.toNat → ¬MayWrite s.ctx.mode r.imm.toNat → ∀ i ∈ [Instr.csrw f r, .csrxSwap f r, .csrxSet f r, .csrxClr f r],
      ∃ t, exec i s = .next t ∧ Faults s t 0x01 0)) ∧
  (∀ (f : Frame) (s : State), TrapReady s →
    (s.ctx.mode = .user → ∀ r : FmtR, ∀ i ∈ [Instr.eret f r, .tlbiAll f r, .tlbiAsid f r, .tlbiVa f r, .harvestAll f r, .harvestSor f r],
      ∃ t, exec i s = .next t ∧ Faults s t 0x01 0) ∧
    (s.ctx.mode = .user → Enabled f s → ∀ r : FmtR, ∀ i ∈ [Instr.tcancelPhase f r, .tcancelJob f r],
      ∃ t, exec i s = .next t ∧ Faults s t 0x01 0) ∧
    (s.ctx.mode = .user → ∀ r : FmtI, ∀ i ∈ [Instr.phase f r, .phaseNow f r], ∃ t, exec i s = .next t ∧ Faults s t 0x01 0) ∧
    (s.ctx.mode ≠ .firmware → ∀ r : FmtR, ∃ t, exec (.dbginj f r) s = .next t ∧ Faults s t 0x01 0))

namespace Sys2Proof.Spec
open Sys2Proof.Machine

/-! ### Invalidation, harvest, phase, injection, the end of a task -/

/-- The acting context retires to the next instruction with its registers as before. -/
structure Retires (f : Frame) (s t : State) : Prop where
  pc : t.ctx.pc = (s.ctx.stepRept (afterPc f s)).pc
  retired : t.ctx.retired = s.ctx.retired + 1
  regs : t.ctx.g = s.ctx.g ∧ t.ctx.p = s.ctx.p ∧ t.ctx.tiles = s.ctx.tiles ∧ t.ctx.fpsr = s.ctx.fpsr
  mode : t.ctx.mode = s.ctx.mode ∧ t.ctx.estat = s.ctx.estat ∧ t.ctx.fcause = s.ctx.fcause

/-- The lines that L1INV.d and L1WB name: those of the context's ASID that overlap [a, a + n); every line of the core with n = 0 (R356,
log entry 47). -/
def InRange (s : State) (a n : Nat) (l : L1Line) : Prop :=
  n = 0 ∨ (l.asid = s.ctx.asid ∧ ((l.va < a + n ∧ a < l.va + 64) ∨ (l.va + 2 ^ 64 < a + n ∧ a < l.va + 2 ^ 64 + 64)))

/-- Nothing of a core is on its way, and it holds no line (R140, R261). -/
structure CoreDrained (k : Core) : Prop where
  engine : k.engine = []
  ops : k.nonRet = []
  posted : k.posted = []
  sends : k.sends = 0
  wc : k.wc = []
  stores : k.sbuf = []
  l1 : k.l1 = []
  acquire : k.toAcquire = []
  parts : k.soParts = []

/-- Every line of an L1 begins at a multiple of 64 (R41). -/
def LinesAligned (s : State) : Prop := ∀ n, ∀ l ∈ (s.core n).l1, l.va % 64 = 0

/-- A core's dirty log is a ring of 1,024 entries (R87). -/
def LogSound (k : Core) : Prop := k.dlHead < 1024 ∧ k.dlTail < 1024 ∧ (k.dlFull = true → k.dlTail = k.dlHead)

end Sys2Proof.Spec

/-- R355: TLBI removes from every cluster TLB and walker what its form names: everything, an ASID's entries that are not global, or the
entries of the page of an address; TLBI.all leaves no line in any L1 and no entry in any dirty filter; that it empties the instruction caches too is the model's choice (log
entry 37). An ASID above 12 bits is ILLEGAL.
R356, R124, R46: L1INV.i empties the instruction cache; L1INV.d clears the clean bytes of the lines it names and touches no memory;
L1WB leaves the lines it names clean, or in their region. With gB = 0 they name every line of the core, of any ASID, as R356's words stand
(log entry 47, the model's reading beside R46). -/
def Obligations.InvalidationAndCaches : Prop :=
  (∀ (f : Frame) (r : FmtR) (s : State), Enabled f s → NoStep s → NoRegion s → LinesAligned s → (∀ n, (s.core n).sbuf = []) →
    s.ctx.mode ≠ .user → s.ctx.readable r.a.val = true → s.ctx.readable r.b.val = true →
    (∃ t, exec (.tlbiAll f r) s = .next t ∧ Retires f s t ∧
      (∀ n, (t.sorus n).tlb = [] ∧ (t.sorus n).ptrs = []) ∧ (∀ n, (t.core n).l1 = [] ∧ (t.core n).icache = [] ∧ (t.core n).dfilter = [])) ∧
    ((s.ctx.reg r.a.val).toNat < 4096 → ∃ t, exec (.tlbiAsid f r) s = .next t ∧ Retires f s t ∧
      ∀ n, (t.sorus n).tlb = (s.sorus n).tlb.filter (fun e => !(e.asid == (s.ctx.reg r.a.val).toNat && !bitOf e.leaf 10)) ∧
        (t.sorus n).ptrs = (s.sorus n).ptrs.filter fun p => p.asid != (s.ctx.reg r.a.val).toNat) ∧
    ((s.ctx.reg r.b.val).toNat < 4096 → ∃ t, exec (.tlbiVa f r) s = .next t ∧ Retires f s t ∧
      ∀ n, (t.sorus n).tlb = (s.sorus n).tlb.filter (fun e => !((e.asid == (s.ctx.reg r.b.val).toNat || bitOf e.leaf 10) &&
          (s.ctx.reg r.a.val).toNat / 2 ^ e.size == e.va / 2 ^ e.size)) ∧
        (t.sorus n).ptrs = (s.sorus n).ptrs.filter fun p => p.asid != (s.ctx.reg r.b.val).toNat) ∧
    (TrapReady s → (s.ctx.reg r.a.val).toNat ≥ 4096 → ∃ t, exec (.tlbiAsid f r) s = .next t ∧ Faults s t 0x00 0)) ∧
  (∀ (f : Frame) (r : FmtR) (s : State), Enabled f s → NoStep s → NoRegion s → LinesAligned s →
    s.ctx.readable r.a.val = true → s.ctx.readable r.b.val = true →
    (∃ t, exec (.l1invI f r) s = .next t ∧ t.myCore.icache = [] ∧ BytesKept s t ∧
      Done nothing (fun k => { k with icache := [] }) f s t { s.ctx with pin := none }) ∧
    (∃ t, exec (.l1invD f r) s = .next t ∧ BytesKept s t ∧ Done nothing noL1 f s t { s.ctx with pin := none } ∧
      (∀ l ∈ t.myCore.l1, InRange s (s.ctx.reg r.a.val).toNat (s.ctx.reg r.b.val).toNat l → l.spec = none → l.pres = l.dirty ∧ l.dirty ≠ 0) ∧
      (∀ l ∈ s.myCore.l1, ¬InRange s (s.ctx.reg r.a.val).toNat (s.ctx.reg r.b.val).toNat l → l ∈ t.myCore.l1)) ∧
    (NoHold s → ∃ t, exec (.l1wb f r) s = .next t ∧ Retires f s t ∧
      ∀ l ∈ t.myCore.l1, InRange s (s.ctx.reg r.a.val).toNat (s.ctx.reg r.b.val).toNat l → l.spec = none → l.dirty = 0))

namespace Sys2Proof.Spec
open Sys2Proof.Machine

/-- The cases in which PHASE raises PHASEARG, in full or quiet mode (R358). -/
def BadPhase (s : State) (w : Word) (now : Bool) : Prop :=
  let quiet := if now = false ∧ bitOf w 31 then bitOf w 24
    else if now = false ∧ bitOf s.dev.cmd 31 then bitOf s.dev.cmd 24 else s.dev.quiet
  w &&& 0xFFFFFFFF7E7C4040 ≠ 0 ∨
  (bitOf w 7 ∧ (fieldOf w 0 6 = 0 ∨ fieldOf w 0 6 > 32)) ∨ (bitOf w 15 ∧ (fieldOf w 8 6 = 0 ∨ fieldOf w 8 6 > 32)) ∨
  (quiet ∧ ((bitOf w 7 ∧ fieldOf w 0 6 > 24) ∨ bitOf w 15)) ∨ (now ∧ (bitOf w 31 ∨ bitOf w 23))

/-- The address of the page of a dirty log's entry (R13, R85). -/
def loggedVa (e : Word) : Nat := (if e.getLsbD 44 then 0xFE00000000000000 else 0) + fieldOf e 0 45 * 4096

/-- The leaf that now maps the page of an entry of a core's log, by a walk of its ASID's tables (R77, R88). -/
def loggedLeaf (s : State) (core : Nat) (e : Word) : Option Leaf :=
  match (walkFrom s 0 (fieldOf e 45 12) (loggedVa e) (rootOf s core (fieldOf e 45 12)) [] [0, 1, 2, 3]).1 with
  | .ok l => some l
  | .error _ => none

/-- One entry merged (R88): D, bit 52, set in the leaf that maps its page, or in its group's first entry, and no other bit of memory
changed; nothing where no leaf maps it. -/
structure MergesOne (core : Nat) (e : Word) (s t : State) : Prop where
  leaf : ∀ l, loggedLeaf s core e = some l → Stores s t (l.entryPa + 6) [physByte s (l.entryPa + 6) ||| 0x10]
  gone : loggedLeaf s core e = none → BytesKept s t
  roots : ∀ n a, rootOf t n a = rootOf s n a
  places : ∀ a, keyOf t a = keyOf s a

/-- Entries merged one after another, each with the core whose log holds it. -/
def MergesAll : List (Nat × Word) → State → State → Prop
  | [], s, t => BytesKept s t
  | p :: ps, s, t => ∃ u, MergesOne p.1 p.2 s u ∧ MergesAll ps u t

/-- The n oldest entries of a core's log, oldest first (R87). -/
def oldestLogged (s : State) (n core : Nat) : List (Nat × Word) :=
  (List.range n).map fun i => (core, tget (s.core core).dlog (((s.core core).dlHead + i) % 1024) 0)

/-- All entries of the logs of cores that await merging. -/
def allLogged (s : State) (cores : List Nat) : List (Nat × Word) :=
  cores.flatMap fun n => oldestLogged s (logWaiting (s.core n)) n

/-- A field of a command is replaced where its valid bit is set in the new word, and stays otherwise (R358). -/
def Replaced (v lo n : Nat) (w old new : Word) : Prop :=
  bitOf new v = (bitOf w v || bitOf old v) ∧ fieldOf new lo n = if bitOf w v then fieldOf w lo n else fieldOf old lo n

end Sys2Proof.Spec

/-- R86, R88, R89, R357: HARVEST merges the dirty log of every active core, or of a sorus's cores: each entry, oldest first, sets D in the
leaf that maps its page and changes no other bit of memory; it empties the logs and clears their filters. A sorus that is not active is
ILLEGAL.
R358: PHASE makes a command pending whose valid fields replace the same fields of the pending one; PHASE.now leaves the pending
command, and where no clamp holds the step of a clock that it names to another value begins a hold, behind those that run, while the die
runs at its old clock (R432); a bad command is PHASEARG. -/
def Obligations.HarvestAndPhase : Prop :=
  (∀ (f : Frame) (r : FmtR) (s : State), Enabled f s → NoStep s → NoRegion s → s.ctx.mode ≠ .user → s.ctx.readable r.a.val = true →
    (∀ n, LogSound (s.core n)) → s.memOk →
    (∃ t, exec (.harvestAll f r) s = .next t ∧ Retires f s t ∧ MergesAll (allLogged s (activeCores s)) s t ∧
      ∀ n, coreActive s n = true → (t.core n).dfilter = [] ∧ (t.core n).dlFull = false ∧ (t.core n).dlHead = (t.core n).dlTail) ∧
    (sorusActive s (s.ctx.reg r.a.val).toNat = true → ∃ t, exec (.harvestSor f r) s = .next t ∧ Retires f s t ∧
      MergesAll (allLogged s (coresOf (s.ctx.reg r.a.val).toNat)) s t ∧
      ∀ n, n / 8 = (s.ctx.reg r.a.val).toNat → (t.core n).dfilter = [] ∧ (t.core n).dlFull = false ∧
        (t.core n).dlHead = (t.core n).dlTail) ∧
    (TrapReady s → sorusActive s (s.ctx.reg r.a.val).toNat = false → ∃ t, exec (.harvestSor f r) s = .next t ∧ Faults s t 0x00 0)) ∧
  (∀ (f : Frame) (r : FmtI) (s : State) (w : Word), Enabled f s → NoStep s → NoRegion s → s.ctx.mode ≠ .user →
    s.ctx.readable r.a.val = true → w = s.ctx.reg r.a.val → s.dev.minimal = false →
    (¬BadPhase s w false → ∃ t, exec (.phase f r) s = .next t ∧ Done (fun s => { s with dev := { s.dev with pend := false, cmd := 0 } }) nothing f s t s.ctx ∧
      t.dev.pend = true ∧ Replaced 7 0 6 w s.dev.cmd t.dev.cmd ∧ Replaced 15 8 6 w s.dev.cmd t.dev.cmd ∧
      Replaced 23 16 2 w s.dev.cmd t.dev.cmd ∧ Replaced 31 24 1 w s.dev.cmd t.dev.cmd) ∧
    (¬BadPhase s w true → s.dev.clamp0 = false → s.dev.clamp1 = false → ∃ t, exec (.phaseNow f r) s = .next t ∧ Retires f s t ∧
      t.dev.cmd = s.dev.cmd ∧ t.dev.pend = s.dev.pend ∧ t.dev.quiet = s.dev.quiet ∧
      t.dev.c0clk = s.dev.c0clk ∧ t.dev.c1clk = s.dev.c1clk ∧
      t.dev.relock0 = (if bitOf w 7 = true ∧ ¬(s.dev.relock0 = [] ∧ s.dev.c0clk = fieldOf w 0 6) then s.dev.relock0 ++ [fieldOf w 0 6]
        else s.dev.relock0) ∧
      t.dev.relock1 = (if bitOf w 15 = true ∧ ¬(s.dev.relock1 = [] ∧ s.dev.c1clk = fieldOf w 8 6) then s.dev.relock1 ++ [fieldOf w 8 6]
        else s.dev.relock1)) ∧
    (TrapReady s → BadPhase s w false → ∃ t, exec (.phase f r) s = .next t ∧ Faults s t 0x60 0) ∧
    (TrapReady s → BadPhase s w true → ∃ t, exec (.phaseNow f r) s = .next t ∧ Faults s t 0x60 0))

/-- R361, R422: DBGINJ of kind 0 XORs an element of a tile in place and leaves its cortex and metadata. The tile of an open region's
checkpoint takes the flip too where the register has not been written since RGBEGIN, for then it is the same physical tile (R147, R294; log
entry 87, the model's choice). Kinds 1 and 2 arm an injection; a reserved
bit or another kind is ILLEGAL, an element outside the tile TSHAPE. -/
def Obligations.DebugInjection : Prop :=
  ∀ (f : Frame) (r : FmtR) (s : State) (a b : Word) (x : Tile), Enabled f s → NoStep s → s.ctx.mode = .firmware →
    s.ctx.readable r.a.val = true → s.ctx.readable r.b.val = true → a = s.ctx.reg r.a.val → b = s.ctx.reg r.b.val →
    x = s.ctx.tile (fieldOf a 4 4) →
    (a.toNat < 2 ^ 20 → fieldOf a 0 4 = 0 → x.valid = true → fieldOf a 8 5 < x.rows → fieldOf a 13 7 < x.cols →
      x.elems.length = x.rows * x.cols →
      ∃ t y k, exec (.dbginj f r) s = .next t ∧ Done nothing nothing f s t { s.ctx with tiles := (s.ctx.setTile (fieldOf a 4 4) y).tiles, ckpt := k } ∧
        BytesKept s t ∧
        (s.ctx.ckpt = none → k = none) ∧
        (∀ p, s.ctx.ckpt = some p → ∃ q, k = some q ∧
          tget q.tiles (fieldOf a 4 4) Tile.empty =
            if s.ctx.tnew.getLsbD (fieldOf a 4 4) = false then y else tget p.tiles (fieldOf a 4 4) Tile.empty) ∧
        y.rows = x.rows ∧ y.cols = x.cols ∧ y.fmt = x.fmt ∧ y.dom = x.dom ∧ y.valid = true ∧ y.rowck = x.rowck ∧ y.colck = x.colck ∧
        ∀ i j, i < x.rows → j < x.cols → y.enc i j =
          if i = fieldOf a 8 5 ∧ j = fieldOf a 13 7 then x.enc i j ^^^ (b.toNat % 2 ^ (8 * x.width)) else x.enc i j) ∧
    (a.toNat < 2 ^ 20 → fieldOf a 0 4 = 1 → ∃ t, exec (.dbginj f r) s = .next t ∧
      Done nothing nothing f s t { s.ctx with injMatrix := some ⟨fieldOf a 8 5, fieldOf a 13 7, b⟩ }) ∧
    (a.toNat < 2 ^ 20 → fieldOf a 0 4 = 2 → ∃ t, exec (.dbginj f r) s = .next t ∧
      Done nothing nothing f s t { s.ctx with injScalar := some ⟨fieldOf a 8 5, fieldOf a 13 7, b⟩ }) ∧
    (TrapReady s → a.toNat ≥ 2 ^ 20 ∨ fieldOf a 0 4 > 2 → ∃ t, exec (.dbginj f r) s = .next t ∧ Faults s t 0x00 0) ∧
    (TrapReady s → a.toNat < 2 ^ 20 → fieldOf a 0 4 = 0 → x.valid = false ∨ fieldOf a 8 5 ≥ x.rows ∨ fieldOf a 13 7 ≥ x.cols →
      ∃ t, exec (.dbginj f r) s = .next t ∧ Faults s t 0x34 (BitVec.ofNat 64 (fieldOf a 4 4)))

/-- R261, R350, R368, R380: TEND of a core with nothing on its way sends one plain decrement to the cell that TASKJOIN names (none for
0xFFFF), lowers its launch's counter by one and leaves the context idle in user mode; no register of the program and no byte of memory
changes. In a region it is ILLEGAL. That the idle context is in user mode with INTRAP and ENDF clear and TASKJOIN as it was, and that no
decrement is sent where the context holds no task, are the model's choice (log entry 41). -/
def Obligations.TaskEnd : Prop :=
  ∀ (f : Frame) (r : FmtR) (s : State), Enabled f s → NoStep s → NoTrace s →
    (NoRegion s → CoreDrained s.myCore → bitOf s.ctx.cpyerr 0 = false → ∃ t, exec (.tend f r) s = .next t ∧ BytesKept s t ∧
      t.ctx.active = false ∧ t.ctx.task = none ∧ t.ctx.mode = .user ∧ bitOf t.ctx.estat 2 = false ∧ bitOf t.ctx.estat 7 = false ∧
      t.ctx.g = s.ctx.g ∧ t.ctx.p = s.ctx.p ∧ t.ctx.tiles = s.ctx.tiles ∧ t.ctx.taskjoin = s.ctx.taskjoin ∧
      (s.ctx.task.isSome = true → t.dev.decrs = s.dev.decrs ++ if fieldOf s.ctx.taskjoin 0 16 = 0xFFFF then []
        else [⟨fieldOf s.ctx.taskjoin 8 7, fieldOf s.ctx.taskjoin 0 8, 1, 0, 0, some s.me⟩]) ∧
      (s.ctx.task = none → t.dev.decrs = s.dev.decrs) ∧
      (∀ k n c, s.ctx.task = some k → k.lctr = some n → s.launch.ctrs.lookup n = some c →
        ∃ d, t.launch.ctrs.lookup n = some d ∧ d.left = c.left - 1 ∧ d.ended = c.ended + 1 ∧ d.fcount = c.fcount)) ∧
    (s.ctx.regionOpen = true → s.ctx.commit = none → ∃ t, exec (.tend f r) s = .next t ∧ t.ctx.regionOpen = false ∧
      fieldOf t.ctx.erstat 0 4 = 6 ∧ t.ctx.retired = s.ctx.retired)

namespace Sys2Proof.Spec
open Sys2Proof.Machine

/-! ### Class 001: buffers and event units -/

/-- A slot that the context may touch: context 1 has the top of each buffer, as BUFPART sets it (R33). -/
def Mine (s : State) (b : Buf) (i : Nat) : Prop :=
  let urg := match b with
    | .w => fieldOf s.myCore.bufpart 0 7
    | .a => fieldOf s.myCore.bufpart 8 6
    | .c => fieldOf s.myCore.bufpart 16 6
  let n := match b with
    | .c => 32
    | _ => 64
  if s.mycx = 0 then i < n - urg else n - urg ≤ i ∧ i < n

/-- The regions of buffer A (R18): first offset, bytes, bytes of a slot's part where the region is divided among slots. -/
def regionsOfA : List (Nat × Nat × Option Nat) := [
  (0, 0x40000, some 0x1000), (0x40000, 0xA000, some 0x280), (0x4A000, 0x200, some 8), (0x4C000, 0x2000, none), (0x4E000, 0x2000, none)]

/-- n aligned bytes of buffer A that the context may read (R26): inside one region, of slots of its own; the dirty log from supervisor
mode. -/
structure BufReadable (s : State) (o n : Nat) : Prop where
  aligned : o % n = 0
  region : ∃ p ∈ regionsOfA, p.1 ≤ o ∧ o + n ≤ p.1 + p.2.1 ∧ (p.1 = 0x4C000 → s.ctx.mode ≠ .user) ∧
    ∀ w, p.2.2 = some w → Mine s .a ((o - p.1) / w) ∧ (p.1 = 0 → (slotAt s.myCore .a (o / w)).ue = [])

/-- A tile whose lists fit its shape. -/
structure TileSound (x : Tile) : Prop where
  elems : x.elems.length = x.rows * x.cols
  small : ∀ e ∈ x.elems, e < 2 ^ (8 * x.width)
  rows : x.rows ≤ 32
  cols : x.cols * x.width ≤ 128

/-- Shape, format, domain and VALID of a tile are another's. -/
def SameShape (x y : Tile) : Prop := x.valid = y.valid ∧ x.rows = y.rows ∧ x.cols = y.cols ∧ x.fmt = y.fmt ∧ x.dom = y.dom

/-- Buffer A erased from a core. -/
def noBufA (k : Core) : Core := { k with bufA := [] }

end Sys2Proof.Spec

/-- R18, R24, R26, R28, R187, R268: LDL puts bytes of buffer A, extended, in gD; STL stores the low bytes of gD in the row of a slot that is
VALID and not block-scaled, and nowhere else: the slot keeps its shape, and checks that agreed with the elements still agree. STL of a
buffer other than A is BUFSPACE with FADDR the offset. -/
def Obligations.BufferBytes : Prop :=
  ∀ (f : Frame) (r : FmtM) (s : State) (o n : Nat), Enabled f s → NoStep s → NoRegion s → BuffersIdle s →
    s.ctx.readable r.a.val = true → s.ctx.readable r.d.val = true → o = (eaOf s r).toNat → n = sizeBytes r.sz →
    (r.sp.val = 0 → BufReadable s o n → ∃ t, exec (.ldl f r) s = .next t ∧
      SetsReg (afterPc f s) s t r.d.val (loadedWord r.sz ((List.range n).map fun i => bufByte s.myCore .a (o + i))) 0) ∧
    (∀ x, r.sp.val = 0 → o % n = 0 → o + n ≤ 0x40000 → Mine s .a (o / 0x1000) → x = slotAt s.myCore .a (o / 0x1000) → TileSound x →
      x.valid = true → x.ue = [] → (∀ g, x.fmt = some g → g.isMx = false) → o % 0x1000 / 128 < x.rows → o % 128 + n ≤ x.cols * x.width →
      ∃ t, exec (.stl f r) s = .next t ∧ Done nothing noBufA f s t s.ctx ∧
        SameShape (slotAt t.myCore .a (o / 0x1000)) x ∧
        (x.verify.state = 0 → (slotAt t.myCore .a (o / 0x1000)).verify.state = 0) ∧
        (∀ i, i ≠ o / 0x1000 → slotAt t.myCore .a i = slotAt s.myCore .a i) ∧
        (∀ i, i < n → bufByte t.myCore .a (o + i) = (lowBytes n (s.ctx.reg r.d.val)).getD i 0) ∧
        (∀ p, p < 0x40000 → (p < o ∨ o + n ≤ p) → bufByte t.myCore .a p = bufByte s.myCore .a p)) ∧
    (TrapReady s → r.sp.val ≠ 0 → ∃ t, exec (.stl f r) s = .next t ∧ Faults s t 0x1C (eaOf s r))

namespace Sys2Proof.Spec
open Sys2Proof.Machine

/-- An address of the event-unit window (R36, R279): an active sorus's unit, an offset in a range that holds records of 16 bytes. -/
structure UnitAt (s : State) (a : Word) (k lo hi n : Nat) : Prop where
  small : a.toNat < 65536
  sorus : a.toNat / 4096 = k
  active : sorusActive s k = true
  record : lo ≤ a.toNat % 4096 ∧ a.toNat % 4096 < hi ∧ (a.toNat % 4096 - lo) / 16 = n
  base : a.toNat % 16 = 0

/-- Barrier b of unit k. -/
def BarrierAt (s : State) (a : Word) (k b : Nat) : Prop := UnitAt s a k 0 0x100 b

/-- Mutex m of unit k. -/
def MutexAt (s : State) (a : Word) (k m : Nat) : Prop := UnitAt s a k 0x100 0x200 m

/-- Event line e of unit k. -/
def LineAt (s : State) (a : Word) (k e : Nat) : Prop := UnitAt s a k 0x200 0x400 e

/-- The units' own state erased. -/
def noUnits (s : State) : State := { s with sori := [] }

/-- Every unit's barriers, mutexes and lines but for one record are as before, and so is all else that a sorus holds. -/
def UnitsKept (s t : State) (bar mtx line : Nat × Nat → Prop) : Prop :=
  (∀ k, { t.sorus k with barriers := [], mutexes := [], evlines := [] } = { s.sorus k with barriers := [], mutexes := [], evlines := [] }) ∧
    (∀ k b, ¬bar (k, b) → barrierAt t k b = barrierAt s k b) ∧ (∀ k m, ¬mtx (k, m) → mutexAt t k m = mutexAt s k m) ∧
    ∀ k e, ¬line (k, e) → evLineAt t k e = evLineAt s k e

/-- No record. -/
def noRecord (_ : Nat × Nat) : Prop := False

/-- A report of barrier b that unit k holds: unsent, or not yet applied (R280). -/
def HeldReport (k b : Nat) (q : Report) : Bool :=
  q.b == b && ((q.src == k && q.stage == .prepared) || (q.dst == k && q.stage == .port))

/-- A context that has no wait and no region, and steps nothing. -/
structure Free (s : State) : Prop where
  step : NoStep s
  wait : s.ctx.wait = none
  region : NoRegion s

end Sys2Proof.Spec

/-- R36, R37, R267, R280, R283, R284: LD.ev of 8 bytes returns the state word of a barrier, a mutex or a line; at a wait word it takes a free
mutex or a signal first.
R37, R267, R280, R283, R284, R285: the supervisor's ST.ev sets the fields of a barrier without waiters, of a mutex without a queue, or of a
line without waiters from the word, and a barrier's write discards the reports that its unit holds; from user mode it is EVSPACE. -/
def Obligations.UnitWindow : Prop :=
  (∀ (f : Frame) (r : FmtM) (s : State) (a : Word), Enabled f s → Free s → s.ctx.readable r.a.val = true → r.sz = .dword → a = eaOf s r →
    (∀ k b, BarrierAt s a k b → ∃ t, exec (.ldEv f r) s = .next t ∧ SetsReg (afterPc f s) s t r.d.val (barrierAt s k b).word 0) ∧
    (∀ k m, MutexAt s a k m → ∃ t, exec (.ldEv f r) s = .next t ∧ SetsReg (afterPc f s) s t r.d.val (mutexAt s k m).word 0) ∧
    (∀ k e, LineAt s a k e → ∃ t, exec (.ldEv f r) s = .next t ∧ SetsReg (afterPc f s) s t r.d.val (evLineAt s k e).word 0) ∧
    (∀ k m, MutexAt s (a - 8) k m → (mutexAt s k m).held = false → ∃ t, exec (.ldEv f r) s = .next t ∧
      mutexAt t k m = { mutexAt s k m with held := true, core := s.me, cx := s.mycx } ∧
      Done noUnits nothing f s t (s.ctx.setReg r.d.val (mutexAt t k m).word) ∧ UnitsKept s t noRecord (· = (k, m)) noRecord) ∧
    (∀ k e, LineAt s (a - 8) k e → (evLineAt s k e).pending ≠ 0 → ∃ t, exec (.ldEv f r) s = .next t ∧
      evLineAt t k e = { evLineAt s k e with pending := (evLineAt s k e).pending - 1 } ∧
      Done noUnits nothing f s t (s.ctx.setReg r.d.val (evLineAt t k e).word) ∧ UnitsKept s t noRecord noRecord (· = (k, e)))) ∧
  (∀ (f : Frame) (r : FmtM) (s : State) (a w : Word), Enabled f s → Free s → s.ctx.readable r.a.val = true → s.ctx.readable r.d.val = true →
    r.sz = .dword → a = eaOf s r → w = s.ctx.reg r.d.val →
    (s.ctx.mode ≠ .user →
      (∀ k b, BarrierAt s a k b → (barrierAt s k b).waiters = [] → ∃ t, exec (.stEv f r) s = .next t ∧
        Done (fun s => { noUnits s with dev := { s.dev with reports := [] } }) nothing f s t s.ctx ∧
        t.dev.reports = s.dev.reports.filter (fun q => !(HeldReport k b q)) ∧ UnitsKept s t (· = (k, b)) noRecord noRecord ∧
        (barrierAt t k b).phase = fieldOf w 0 16 ∧ (barrierAt t k b).arrived = fieldOf w 16 9 ∧ (barrierAt t k b).rpt = bitOf w 25 ∧
        (barrierAt t k b).expect = fieldOf w 32 9 ∧ (barrierAt t k b).done = fieldOf w 50 5 ∧
        (barrierAt t k b).nsor = fieldOf w 55 5 ∧ (barrierAt t k b).root = fieldOf w 60 4) ∧
      (∀ k m, MutexAt s a k m → (mutexAt s k m).queue = [] → ∃ t, exec (.stEv f r) s = .next t ∧
        Done noUnits nothing f s t s.ctx ∧ UnitsKept s t noRecord (· = (k, m)) noRecord ∧
        mutexAt t k m = ⟨bitOf w 7, fieldOf w 0 7, fieldOf w 8 1, []⟩) ∧
      (∀ k e, LineAt s a k e → (evLineAt s k e).waiters = [] → ∃ t, exec (.stEv f r) s = .next t ∧
        Done noUnits nothing f s t s.ctx ∧ UnitsKept s t noRecord noRecord (· = (k, e)) ∧ evLineAt t k e = ⟨fieldOf w 0 32, []⟩)) ∧
    (TrapReady s → s.ctx.mode = .user → ∀ k b, BarrierAt s a k b → ∃ t, exec (.stEv f r) s = .next t ∧ Faults s t 0x2E a))
namespace Sys2Proof.Spec
open Sys2Proof.Machine

/-! ### Class 011: fences and waits -/

/-- No reduction and no store to an owner is on its way or combined, nothing is posted to the host, no retired store waits (R105, R123), no
part of an SO store is still to be performed (R107), no flit of the core's channel sends waits to be taken (R288, R290), and no relock hold
runs (R59). -/
structure NothingSent (s : State) : Prop where
  relock : NoHold s
  parts : s.myCore.soParts = []
  flits : ∀ x ∈ s.dev.flits, x.src ≠ s.me
  channels : ∀ p ∈ s.cores, ∀ c ∈ p.2.chans, ∀ x ∈ c.2.flits ++ c.2.refused, x.src ≠ s.me
  stores : s.myCore.sbuf = []
  combined : ∀ w ∈ s.myCore.wc, w.fwd = none
  ops : s.myCore.nonRet = []
  posted : s.myCore.posted = []
  host : s.dev.posted = []

/-- A scope of the table that is not defined (R121). -/
def NoScope (s : State) (r : Nat) : Prop := resolveScope s s.me (fieldOf s.ctx.sctbl 0 6) r = none

end Sys2Proof.Spec

/-- R111, R121, R123, R124, R127, R138, R140, R274, R275: FENCE.acq leaves no byte that could be stale at its scope, FENCE.rel none dirty below
it, FENCE.full neither, and the write-combining buffer empty; FENCE.eng also waits for the engine and acquires what its copies wrote.
That FENCE.rel and FENCE.full complete once the core's flits are taken is the model's reading of R127 and R290 (log entry 91).
WAITCNT retires once the counts are at or below its limits. An undefined scope is BADSCOPE with the entry's address. -/
def Obligations.FencesAndCounts : Prop :=
  ∀ (f : Frame) (s : State), Enabled f s → NoStep s → NoRegion s → LinesAligned s →
    (∀ (r : FmtR) (sc : Scope), ScopeIs s r.sc.val sc →
      (∃ t, exec (.fenceAcq f r) s = .next t ∧ BytesKept s t ∧ Acquired s.me t.myCore sc ∧
        Done nothing noL1 f s t { s.ctx with pin := none }) ∧
      (NothingSent s →
        (∃ t, exec (.fenceRel f r) s = .next t ∧ Retires f s t ∧ Released s.me t.myCore sc ∧
          ((coreScope s.me).contains sc = false → t.myCore.wc = [])) ∧
        (∃ t, exec (.fenceFull f r) s = .next t ∧ Retires f s t ∧ Released s.me t.myCore sc ∧ Acquired s.me t.myCore sc ∧
          t.myCore.wc = []) ∧
        (BuffersIdle s → s.myCore.sends = 0 → bitOf s.ctx.cpyerr 0 = false → ∃ t, exec (.fenceEng f r) s = .next t ∧
          Retires f s t ∧ Released s.me t.myCore sc ∧ Acquired s.me t.myCore sc ∧ t.myCore.wc = [] ∧ t.myCore.toAcquire = []))) ∧
    (∀ r : FmtW, BuffersIdle s → (r.nr.val = 63 ∨ s.myCore.nonRet.length ≤ r.nr.val) →
      (r.np.val = 63 ∨ s.myCore.posted.length + (s.myCore.wc.filter fun w => w.fwd.any fun f => f.owner != 0).length ≤ r.np.val) → (r.nc.val = 15 ∨ s.myCore.sends ≤ r.nc.val) →
      (r.nb.val < 255 → bitOf s.ctx.cpyerr 0 = false) → ∃ t, exec (.waitcnt f r) s = .next t ∧ BytesKept s t ∧
        Done nothing (fun k => { noL1 k with toAcquire := [] }) f s t { s.ctx with pin := none }) ∧
    (TrapReady s → ∀ r : FmtR, NoScope s r.sc.val → ∀ i ∈ [Instr.fenceAcq f r, .fenceRel f r, .fenceFull f r, .fenceEng f r],
      ∃ t, exec i s = .next t ∧
        Faults s t 0x17 (BitVec.ofNat 64 (0xF000100000000 + fieldOf s.ctx.sctbl 0 6 * 1024 + r.sc.val * 32)))

namespace Sys2Proof.Spec
open Sys2Proof.Machine

/-- The acting context waits at its instruction, which has not retired (R263). -/
structure WaitsFor (s t : State) (k : WaitKind) : Prop where
  wait : t.ctx.wait = some ⟨k, s.ctx.pc, none⟩
  pc : t.ctx.pc = s.ctx.pc
  retired : t.ctx.retired = s.ctx.retired
  regs : t.ctx.g = s.ctx.g ∧ t.ctx.p = s.ctx.p ∧ t.ctx.tiles = s.ctx.tiles

/-- Bytes of WAITA and WAKE: TY 000 names 8, 001 names 4 (R276). -/
def waitSize (r : FmtR) : Nat := if r.ty == .i32 then 4 else 8

/-- The waiters of a line at its home (R276). -/
def waitersOf (s : State) (line : Nat) : List WaitEntry := (s.slice (homeOf line)).waits.filter fun e => e.line == line

/-- A waiter that is another context. -/
def Another (s : State) (w : Who) : Prop := w.slot = none ∧ ¬(w.core = s.me ∧ (w.cx = 0 ↔ s.mycx = 0))

end Sys2Proof.Spec

/-- R76, R130, R276, R277: WAITA whose word differs from gB returns 0; one whose word is equal waits, at the tail of its line's list; WAKE
removes the oldest min(gB, waiters) of the line, ends the wait of each with reason 2 and returns how many. No byte of memory changes. -/
def Obligations.WaitAndWake : Prop :=
  ∀ (f : Frame) (r : FmtR) (s : State) (a : Attr) (ea : Word) (n : Nat), Enabled f s → Settled s → s.ctx.readable r.a.val = true →
    s.ctx.readable r.b.val = true → ea = s.ctx.reg r.a.val → n = waitSize r → ea.toNat % n = 0 → AtHome s ea.toNat a →
    (Mapped s ea.toNat n .read a →
      (fromBytes (8 * n) (memBytes s a.pa n) ≠ (s.ctx.reg r.b.val).setWidth (8 * n) →
        ∃ t, exec (.waita f r) s = .next t ∧ BytesKept s t ∧ Done noSlices nothing f s t (s.ctx.setReg r.d.val 0)) ∧
      (fromBytes (8 * n) (memBytes s a.pa n) = (s.ctx.reg r.b.val).setWidth (8 * n) →
        (s.slice (homeOf (lineOf a.pa))).waits.length < 256 →
        ∃ t, exec (.waita f r) s = .next t ∧ BytesKept s t ∧ WaitsFor s t (.addr a.pa) ∧
          waitersOf t (lineOf a.pa) = waitersOf s (lineOf a.pa) ++ [⟨lineOf a.pa, ⟨s.me, s.mycx, none⟩⟩])) ∧
    (Mapped s ea.toNat n .write a → ∃ t, exec (.wake f r) s = .next t ∧ BytesKept s t ∧
      RegsAre s.ctx t.ctx r.d.val (BitVec.ofNat 64 (min (s.ctx.reg r.b.val).toNat (waitersOf s (lineOf a.pa)).length)) ∧
      waitersOf t (lineOf a.pa) = (waitersOf s (lineOf a.pa)).drop (s.ctx.reg r.b.val).toNat ∧
      (∀ e ∈ (waitersOf s (lineOf a.pa)).take (s.ctx.reg r.b.val).toNat, Another s e.who → ∀ pa pc g, lineOf pa = lineOf a.pa →
        (s.ctxAt e.who.core e.who.cx).wait = some ⟨.addr pa, pc, g⟩ →
        (t.ctxAt e.who.core e.who.cx).wait = some ⟨.addr pa, pc, some (.value 2)⟩) ∧
      t.ctx.pc = (s.ctx.stepRept (afterPc f s)).pc ∧ t.ctx.retired = s.ctx.retired + 1)

namespace Sys2Proof.Spec
open Sys2Proof.Machine

/-- The token of an arrival (R281). -/
def tokenOf (x : Barrier) : Nat := (x.phase + 1 + x.rpt.toNat) % 65536

/-- (PHASE − token) mod 2^16 (R282). -/
def sinceToken (x : Barrier) (tok : Nat) : Nat := (x.phase + 65536 - tok % 65536) % 65536

/-- The acting context as it stands in a list of waiters. -/
def meAsWaiter (s : State) : Who := ⟨s.me, s.mycx, none⟩

end Sys2Proof.Spec

/-- R280, R281, R282: an arrival adds one to ARRIVED and takes a token. The last one of a share clears ARRIVED, and in a barrier of one
sorus completes the phase and releases the waits that the new PHASE satisfies; in a barrier that spans sori the unit reports to the root.
BARA returns the token at once, BAR after its phase; BARW returns the phases since its token, or by parity. EXPECT = 0 is EVSPACE. -/
def Obligations.BarrierInstructions : Prop :=
  ∀ (f : Frame) (r : FmtR) (s : State) (a : Word) (k b : Nat) (x : Barrier), Enabled f s → Free s → s.ctx.readable r.a.val = true →
    s.ctx.readable r.b.val = true → a = s.ctx.reg r.a.val → BarrierAt s a k b → x = barrierAt s k b →
    (x.expect ≠ 0 → x.arrived + 1 < 512 → x.arrived + 1 ≠ x.expect →
      (∃ t, exec (.bara f r) s = .next t ∧ barrierAt t k b = { x with arrived := x.arrived + 1, arrivers := x.arrivers ++ [s.me] } ∧
        Done noUnits nothing f s t (s.ctx.setReg r.d.val (BitVec.ofNat 64 (tokenOf x))) ∧ UnitsKept s t (· = (k, b)) noRecord noRecord) ∧
      ((x.span ≠ 0 → s.dev.removed.contains x.root = false) → ∃ t, exec (.bar f r) s = .next t ∧
        WaitsFor s t (.barrier k b (tokenOf x)) ∧ UnitsKept s t (· = (k, b)) noRecord noRecord ∧
        barrierAt t k b =
          { x with arrived := x.arrived + 1, arrivers := x.arrivers ++ [s.me], waiters := x.waiters ++ [⟨meAsWaiter s, some (tokenOf x), false⟩] })) ∧
    (x.expect < 512 → x.arrived + 1 = x.expect → x.rpt = false → x.span = 0 →
      (x.waiters = [] → ∀ i ∈ [Instr.bara f r, .bar f r], ∃ t, exec i s = .next t ∧
        Done noUnits nothing f s t (s.ctx.setReg r.d.val (BitVec.ofNat 64 (tokenOf x))) ∧ UnitsKept s t (· = (k, b)) noRecord noRecord ∧
        barrierAt t k b = { x with phase := (x.phase + 1) % 65536, arrived := 0, arrivers := [] }) ∧
      (∀ w pc, Another s w → x.waiters = [⟨w, some (tokenOf x), false⟩] →
        (s.ctxAt w.core w.cx).wait = some ⟨.barrier k b (tokenOf x), pc, none⟩ → ∃ t, exec (.bara f r) s = .next t ∧
          (barrierAt t k b).waiters = [] ∧
          (t.ctxAt w.core w.cx).wait = some ⟨.barrier k b (tokenOf x), pc, some (.value 0)⟩)) ∧
    (x.expect < 512 → x.arrived + 1 = x.expect → x.rpt = false → x.span ≠ 0 → ∃ t, exec (.bara f r) s = .next t ∧
      barrierAt t k b = { x with arrived := 0, arrivers := [], rpt := true } ∧
      t.dev.reports = s.dev.reports ++ [⟨k, x.root, b, .prepared⟩] ∧
      RegsAre s.ctx t.ctx r.d.val (BitVec.ofNat 64 (tokenOf x))) ∧
    (r.var.val % 2 = 0 → sinceToken x (s.ctx.reg r.b.val).toNat < 0x8000 → ∃ t, exec (.barw f r) s = .next t ∧
      SetsReg (afterPc f s) s t r.d.val (BitVec.ofNat 64 (sinceToken x (s.ctx.reg r.b.val).toNat)) 0) ∧
    (r.var.val % 2 = 1 → (s.ctx.reg r.b.val).getLsbD 0 ≠ ((x.phase + 1) % 2 == 1) → ∃ t, exec (.barw f r) s = .next t ∧
      SetsReg (afterPc f s) s t r.d.val 1 0) ∧
    (TrapReady s → x.expect = 0 → ∀ i ∈ [Instr.bara f r, .bar f r], ∃ t, exec i s = .next t ∧ Faults s t 0x2E a)

/-- R283, R284: MTXL takes a free mutex and queues for a held one; MTXU frees it or hands it to the oldest in the queue; the owner's MTXL and
a stranger's MTXU are MTXOWNER. EVSIG adds signals, saturating at 2^32 − 1, and gives one to a context that waits; EVWAIT takes one, or waits where
there is none. -/
def Obligations.MutexesAndEventLines : Prop :=
  ∀ (f : Frame) (r : FmtR) (s : State) (a : Word), Enabled f s → Free s → s.ctx.readable r.a.val = true →
    s.ctx.readable r.b.val = true → a = s.ctx.reg r.a.val →
    (∀ k m x, MutexAt s a k m → x = mutexAt s k m →
      (x.held = false → ∃ t, exec (.mtxl f r) s = .next t ∧ mutexAt t k m = { x with held := true, core := s.me, cx := s.mycx } ∧
        Done noUnits nothing f s t s.ctx ∧ UnitsKept s t noRecord (· = (k, m)) noRecord) ∧
      (x.held = true → ¬(x.core = s.me ∧ x.cx = s.mycx) → ∃ t, exec (.mtxl f r) s = .next t ∧ WaitsFor s t (.mutex k m) ∧
        mutexAt t k m = { x with queue := x.queue ++ [⟨meAsWaiter s, false⟩] } ∧ UnitsKept s t noRecord (· = (k, m)) noRecord) ∧
      (x.held = true → x.core = s.me → x.cx = s.mycx →
        (x.queue = [] → ∃ t, exec (.mtxu f r) s = .next t ∧ mutexAt t k m = { x with held := false } ∧
          Done noUnits nothing f s t s.ctx ∧ UnitsKept s t noRecord (· = (k, m)) noRecord) ∧
        (∀ w rest pc, x.queue = w :: rest → Another s w.who → (s.ctxAt w.who.core w.who.cx).wait = some ⟨.mutex k m, pc, none⟩ →
          ∃ t v, exec (.mtxu f r) s = .next t ∧
            mutexAt t k m = { x with held := true, core := w.who.core, cx := w.who.cx, queue := rest } ∧
            (t.ctxAt w.who.core w.who.cx).wait = some ⟨.mutex k m, pc, some (.value v)⟩) ∧
        (TrapReady s → ∃ t, exec (.mtxl f r) s = .next t ∧ Faults s t 0x40 a)) ∧
      (TrapReady s → ¬(x.held = true ∧ x.core = s.me ∧ x.cx = s.mycx) → ∃ t, exec (.mtxu f r) s = .next t ∧ Faults s t 0x40 a)) ∧
    (∀ k e x, LineAt s a k e → x = evLineAt s k e →
      (x.waiters = [] → ∃ t, exec (.evsig f r) s = .next t ∧ Done noUnits nothing f s t s.ctx ∧
        UnitsKept s t noRecord noRecord (· = (k, e)) ∧
        evLineAt t k e = { x with pending := min (x.pending + (s.ctx.reg r.b.val).toNat % 2 ^ 32) 0xFFFFFFFF }) ∧
      (∀ w pc p, x.waiters = [⟨w, false⟩] → Another s w → (s.ctxAt w.core w.cx).wait = some ⟨.evline k e, pc, none⟩ →
        p = min (x.pending + (s.ctx.reg r.b.val).toNat % 2 ^ 32) 0xFFFFFFFF → p ≠ 0 → ∃ t, exec (.evsig f r) s = .next t ∧
          evLineAt t k e = ⟨p - 1, []⟩ ∧
          (t.ctxAt w.core w.cx).wait = some ⟨.evline k e, pc, some (.value (BitVec.ofNat 64 (p - 1)))⟩) ∧
      (x.pending ≠ 0 → ∃ t, exec (.evwait f r) s = .next t ∧ evLineAt t k e = { x with pending := x.pending - 1 } ∧
        Done noUnits nothing f s t (s.ctx.setReg r.d.val (BitVec.ofNat 64 (x.pending - 1))) ∧
        UnitsKept s t noRecord noRecord (· = (k, e))) ∧
      (x.pending = 0 → ∃ t, exec (.evwait f r) s = .next t ∧ WaitsFor s t (.evline k e) ∧
        evLineAt t k e = { x with waiters := x.waiters ++ [⟨meAsWaiter s, false⟩] } ∧ UnitsKept s t noRecord noRecord (· = (k, e))))

namespace Sys2Proof.Spec
open Sys2Proof.Machine

/-- A flit as R287 forms it. -/
structure FlitSound (x : Flit) : Prop where
  src : x.src < 128
  scx : x.scx < 2
  n : 1 ≤ x.n ∧ x.n ≤ 4

/-- The words of m registers from a number up: those of a flit, then zeros (R288). -/
def TakesWords (c d : Ctx) (b m : Nat) (x : Flit) : Prop :=
  ∀ j, d.reg j = if j ≠ 0 ∧ b ≤ j ∧ j < b + m then (x.words.take x.n).getD (j - b) 0 else c.reg j

/-- CHLAST names the flit that was taken (R289). -/
def LastIs (c : Ctx) (chan : Nat) (x : Flit) : Prop :=
  fieldOf c.chlast 0 7 = x.src ∧ fieldOf c.chlast 7 1 = x.scx ∧ fieldOf c.chlast 8 2 = x.n - 1 ∧ bitOf c.chlast 10 = x.nfm ∧
    fieldOf c.chlast 16 3 = chan

/-- The channels of a core erased. -/
def noChans (k : Core) : Core := { k with chans := [] }

end Sys2Proof.Spec

/-- R286, R287, R288, R289: CHS sends 1 to 4 registers as a flit to a channel of an active core and counts it; CHR takes the oldest flit of a
channel into registers and CHLAST, or waits where there is none; CHP does the same and says in a predicate whether it did. A flit of the other
numeric mode is NFMMISMATCH, and a bad channel CHADDR. -/
def Obligations.Channels : Prop :=
  ∀ (f : Frame) (r : FmtR) (s : State) (a : Word) (m : Nat), Enabled f s → Free s → s.ctx.readable r.a.val = true →
    a = s.ctx.reg r.a.val → m = r.var.val % 4 + 1 →
    (a &&& ~~~(0x7F07#64) = 0 → coreActive s (fieldOf a 8 7) = true → s.myCore.sends < 16 →
      (∀ i, i < m → s.ctx.readable (r.b.val + i) = true) → ∃ t, exec (.chs f r) s = .next t ∧
        Done (fun s => { s with dev := { s.dev with flits := [] } }) (fun k => { k with sends := 0 }) f s t s.ctx ∧
        t.myCore.sends = s.myCore.sends + 1 ∧
        t.dev.flits = s.dev.flits ++ [⟨s.me, s.mycx, fieldOf a 8 7, fieldOf a 0 3, m, bitOf s.ctx.corectl 0,
          (List.range m).map fun i => s.ctx.reg (r.b.val + i)⟩]) ∧
    (∀ x rest c, a.toNat < 8 → c = chanAt s.myCore a.toNat → c.flits = x :: rest → FlitSound x →
      (x.nfm = bitOf s.ctx.corectl 0 →
        (∃ t, exec (.chr f r) s = .next t ∧ Kept nothing noChans s t ∧ Stepped (afterPc f s) s.ctx t.ctx ∧
          TakesWords s.ctx t.ctx r.d.val m x ∧ LastIs t.ctx a.toNat x ∧ t.ctx.p = s.ctx.p ∧ t.ctx.tiles = s.ctx.tiles ∧
          chanAt t.myCore a.toNat = { c with flits := rest } ∧ (∀ n, n ≠ a.toNat → chanAt t.myCore n = chanAt s.myCore n)) ∧
        (∃ t, exec (.chp f r) s = .next t ∧ Kept nothing noChans s t ∧ Stepped (afterPc f s) s.ctx t.ctx ∧
          TakesWords s.ctx t.ctx r.d.val m x ∧ LastIs t.ctx a.toNat x ∧ PredsAre s.ctx t.ctx r.c.val true ∧
          chanAt t.myCore a.toNat = { c with flits := rest } ∧ (∀ n, n ≠ a.toNat → chanAt t.myCore n = chanAt s.myCore n))) ∧
      (TrapReady s → x.nfm ≠ bitOf s.ctx.corectl 0 → ∀ i ∈ [Instr.chr f r, .chp f r], ∃ t, exec i s = .next t ∧ Faults s t 0x32 0)) ∧
    (a.toNat < 8 → (chanAt s.myCore a.toNat).flits = [] →
      (∃ t, exec (.chr f r) s = .next t ∧ WaitsFor s t (.channel a.toNat)) ∧
      (∃ t, exec (.chp f r) s = .next t ∧ SetsPred (afterPc f s) s t r.c.val false 0)) ∧
    (TrapReady s → a.toNat ≥ 8 → ∀ i ∈ [Instr.chr f r, .chp f r], ∃ t, exec i s = .next t ∧ Faults s t 0x41 a)

namespace Sys2Proof.Spec
open Sys2Proof.Machine

/-- A context without the state of its region. -/
def Ctx.outside (c : Ctx) : Ctx :=
  { c with
    ckpt := none, erlo := 0, erhi := 0, erpos := 0, erstat := 0, regLines := [], early := [], abort := none, commit := none
    gnew := 0, pnew := 0, tnew := 0 }

end Sys2Proof.Spec

/-- R147, R150, R153, R154, R158, R159, R291, R292: RGBEGIN opens a region with the whole interval and a checkpoint of the registers; RGBOUND
raises its lower end; RGEND of a region without lines commits at the lower end; RGABORT brings the checkpoint back, goes to the handler and
drops the region's lines. A second RGBEGIN aborts; the others outside a region are RGSTATE. -/
def Obligations.Regions : Prop :=
  ∀ (f : Frame) (s : State), Enabled f s → NoStep s →
    (∀ r : FmtI, NoRegion s → (s.ctxAt s.me (1 - s.mycx)).regionOpen = false → ∃ t c, exec (.rgbegin f r) s = .next t ∧
      Done nothing nothing f s t c ∧ Ctx.outside c = Ctx.outside s.ctx ∧ c.regionOpen = true ∧ bitOf c.erstat 9 = (r.var.val % 2 == 1) ∧
      bitOf c.erstat 11 = false ∧ c.erlo = 0 ∧ c.erhi = BitVec.allOnes 64 ∧ c.regLines = [] ∧ c.early = [] ∧ c.abort = none ∧ c.commit = none ∧
     
      c.ckpt = some ⟨s.ctx.g, s.ctx.p, s.ctx.gue, s.ctx.pue, s.ctx.tiles, s.ctx.fpsr, s.ctx.mec0, s.ctx.mec1, s.ctx.mec2, s.ctx.mec3,
        s.ctx.pc + r.imm⟩) ∧
    (∀ r : FmtI, s.ctx.regionOpen = true → ∃ t, exec (.rgbegin f r) s = .next t ∧ t.ctx.regionOpen = false ∧
      fieldOf t.ctx.erstat 0 4 = 9 ∧ t.ctx.retired = s.ctx.retired) ∧
    (∀ r : FmtR, s.ctx.regionOpen = true → s.ctx.readable r.a.val = true → ∃ t, exec (.rgbound f r) s = .next t ∧
      Done nothing nothing f s t { s.ctx with
        erlo := if s.ctx.erlo.ult (s.ctx.reg r.a.val) then s.ctx.reg r.a.val else s.ctx.erlo }) ∧
    (∀ r : FmtR, s.ctx.regionOpen = true → s.ctx.commit = none → s.ctx.regLines = [] → s.ctx.erlo.ule s.ctx.erhi = true →
      (∀ n ∈ s.dev.narrows, ¬(n.core = s.me ∧ n.cx = s.mycx)) → (∀ l ∈ s.myCore.l1, l.spec ≠ some s.mycx) →
      ∃ t c, exec (.rgend f r) s = .next t ∧ Done nothing nothing f s t c ∧ Ctx.outside c = Ctx.outside s.ctx ∧
        c.regionOpen = false ∧ c.erpos = s.ctx.erlo ∧ fieldOf c.erstat 0 4 = 0 ∧ c.ckpt = none ∧ BytesKept s t) ∧
    (∀ (r : FmtI) (k : Checkpoint), s.ctx.regionOpen = true → s.ctx.ckpt = some k → ∃ t, exec (.rgabort f r) s = .next t ∧
      t.ctx.pc = k.handler ∧ t.ctx.g = k.g ∧ t.ctx.p = k.p ∧ t.ctx.gue = k.gue ∧ t.ctx.pue = k.pue ∧ t.ctx.tiles = k.tiles ∧ t.ctx.fpsr = k.fpsr ∧ t.ctx.mec0 = k.mec0 ∧
      t.ctx.mec1 = k.mec1 ∧ t.ctx.mec2 = k.mec2 ∧ t.ctx.mec3 = k.mec3 ∧ t.ctx.regionOpen = false ∧ fieldOf t.ctx.erstat 0 4 = 5 ∧
      fieldOf t.ctx.erstat 48 16 = r.imm.toNat % 65536 ∧ (∀ l ∈ t.myCore.l1, l.spec ≠ some s.mycx) ∧ BytesKept s t) ∧
    (TrapReady s → ∀ (r : FmtR) (q : FmtI), ∀ i ∈ [Instr.rgend f r, .rgbound f r, .rgabort f q], ∃ t, exec i s = .next t ∧ Faults s t 0x50 0)

namespace Sys2Proof.Spec
open Sys2Proof.Machine

/-- A handle of a cell of an active core (R31, R352). -/
structure CellAt (s : State) (a : Word) (core k : Nat) : Prop where
  small : a.toNat < 2 ^ 15
  at_ : fieldOf a 8 7 = core
  num : fieldOf a 0 8 = k
  active : coreActive s core = true

/-- No continuation of the core waits for a place (R378). -/
def PortFree (s : State) : Prop := ∀ p ∈ s.myCore.waitingPlace, p.by_ ≠ .cell

/-- The cells of a core erased. -/
def noCells (k : Core) : Core := { k with cells := [] }

/-- Every cell of the core but one is as before. -/
def OtherCells (s t : State) (k : Nat) : Prop := ∀ i, i ≠ k → t.cellAt t.me i = s.cellAt s.me i

end Sys2Proof.Spec

/-- R31, R349, R350, R352: TSPAWN arms an idle or done cell of its core with a count, and with a record takes the continuation's PC and
argument and the task's own join cell; with a count of 0 the cell is done at once and its continuation is placed. TDEC sends one decrement
of gB, or of 1; TJOIN returns and clears a cell that is done, returns 0 of an idle one and the status of a cancelled one, and waits at
another armed one; TCANCEL.cell marks an armed cell. An armed cell is CELLSTATE to TSPAWN. A handle with a bit of [63:15] set or of an
inactive core is CELLARG with FADDR the handle, and so is another core's to TSPAWN, TJOIN and TCANCEL.cell. -/
def Obligations.TaskCells : Prop :=
  ∀ (f : Frame) (r : FmtR) (s : State) (a : Word), Enabled f s → Settled s → NothingSent s → PortFree s →
    s.ctx.readable r.a.val = true → s.ctx.readable r.b.val = true → s.ctx.readable r.c.val = true → a = s.ctx.reg r.a.val →
    (∀ core n, CellAt s a core n → ∃ t, exec (.tdec f r) s = .next t ∧ Retires f s t ∧
      t.dev.decrs = s.dev.decrs ++ [⟨core, n, if r.b.val = 0 then 1 else (s.ctx.reg r.b.val).toNat % 2 ^ 32, 0, 0, some s.me⟩]) ∧
    (TrapReady s →
      (a.toNat ≥ 2 ^ 15 ∨ coreActive s (fieldOf a 8 7) = false → ∀ i ∈ [Instr.tspawn f r, .tdec f r, .tjoin f r, .tcancelCell f r],
        ∃ t, exec i s = .next t ∧ Faults s t 0x43 a) ∧
      (fieldOf a 8 7 ≠ s.me → ∀ i ∈ [Instr.tspawn f r, .tjoin f r, .tcancelCell f r], ∃ t, exec i s = .next t ∧ Faults s t 0x43 a)) ∧
    ∀ k x, CellAt s a s.me k → x = s.cellAt s.me k →
    (fieldOf x.ctrl 32 2 ≠ 1 → s.ctx.reg r.b.val = 0 →
      (s.ctx.reg r.c.val = 0 → ∃ t y, exec (.tspawn f r) s = .next t ∧ Done nothing noCells f s t s.ctx ∧ OtherCells s t k ∧
        t.cellAt t.me k = y ∧ fieldOf y.ctrl 0 32 = 0 ∧ fieldOf y.ctrl 32 2 = 2 ∧ fieldOf y.ctrl 48 16 = 0xFFFF ∧ y.status = 0 ∧
        y.cpc = 0 ∧ y.carg = 0) ∧
      (∀ attr pc arg, s.ctx.reg r.c.val ≠ 0 → (s.ctx.reg r.c.val).toNat % 8 = 0 → Mapped s (s.ctx.reg r.c.val).toNat 16 .read attr →
        AtHome s (s.ctx.reg r.c.val).toNat attr → pc = fromBytes 64 (memBytes s attr.pa 8) → arg = fromBytes 64 (memBytes s (attr.pa + 8) 8) →
        pc ≠ 0 → entryPcOk pc = true → s.myCore.runList.length < 32 → spilledFor s s.me = false →
        ∃ t, exec (.tspawn f r) s = .next t ∧ BytesKept s t ∧ OtherCells s t k ∧ fieldOf (t.cellAt t.me k).ctrl 32 2 = 2 ∧
          t.ctx.taskjoin = 0xFFFF ∧ t.myCore.runList = s.myCore.runList ++
            [⟨s.ctx.asid, s.mycx == 1, .cont pc arg (fieldOf s.ctx.taskjoin 0 16) (bitOf s.ctx.corectl 0)⟩])) ∧
    (fieldOf x.ctrl 32 2 ≠ 1 → (s.ctx.reg r.b.val).toNat < 2 ^ 32 → s.ctx.reg r.b.val ≠ 0 →
      (s.ctx.reg r.c.val = 0 → ∃ t y, exec (.tspawn f r) s = .next t ∧ Done nothing noCells f s t s.ctx ∧ OtherCells s t k ∧
        t.cellAt t.me k = y ∧ fieldOf y.ctrl 0 32 = (s.ctx.reg r.b.val).toNat ∧ fieldOf y.ctrl 32 2 = 1 ∧ bitOf y.ctrl 34 = false ∧
        fieldOf y.ctrl 48 16 = 0xFFFF ∧ y.status = 0 ∧ y.cpc = 0 ∧ y.carg = 0 ∧ y.asid = s.ctx.asid) ∧
      (∀ attr pc arg, s.ctx.reg r.c.val ≠ 0 → (s.ctx.reg r.c.val).toNat % 8 = 0 → Mapped s (s.ctx.reg r.c.val).toNat 16 .read attr →
        AtHome s (s.ctx.reg r.c.val).toNat attr → pc = fromBytes 64 (memBytes s attr.pa 8) → arg = fromBytes 64 (memBytes s (attr.pa + 8) 8) →
        (pc = 0 ∨ entryPcOk pc = true) → ∃ t y, exec (.tspawn f r) s = .next t ∧ BytesKept s t ∧ OtherCells s t k ∧
          Done noSlices (fun c => noCells (noL1 c)) f s t { s.ctx with taskjoin := 0xFFFF } ∧ t.cellAt t.me k = y ∧
          fieldOf y.ctrl 0 32 = (s.ctx.reg r.b.val).toNat ∧ fieldOf y.ctrl 32 2 = 1 ∧
          fieldOf y.ctrl 48 16 = fieldOf s.ctx.taskjoin 0 16 ∧ y.status = 0 ∧ y.cpc = pc ∧ y.carg = arg)) ∧
    (fieldOf x.ctrl 32 2 = 2 → ∃ t, exec (.tjoin f r) s = .next t ∧ BytesKept s t ∧ t.cellAt t.me k = Cell.idle ∧ OtherCells s t k ∧
      Acquired s.me t.myCore devScope ∧ Done nothing (fun c => noCells (noL1 c)) f s t (s.ctx.setReg r.d.val x.status)) ∧
    (fieldOf x.ctrl 32 2 = 0 → ∃ t, exec (.tjoin f r) s = .next t ∧ SetsReg (afterPc f s) s t r.d.val 0 0) ∧
    (fieldOf x.ctrl 32 2 = 1 → bitOf x.status 2 = true → ∃ t, exec (.tjoin f r) s = .next t ∧ BytesKept s t ∧
      Acquired s.me t.myCore devScope ∧ Done nothing noL1 f s t (s.ctx.setReg r.d.val x.status)) ∧
    (fieldOf x.ctrl 32 2 = 1 → bitOf x.ctrl 34 = false → bitOf x.status 2 = false → ∃ t, exec (.tjoin f r) s = .next t ∧
      WaitsFor s t (.cell k) ∧ OtherCells s t k ∧ bitOf (t.cellAt t.me k).ctrl 34 = true ∧
      fieldOf (t.cellAt t.me k).ctrl 0 32 = fieldOf x.ctrl 0 32) ∧
    (fieldOf x.ctrl 32 2 = 1 → x.waiter = none → ∃ t, exec (.tcancelCell f r) s = .next t ∧ Done nothing noCells f s t s.ctx ∧
      OtherCells s t k ∧ t.cellAt t.me k = { x with status := x.status ||| 4 }) ∧
    (TrapReady s → fieldOf x.ctrl 32 2 = 1 → (s.ctx.reg r.b.val).toNat < 2 ^ 32 → s.ctx.reg r.c.val = 0 →
      ∃ t, exec (.tspawn f r) s = .next t ∧ Faults s t 0x42 0)

/-- R352, R368, R369, R370: TCANCEL of a launch, graph, phase or job hands its name with the job's ASID to the launch unit; LNCH enters the
packet that its 64 bytes hold into the packet's queue and returns its sequence number; a packet that R370 refuses is LNCHPKT. -/
def Obligations.CancelsAndLaunches : Prop :=
  ∀ (f : Frame) (r : FmtR) (s : State), Enabled f s → Settled s → s.ctx.readable r.a.val = true →
    (∀ p ∈ [((Instr.tcancelLnch : Frame → FmtR → Instr), CancelLevel.lnch), (.tcancelGraph, .graph), (.tcancelPhase, .phase),
        (.tcancelJob, .job)],
      (p.2 = .phase ∨ p.2 = .job → s.ctx.mode ≠ .user) → ∃ t q, exec (p.1 f r) s = .next t ∧
        Done (fun s => { s with launch := { s.launch with cancels := [] } }) nothing f s t s.ctx ∧
        t.launch.cancels = s.launch.cancels ++ [q] ∧ q.level = p.2 ∧ q.value = s.ctx.reg r.a.val ∧
        q.asid.map (fun n => n.val) = some s.ctx.asid) ∧
    (∀ attr p, NothingSent s → Released s.me s.myCore devScope → (s.ctx.reg r.a.val).toNat % 64 = 0 →
      Mapped s (s.ctx.reg r.a.val).toNat 64 .read attr → AtHome s (s.ctx.reg r.a.val).toNat attr →
      p = Packet.ofBytes (memBytes s attr.pa 64) →
      (p.asid = s.ctx.asid → refuses s p = false → queueLen s p.queue < 16 → ∃ t, exec (.lnch f r) s = .next t ∧ BytesKept s t ∧
        Done (fun s => { noSlices s with launch := { s.launch with queued := [], seq := 0 } }) noL1 f s t
          (s.ctx.setReg r.d.val (BitVec.ofNat 64 s.launch.seq)) ∧
        t.launch.seq = s.launch.seq + 1 ∧
        ∃ q, t.launch.queued = s.launch.queued ++ [q] ∧ q.pkt = p ∧ q.queue = fieldOf p.ctl 0 3 ∧ q.seq = s.launch.seq ∧ q.fw = false ∧
          q.ld = (if p.deadline = 0 then 2 ^ 64 - 1 else if p.deadline.ule p.stamp then s.launch.time.toNat
            else s.launch.time.toNat + (p.deadline - p.stamp).toNat)) ∧
      (TrapReady s → p.asid ≠ s.ctx.asid ∨ refuses s p = true → ∃ t, exec (.lnch f r) s = .next t ∧ t.launch = s.launch ∧
        Trapped s.ctx s.mycx 0x44 0 s.ctx.pc s.ctx.retired t.ctx))

namespace Sys2Proof.Spec
open Sys2Proof.Machine

/-! ### Class 100: tiles and memory -/

/-- The row stride of a TM instruction: gGB, or packed rows where GB is 0 (R296). -/
def strideOf (s : State) (r : FmtTM) (packed : Nat) : Word := if r.gb.val = 0 then BitVec.ofNat 64 packed else s.ctx.reg r.gb.val

/-- gGA + OFF32 (R203, R296). -/
def tmEa (s : State) (r : FmtTM) : Word := s.ctx.reg r.ga.val + r.off.signExtend 64

/-- The address of row i (R296). -/
def addrOf (s : State) (r : FmtTM) (packed i : Nat) : Nat := (tmEa s r + BitVec.ofNat 64 i * strideOf s r packed).toNat

/-- Rows that a TLD reads: all, or its row range (R298). -/
def rowRange (r : FmtTM) (i : Nat) : Prop := if r.rr = true then r.first.val ≤ i ∧ i ≤ r.last.val else i < r.rows.val + 1

/-- The registers of an address can be read. -/
def TmReadable (r : FmtTM) (s : State) : Prop := s.ctx.readable r.ga.val = true ∧ s.ctx.readable r.gb.val = true

/-- A little-endian number of w bytes from a byte on (R19). -/
def elemOf (w : Nat) (bytes : Nat → Byte) (j : Nat) : Nat := (List.range w).foldr (fun b n => (bytes (j * w + b)).toNat + 256 * n) 0

/-- A tile of a shape with the elements that a function gives, checks that agree with them, and no flip (R185, R294, R320). -/
structure TileIs (y : Tile) (rows cols : Nat) (f : Fmt) (dom : Bool) (e : Nat → Nat → Nat) : Prop where
  valid : y.valid = true
  nRows : y.rows = rows
  nCols : y.cols = cols
  fmt : y.fmt = some f
  dom : y.dom = (dom && f.hasDomain)
  ue : y.ue = []
  rowck : y.rowck = y.rowChecks
  colck : y.colck = y.colChecks
  elems : ∀ i j, i < rows → j < cols → y.enc i j = e i j

/-- The tile register that a field names, in the pass of a REPT that runs (R207, R255). -/
def tileAt (s : State) (t : Nat) : Tile := s.ctx.tile (s.ctx.tileIx t)

/-- The domain that a modifier sets: .fn, .ext, or NFM as it stands (R164, R202). -/
def domainOf (dm : Dm) (s : State) : Bool :=
  match dm with
  | .nfm => bitOf s.ctx.corectl 0
  | .ext => true
  | .fin => false

/-- A context in which a tile instruction runs with nothing kept from earlier (R299): settled, no trace, no answer held. -/
structure Ready (s : State) : Prop where
  settled : Settled s
  trace : NoTrace s
  got : s.ctx.fwdGot = []

/-- n bytes of one page at va whose lines are all in the L1, present, readable and of no region, on device memory. -/
structure InL1 (s : State) (va n : Nat) : Prop where
  canonical : canonical va = true
  size : 0 < n
  page : va % 4096 + n ≤ 4096
  lines : ∀ x, x < n → ∃ l, l1Find s s.me s.ctx.asid (va + x) = some l ∧ l.spec = none ∧ l.rd = true ∧
    (s.ctx.mode = .user → l.usr = true) ∧ l.pres.getLsbD ((va + x) % 64) = true ∧ l.data.length = 64
  dram : ∀ l, l1Find s s.me s.ctx.asid va = some l → ∀ x, x < n → isControl (l.pa + va % 64 + x) = false

/-- The byte that the L1 holds at an address. -/
def l1Byte (s : State) (va : Nat) : Byte :=
  match l1Find s s.me s.ctx.asid va with
  | some l => l.data.getD (va % 64) 0
  | none => 0

/-- The home slice of a line holds it. -/
def HomeHeld (s : State) (line : Nat) : Prop := (s.slice (homeOf line)).tags.any (fun t => t.line == line && !t.rcopy) = true

/-- The side array of a line's home slice has an entry for it (R148). -/
def SideHeld (s : State) (line : Nat) : Prop := (s.slice (homeOf line)).side.any (fun e => e.line == line) = true

/-- n bytes of one page at va on a device-owned page that is served at home: their lines in their home slices and in no L1, none of them
poisoned. -/
structure AtHomeRow (s : State) (va n : Nat) (acc : Access) (a : Attr) : Prop where
  canonical : canonical va = true
  size : 0 < n
  within : va % 4096 + n ≤ 4096
  page : ∃ e, ((s.sorus (sorusOf s.me)).tlb.find? fun e =>
      (e.asid == s.ctx.asid || bitOf e.leaf 10) && va / 2 ^ e.size == e.va / 2 ^ e.size) = some e ∧
    a = attrOf e.leaf va e.size ∧ leafAllows e.leaf acc s.ctx.mode = true
  owner : a.fwd = 0
  uncached : a.uncached
  offset : a.pa % 4096 = va % 4096
  there : ∀ p, lineOf a.pa ≤ p → p < lineOf (a.pa + n - 1) + 64 → (keyOf s p).isSome
  miss : ∀ x, x < n → l1Find s s.me s.ctx.asid (va + x) = none
  clean : ∀ x, x < n → poisonedAt s (a.pa + x) = false
  held : ∀ x, x < n → HomeHeld s (lineOf (a.pa + x))
  quiet : acc = .write → ∀ x, x < n → Noted s (va + x) ∧ Unwatched s (lineOf (a.pa + x)) ∧ SideHeld s (lineOf (a.pa + x))

end Sys2Proof.Spec

/-- R19, R296, R297, R298: a TLD whose rows are all in the L1, or all on pages that are served at home, delivers a tile of the encoded shape
whose element (i, j) is little-endian at addr(i) + j × w, with fresh checks; with a row range it replaces those rows of a tile of that
shape and keeps checks that agreed. Nothing else changes but the slices' own state. -/
def Obligations.TileLoads : Prop :=
  ∀ (f : Frame) (r : FmtTM) (s : State) (g : Fmt) (n : Nat) (bytes : Nat → Nat → Byte), Enabled f s → Ready s → TmReadable r s →
    r.fm = some g → n = (r.cols.val + 1) * g.bytes → r.last.val ≤ r.rows.val → r.first.val ≤ r.last.val →
    ((∀ i, rowRange r i → InL1 s (addrOf s r n i) n) ∧ bytes = (fun i x => l1Byte s (addrOf s r n i + x)) ∨
      ∃ a : Nat → Attr, (∀ i, rowRange r i → AtHomeRow s (addrOf s r n i) n .read (a i)) ∧ bytes = fun i x => physByte s ((a i).pa + x)) →
    (r.rr = false → ∃ t y, exec (.tld f r) s = .next t ∧ BytesKept s t ∧
      Done noSlices nothing f s t (s.ctx.setTile (s.ctx.tileIx r.t.val) y) ∧
      TileIs y (r.rows.val + 1) (r.cols.val + 1) g (domainOf r.dm s) fun i j => elemOf g.bytes (bytes i) j) ∧
    (∀ x, r.rr = true → x = tileAt s r.t.val → TileSound x → x.valid = true → x.rows = r.rows.val + 1 → x.cols = r.cols.val + 1 →
      x.fmt = some g → x.dom = (domainOf r.dm s && g.hasDomain) → x.ue = [] → ∃ t y, exec (.tld f r) s = .next t ∧ BytesKept s t ∧
        Done noSlices nothing f s t (s.ctx.setTile (s.ctx.tileIx r.t.val) y) ∧ SameShape y x ∧
        (x.verify.state = 0 → y.verify.state = 0) ∧
        ∀ i j, i < x.rows → j < x.cols → y.enc i j =
          if r.first.val ≤ i ∧ i ≤ r.last.val then elemOf g.bytes (bytes i) j else x.enc i j)

/-- R186, R296, R300, R315: a TST of a tile of the encoded shape whose checks agree stores row i's bytes at addr(i), and no other byte; one whose
checks disagree is CHKFAIL with the status word, and a tile of another shape TSHAPE with its number: neither stores anything. -/
def Obligations.TileStores : Prop :=
  ∀ (f : Frame) (r : FmtTM) (s : State) (g : Fmt) (n : Nat) (x : Tile) (a : Nat → Attr), Enabled f s → Ready s → TmReadable r s →
    s.memOk → BuffersIdle s → r.fm = some g → n = (r.cols.val + 1) * g.bytes → n ≤ 128 → x = tileAt s r.t.val →
    (∀ i, i < r.rows.val + 1 → AtHomeRow s (addrOf s r n i) n .write (a i)) →
    (∀ i j, i < r.rows.val + 1 → j < r.rows.val + 1 → i ≠ j → (a i).pa + n ≤ (a j).pa ∨ (a j).pa + n ≤ (a i).pa) →
    (∀ i j u v, i < r.rows.val + 1 → j < r.rows.val + 1 → u < n → v < n → keyOf s ((a i).pa + u) = keyOf s ((a j).pa + v) →
      (a i).pa + u = (a j).pa + v) →
    (x.valid = true → x.rows = r.rows.val + 1 → x.cols = r.cols.val + 1 → x.fmt = some g → x.ue = [] →
      (x.verify.state = 0 → ∃ t, exec (.tst f r) s = .next t ∧ Done noStacks nothing f s t s.ctx ∧
        (∀ n, { t.stack n with flips := [] } = { s.stack n with flips := [] } ∧ (t.stack n).flips ⊆ (s.stack n).flips) ∧
        (∀ i u, i < r.rows.val + 1 → u < n → physByte t ((a i).pa + u) = x.dataByte (128 * i + u)) ∧
        (∀ p, (∀ i u, i < r.rows.val + 1 → u < n → keyOf s p ≠ keyOf s ((a i).pa + u)) → physByte t p = physByte s p)) ∧
      (TrapReady s → x.verify.state ≠ 0 → ∃ t, exec (.tst f r) s = .next t ∧ Faults s t 0x30 x.verify.word)) ∧
    (TrapReady s → ¬(x.valid = true ∧ x.rows = r.rows.val + 1 ∧ x.cols = r.cols.val + 1 ∧ x.fmt = some g) →
      ∃ t, exec (.tst f r) s = .next t ∧ Faults s t 0x34 (BitVec.ofNat 64 (s.ctx.tileIx r.t.val)))

namespace Sys2Proof.Spec
open Sys2Proof.Machine

/-- The buffer that SP names: A, W or C (R199, R203). -/
def bufOf (n : Nat) : Buf := if n = 0 then .a else if n = 1 then .w else .c

/-- The tile buffers erased from a core. -/
def noBufs (k : Core) : Core := { k with bufW := [], bufA := [], bufC := [] }

/-- Slots of a buffer (R18). -/
def slotsOf (b : Buf) : Nat :=
  match b with
  | .c => 32
  | _ => 64

/-- An offset in the cortex or the metadata of a buffer's slots, or in the dirty log or the cells of buffer A (R18). -/
def OffSlots (b : Buf) (o : Nat) : Prop :=
  (0x40000 ≤ o ∧ o < 0x40000 + slotsOf b * 0x280) ∨ (0x4A000 ≤ o ∧ o < 0x4A000 + slotsOf b * 8) ∨ (b = .a ∧ 0x4C000 ≤ o ∧ o < 0x50000)

end Sys2Proof.Spec

/-- R24, R25, R30, R303: TLDL copies a slot of the encoded shape into a tile whole, checks and all, and TSTL a tile into a slot of A or C;
nothing else changes. An offset in the cortex, the metadata, the dirty log or the cells is BUFSPACE, another one beyond the slots BUFRANGE, one
that is no slot's base BUFALIGN, a slot that is not VALID or has other ROWS, COLS or FMT BUFSHAPE, a store to W BUFSPACE, each with the offset; a
tile of another shape is TSHAPE to TSTL, with its number. -/
def Obligations.TilesAndBuffers : Prop :=
  ∀ (f : Frame) (r : FmtTM) (s : State) (b : Buf) (ea : Word) (i : Nat), Enabled f s → NoStep s → NoRegion s → NoTrace s →
    BuffersIdle s → s.ctx.readable r.ga.val = true → b = bufOf r.var.val → ea = tmEa s r → i = ea.toNat / 0x1000 →
    (∀ x, ea.toNat % 0x1000 = 0 → Mine s b i → x = slotAt s.myCore b i → x.valid = true → x.rows = r.rows.val + 1 →
      x.cols = r.cols.val + 1 → x.fmt = r.fm → x.ue = [] → ∃ t, exec (.tldl f r) s = .next t ∧
        Done nothing nothing f s t (s.ctx.setTile (s.ctx.tileIx r.t.val) x)) ∧
    (∀ x, ea.toNat % 0x1000 = 0 → Mine s b i → b ≠ .w → x = tileAt s r.t.val → x.valid = true → x.rows = r.rows.val + 1 →
      x.cols = r.cols.val + 1 → x.fmt = r.fm → x.ue = [] → ∃ t, exec (.tstl f r) s = .next t ∧ Done nothing noBufs f s t s.ctx ∧
        slotAt t.myCore b i = x ∧ ∀ b' j, ¬(b' = b ∧ j = i) → slotAt t.myCore b' j = slotAt s.myCore b' j) ∧
    (TrapReady s → OffSlots b ea.toNat → ∃ t, exec (.tldl f r) s = .next t ∧ Faults s t 0x1C ea) ∧
    (TrapReady s → i ≥ slotsOf b → ¬OffSlots b ea.toNat → ∃ t, exec (.tldl f r) s = .next t ∧ Faults s t 0x1D ea) ∧
    (TrapReady s → Mine s b i → ea.toNat % 0x1000 ≠ 0 → ∃ t, exec (.tldl f r) s = .next t ∧ Faults s t 0x1E ea) ∧
    (∀ x, TrapReady s → Mine s b i → ea.toNat % 0x1000 = 0 → x = slotAt s.myCore b i →
      ¬(x.valid = true ∧ x.rows = r.rows.val + 1 ∧ x.cols = r.cols.val + 1 ∧ x.fmt = r.fm) →
      ∃ t, exec (.tldl f r) s = .next t ∧ Faults s t 0x1F ea) ∧
    (∀ x, TrapReady s → x = tileAt s r.t.val →
      ¬(x.valid = true ∧ x.rows = r.rows.val + 1 ∧ x.cols = r.cols.val + 1 ∧ x.fmt = r.fm) →
      ∃ t, exec (.tstl f r) s = .next t ∧ Faults s t 0x34 (BitVec.ofNat 64 (s.ctx.tileIx r.t.val))) ∧
    (TrapReady s → b = .w → (tileAt s r.t.val).valid = true → (tileAt s r.t.val).rows = r.rows.val + 1 →
      (tileAt s r.t.val).cols = r.cols.val + 1 → (tileAt s r.t.val).fmt = r.fm → ∃ t, exec (.tstl f r) s = .next t ∧ Faults s t 0x1C ea)

namespace Sys2Proof.Spec
open Sys2Proof.Machine

/-- The address of the cell of element (i, j) (R304). -/
def cellAddr (s : State) (r : FmtTM) (i j : Nat) : Word :=
  tmEa s r + BitVec.ofNat 64 i * strideOf s r (64 * (r.cols.val + 1)) + BitVec.ofNat 64 (64 * j)

/-- The cells of a tile with what they need of their pages, served at home. -/
def CellsReady (s : State) (r : FmtTM) (acc : Access) (a : Nat → Nat → Attr) : Prop :=
  ∀ i j, i < r.rows.val + 1 → j < r.cols.val + 1 → HomeOpReady s (cellAddr s r i j) 64 acc (a i j)

/-- Row by row. -/
def inOrder {α : Type} (rows cols : Nat) (g : Nat → Nat → α) : List α :=
  ((List.range rows).map fun i => (List.range cols).map fun j => g i j).flatten

end Sys2Proof.Spec

/-- R132, R182, R184, R304, R305: TREDE retires with one pending instruction of the core that adds element (i, j), exactly, to the cell at
ea + i × s + 64 j, row by row; TRDE delivers each cell rounded once, with the flags of all. A base or a stride that is no multiple of 64 is
ATOMALIGN; that FADDR holds the base for the stride too is the model's choice (log entry 50). -/
def Obligations.TilesAndCells : Prop :=
  ∀ (f : Frame) (r : FmtTM) (s : State) (g : Fmt) (a : Nat → Nat → Attr), Enabled f s → Ready s → TmReadable r s → r.fm = some g →
    g = .f16 ∨ g = .bf16 ∨ g = .f32 →
    (TrapReady s → (tmEa s r).toNat % 64 ≠ 0 ∨ (strideOf s r (64 * (r.cols.val + 1))).toNat % 64 ≠ 0 →
      (∃ t, exec (.trde f r) s = .next t ∧ Faults s t 0x19 (tmEa s r)) ∧
      (∀ x, x = tileAt s r.t.val → x.valid = true → x.rows = r.rows.val + 1 → x.cols = r.cols.val + 1 → x.fmt = some g →
        ∃ t, exec (.trede f r) s = .next t ∧ Faults s t 0x19 (tmEa s r))) ∧
    ((tmEa s r).toNat % 64 = 0 → (strideOf s r (64 * (r.cols.val + 1))).toNat % 64 = 0 →
    (∀ x, CellsReady s r .write a → x = tileAt s r.t.val → x.valid = true → x.rows = r.rows.val + 1 → x.cols = r.cols.val + 1 →
      x.fmt = some g → x.ue = [] → x.verify.state = 0 → ∃ t, exec (.trede f r) s = .next t ∧ BytesKept s t ∧
        Done nothing noOps f s t s.ctx ∧ ∃ q, t.myCore.nonRet = [q] ∧ q.cx = s.mycx ∧ q.remote = [] ∧
          q.ops = (inOrder (r.rows.val + 1) (r.cols.val + 1) fun i j => .exactAdd g x.dom (a i j).pa (x.enc i j)) ∧
          (q.so = true ↔ ∃ i j, i < r.rows.val + 1 ∧ j < r.cols.val + 1 ∧ (a i j).kind = 2)) ∧
    (∀ p : Nat → Nat → Nat × Flags, CellsReady s r .both a →
      (∀ i j, i < r.rows.val + 1 → j < r.cols.val + 1 → HomeHeld s (lineOf (a i j).pa)) → (∀ i j, p i j =
        let v := exactValue (exactAt s (a i j).pa)
        let e := (tySpec (tyOfFmt g)).encode r.rnd 0 false v.1
        (e.1, e.2 ||| v.2)) → ∃ t y, exec (.trde f r) s = .next t ∧ BytesKept s t ∧
      Done nothing nothing f s t ({ s.ctx with
        fpsr := s.ctx.fpsr ||| (Flags.all (inOrder (r.rows.val + 1) (r.cols.val + 1) fun i j => (p i j).2)).setWidth 64 }.setTile
          (s.ctx.tileIx r.t.val) y) ∧
      TileIs y (r.rows.val + 1) (r.cols.val + 1) g false fun i j => (p i j).1))

namespace Sys2Proof.Spec
open Sys2Proof.Machine

/-! ### Class 100: fills and elements -/

/-- An index operand: column in bits [6:0], row in [11:7] (R307). -/
def rowOf (w : Word) : Nat := fieldOf w 7 5
def colOf (w : Word) : Nat := fieldOf w 0 7

end Sys2Proof.Spec

/-- R187, R202, R206, R295, R306, R307: TZERO and TFILL deliver a tile of the encoded shape, TMOV a tile whole, TRETAG a tile whose format alone
is another of the same width; TGET returns an element's encoding, and TSETE replaces one element and keeps checks that agreed. A source
that is not VALID, and an index outside the shape, are TSHAPE with the tile's number. -/
def Obligations.TileElements : Prop :=
  ∀ (f : Frame) (r : FmtT) (s : State) (x : Tile), Enabled f s → NoStep s → NoTrace s → s.ctx.readable r.ga.val = true →
    s.ctx.readable (r.ga.val + 1) = true → x = tileAt s r.ta.val →
    (∀ g, r.fd = some g →
      (∃ t y, exec (.tzero f r) s = .next t ∧ Done nothing nothing f s t (s.ctx.setTile (s.ctx.tileIx r.td.val) y) ∧
        TileIs y (r.rowsm1.val + 1) (r.colsm1.val + 1) g (domainOf r.dm s) fun _ _ => 0) ∧
      (∃ t y, exec (.tfill f r) s = .next t ∧ Done nothing nothing f s t (s.ctx.setTile (s.ctx.tileIx r.td.val) y) ∧
        TileIs y (r.rowsm1.val + 1) (r.colsm1.val + 1) g (domainOf r.dm s) fun _ _ => (s.ctx.reg r.ga.val).toNat % 2 ^ g.width) ∧
      (x.valid = true → x.ue = [] → x.width = g.bytes → (g.isMx = true → x.cols % 32 = 0) → ∃ t, exec (.tretag f r) s = .next t ∧
        Done nothing nothing f s t (s.ctx.setTile (s.ctx.tileIx r.td.val)
          { x with fmt := some g, dom := domainOf r.dm s && g.hasDomain }))) ∧
    (x.valid = true → x.ue = [] → ∃ t, exec (.tmov f r) s = .next t ∧
      Done nothing nothing f s t (s.ctx.setTile (s.ctx.tileIx r.td.val) x)) ∧
    (∀ ix, x.valid = true → x.ue = [] → ix = s.ctx.reg (r.ga.val + 1) → ix.toNat < 2 ^ 12 → rowOf ix < x.rows → colOf ix < x.cols →
      (∃ t, exec (.tget f r) s = .next t ∧ Done nothing nothing f s t (s.ctx.setReg r.ga.val (BitVec.ofNat 64 (x.enc (rowOf ix) (colOf ix))))) ∧
      (TileSound x → (∀ g, x.fmt = some g → g.isMx = false) → ∃ t y, exec (.tsete f r) s = .next t ∧
        Done nothing nothing f s t (s.ctx.setTile (s.ctx.tileIx r.td.val) y) ∧ SameShape y x ∧
        (x.verify.state = 0 → y.verify.state = 0) ∧
        ∀ i j, i < x.rows → j < x.cols → y.enc i j =
          if i = rowOf ix ∧ j = colOf ix then (s.ctx.reg r.ga.val).toNat % 2 ^ (8 * x.width) else x.enc i j)) ∧
    (TrapReady s → x.valid = false → ∀ i ∈ [Instr.tmov f r, .tget f r, .tsete f r],
      ∃ t, exec i s = .next t ∧ Faults s t 0x34 (BitVec.ofNat 64 (s.ctx.tileIx r.ta.val))) ∧
    (TrapReady s → x.valid = true → (∀ g, x.fmt = some g → g.isMx = false) →
      ((s.ctx.reg (r.ga.val + 1)).toNat ≥ 2 ^ 12 ∨ rowOf (s.ctx.reg (r.ga.val + 1)) ≥ x.rows ∨ colOf (s.ctx.reg (r.ga.val + 1)) ≥ x.cols) →
      ∀ i ∈ [Instr.tget f r, .tsete f r], ∃ t, exec i s = .next t ∧ Faults s t 0x34 (BitVec.ofNat 64 (s.ctx.tileIx r.ta.val)))

namespace Sys2Proof.Spec
open Sys2Proof.Machine

/-! ### Class 100: copies and collectives -/

/-- The bytes that the L1 holds from an address up. -/
def l1Bytes (s : State) (va n : Nat) : List Byte := (List.range n).map fun x => l1Byte s (va + x)

/-- What the issue of an engine operation does to the L1 (R136): no dirty byte of the source ranges, no line of the destination ranges. -/
def RangesOrdered (s t : State) (src dst : List (Nat × Nat)) : Prop :=
  ∀ l ∈ t.myCore.l1, l.asid = s.ctx.asid →
    (∀ p ∈ dst, ¬(l.va < p.1 + p.2 ∧ p.1 < l.va + 64)) ∧
    ((∃ p ∈ src, l.va < p.1 + p.2 ∧ p.1 < l.va + 64) → l.spec = none → l.dirty = 0)

/-- A copy has been handed to the engine (R344, R346). -/
def Issued (f : Frame) (s t : State) (d : CopyDesc) (cell : Option Nat) : Prop :=
  Retires f s t ∧ t.ctx.issued = s.ctx.issued + 1 ∧
    t.myCore.engine = [.copy ⟨s.mycx, s.ctx.issued + 1, s.ctx.xlat, d, cell,
      { Progress.start (copyUnits d) with ranges := d.globals.1 ++ d.globals.2 }⟩] ∧
    RangesOrdered s t d.globals.1 d.globals.2

end Sys2Proof.Spec

/-- R136, R340 to R344, R346, R347: CPY and CPYC hand the copy that their descriptor gives to the engine, CPYC with a cell, CPYL a copy of one
run, COLL a collective; the issue number rises by one, and the L1 keeps no line of the destination and no dirty byte of the source. CPYL of
0 bytes moves nothing. A bad descriptor, and a length above 2^40, are CPYDESC. R30: the source slot of a collective that its core contributes
to is BUFSHAPE where it is not VALID, with FADDR the slot's offset; that a core which only receives has no slot judged is the model's
choice (log entry 56). -/
def Obligations.CopiesAndCollectives : Prop :=
  ∀ (f : Frame) (r : FmtR) (s : State) (a : Word) (bs : List Byte) (d : CopyDesc), Enabled f s → NoStep s → NoRegion s → NoTrace s →
    LinesAligned s → NoHold s → BuffersIdle s → s.dev.posted = [] → (∀ w ∈ s.myCore.wc, w.fwd = none) →
    s.ctx.readable r.a.val = true → s.ctx.readable r.b.val = true → s.ctx.readable r.c.val = true → a = s.ctx.reg r.a.val →
    (a.toNat % 128 = 0 → InL1 s a.toNat 128 → bs = l1Bytes s a.toNat 128 →
      (d = copyDescOf bs → d.ok = true → (copyBuffers d).run s = .ok () s →
        (∃ t, exec (.cpy f r) s = .next t ∧ Issued f s t d none) ∧
        (∀ core k, CellAt s (s.ctx.reg r.b.val) core k → ∃ t, exec (.cpyc f r) s = .next t ∧
          Issued f s t d (some (s.ctx.reg r.b.val).toNat))) ∧
      (∀ c, c = collOf s (s.ctx.issued + 1) bs → c.ok s.me bs = true → (rangesM c.slotRanges).run s = .ok () s →
        (∀ b i, c.senders.contains s.me = true → bufOfSpace c.ssp = some b → i < c.count / 0x1000 →
          (slotAt s.myCore b (c.src.toNat / 0x1000 + i)).valid = true) →
        s.myCore.withdrawn = [] → ∃ t c', exec (.coll f r) s = .next t ∧ Retires f s t ∧ t.ctx.issued = s.ctx.issued + 1 ∧
          t.myCore.engine = [.coll c'] ∧ { c' with nth := c.nth, stage := c.stage, prog := c.prog } = c ∧
          c'.nth = collCount s.myCore (c.id, c.cores) + 1 ∧ c'.prog.failed = none ∧ c'.prog.complete = false) ∧
      (∀ c b, TrapReady s → c = collOf s (s.ctx.issued + 1) bs → c.ok s.me bs = true → (rangesM c.slotRanges).run s = .ok () s →
        c.senders.contains s.me = true → bufOfSpace c.ssp = some b → 0x1000 ≤ c.count →
        (slotAt s.myCore b (c.src.toNat / 0x1000)).valid = false →
        ∃ t, exec (.coll f r) s = .next t ∧ Faults s t 0x1F (BitVec.ofNat 64 (c.src.toNat / 0x1000 * 0x1000))) ∧
      (TrapReady s → d = copyDescOf bs → d.ok = false → ∀ i ∈ [Instr.cpy f r, .cpyc f r],
        ∃ t, exec i s = .next t ∧ Faults s t 0x21 a)) ∧
    (s.ctx.reg r.c.val ≠ 0 → (s.ctx.reg r.c.val).toNat ≤ 2 ^ 40 →
      ∃ t, exec (.cpyl f r) s = .next t ∧ Issued f s t (linearDesc (s.ctx.reg r.b.val) a (s.ctx.reg r.c.val).toNat) none) ∧
    (s.ctx.reg r.c.val = 0 → ∃ t, exec (.cpyl f r) s = .next t ∧ BytesKept s t ∧
      Done nothing nothing f s t { s.ctx with issued := s.ctx.issued + 1 }) ∧
    (TrapReady s → (s.ctx.reg r.c.val).toNat > 2 ^ 40 → ∃ t, exec (.cpyl f r) s = .next t ∧ Faults s t 0x21 (s.ctx.reg r.c.val))

namespace Sys2Proof.Spec
open Sys2Proof.Machine

/-! ### Class 101: matrices and checks -/

/-- A valid tile of a format, without a flip, in the register that a field names. -/
structure Source (s : State) (n : Nat) (f : Option Fmt) (x : Tile) : Prop where
  at_ : x = tileAt s n
  valid : x.valid = true
  fmt : x.fmt = f
  ue : x.ue = []

/-- An output of a matrix instruction and its flags: the exact sum of C and the products, rounded once; of an integer format the exact
integer, wrapped or clamped (R178, R179, R309). -/
def matResult (fd : Fmt) (r : FmtT) (seed : Word) (o : MatOps) (i j : Nat) : Nat × Flags :=
  match fd.float? false with
  | some sp =>
    let v := matElem (r.rnd == .rd) (sp.value (o.c.enc i j)) (o.terms i j)
    let e := sp.encode r.rnd (if r.rnd == .sr then srBits seed (128 * i + j) else 0) r.sat v.1
    (e.1, v.2 ||| e.2)
  | none => deliverInt 32 true r.sat (o.c.int i j + o.isum i j)

/-- A counter that saturates (R181). -/
def satAdd (w : Word) (n : Nat) : Word := BitVec.ofNat 64 (min (w.toNat + n) (2 ^ 64 - 1))

/-- No injection is armed, and the arithmetic check finds nothing wrong with the outputs (R188). -/
structure ChecksOut (s : State) (r : FmtT) (fd : Fmt) (o : MatOps) (seed : Word) : Prop where
  quiet : s.ctx.injMatrix = none ∧ s.ctx.matErr = none
  good : matBad fd r.rnd o (matOuts fd r.rnd r.sat seed o) (matOuts fd r.rnd r.sat seed o) = false

/-- The seed of .sr, from a register that can be read (R173). -/
def SeedIs (s : State) (r : FmtT) (n : Nat) (seed : Word) : Prop :=
  if r.rnd = .sr then s.ctx.readable n = true ∧ seed = s.ctx.reg n else seed = 0

/-- A matrix instruction has delivered its outputs: tile, flags, MEC0 for NaNs, MEC1 for clamps and forgiven groups (R180, R309, R311). -/
def MatDelivered (f : Frame) (r : FmtT) (s t : State) (fd : Fmt) (o : MatOps) (seed : Word) : Prop :=
  let outs := inOrder o.m o.n (matResult fd r seed o)
  let nans := (outs.filter fun p => match fd.float? false with
    | some sp => (sp.value p.1).isNan
    | none => false).length
  let clamps := (outs.filter fun p => p.2 &&& Flags.sat != 0).length
  ∃ y, Done nothing nothing f s t ({ s.ctx with
      fpsr := s.ctx.fpsr ||| (Flags.all (outs.map Prod.snd)).setWidth 64
      mec0 := satAdd s.ctx.mec0 nans, mec1 := satAdd s.ctx.mec1 (clamps + o.forgiven), mec3 := satAdd s.ctx.mec3 0 }.setTile
        (s.ctx.tileIx r.td.val) y) ∧
    TileIs y o.m o.n fd false fun i j => (matResult fd r seed o i j).1

/-- B's format beside A's: the same, or with .mix any binary8 beside a binary8 and a signed or unsigned byte beside a byte (R308). -/
def FormatsMeet (mix : Bool) (fa : Fmt) (b : Tile) : Prop :=
  match b.fmt with
  | none => False
  | some g => if mix then (if fa.isB8 then g.isB8 = true else g = .i8 ∨ g = .ui8) else g = fa

end Sys2Proof.Spec

/-- R169, R178 to R181, R217, R308 to R311: MMA, MMAX on an X core, MMAMX with its scales and MMASP with its metadata deliver C plus the
exact products, each output rounded once, and count NaNs and clamps, where the arithmetic check passes; a first source of another format is
TSHAPE with its number; MMAX on an S core whose task forbids migration is NOEXT. -/
def Obligations.MatrixProducts : Prop :=
  ∀ (f : Frame) (r : FmtT) (s : State) (fa fd : Fmt) (a b c : Tile) (seed : Word), Enabled f s → NoStep s → NoTrace s →
    r.fa = some fa → r.fd = some fd → SeedIs s r r.ga.val seed →
    (Source s r.ta.val (some fa) a → Source s r.tb.val b.fmt b → Source s r.td.val (some fd) c → b.cols = a.cols →
      c.rows = a.rows → c.cols = b.rows →
      (FormatsMeet (r.var.val % 2 == 1) fa b → ChecksOut s r fd (denseOps a b c) seed → ∃ t, exec (.mma f r) s = .next t ∧
        MatDelivered f r s t fd (denseOps a b c) seed) ∧
      (isXCore s.me = true → b.fmt = some fa → ChecksOut s r fd (denseOps a b c) seed → ∃ t, exec (.mmax f r) s = .next t ∧
        MatDelivered f r s t fd (denseOps a b c) seed) ∧
      (∀ sa sb o, b.fmt = some fa → a.cols % 32 = 0 → Source s r.tc.val (some .ui8) sa → Source s (r.tc.val + 1) (some .ui8) sb →
        sa.rows = a.rows → sa.cols = a.cols / 32 → sb.rows = b.rows → sb.cols = a.cols / 32 →
        o = { denseOps a b c with
          terms := fun i j => (upTo a.cols).map fun k => (mxValue a sa i k, mxValue b sb j k), isum := fun _ _ => 0 } →
        ChecksOut s r fd o seed → ∃ t, exec (.mmamx f r) s = .next t ∧ MatDelivered f r s t fd o seed)) ∧
    (∀ b1 md, Source s r.ta.val (some fa) a → Source s r.tb.val b.fmt b → Source s (r.tb.val + 1) b.fmt b1 →
      Source s r.tc.val (some .ui8) md → Source s r.td.val (some fd) c → a.cols % 4 = 0 → b.cols = a.cols → b1.rows = b.rows →
      b1.cols = b.cols → md.rows = a.rows → md.cols = a.cols / 4 → c.rows = a.rows → c.cols = b.rows →
      FormatsMeet (r.var.val % 2 == 1) fa b →
      (bitOf s.ctx.tcfg 1 = true ∨ ∀ i g, i < a.rows → g < a.cols / 2 → groupOk (groupPos md i g) = true) →
      ChecksOut s r fd (sparseOps a md b b1 c) seed → ∃ t, exec (.mmasp f r) s = .next t ∧
        MatDelivered f r s t fd (sparseOps a md b b1 c) seed) ∧
    (TrapReady s → (tileAt s r.ta.val).fmt ≠ some fa → ∀ i ∈ [Instr.mma f r, .mmamx f r, .mmasp f r],
      ∃ t, exec i s = .next t ∧ Faults s t 0x34 (BitVec.ofNat 64 (s.ctx.tileIx r.ta.val))) ∧
    (TrapReady s → isXCore s.me = false → bitOf s.ctx.tcfg 0 = true → ∃ t, exec (.mmax f r) s = .next t ∧ Faults s t 0x03 0)

/-- R180, R186, R313 to R316: a tile whose checks agree passes TCHK and TCFIX with a status of state 0; one with a single wrong element is
repaired in place by TCHK.fix and TCFIX, after which its checks agree and MEC2 has risen; one that cannot be repaired is CHKFAIL to TCHK
and TCHK.fix with the status word and is left as it is by TCFIX. TCGEN computes checks afresh, in supervisor mode; TCRD reads a stored
check. -/
def Obligations.ChecksAndRepair : Prop :=
  ∀ (f : Frame) (r : FmtT) (s : State) (x : Tile) (g : Option Fmt), Enabled f s → NoStep s → NoTrace s → Source s r.ta.val g x →
    s.ctx.readable (r.ga.val + 1) = true →
    (x.verify.state ≠ 2 → ∃ t, exec (.tchk f r) s = .next t ∧ Done nothing nothing f s t (s.ctx.setReg r.ga.val x.verify.word) ∧
      fieldOf x.verify.word 16 2 = x.verify.state) ∧
    (x.verify.state ≠ 1 →
      (∃ t, exec (.tcfix f r) s = .next t ∧
        Done nothing nothing f s t ((s.ctx.setTile (s.ctx.tileIx r.td.val) x).setReg r.ga.val x.verify.word)) ∧
      (x.verify.state = 0 → ∃ t, exec (.tchkFix f r) s = .next t ∧
        Done nothing nothing f s t ((s.ctx.setTile (s.ctx.tileIx r.td.val) x).setReg r.ga.val x.verify.word))) ∧
    (x.verify.state = 1 → TileSound x → ∀ i ∈ [Instr.tchkFix f r, .tcfix f r], ∃ t y, exec i s = .next t ∧
      Done nothing nothing f s t (({ s.ctx.setTile (s.ctx.tileIx r.td.val) y with mec2 := satAdd s.ctx.mec2 1 }).setReg r.ga.val x.verify.word) ∧
      SameShape y x ∧ y.rowck = x.rowck ∧ y.colck = x.colck ∧ y.verify.state = 0) ∧
    (s.ctx.mode ≠ .user → ∃ t y, exec (.tcgen f r) s = .next t ∧ Done nothing nothing f s t (s.ctx.setTile (s.ctx.tileIx r.td.val) y) ∧
      SameShape y x ∧ y.elems = x.elems ∧ y.rowck = y.rowChecks ∧ y.colck = y.colChecks) ∧
    (∀ n, n = (s.ctx.reg (r.ga.val + 1)).toNat →
      (r.var.val % 2 = 0 → n < 32 → ∃ t, exec (.tcrd f r) s = .next t ∧
        Done nothing nothing f s t (s.ctx.setReg r.ga.val ((x.rowck.getD n 0).setWidth 64))) ∧
      (r.var.val % 2 = 1 → n < 128 → ∃ t, exec (.tcrd f r) s = .next t ∧
        Done nothing nothing f s t (s.ctx.setReg r.ga.val ((x.colck.getD n 0).setWidth 64)))) ∧
    (TrapReady s → x.verify.state = 2 → ∀ i ∈ [Instr.tchk f r, .tchkFix f r], ∃ t, exec i s = .next t ∧ Faults s t 0x30 x.verify.word) ∧
    (TrapReady s → s.ctx.mode = .user → ∃ t, exec (.tcgen f r) s = .next t ∧ Faults s t 0x01 0)

namespace Sys2Proof.Spec
open Sys2Proof.Machine

/-! ### Class 110: elementwise -/

/-- TADD, TSUB and TMUL on exact values and on integers (R324, R325). -/
def tileForms2 : List ((Frame → FmtT → Instr) × (Bool → Val → Val → Val × Flags) × (Int → Int → Int)) := [
  (.tadd, fun rd a b => Val.add rd a b, fun a b => a + b), (.tsub, fun rd a b => Val.add rd a b.neg, fun a b => a - b),
  (.tmul, fun _ a b => Val.mul a b, fun a b => a * b)]

/-- TABS and TNEG (R325, R327). -/
def tileForms1 : List ((Frame → FmtT → Instr) × (Val → Val) × (Int → Int)) := [
  (.tabs, fun a => a.abs, fun a => a.natAbs), (.tneg, fun a => a.neg, fun a => -a)]

/-- The four functions (R328). -/
def tileFuncs : List ((Frame → FmtT → Instr) × Func) := [(.trcp, .rcp), (.trsq, .rsq), (.texp2, .exp2), (.tlog2, .log2)]

/-- An instruction on FP64 runs on an X core (R322). -/
def OnItsCore (s : State) (r : FmtT) : Prop := r.fa = some .f64 ∨ r.fd = some .f64 → isXCore s.me = true

/-- An exact value rounded into an element of FD, with the flags of both (R175, R320). -/
def rounded (fd : Fmt) (r : FmtT) (dom : Bool) (seed : Word) (i j : Nat) (v : Val × Flags) : Nat × Flags :=
  let e := fd.encode dom r.rnd (if r.rnd == .sr then srBits seed (128 * i + j) else 0) r.sat v.1
  (e.1, v.2 ||| e.2)

/-- The same, or an exact integer where FD is an integer format (R325). -/
def arithOut (fd : Fmt) (r : FmtT) (dom : Bool) (seed : Word) (i j : Nat) (v : Val × Flags) (n : Int) : Nat × Flags :=
  match fd.int? with
  | some (w, signed) => deliverInt w signed r.sat n
  | none => rounded fd r dom seed i j v

/-- A result tile of a shape has been delivered with the flags of its elements (R320, R322). -/
def Delivers (f : Frame) (r : FmtT) (s t : State) (fd : Fmt) (rows cols : Nat) (dom : Bool) (e : Nat → Nat → Nat × Flags) : Prop :=
  ∃ y, Done nothing nothing f s t ({ s.ctx with
      fpsr := s.ctx.fpsr ||| (Flags.all (inOrder rows cols fun i j => (e i j).2)).setWidth 64 }.setTile (s.ctx.tileIx r.td.val) y) ∧
    TileIs y rows cols fd dom fun i j => (e i j).1

/-- The second operand of an element: tB's, or the broadcast scalar in gGA with .bs (R321). -/
def second (bs : Bool) (fa : Fmt) (g : Word) (b : Tile) (i j : Nat) : Val := if bs then scalarVal fa g else b.value i j
def secondInt (bs : Bool) (g : Word) (b : Tile) (i j : Nat) : Int := if bs then g.toInt else b.int i j

/-- tB is a source of tA's shape and format, or the scalar's register can be read. -/
def SecondIs (s : State) (r : FmtT) (bs : Bool) (fa : Fmt) (a b : Tile) : Prop :=
  if bs then s.ctx.readable r.ga.val = true else Source s r.tb.val (some fa) b ∧ b.rows = a.rows ∧ b.cols = a.cols

/-- An elementwise instruction with its first source. -/
structure Elementwise (f : Frame) (r : FmtT) (s : State) (fa fd : Fmt) (a : Tile) : Prop where
  enabled : Enabled f s
  step : NoStep s
  trace : NoTrace s
  core : OnItsCore s r
  from_ : r.fa = some fa
  to_ : r.fd = some fd
  first : Source s r.ta.val (some fa) a

end Sys2Proof.Spec

/-- R319 to R322, R324, R325, R327, R328: the elementwise arithmetic of tiles and a broadcast scalar delivers a tile of tA's shape whose every
element is the exact result rounded once into FD (an integer result wrapped or clamped), with fresh checks and the flags of all elements. A
source of another format is TSHAPE, and so is a result whose rows do not fit with the width of FD. (R325 forms an integer result exactly in
64 bits; where one with a 64-bit scalar does not fit there, the exact integer is wrapped or clamped, which is the model's choice, log entry
106.) -/
def Obligations.ElementwiseArithmetic : Prop :=
  ∀ (f : Frame) (r : FmtT) (s : State) (fa fd : Fmt) (a b c : Tile) (seed g : Word) (dom : Bool), Elementwise f r s fa fd a →
    fa.isMx = false → dom = domainOf r.dm s → g = s.ctx.reg r.ga.val →
    (fd.shapeOk a.rows a.cols = true → (SecondIs s r r.bs fa a b → SeedIs s r (if r.bs then r.ga.val + 1 else r.ga.val) seed → ∀ p ∈ tileForms2,
      ∃ t, exec (p.1 f r) s = .next t ∧ Delivers f r s t fd a.rows a.cols dom fun i j =>
        arithOut fd r dom seed i j (p.2.1 (r.rnd == .rd) (a.value i j) (second r.bs fa g b i j))
          (p.2.2 (a.int i j) (secondInt r.bs g b i j))) ∧
    (SecondIs s r false fa a b → Source s r.tc.val (some fa) c → c.rows = a.rows → c.cols = a.cols → SeedIs s r r.ga.val seed →
      ∃ t, exec (.tfma f r) s = .next t ∧ Delivers f r s t fd a.rows a.cols dom fun i j =>
        let m := Val.mul (a.value i j) (b.value i j)
        let v := Val.add (r.rnd == .rd) m.1 (c.value i j)
        arithOut fd r dom seed i j (v.1, m.2 ||| v.2) (a.int i j * b.int i j + c.int i j)) ∧
    (SeedIs s r r.ga.val seed →
      (∀ p ∈ tileForms1, ∃ t, exec (p.1 f r) s = .next t ∧ Delivers f r s t fd a.rows a.cols dom fun i j =>
        arithOut fd r dom seed i j (p.2.1 (a.value i j), 0) (p.2.2 (a.int i j))) ∧
      (∀ p ∈ tileFuncs, ∃ t, exec (p.1 f r) s = .next t ∧ Delivers f r s t fd a.rows a.cols dom fun i j =>
        rounded fd r dom seed i j (p.2.eval (a.value i j)))) ∧
    (s.ctx.readable r.ga.val = true → SeedIs s r (r.ga.val + 1) seed → ∃ t, exec (.tscale f r) s = .next t ∧
      Delivers f r s t fd a.rows a.cols dom fun i j =>
        arithOut fd r dom seed i j (Val.mul (a.value i j) (scalarVal fa g)) (a.int i j * g.toInt))) ∧
    (TrapReady s → fd.shapeOk a.rows a.cols = false → ∀ p ∈ tileForms1, ∃ t, exec (p.1 f r) s = .next t ∧
      Faults s t 0x34 (BitVec.ofNat 64 (s.ctx.tileIx r.td.val))) ∧
    (TrapReady s → SecondIs s r false fa a b → r.bs = false → ∀ q, (tileAt s r.tc.val).fmt ≠ r.fa → q = s.ctx.tileIx r.tc.val →
      ∃ t, exec (.tfma f r) s = .next t ∧ Faults s t 0x34 (BitVec.ofNat 64 q))

namespace Sys2Proof.Spec
open Sys2Proof.Machine

/-- A conversion of one element (R175, R329): a copy between equal formats and domains, an exact integer between integer formats, else the
value rounded into FD. -/
def converted (fa fd : Fmt) (r : FmtT) (a : Tile) (dom : Bool) (seed : Word) (i j : Nat) : Nat × Flags :=
  if fa = fd ∧ (fa.hasDomain = false ∨ dom = a.dom) then (a.enc i j, 0)
  else match fd.int?, fa.int? with
    | some (w, signed), some _ => deliverInt w signed r.sat (a.int i j)
    | _, _ => rounded fd r dom seed i j (a.value i j, 0)

/-- Block k of row i as an MX format takes it (R171). -/
def blockOf (fd : Fmt) (r : FmtT) (a : Tile) (dom : Bool) (seed : Word) (i k : Nat) : Nat × List Nat × Flags :=
  mxBlock fd dom r.rnd (fun x => if r.rnd == .sr then srBits seed (128 * i + (32 * k + x)) else 0)
    ((List.range 32).map fun x => a.value i (32 * k + x))

end Sys2Proof.Spec

/-- R171, R175, R326, R329, R330, R333, R334: TMIN and TMAX choose an operand, TCVT converts each element into FD, reads a block-scaled tile
under its scales (with none named, TSHAPE), or makes one with a tile of scales beside it; TCMP delivers 0 or 1 by its condition, and TSEL an element of tA or tB by
a tile of flags. That TMIN and TMAX read a broadcast scalar in tA's domain is the model's choice (log entry 51). -/
def Obligations.TileSelectionAndConversion : Prop :=
  ∀ (f : Frame) (r : FmtT) (s : State) (fa fd : Fmt) (a b : Tile) (seed g : Word) (dom : Bool), Elementwise f r s fa fd a →
    dom = domainOf r.dm s → g = s.ctx.reg r.ga.val →
    (fa.isMx = false → fd.shapeOk a.rows a.cols = true → SecondIs s r r.bs fa a b → ∀ p ∈ [((Instr.tmin : Frame → FmtT → Instr), false), (.tmax, true)],
      ∃ t, exec (p.1 f r) s = .next t ∧ Delivers f r s t fd a.rows a.cols dom fun i j =>
        let y := if r.bs then ((scalarInto fa a.dom g).1, a.dom) else (b.enc i j, b.dom)
        let x := if r.bs then (scalarInto fa a.dom g).2 &&& ~~~Flags.ovf else 0
        ((pickEnc fa p.2 (a.enc i j, a.dom) y).1.1, x ||| (pickEnc fa p.2 (a.enc i j, a.dom) y).2)) ∧
    (fd.shapeOk a.rows a.cols = true → SeedIs s r r.ga.val seed →
      (fa.isMx = false → fd.isMx = false → ∃ t, exec (.tcvt f r) s = .next t ∧
        Delivers f r s t fd a.rows a.cols dom (converted fa fd r a dom seed)) ∧
      (∀ sc, fa.isMx = true → r.tc.val ≠ 0 → Source s r.tc.val (some .ui8) sc → sc.rows = a.rows → sc.cols = a.cols / 32 →
        ∃ t, exec (.tcvt f r) s = .next t ∧ Delivers f r s t fd a.rows a.cols dom fun i j =>
          rounded fd r dom seed i j (mxValue a sc i j, 0)) ∧
      (fa.isMx = false → fd.isMx = true → a.cols % 32 = 0 → ∃ t y z, exec (.tcvt f r) s = .next t ∧
        Done nothing nothing f s t (({ s.ctx with
          fpsr := s.ctx.fpsr ||| (Flags.all (inOrder a.rows (a.cols / 32) fun i k => (blockOf fd r a dom seed i k).2.2)).setWidth 64
            }.setTile (s.ctx.tileIx r.td.val) y).setTile (s.ctx.tileIx (r.td.val + 1)) z) ∧
        TileIs y a.rows a.cols fd dom (fun i j => (blockOf fd r a dom seed i (j / 32)).2.1.getD (j % 32) 0) ∧
        TileIs z a.rows (a.cols / 32) .ui8 false fun i k => (blockOf fd r a dom seed i k).1)) ∧
    (TrapReady s → fa.isMx = true → r.tc.val = 0 → ∃ t, exec (.tcvt f r) s = .next t ∧
      Faults s t 0x34 (BitVec.ofNat 64 (s.ctx.tileIx r.tc.val))) ∧
    (fa.isMx = false → fd.shapeOk a.rows a.cols = true → 2 ≤ r.var.val % 16 → SecondIs s r (decide (r.var.val ≥ 16)) fa a b → ∃ t, exec (.tcmp f r) s = .next t ∧
      Delivers f r s t fd a.rows a.cols false fun i j =>
        let y := second (decide (r.var.val ≥ 16)) fa g b i j
        let n := secondInt (decide (r.var.val ≥ 16)) g b i j
        let x : Bool × Flags := if fa.isInt then
            ((match r.var.val % 16 with
              | 2 => a.int i j == n
              | 3 => a.int i j != n
              | 4 => decide (a.int i j < n)
              | _ => decide (n ≤ a.int i j)), 0)
          else fcond (r.var.val % 16) (a.value i j) y
        (if x.1 then 1 else 0, x.2)) ∧
    (∀ c, fa.isMx = false → SecondIs s r false fa a b → b.dom = a.dom → Source s r.tc.val (some .ui8) c → c.rows = a.rows →
      c.cols = a.cols → ∃ t, exec (.tsel f r) s = .next t ∧
        Delivers f r s t fd a.rows a.cols a.dom fun i j => (if c.enc i j ≠ 0 then a.enc i j else b.enc i j, 0))

/-- R331, R332, R335, R336, R338: TAND, TOR and TXOR work on encodings, TSHL and TSHR shift by gGA mod the width; TTRN transposes, TBROW and
TBCOL repeat a row or a column gGA times; TREDR and TREDC reduce each row or column.
R337: TIOTA delivers a tile of the encoded shape whose element (i, j) is gGA plus its place in row-major order, its row or its column, as a
value of FD. -/
def Obligations.TileBitsLayoutAndIota : Prop :=
  (∀ (f : Frame) (r : FmtT) (s : State) (fa fd : Fmt) (a b : Tile) (g : Word) (dom : Bool), Elementwise f r s fa fd a →
    fa.isMx = false → dom = domainOf r.dm s → g = s.ctx.reg r.ga.val →
    (fd.shapeOk a.rows a.cols = true → SecondIs s r r.bs fa a b → ∀ p ∈ [((Instr.tand : Frame → FmtT → Instr), (fun x y => x &&& y : Nat → Nat → Nat)),
        (.tor, fun x y => x ||| y), (.txor, fun x y => x ^^^ y)],
      ∃ t, exec (p.1 f r) s = .next t ∧ Delivers f r s t fd a.rows a.cols dom fun i j =>
        (p.2 (a.enc i j) (if r.bs then g.toNat % 2 ^ fa.width else b.enc i j), 0)) ∧
    (s.ctx.readable r.ga.val = true → fa.isInt = true →
      (∃ t, exec (.tshl f r) s = .next t ∧ Delivers f r s t fd a.rows a.cols false fun i j =>
        (a.enc i j * 2 ^ (g.toNat % fa.width) % 2 ^ fa.width, 0)) ∧
      (∃ t, exec (.tshr f r) s = .next t ∧ Delivers f r s t fd a.rows a.cols false fun i j =>
        ((a.int i j / 2 ^ (g.toNat % fa.width) % 2 ^ fa.width).toNat, 0))) ∧
    (s.ctx.readable r.ga.val = true →
      (a.rows = 1 → fd.shapeOk g.toNat a.cols = true → ∃ t, exec (.tbrow f r) s = .next t ∧
        Delivers f r s t fd g.toNat a.cols a.dom fun _ j => (a.enc 0 j, 0)) ∧
      (a.cols = 1 → fd.shapeOk a.rows g.toNat = true → ∃ t, exec (.tbcol f r) s = .next t ∧
        Delivers f r s t fd a.rows g.toNat a.dom fun i _ => (a.enc i 0, 0))) ∧
    (fd.shapeOk a.cols a.rows = true → ∃ t, exec (.ttrn f r) s = .next t ∧
      Delivers f r s t fd a.cols a.rows a.dom fun i j => (a.enc j i, 0)) ∧
    (fd.shapeOk a.rows 1 = true → ∃ t, exec (.tredr f r) s = .next t ∧
      Delivers f r s t fd a.rows 1 dom fun i _ => reduceLine r a.dom ((List.range a.cols).map fun j => a.enc i j)) ∧
    (fd.shapeOk 1 a.cols = true → ∃ t, exec (.tredc f r) s = .next t ∧
      Delivers f r s t fd 1 a.cols dom fun _ j => reduceLine r a.dom ((List.range a.rows).map fun i => a.enc i j))) ∧
  (∀ (f : Frame) (r : FmtT) (s : State) (fd : Fmt) (seed g : Word), Enabled f s → NoStep s → NoTrace s → OnItsCore s r → r.fd = some fd →
    g = s.ctx.reg r.ga.val → s.ctx.readable r.ga.val = true → SeedIs s r (r.ga.val + 1) seed →
    fd.shapeOk (r.rowsm1.val + 1) (r.colsm1.val + 1) = true → ∃ t, exec (.tiota f r) s = .next t ∧
      Delivers f r s t fd (r.rowsm1.val + 1) (r.colsm1.val + 1) (domainOf r.dm s) fun i j =>
        let n : Int := g.toInt + (if r.var.val = 1 then (i : Int) else if r.var.val = 2 then (j : Int)
          else ((r.colsm1.val + 1) * i + j : Nat))
        arithOut fd r (domainOf r.dm s) seed i j (.ofInt n, 0) n)
namespace Sys2Proof.Spec
open Sys2Proof.Machine

/-! ### Device events: what they leave unchanged -/

/-- Nothing but the device-wide state changes. -/
def DevOnly (s t : State) : Prop := { t with dev := s.dev } = s

/-- Nothing but the launch unit changes. -/
def LaunchOnly (s t : State) : Prop := { t with launch := s.launch } = s

/-- Nothing but one core changes. -/
structure CoreOnly (s t : State) (n : Nat) : Prop where
  rest : { t with cores := s.cores } = s
  others : ∀ m, m ≠ n → t.core m = s.core m

/-- Nothing but one context changes: it becomes x. -/
structure CtxOnly (s t : State) (c : CtxId) (x : Ctx) : Prop where
  core : CoreOnly s t c.core.val
  mine : t.core c.core.val = (s.core c.core.val).setCtx c.cx.val x

/-- Nothing but one sorus's agents change. -/
structure SorusOnly (s t : State) (n : Nat) : Prop where
  rest : { t with sori := s.sori } = s
  others : ∀ m, m ≠ n → t.sorus m = s.sorus m

/-- Nothing but one stack's controller changes. -/
structure StackOnly (s t : State) (n : Nat) : Prop where
  rest : { t with stackTab := s.stackTab } = s
  others : ∀ m, m ≠ n → t.stack m = s.stack m

/-- Nothing but the slices' own state changes. -/
def SlicesAlone (s t : State) : Prop := { t with slices := s.slices } = s

/-- The state as a context sees it that acts. -/
def actingAs (s : State) (c : CtxId) : State := { s with cur := c }

/-- Entry to the handler of an event (R397, R398, R399, R401, R402, R463): x before, d after. -/
structure TakesEvent (x : Ctx) (cx : Nat) (e : PendingEvent) (d : Ctx) : Prop where
  cause : fieldOf d.fcause 0 7 = e.code
  event : bitOf d.fcause 9 = true
  context : fieldOf d.fcause 10 1 = cx
  more : bitOf d.fcause 11 = e.more
  fpc : d.fpc = x.pc
  faddr : d.faddr = e.faddr
  fseq : d.fseq = BitVec.ofNat 64 x.retired
  pmode : fieldOf d.estat 0 2 = x.mode.code
  inTrap : bitOf d.estat 2 = true
  endf : bitOf d.estat 7 = false
  mode : d.mode = .supervisor
  pc : d.pc = (x.tvec >>> 9 <<< 9) + BitVec.ofNat 64 (e.code / 16 * 0x40)
  held : d.wait = none ∧ (∀ w, x.wait = some w → d.heldWait = match w.kind with
    | .forward _ => none
    | _ => some w)
  regs : d.g = x.g ∧ d.p = x.p ∧ d.tiles = x.tiles ∧ d.fpsr = x.fpsr ∧ d.retired = x.retired ∧ d.active = x.active

/-- An abort of a region brings its checkpoint back (R154): d is the context after it. -/
structure RolledBack (k : Checkpoint) (cause : Nat) (d : Ctx) : Prop where
  pc : d.pc = k.handler
  regs : d.g = k.g ∧ d.p = k.p ∧ d.gue = k.gue ∧ d.pue = k.pue ∧ d.tiles = k.tiles ∧ d.fpsr = k.fpsr ∧ d.mec0 = k.mec0 ∧
    d.mec1 = k.mec1 ∧ d.mec2 = k.mec2 ∧ d.mec3 = k.mec3
  closed : d.regionOpen = false ∧ fieldOf d.erstat 0 4 = cause ∧ d.regLines = [] ∧ d.abort = none ∧ d.ckpt = none
  block : d.inBlock = false

/-- A slot of a context's region. -/
def SlotOf (c : CtxId) (w : SideSlot) : Prop := w.core = c.core.val ∧ w.cx = c.cx.val

end Sys2Proof.Spec

/-- R148, R149, R150, R152, R153, R154, R401, R463: an event is taken at a boundary, the first of several that are pending (log entry 22, the
model's choice); that none is taken while an instruction has an operation at an owner, which is no blocking point, is the model's reading
(log entry 104). A pending abort, or an empty interval, brings the checkpoint back
and frees the region's slots and SPEC lines; the first registration at a line puts the region's interval above the line's position and its slot
into the line's entry; a narrowing moves one bound, or makes the interval empty; a commit message writes the dirty bytes of its lines, as they were when it began, home at the commit's position and
frees its slots; the first acknowledgement on its way arrives. -/
def Obligations.RegionEvents : Prop :=
  ∀ (s : State) (c : CtxId) (x : Ctx), x = s.ctxAt c.core.val c.cx.val →
    (∀ e rest, x.events = e :: rest → e.code < 128 → coreActive s c.core.val = true → isStopped (s.core c.core.val) c.cx.val = false →
      paused (s.core c.core.val) c.cx.val = false → x.active = true → bitOf x.tvec 0 = true → bitOf x.estat 2 = false →
      x.regionOpen = false → x.commit = none → x.hasSent = false → NoTrace s →
      ∃ t d, exec (.eventEntry c) s = .next t ∧ CtxOnly s t c d ∧ TakesEvent x c.cx.val e d ∧ d.events = rest) ∧
    (∀ cause code fcode k, coreActive s c.core.val = true → paused (s.core c.core.val) c.cx.val = false → x.regionOpen = true →
      x.commit = none → x.ckpt = some k → cause < 16 →
      x.abort = some (cause, code, fcode) ∨ (x.abort = none ∧ x.erhi.ult x.erlo = true ∧ cause = 1) →
      ∃ t, exec (.regionAbort c) s = .next t ∧ BytesKept s t ∧ RolledBack k cause (t.ctxAt c.core.val c.cx.val) ∧
        (∀ l ∈ (t.core c.core.val).l1, l.spec ≠ some c.cx.val) ∧
        (∀ m ∈ t.dev.narrows, ¬(m.core = c.core.val ∧ m.cx = c.cx.val)) ∧
        ∀ p ∈ x.regLines, ∀ e ∈ (t.slice (homeOf p.1)).side, e.line = p.1 → ∀ w ∈ e.slots, ¬SlotOf c w) ∧
    (∀ (va : Word) (write : Bool) (a : Attr) (line : Nat) (lo : Word), coreActive s c.core.val = true →
      paused (s.core c.core.val) c.cx.val = false → x.regionOpen = true → x.commit = none → x.intervalEmpty = false → x.abort = none →
      (s.core c.core.val).wc = [] → (s.core c.core.val).nonRet = [] → NoHold s → (∀ p ∈ x.early, p.1 ≠ line) →
      (write = true → (s.slice (homeOf line)).floor ≠ BitVec.allOnes 64) → Mapped (actingAs s c) va.toNat 1 (if write then .write else .read) a → l1Find s c.core.val x.asid va.toNat = none →
      a.cached → line = lineOf a.pa → holders s (sorusOf c.core.val) line = [] → (∀ p ∈ x.regLines, p.1 ≠ line) →
      (∀ e ∈ (s.slice (homeOf line)).side, e.line ≠ line) → SideRoom s line → lo = (s.slice (homeOf line)).floor + (if write then 1 else 0) →
      ∃ t lo', exec (.regionRegistration c va write) s = .next t ∧ BytesKept s t ∧ lo' = (if x.erlo.ult lo then lo else x.erlo) ∧
        t.ctxAt c.core.val c.cx.val = { x with erlo := lo', regLines := (line, write) :: x.regLines, early := (line, write) :: x.early } ∧
        ⟨line, (s.slice (homeOf line)).floor, (s.slice (homeOf line)).floor,
          [⟨c.core.val, c.cx.val, !write, write, !bitOf x.erstat 9, lo', x.erhi⟩]⟩ ∈ (t.slice (homeOf line)).side) ∧
    (∀ n m, s.dev.narrows[n]? = some m → m.core = c.core.val → m.cx = c.cx.val → x.regionOpen = true → x.commit = none →
      ∃ t, exec (.narrowingMessage n) s = .next t ∧ t.dev = { s.dev with narrows := s.dev.narrows.eraseIdx n } ∧
        { t with cores := s.cores, dev := s.dev } = s ∧
        (∀ b, m.bound = some b → t.ctxAt c.core.val c.cx.val =
          if m.upper then { x with erhi := if b.ult x.erhi then b else x.erhi }
          else { x with erlo := if x.erlo.ult b then b else x.erlo }) ∧
        (m.bound = none → (t.ctxAt c.core.val c.cx.val).intervalEmpty = true ∧
          { t.ctxAt c.core.val c.cx.val with erlo := x.erlo, erhi := x.erhi } = x)) ∧
    (∀ (slice : Fin 128) k line w mask data, x.commit = some k → slice.val ∈ k.slices → x.regLines = [(line, w)] → line % 64 = 0 →
      homeOf line = slice.val → s.memOk → (∀ i, i < 64 → (keyOf s (line + i)).isSome) →
      k.writes.lookup line = some (maskedBytes line mask data) →
      ∃ t, exec (.regionCommitMessage c slice) s = .next t ∧
        (t.ctxAt c.core.val c.cx.val).commit = some { k with slices := k.slices.filter (· != slice.val), acks := k.acks ++ [slice.val] } ∧
        (∀ i, i < 64 → physByte t (line + i) =
          if w = true ∧ mask.getLsbD i = true then data.getD i 0 else physByte s (line + i)) ∧
        ∀ e ∈ (t.slice slice.val).side, e.line = line → (w = true → e.wts = k.pos) ∧ ∀ v ∈ e.slots, ¬SlotOf c v) ∧
    (∀ k, x.commit = some k → NoHold s → ∃ t, exec (.regionCommitAck c) s = .next t ∧
      CtxOnly s t c { x with commit := some { k with acks := k.acks.tail } })

namespace Sys2Proof.Spec
open Sys2Proof.Machine

/-! ### Device events: errors -/

/-- A flip in state that an owner reads, which only marks it (R410): the context after it. -/
def flipped (x : Ctx) (site : ErrorSite) : Ctx :=
  match site with
  | .scalar _ r => if r.val = 0 then x else { x with gue := x.gue ||| (1#64 <<< r.val) }
  | .pred _ r => if r.val = 0 then x else { x with pue := x.pue ||| (1#8 <<< r.val) }
  | _ => x

/-- A site whose single flip nothing sees: its ECC corrects it when the bytes are read. -/
def UnderEcc (site : ErrorSite) : Prop :=
  match site with
  | .dram .. | .flight .. | .inBuffer .. | .datapath _ | .matrix .. => False
  | _ => True

/-- An event of a code waits at context 0 of the root core. -/
def RootHears (s t : State) (code : Nat) : Prop := ∃ e ∈ (t.ctxAt (rootCore s) 0).events, e.code = code

end Sys2Proof.Spec

/-- R67, R409, R410, R412: a single flip changes nothing but what a memory controller knows of its granule; an uncorrectable one marks a
register, a predicate, a tile or a slot or its cortex, poisons a granule (in DRAM alone where the home slice holds its line), or takes a
line of the instruction cache or a translation away. An element that flips within a typed buffer leaves its slot's cortex. An error of a
context's datapath waits for its next checked instruction, one of the matrix engine for its next matrix instruction. UNCOREUE ends the
entries of a side-array set, aborts their regions and tells the firmware; at 4 hard events SORUSFAIL goes to the root core. (The value that
the firmware event carries is the model's choice, log entry 35, and so is that a count above 4 keeps what is above it, log entry 22: R412
says that it returns to 0.) -/
def Obligations.ErrorEvents : Prop :=
  ∀ (s : State),
    (∀ site, UnderEcc site → exec (.softError site false) s = .next s) ∧
    (∀ (st : Fin 8) g, ∃ t, exec (.softError (.dram st g) false) s = .next t ∧ StackOnly s t st.val ∧ g ∈ (t.stack st.val).flips) ∧
    (∀ (c : CtxId) site, (∃ r, site = .scalar c r) ∨ (∃ r, site = .pred c r) →
      ∃ t, exec (.softError site true) s = .next t ∧ CtxOnly s t c (flipped (s.ctxAt c.core.val c.cx.val) site)) ∧
    (∀ (c : CtxId) (k : Fin 16) (word : Fin 160) x y, x = s.ctxAt c.core.val c.cx.val → y = x.tile k.val → y.valid = true →
      ∀ p ∈ [(ErrorSite.tile c k, 0), (.cortex c k word, 0x1000 + 4 * word.val)],
      ∃ t ckpt, exec (.softError p.1 true) s = .next t ∧
        CtxOnly s t c { x with tiles := (x.setTile k.val { y with ue := p.2 :: y.ue }).tiles, ckpt := ckpt } ∧ (x.ckpt = none → ckpt = none)) ∧
    (∀ (core : Fin 128) (b : Buf) (n : Fin 64) y, y = slotAt (s.core core.val) b n.val → n.val < slotsOf b →
      (∀ off : Fin 4096, ∃ t, exec (.softError (.slot core b n off) true) s = .next t ∧ CoreOnly s t core.val ∧
        slotAt (t.core core.val) b n.val = { y with ue := (off.val - off.val % 8) :: y.ue }) ∧
      (∀ word : Fin 160, ∃ t, exec (.softError (.slotCortex core b n word) true) s = .next t ∧ CoreOnly s t core.val ∧
        slotAt (t.core core.val) b n.val = { y with ue := (0x1000 + 4 * word.val) :: y.ue }) ∧
      ∀ (row : Fin 32) (col : Fin 128) (bit : Fin 64) twice, TileSound y → y.valid = true → row.val < y.rows → col.val < y.cols →
        bit.val < 8 * y.width → ∃ t, exec (.softError (.inBuffer core b n row col bit) twice) s = .next t ∧ CoreOnly s t core.val ∧
          SameShape (slotAt (t.core core.val) b n.val) y ∧ (slotAt (t.core core.val) b n.val).rowck = y.rowck ∧
          (slotAt (t.core core.val) b n.val).colck = y.colck ∧ ∀ i j, i < y.rows → j < y.cols →
            (slotAt (t.core core.val) b n.val).enc i j = if i = row.val ∧ j = col.val then y.enc i j ^^^ 2 ^ bit.val else y.enc i j) ∧
    (∀ (c : CtxId) x twice, x = s.ctxAt c.core.val c.cx.val →
      (∃ t, exec (.softError (.datapath c) twice) s = .next t ∧ CtxOnly s t c { x with pathErr := some twice }) ∧
      ∀ (row : Fin 32) (col : Fin 128) mask, ∃ t, exec (.softError (.matrix c row col mask) twice) s = .next t ∧
        CtxOnly s t c { x with matErr := some (⟨row.val, col.val, mask⟩, twice) }) ∧
    (∀ (st : Fin 8) g, cachedGranule s st.val g = none →
      ∃ t, exec (.softError (.dram st g) true) s = .next t ∧ StackOnly s t st.val ∧ g ∈ (t.stack st.val).poison) ∧
    (∀ (st : Fin 8) g pa, cachedGranule s st.val g = some pa → ∃ t, exec (.softError (.dram st g) true) s = .next t ∧ SlicesAlone s t ∧
      pa / 32 ∈ (t.slice (homeOf (lineOf pa))).under) ∧
    (∀ (core : Fin 128) n, ∃ t, exec (.softError (.icache core n) true) s = .next t ∧ CoreOnly s t core.val ∧
      t.core core.val = { s.core core.val with icache := (s.core core.val).icache.eraseIdx n }) ∧
    (∀ (k : Fin 16) n, ∃ t, exec (.softError (.tlb k n) true) s = .next t ∧ SorusOnly s t k.val ∧
      t.sorus k.val = { s.sorus k.val with tlb := (s.sorus k.val).tlb.eraseIdx n }) ∧
    (∀ (slice : Fin 128) (set : Nat), ∃ t, exec (.uncoreue slice set) s = .next t ∧ BytesKept s t ∧
      (∀ e ∈ (t.slice slice.val).side, sideSet e.line ≠ set % 128) ∧ (∀ w ∈ (t.slice slice.val).waits, sideSet w.line ≠ set % 128) ∧
      (∃ v, t.dev.fwEvents = s.dev.fwEvents ++ [(0x71, v)]) ∧
      ∀ e ∈ (s.slice slice.val).side, sideSet e.line = set % 128 → ∀ w ∈ e.slots, (s.ctxAt w.core w.cx).regionOpen = true →
        (s.ctxAt w.core w.cx).commit = none → (s.ctxAt w.core w.cx).abort = none → (t.ctxAt w.core w.cx).abort = some (2, 0, 0)) ∧
    (∀ k : Fin 16, 4 ≤ (s.sorus k.val).hardEvents → ∃ t, exec (.hardEventLimit k) s = .next t ∧ RootHears s t 0x64 ∧
      t.sorus k.val = { s.sorus k.val with hardEvents := (s.sorus k.val).hardEvents - 4 } ∧ BytesKept s t)

namespace Sys2Proof.Spec
open Sys2Proof.Machine

/-! ### Device events: home slices -/

/-- A line of device memory. -/
structure LineThere (s : State) (pa : Nat) : Prop where
  aligned : pa % 64 = 0
  there : ∀ i, i < 64 → (keyOf s (pa + i)).isSome

/-- The masked bytes of a line reach memory and its other bytes are as before. -/
def LineMerged (s t : State) (pa : Nat) (mask : BitVec 64) (data : List Byte) : Prop :=
  ∀ i, i < 64 → physByte t (pa + i) = if mask.getLsbD i then data.getD i 0 else physByte s (pa + i)

end Sys2Proof.Spec

/-- R45, R46, R52, R54, R56, R88, R107, R111, R130, R132: home performs a pending operation, acknowledges one that it has performed, fills a line
of an L1, merges a masked write-back, which an eviction also drops, and an entry of the write-combining buffer; a line of the other die's
home that leaves an L1 clean asks for a replica; a slice takes it, drops one and acknowledges that, and the last acknowledgement clears
REPL; a dirty log that holds 512 entries has the oldest 512 merged, each setting D in the leaf that maps its page. -/
def Obligations.HomeEvents : Prop :=
  ∀ (s : State) (core : Fin 128),
    (∀ n code pa (b : Word) (w32 : Bool) (w : Nat), code < 9 → w = (if w32 then 32 else 64) → pa % (w / 8) = 0 →
      LineThere s (lineOf pa) → s.memOk → (s.core core.val).nonRet = [n] → n.ops = [.atomic (atomicOf code) w32 pa b] →
      ∃ t old, exec (.homeAtomic core 0) s = .next t ∧ AtomicDone w code b 0 s t pa old ∧ (t.core core.val).nonRet = [{ n with ops := [] }]) ∧
    (∀ older n rest, (s.core core.val).nonRet = older ++ n :: rest → (∀ p ∈ older, p.ops ≠ []) → n.ops = [] → n.remote = [] →
      n.samples = [] → ∃ t, exec (.reductionAck core) s = .next t ∧ CoreOnly s t core.val ∧
        t.core core.val = { s.core core.val with nonRet := older ++ rest }) ∧
    (∀ (cx : Fin 2) (va : Word) (a : Attr), coreActive s core.val = true → NoHold s → Mapped (actingAs s ⟨core, cx⟩) va.toNat 1 .read a →
      AtHome (actingAs s ⟨core, cx⟩) va.toNat a → a.cached → (s.core core.val).nonRet = [] →
      bitOf (s.core core.val).sbase 0 = false → ∃ t l, exec (.homeFill ⟨core, cx⟩ va) s = .next t ∧ BytesKept s t ∧
        l1Find t core.val (s.ctxAt core.val cx.val).asid va.toNat = some l ∧ l.pa = lineOf a.pa ∧ l.dirty = 0 ∧ l.pres = BitVec.allOnes 64 ∧
        l.data = memBytes s (lineOf a.pa) 64) ∧
    (∀ n l (evict : Bool), (s.core core.val).l1[n]? = some l → l.spec = none → l.dirty ≠ 0 → l.va % 64 = 0 → LineThere s l.pa → s.memOk →
      (s.core core.val).nonRet = [] → ∃ t, exec (.homeWriteback core n evict) s = .next t ∧ LineMerged s t l.pa l.dirty l.data ∧
        ∀ y ∈ (t.core core.val).l1, y.asid = l.asid → y.va = l.va → evict = false ∧ y.dirty = 0) ∧
    (∀ n l, (s.core core.val).l1[n]? = some l → l.spec = none → l.dirty = 0 → l.va % 64 = 0 → dieOf (homeOf l.pa) ≠ dieOf core.val →
      ∃ t, exec (.homeWriteback core n true) s = .next t ∧ CoreOnly s t core.val ∧ l.pa ∈ (t.core core.val).victims ∧
        ∀ y ∈ (t.core core.val).l1, ¬(y.asid = l.asid ∧ y.va = l.va)) ∧
    (∀ n w, (s.core core.val).wc[n]? = some w → w.fwd = none → LineThere s w.pa → s.memOk → (s.core core.val).nonRet = [] →
      ∃ t, exec (.homeStore core n) s = .next t ∧ LineMerged s t w.pa w.mask w.data ∧
        (t.core core.val).wc = (s.core core.val).wc.filter fun y => !(y.sameLine w)) ∧
    (∀ line home, LineThere s line → home = homeOf line → dieOf core.val ≠ dieOf home → line ∈ (s.core core.val).victims →
      (∀ p ∈ (s.slice home).inval, p.1 ≠ line) → HomeRoom s line →
      (∀ g ∈ (s.slice core.val).tags, l2Set g.line ≠ l2Set line) → ∃ t, exec (.replicaRequest core line) s = .next t ∧ BytesKept s t ∧
        (t.core core.val).victims = (s.core core.val).victims.filter (· != line) ∧
        (t.slice core.val).tags = ⟨line, false, false, true⟩ :: (s.slice core.val).tags ∧
        ∃ g ∈ (t.slice home).tags, g.line = line ∧ g.rcopy = false ∧ g.repl = true) ∧
    (∀ line, line % 64 = 0 → ∃ t, exec (.replicaInvalidation core line) s = .next t ∧ SlicesAlone s t ∧
      (∀ g ∈ (t.slice core.val).tags, g.line = line → g.rcopy = false) ∧
      ∀ p ∈ (t.slice (homeOf line)).inval, p.1 = line → core.val ∉ p.2) ∧
    (∀ line, line % 64 = 0 → (line, []) ∈ (s.slice core.val).inval → ∃ t, exec (.replicaInvalidationAcknowledgement core line) s = .next t ∧
      SlicesAlone s t ∧ (∀ p ∈ (t.slice core.val).inval, p.1 ≠ line) ∧
      ∀ g ∈ (t.slice core.val).tags, g.line = line → g.rcopy = false → g.repl = false) ∧
    (512 ≤ logWaiting (s.core core.val) → LogSound (s.core core.val) → s.memOk → ∃ t, exec (.dirtyLogMerge core) s = .next t ∧
      MergesAll (oldestLogged s 512 core.val) s t ∧
      (t.core core.val).dlFull = false ∧ (t.core core.val).dlTail = (s.core core.val).dlTail ∧
      (t.core core.val).dlHead = ((s.core core.val).dlHead + 512) % 1024)

namespace Sys2Proof.Spec
open Sys2Proof.Machine

/-! ### Device events: memory controllers -/

/-- The clock of a die. -/
def dieClock (d : Device) (die : Fin 2) : Nat := if die.val = 0 then d.c0clk else d.c1clk

/-- The clocks of the steps of a die whose holds have not ended, oldest first (R59, R432). -/
def dieHolds (d : Device) (die : Fin 2) : List Nat := if die.val = 0 then d.relock0 else d.relock1

/-- The clock of a die once its holds have ended. -/
def dieAfter (d : Device) (die : Fin 2) : Nat := ((dieHolds d die).getLast?).getD (dieClock d die)

/-- The device-physical address of a request at a stack (R60, R62). -/
def reqPa (st : Fin 8) (q : MemReq) : Nat := st.val * 2 ^ 36 + q.gaddr.toNat * 32

/-- A slice may send a request under the tag that it names (R64, R71): the tag free, no memory step. -/
structure Sends (s : State) (st : Fin 8) (src : Fin 128) (tag : Fin 8) : Prop where
  awake : s.dev.retraining = false
  tag : (st.val, tag.val) ∉ (s.slice src.val).sent

/-- A request that its slice may send and that the controller serves (R62, R63, R64, R71, R102): n bytes of populated memory; no request to
its line is sent again, no frame in motion. -/
structure Served (s : State) (st : Fin 8) (q : MemReq) (n : Nat) : Prop where
  sends : Sends s st q.src q.tag
  first : (st.val, q.gaddr.toNat / 2) ∉ (s.slice q.src.val).held
  reserved : q.reserved = false
  range : q.gaddr.toNat * 32 < 0xC00000000
  aligned : n = 64 → q.gaddr.toNat % 2 = 0
  still : (s.stack st.val).moves = []
  there : ∀ i, i < n → (keyOf s (reqPa st q + i)).isSome

/-- No granule of a stack is poisoned or holds a flip. -/
def CleanStack (s : State) (st : Fin 8) : Prop := (s.stack st.val).poison = [] ∧ (s.stack st.val).flips = []

/-- A controller's reply joins those on their way, and the request's tag is taken (R63, R64). -/
def Replies (s t : State) (st : Fin 8) (src : Fin 128) (tag : Fin 8) (op status : Nat) (data : List Byte) : Prop :=
  (t.stack st.val).replies = (s.stack st.val).replies ++ [⟨op, tag.val, src.val, status, data⟩] ∧
  (t.slice src.val).sent = (st.val, tag.val) :: (s.slice src.val).sent

/-- Nothing but a stack's controller and a slice's tags changes. -/
def StackTags (s t : State) (st : Fin 8) : Prop :=
  { t with stackTab := s.stackTab, slices := s.slices } = s ∧ ∀ m, m ≠ st.val → t.stack m = s.stack m

/-- An indirection-table operation that is not refused (R100, R101): the frame it names. -/
structure ItServed (s : State) (st : Fin 8) (q : ItReq) (frame : Nat) : Prop where
  sends : Sends s st q.src q.tag
  reserved : q.reserved = false
  aligned : q.gaddr.toNat % 2048 = 0
  names : q.gaddr.toNat / 2048 = frame ∧ frame ≤ 0xBFFFF
  still : ∀ m ∈ (s.stack st.val).moves, m.frame ≠ frame

/-- A DRAM frame that a move may take (R101). -/
structure FreeFrame (s : State) (st : Fin 8) (d : Nat) : Prop where
  range : d ≤ 0xC0FFF
  good : d ∉ (s.stack st.val).retired
  unused : dramInUse (s.stack st.val) d = false
  room : (s.stack st.val).moves.length < 4

/-- The key of a bank, and of an all-bank refresh, of a pseudo-channel. -/
def bankKey (pc b : Nat) : Nat := 64 * pc + b

/-- A slice's requests keep a bank of a stack busy (R69). -/
def BankBusy (s : State) (st : Fin 8) (key : Nat) : Prop := ∃ p ∈ s.slices, (st.val, key) ∈ p.2.banks

/-- A die's clock within the limit of the mode: 2.4 GHz for die 0 in quiet mode (R3). -/
def withinMode (d : Device) (die : Fin 2) (v : Nat) : Nat := if d.quiet = true ∧ die.val = 0 then min v 24 else v

end Sys2Proof.Spec

/-- R59, R62, R63, R64, R66, R67, R68, R69, R71, R72, R100, R101, R432: reads return the bytes of their granules with STATUS 000, 010 for a poisoned
one; writes store their bytes, WRTM those of its mask; IT_READ returns an entry, IT_MOVE and IT_MOVE_RETIRE start a move, and the copy of a
line advances it and, at the last line, installs the frame; a reply frees its tag; refreshes start, are postponed up to 8, or become one of
all banks; a memory step ends once the slices' tags are free, with no refresh owed, and then steps the held clocks and makes the boundary's
phase current; when a relock hold ends, the die runs at its clock, and the next step that changes it begins. That the clocks of a boundary
with a memory step wait for RETRAIN_DONE, and that a clock above 24 is cut to 24 as it is stepped in quiet mode, are the model's choice (log
entry 77). (R439: RETREQ gives up its oldest request.) -/
def Obligations.ControllerEvents : Prop :=
  ∀ (s : State) (st : Fin 8),
    (∀ q : MemReq, CleanStack s st → q.mask = 0 →
      (Served s st q 32 → ∃ t, exec (.rd32 st q) s = .next t ∧ BytesKept s t ∧ Replies s t st q.src q.tag 0 0 (memBytes s (reqPa st q) 32)) ∧
      (Served s st q 64 → ∃ t, exec (.rd64 st q) s = .next t ∧ BytesKept s t ∧ Replies s t st q.src q.tag 0 0 (memBytes s (reqPa st q) 64)) ∧
      (s.memOk → Served s st q 32 → ∃ t, exec (.wrt32 st q) s = .next t ∧ Replies s t st q.src q.tag 1 0 [] ∧
        Stores s t (reqPa st q) ((List.range 32).map fun i => q.data.getD i 0)) ∧
      (s.memOk → Served s st q 64 → ∃ t, exec (.wrt64 st q) s = .next t ∧ Replies s t st q.src q.tag 1 0 [] ∧
        Stores s t (reqPa st q) ((List.range 64).map fun i => q.data.getD i 0))) ∧
    (∀ q : MemReq, CleanStack s st → s.memOk → Served s st q 64 → ∃ t, exec (.wrtm st q) s = .next t ∧ Replies s t st q.src q.tag 1 0 [] ∧
      LineMerged s t (reqPa st q) q.mask q.data) ∧
    (∀ q : MemReq, Served s st q 32 → q.mask = 0 → poisonedAt s (reqPa st q) = true → ∃ t data, exec (.rd32 st q) s = .next t ∧
      Replies s t st q.src q.tag 0 2 data) ∧
    (∀ (q : ItReq) frame, ItServed s st q frame →
      (∃ t, exec (.itRead st q) s = .next t ∧ StackTags s t st ∧
        Replies s t st q.src q.tag 0 0 (leBytes 32 (tget (s.stack st.val).it frame frame))) ∧
      (FreeFrame s st q.dframe.val → ∀ p ∈ [((Instr.itMove : Fin 8 → ItReq → Instr), false), (Instr.itMoveRetire, true)],
        ∃ t, exec (p.1 st q) s = .next t ∧ StackTags s t st ∧
          (t.slice q.src.val).sent = (st.val, q.tag.val) :: (s.slice q.src.val).sent ∧ t.stack st.val = { s.stack st.val with moves := (s.stack st.val).moves ++
            [⟨frame, tget (s.stack st.val).it frame frame, q.dframe.val, 0, p.2, q.tag.val, q.src.val, false⟩] })) ∧
    (∀ n m, (s.stack st.val).moves[n]? = some m → m.port = false →
      (m.line < 1023 → s.memOk → ∃ t, exec (.moveLineCopy st n) s = .next t ∧
        (t.stack st.val).moves[n]? = some { m with line := m.line + 1 } ∧
        ∀ i, i < 64 → cellGet t.mem (st.val * 2 ^ 36 + m.new * 65536 + m.line * 64 + i) =
          cellGet s.mem (st.val * 2 ^ 36 + m.old * 65536 + m.line * 64 + i)) ∧
      (m.line = 1023 → ∃ t, exec (.moveLineCopy st n) s = .next t ∧ tget (t.stack st.val).it m.frame m.frame = m.new ∧
        (∀ x ∈ (t.stack st.val).moves, x.frame ≠ m.frame) ∧ (m.retire = true → m.old ∈ (t.stack st.val).retired) ∧
        (t.stack st.val).replies = (s.stack st.val).replies ++ [⟨0, m.tag, m.src, 0, leBytes 32 m.new⟩])) ∧
    (∀ n r, r.status ≠ 3 → r.tag < 8 → (s.slice r.dest).missq = [] →
      ∀ p ∈ [((Instr.readData : Fin 8 → Nat → Instr), 0), (Instr.writeAcknowledgement, 1), (Instr.errorReply, 7)],
      ((s.stack st.val).replies.filter fun x => x.op == p.2)[n]? = some r → ∃ t, exec (p.1 st n) s = .next t ∧ BytesKept s t ∧
        (t.stack st.val).replies = (s.stack st.val).replies.erase r ∧
        (t.slice r.dest).sent = (s.slice r.dest).sent.erase (st.val, r.tag) ∧
        (if p.2 = 7 then ∃ v, t.dev.fwEvents = s.dev.fwEvents ++ [(0x70, v)] else t.dev = s.dev)) ∧
    (∀ x rest, (s.stack st.val).retreq = x :: rest → ∃ t, exec (.retreqRead st) s = .next t ∧ StackOnly s t st.val ∧
      t.stack st.val = { s.stack st.val with retreq := rest }) ∧
    (∀ (pc : Fin 64) b key n, b = tget (s.stack st.val).due pc.val 0 → key = bankKey pc.val b → n = tget (s.stack st.val).postponed key 0 →
      ∃ t, exec (.refreshDue st pc) s = .next t ∧ StackOnly s t st.val ∧ tget (t.stack st.val).due pc.val 0 = (b + 1) % 64 ∧
        (¬BankBusy s st key → key ∈ (t.stack st.val).refreshing) ∧
        (BankBusy s st key → n < 8 → tget (t.stack st.val).postponed key 0 = n + 1) ∧
        (BankBusy s st key → 8 ≤ n → 4096 + pc.val ∈ (t.stack st.val).refreshing ∧
          ∀ p ∈ (t.stack st.val).postponed, p.1 / 64 ≠ pc.val)) ∧
    (∀ (pc b : Fin 64) key n, key = bankKey pc.val b.val → n = tget (s.stack st.val).postponed key 0 →
      (∃ t, exec (.refreshDone st pc b) s = .next t ∧ StackOnly s t st.val ∧
        (4096 + pc.val ∈ (s.stack st.val).refreshing → 4096 + pc.val ∉ (t.stack st.val).refreshing) ∧
        (4096 + pc.val ∉ (s.stack st.val).refreshing → n = 0 → key ∉ (t.stack st.val).refreshing)) ∧
      (∃ t, exec (.bankIdleTimeout st pc b) s = .next t ∧ StackTags s t st ∧ ¬BankBusy t st key ∧
        (n ≠ 0 → key ∉ (s.stack st.val).refreshing → key ∈ (t.stack st.val).refreshing ∧
          tget (t.stack st.val).postponed key 0 = n - 1))) ∧
    (s.dev.retraining = true → (∀ p ∈ s.slices, p.2.sent = [] ∧ p.2.missq = []) → ∃ t, exec .retrainDone s = .next t ∧ BytesKept s t ∧
      t.dev.retraining = false ∧ t.dev.clkHeld = none ∧ (∀ n, t.slice n = s.slice n) ∧
      (∀ n, n < 8 → (t.stack n).postponed = []) ∧
      (s.dev.clkHeld ≠ none → ∀ q, s.launch.queued.find? (fun q => q.pkt.phase != 0 && q.pkt.phase != s.launch.phase) = some q →
        t.launch.phase = q.pkt.phase) ∧
      (s.dev.clkHeld = none → t.dev.c0clk = s.dev.c0clk ∧ t.dev.c1clk = s.dev.c1clk) ∧
      ∀ w ungated, s.dev.clkHeld = some (w, ungated) → s.dev.clamp0 = false → s.dev.clamp1 = false → s.dev.relock0 = [] → s.dev.relock1 = [] →
        (s.dev.quiet = false → t.dev.c0clk = (if bitOf w 7 then fieldOf w 0 6 else s.dev.c0clk) ∧
          t.dev.c1clk = if bitOf w 15 then fieldOf w 8 6 else if ungated then t.dev.c0clk else s.dev.c1clk) ∧
        (s.dev.quiet = true → t.dev.c0clk = min (if bitOf w 7 then fieldOf w 0 6 else s.dev.c0clk) 24 ∧ t.dev.c1clk = s.dev.c1clk)) ∧
    (s.dev.retraining = true → (∃ p ∈ s.slices, p.2.sent ≠ []) → exec .retrainDone s = .next s) ∧
    (∀ die : Fin 2, dieHolds s.dev die = [] → exec (.relockHoldEnd die) s = .next s) ∧
    (∀ (die : Fin 2) v rest c left, dieHolds s.dev die = v :: rest → c = withinMode s.dev die v →
      left = rest.dropWhile (fun x => withinMode s.dev die x == c) → exec (.relockHoldEnd die) s = .next { s with dev :=
        if die.val = 0 then { s.dev with c0clk := c, relock0 := left } else { s.dev with c1clk := c, relock1 := left } })

namespace Sys2Proof.Spec
open Sys2Proof.Machine

/-! ### Device events: translation, owners, links -/

/-- A context waits at an instruction for something that has not come. -/
def WaitsAt (x : Ctx) (k : WaitKind) (pc : Word) : Prop := x.wait = some ⟨k, pc, none⟩

/-- Its wait has ended so. -/
def Woken (x : Ctx) (k : WaitKind) (pc : Word) (f : Fired) : Prop := x.wait = some ⟨k, pc, some f⟩

/-- The owner of a request can answer it: a link leads to a peer (R90), and no older write to the host is still to be sent (R123). -/
def Answerable (s : State) (w : Forwarded) : Prop :=
  (w.owner = 0 ∧ ∀ p ∈ s.dev.posted, p.owner = 0 → w.id ≤ p.id) ∨
    (w.owner ≠ 0 ∧ ∃ p, p < 4 ∧ (portAt s p).up = true ∧ (portAt s p).peer = w.owner - 1)

/-- A translation of a page that an owner has (R74, R91). -/
def ToHost (e : TlbEntry) : Prop := fieldOf e.leaf 54 2 = 1

/-- A Translation Request for an entry of a sorus's TLB (R91). -/
def AsksFor (k : Fin 16) (e : TlbEntry) (q : AtsReq) : Prop := q.sorus = k.val ∧ q.asid = e.asid ∧ q.va = e.va

/-- What a port keeps for the device at its other end (R144). -/
def partnerOf (s : State) (port : Fin 4) : Partner := partnerAt s port.val (portAt s port.val).peer

/-- The ring of migration hints (R95): its size, where the next record goes. -/
def hintSize (s : State) : Nat := 2 ^ (fieldOf s.dev.mhbase 0 3 + 8)

/-- A migration hint falls due for an entry (R94): hints on, a forwarded page with MH, a count at the threshold; the ring has room. -/
structure HintDue (s : State) (e : TlbEntry) : Prop where
  on : bitOf s.dev.mhcfg 0 = true
  page : fieldOf e.leaf 54 2 ≠ 0 ∧ bitOf e.leaf 53 = true
  count : max 1 (fieldOf s.dev.mhcfg 8 8) ≤ e.reads + e.writes
  room : (fieldOf s.dev.mhidx 0 16 % hintSize s + 1) % hintSize s ≠ fieldOf s.dev.mhidx 16 16 % hintSize s

end Sys2Proof.Spec

/-- R77, R78, R80, R91, R93, R94, R95, R97, R132: a walk that finds a leaf fills the TLB and sets A; a page response ends the waits for its page
with its outcome, and a failure stops page requests until the host driver enables them; a translation that was asked of the host is kept in the
entry that asked, taken by the writes that wait for it, and removed by an invalidation, which completes once the messages to the host have; an owner's answer, or its error, reaches the access that
waits, and so does a peer's refusal of a returning operation, as FWDFAIL; a hint's entry counts anew and PROD advances. -/
def Obligations.TranslationEvents : Prop :=
  ∀ (s : State),
    (∀ (c : CtxId) (va : Word) x n levels table l, x = s.ctxAt c.core.val c.cx.val → canonical va.toNat = true → coreActive s c.core.val = true →
      (∀ e ∈ (s.sorus (sorusOf c.core.val)).tlb, e.asid ≠ x.asid ∧ bitOf e.leaf 10 = false) →
      n = (s.sorus (sorusOf c.core.val)).walker →
      (levels, table) = startOf (s.sorus (sorusOf c.core.val)) n x.asid va.toNat (fieldOf x.ptroot 18 34 * 2 ^ 18) →
      (walkFrom s n x.asid va.toNat table [] levels).1 = .ok l →
      mapsHole s (attrOf l.word va.toNat l.size) = false → leafAllows l.word .read x.mode = true → s.memOk →
      (keyOf s (l.entryPa + 1)).isSome → ∃ t, exec (.pageTableWalk c va) s = .next t ∧ bitOf (wordOf (physWord t l.entryPa)) 11 = true ∧
        ∃ e ∈ (t.sorus (sorusOf c.core.val)).tlb, e.asid = x.asid ∧ e.va = l.va ∧ e.size = l.size ∧ e.leaf = l.word ||| 0x800) ∧
    (∀ n q (c : CtxId) pc, s.dev.pageReqs[n]? = some q → q.who = [(c.core.val, c.cx.val)] →
      WaitsAt (s.ctxAt c.core.val c.cx.val) (.pageReq q.va) pc →
      ∀ p ∈ [((Instr.pageResponseSuccess : Nat → Instr), Fired.pageOk, s.dev.pageOn), (.pageResponseInvalid, .pageInvalid, s.dev.pageOn),
          (.pageResponseFailure, .pageFail, false)],
        ∃ t, exec (p.1 n) s = .next t ∧ Woken (t.ctxAt c.core.val c.cx.val) (.pageReq q.va) pc p.2.1 ∧
          (t.ctxAt c.core.val c.cx.val).pageGot = (q.va, p.2.1) :: (s.ctxAt c.core.val c.cx.val).pageGot ∧
          t.dev = { s.dev with pageReqs := s.dev.pageReqs.eraseIdx n, pageOn := p.2.2 } ∧ BytesKept s t) ∧
    exec .pageRequestsEnabled s = .next { s with dev := { s.dev with pageOn := true } } ∧
    (∀ (k : Fin 16) n frame reqs, reqs = s.dev.atsReqs.filter (fun q => q.sorus == k.val) →
      (∀ q, reqs[n]? = some q → ∃ t, exec (.atsTranslationCompletion k n frame) s = .next t ∧
        { t with sori := s.sori, dev := s.dev } = s ∧ (∀ m, m ≠ k.val → t.sorus m = s.sorus m) ∧
        { t.sorus k.val with tlb := [] } = { s.sorus k.val with tlb := [] } ∧ (t.sorus k.val).tlb.length = (s.sorus k.val).tlb.length ∧
        (∀ (i : Nat) (e : TlbEntry), (s.sorus k.val).tlb[i]? = some e →
          (AsksFor k e q ∧ ToHost e → (t.sorus k.val).tlb[i]? = some { e with ats := some (BitVec.ofNat 64 (frame * 4096)) }) ∧
          (¬(AsksFor k e q ∧ ToHost e) → (t.sorus k.val).tlb[i]? = some e)) ∧
        { t.dev with atsReqs := [], posted := [] } = { s.dev with atsReqs := [], posted := [] } ∧
        t.dev.atsReqs = s.dev.atsReqs.erase q ∧ t.dev.posted = s.dev.posted.map fun (p : Posted) =>
          if p.ats = some q then { p with addr := frame * 4096 + (p.addr - q.va), tag := { p.tag with translated := true }, ats := none }
          else p) ∧
      (reqs.length ≤ n → exec (.atsTranslationCompletion k n frame) s = .next s)) ∧
    (∀ asid (va : Word), ∃ t, exec (.atsInvalidateRequest asid va) s = .next t ∧ BytesKept s t ∧
      (∀ k, ∀ e ∈ (t.sorus k).tlb, e.asid = asid ∨ bitOf e.leaf 10 = true → ToHost e → va.toNat / 2 ^ e.size = e.va / 2 ^ e.size →
        e.ats = none) ∧
      (s.dev.forwarded = [] → s.dev.posted = [] → (∀ p ∈ s.cores, p.2.soParts = [] ∧ ∀ w ∈ p.2.wc, w.fwd = none) →
        t.dev.answers = s.dev.answers ++ [[]])) ∧
    (∀ n w (c : CtxId) pc bytes, s.dev.forwarded[n]? = some w → w.who = ⟨c.core.val, c.cx.val, none⟩ →
      WaitsAt (s.ctxAt c.core.val c.cx.val) (.forward w.id) pc → Answerable s w →
      (∃ t, exec (.forwardedCompletion n false bytes) s = .next t ∧ Woken (t.ctxAt c.core.val c.cx.val) (.forward w.id) pc (.value 0) ∧
        t.dev.forwarded = s.dev.forwarded.eraseIdx n ∧ (t.ctxAt c.core.val c.cx.val).fwdGot =
          (answerKey w.addr w.n, bytes) :: (s.ctxAt c.core.val c.cx.val).fwdGot) ∧
      (∃ t, exec (.forwardedCompletion n true bytes) s = .next t ∧ Woken (t.ctxAt c.core.val c.cx.val) (.forward w.id) pc .fwdFail ∧
        t.dev.forwarded = s.dev.forwarded.eraseIdx n)) ∧
    (∀ (c : CtxId) id pc r, WaitsAt (s.ctxAt c.core.val c.cx.val) (.remote id) pc →
      (outstandingOps s).find? (fun r => r.id == id) = some r → answerable s id = true → s.dev.peerq = [] →
      (∀ p ∈ (s.core c.core.val).samples, p.1 ≠ id) →
      (s.dev.refused.contains id = true → ∃ t, exec (.returningOperationReply c) s = .next t ∧
        Woken (t.ctxAt c.core.val c.cx.val) (.remote id) pc .fwdFail ∧ (∀ r ∈ outstandingOps t, r.id ≠ id) ∧ BytesKept s t) ∧
      (s.dev.refused.contains id = false → ∃ t bs, exec (.returningOperationReply c) s = .next t ∧ Woken (t.ctxAt c.core.val c.cx.val) (.remote id) pc (.value 0) ∧
        (∀ r ∈ outstandingOps t, r.id ≠ id) ∧ BytesKept s t ∧ bs.length = 9 ∧
        (t.ctxAt c.core.val c.cx.val).fwdGot = (RemoteOp'.pa r.op, bs) :: (s.ctxAt c.core.val c.cx.val).fwdGot)) ∧
    (∀ (k : Fin 16) n e, (s.sorus k.val).tlb[n]? = some e → HintDue s e → ∃ t, exec (.migrationHint k n) s = .next t ∧
      (t.sorus k.val).tlb = (s.sorus k.val).tlb.set n { e with reads := 0, writes := 0 } ∧
      fieldOf t.dev.mhidx 0 16 = (fieldOf s.dev.mhidx 0 16 % hintSize s + 1) % hintSize s ∧
      fieldOf t.dev.mhidx 16 16 = fieldOf s.dev.mhidx 16 16)

/-- R108, R144, R145, R146, R451: an access of the host reads or writes device memory at home; a peer's operation is performed once: its tag's
result is kept and answers it again; after a replay at most 64 operations without an answer go again under their tags; a link reset
empties the tables, ends a returning operation with UNKNOWN, and raises FWDLOST for another. (The value of the firmware event is the model's
choice, log entry 35.) -/
def Obligations.LinkEvents : Prop :=
  ∀ (s : State),
    (∀ pa n, LineThere s (lineOf pa) → pa % 64 + n ≤ 64 → 0 < n → (∀ i, i < n → poisonedAt s (pa + i) = false) →
      ∃ t, exec (.hostLinkAccess (.memRead pa n)) s = .next t ∧ BytesKept s t ∧ t.dev = { s.dev with answers := s.dev.answers ++ [memBytes s pa n] }) ∧
    (∀ pa bs, LineThere s (lineOf pa) → pa % 64 + bs.length ≤ 64 → s.memOk → ∃ t, exec (.hostLinkAccess (.memWrite pa bs)) s = .next t ∧
      Stores s t pa bs ∧ t.dev.answers = s.dev.answers ++ [[]]) ∧
    (∀ (port : Fin 4) (tag : BitVec 16) pa, (portAt s port.val).up = true →
      (∀ n, (hbmOf s pa).isSome → firstPoison s pa n = none → ∃ t, exec (.wenpenRemoteAccess port tag (.read pa n)) s = .next t ∧ BytesKept s t ∧
        t.dev = { s.dev with answers := s.dev.answers ++ [memBytes s pa n] }) ∧
      (∀ n p, (hbmOf s pa).isSome → firstPoison s pa n = some p → ∃ t, exec (.wenpenRemoteAccess port tag (.read pa n)) s = .next t ∧
        t.dev.answers = s.dev.answers ++ [[]]) ∧
      (∀ r, (partnerOf s port).results.find? (fun r => r.1 == tag.toNat) = some r →
        exec (.wenpenRemoteAccess port tag (.exactClear pa)) s = .next { s with dev := { s.dev with answers := s.dev.answers ++ [r.2] } }) ∧
      (LineThere s pa → s.memOk → (∀ r ∈ (partnerOf s port).results, r.1 ≠ tag.toNat) →
        ∃ t, exec (.wenpenRemoteAccess port tag (.exactClear pa)) s = .next t ∧ Stores s t pa (List.replicate 64 0) ∧
          (partnerOf t port).results = ((tag.toNat, []) :: (partnerOf s port).results).take 64 ∧
          t.dev.answers = s.dev.answers ++ [[]])) ∧
    (∀ port : Fin 4, exec (.wenpenResend port) s = .next { s with dev := { s.dev with
      resent := s.dev.resent ++ ((partnerOf s port).outstanding.take 64).map fun r => (port.val, r.tag) } }) ∧
    (∀ (port : Fin 4) (r : Remote), (partnerOf s port).outstanding = [r] → s.dev.peerq = [] → ∃ t v, exec (.linkReset port) s = .next t ∧ BytesKept s t ∧
      (partnerOf t port).outstanding = [] ∧ (partnerOf t port).results = [] ∧ t.dev.fwEvents = s.dev.fwEvents ++ [(0x73, v)] ∧
      (r.returns = true → ∀ pc, WaitsAt (s.ctxAt r.core r.cx) (.remote r.id) pc → Woken (t.ctxAt r.core r.cx) (.remote r.id) pc .unknown) ∧
      (r.returns = false → RootHears s t 0x63 ∧ ∀ n ∈ (t.core r.core).nonRet, r.id ∉ n.remote))

namespace Sys2Proof.Spec
open Sys2Proof.Machine

/-! ### Device events: the host, firmware, power -/

/-- The clock that PHASE commanded for a die. -/
def dieCommand (d : Device) (die : Fin 2) : Nat := if die.val = 0 then d.cmd0 else d.cmd1

/-- Does a clamp episode run on a die? -/
def dieClamped (d : Device) (die : Fin 2) : Bool := if die.val = 0 then d.clamp0 else d.clamp1

/-- Every context, queue and agent has its reset value; the records that survive resets are apart (R456). -/
def StartsAnew (t : State) : Prop := (∀ n x, t.ctxAt n x = Ctx.reset) ∧ t.launch = Launch.reset ∧ t.sori = [] ∧ t.slices = [] ∧ t.stackTab = []

end Sys2Proof.Spec

/-- R454, R455, R456, R459: the doorbell rings; an attestation answers with a report over the nonce; BOOTOK and the host's write clear the
counter of failed starts; the watchdog counts a start without BOOTOK, up to 3; a reset starts the device anew, in minimal mode after three
failures; clamps step a clock down, each step with a hold, and, once clear, up to its commanded value; a thermal trip and the loss of power take the power away, the
latter the counter too. (The model's choice are: that memory keeps its bytes over a reset, log entry 19; what a trip records, log entry 36;
the order of the report's parts, log entry 63; and that a clamp's step down lowers the clock at once, or waits behind a hold that runs, log
entry 95.) -/
def Obligations.PowerEvents : Prop :=
  ∀ (s : State),
    exec .hostDoorbell s = .next { s with dev := { s.dev with bell0 := true } } ∧
    (∀ nonce, nonce.length = 32 → ∃ t v m1 m2 sg, exec (.attestationRequest nonce) s = .next t ∧ t.dev.bell0 = true ∧
      t.dev.answers = s.dev.answers ++ [nonce, v, leBytes 8 (bootstat s.dev).toNat, m1, m2, sg] ∧
      v.length = 8 ∧ (∀ n, s.dev.firmware = some n → v = leBytes 8 n) ∧ m1.length = 48 ∧ m2.length = 48 ∧ sg.length = 96 ∧ (∀ i, i < 32 → tget t.dev.mailbox (0x900 + i) 0 = nonce.getD i 0) ∧
      { t with dev := s.dev, fresh := s.fresh } = s) ∧
    exec .bootCounterClear s = .next { s with dev := { s.dev with fails := 0 } } ∧
    exec .bootok s = .next { s with dev := { s.dev with bootOk := true, fails := 0 } } ∧
    (s.dev.judged = false → s.dev.bootOk = false → exec .bootWatchdog s = .next { s with
      dev := { s.dev with judged := true, fails := min (s.dev.fails + 1) 3, reason := 6, stage := 5 } }) ∧
    (s.dev.judged = false → s.dev.bootOk = true → exec .bootWatchdog s = .next { s with dev := { s.dev with judged := true } }) ∧
    (∃ t, exec .deviceReset s = .next t ∧ StartsAnew t ∧ t.mem = s.mem ∧ t.dev.power = true ∧ t.dev.fails = s.dev.fails ∧
      t.dev.lastOk = s.dev.bootOk ∧ t.dev.bootOk = false ∧ t.dev.minimal = (s.dev.fails == 3) ∧
      (s.dev.fails = 3 → t.dev.c0clk = 10 ∧ t.dev.c1clk = 0)) ∧
    (∀ die : Fin 2, 1 < dieAfter s.dev die → ∃ t, exec (.clampStepDown die) s = .next t ∧ DevOnly s t ∧
      dieHolds t.dev die = dieHolds s.dev die ++ [withinMode s.dev die (dieAfter s.dev die - 1)] ∧
      dieClock t.dev die = (if dieHolds s.dev die = [] then withinMode s.dev die (dieClock s.dev die - 1) else dieClock s.dev die) ∧
      dieClamped t.dev die = true ∧ dieCommand t.dev die = dieCommand s.dev die ∧
      (dieClamped s.dev die = true → t.dev.fwEvents = s.dev.fwEvents) ∧
      (dieClamped s.dev die = false → ∃ v, t.dev.fwEvents = s.dev.fwEvents ++ [(0x72, v)])) ∧
    (∀ (die : Fin 2) cmd, cmd = withinMode s.dev die (dieCommand s.dev die) → dieClamped s.dev die = true → dieAfter s.dev die ≠ 0 →
      ∃ t, exec (.clampStepUp die) s = .next t ∧ DevOnly s t ∧
        dieAfter t.dev die = (if dieAfter s.dev die < cmd then dieAfter s.dev die + 1 else dieAfter s.dev die) ∧
        (dieHolds s.dev die = [] → dieClock t.dev die = dieAfter t.dev die) ∧
        dieClamped t.dev die = decide (dieAfter s.dev die + 1 < cmd)) ∧
    (∃ t, exec .thermalTrip s = .next t ∧ StartsAnew t ∧ t.dev.power = false ∧ t.dev.reason = 7 ∧
      t.dev.fails = if s.dev.bootOk = true ∨ s.dev.judged = true then s.dev.fails else min (s.dev.fails + 1) 3) ∧
    (∃ t, exec .powerLoss s = .next t ∧ StartsAnew t ∧ t.dev.power = false ∧ t.dev.fails = 0)

namespace Sys2Proof.Spec
open Sys2Proof.Machine

/-! ### Device events: event units and channels -/

/-- The fields of a barrier's state word (R280). -/
def BarrierFields (x : Barrier) (w : Word) : Prop :=
  x.phase = fieldOf w 0 16 ∧ x.arrived = fieldOf w 16 9 ∧ x.rpt = bitOf w 25 ∧ x.expect = fieldOf w 32 9 ∧ x.done = fieldOf w 50 5 ∧
    x.nsor = fieldOf w 55 5 ∧ x.root = fieldOf w 60 4

/-- The registers of a core's flits and counts that channels use. -/
def noFlits (k : Core) : Core := { k with chans := [], sends := 0 }

end Sys2Proof.Spec

/-- R280, R281, R283, R285, R287, R416: a report raises DONE at the root, whose last one sends a completion to every reporter; one to a fenced
root ends the waits at its own unit; a completion raises PHASE; supervisor writes replace a barrier's or a mutex's word, a barrier's reports
that the unit holds go, and the mutex's waiters try again; CLREV, CLRMTX and CLRBAR clear what has no
waiter; a flit is taken into a channel that has room, or refused, and the sender's count falls when it is taken. -/
def Obligations.UnitEvents : Prop :=
  ∀ (s : State),
    (∀ n r x, s.dev.reports[n]? = some r → r.dst ∉ s.dev.removed → x = barrierAt s r.dst r.b → x.done < 31 →
      (x.done + 1 ≠ x.nsor → ∃ t, exec (.barrierReport n) s = .next t ∧ t.dev = { s.dev with reports := s.dev.reports.eraseIdx n } ∧
        barrierAt t r.dst r.b = { x with done := x.done + 1, reporters := x.reporters ++ [r.src] } ∧
        UnitsKept s t (· = (r.dst, r.b)) noRecord noRecord) ∧
      (x.done + 1 = x.nsor → ∃ t, exec (.barrierReport n) s = .next t ∧ barrierAt t r.dst r.b = { x with done := 0, reporters := [] } ∧
        t.dev.completions = s.dev.completions ++ (x.reporters ++ [r.src]).map (fun k => (k, r.b)) ∧
        UnitsKept s t (· = (r.dst, r.b)) noRecord noRecord)) ∧
    (∀ (k b : Fin 16) x, (k.val, b.val) ∈ s.dev.completions → x = barrierAt s k.val b.val → x.waiters = [] → x.arrived ≠ x.expect →
      ∃ t, exec (.barrierPhaseComplete k b) s = .next t ∧
        barrierAt t k.val b.val = { x with phase := (x.phase + 1) % 65536, rpt := false } ∧
        t.dev.completions = s.dev.completions.erase (k.val, b.val) ∧ UnitsKept s t (· = (k.val, b.val)) noRecord noRecord) ∧
    (∀ (k b : Fin 16) (w : Word), (barrierAt s k.val b.val).waiters = [] → ∃ t, exec (.barrierStateWrite k b w) s = .next t ∧
      { t with sori := s.sori, dev := s.dev } = s ∧ (∀ m, m ≠ k.val → t.sorus m = s.sorus m) ∧ { t.dev with reports := s.dev.reports } = s.dev ∧
      t.dev.reports = s.dev.reports.filter (fun r => !(HeldReport k.val b.val r)) ∧
      BarrierFields (barrierAt t k.val b.val) w ∧ UnitsKept s t (· = (k.val, b.val)) noRecord noRecord) ∧
    (∀ n r w (c : CtxId) pc, s.dev.reports[n]? = some r → r.dst ∈ s.dev.removed → (barrierAt s r.src r.b).waiters = [w] →
      w.who = ⟨c.core.val, c.cx.val, none⟩ → ∀ tok, WaitsAt (s.ctxAt c.core.val c.cx.val) (.barrier r.src r.b tok) pc →
      ∃ t, exec (.barrierReport n) s = .next t ∧ t.dev = { s.dev with reports := s.dev.reports.eraseIdx n } ∧
        (barrierAt t r.src r.b).waiters = [] ∧ Woken (t.ctxAt c.core.val c.cx.val) (.barrier r.src r.b tok) pc .contained) ∧
    (∀ (k m : Fin 16) (w : Word) (c : CtxId) pc, (mutexAt s k.val m.val).queue = [⟨⟨c.core.val, c.cx.val, none⟩, false⟩] →
      WaitsAt (s.ctxAt c.core.val c.cx.val) (.mutex k.val m.val) pc → ∃ t, exec (.mutexStateWrite k m w) s = .next t ∧
        mutexAt t k.val m.val = ⟨bitOf w 7, fieldOf w 0 7, fieldOf w 8 1, []⟩ ∧ UnitsKept s t noRecord (· = (k.val, m.val)) noRecord ∧
        Woken (t.ctxAt c.core.val c.cx.val) (.mutex k.val m.val) pc .again) ∧
    (∀ k : Fin 16, (∀ p ∈ (s.sorus k.val).evlines, p.2.waiters = []) → ∃ t, exec (.clrev k) s = .next t ∧ SorusOnly s t k.val ∧
      ∀ e, evLineAt t k.val e = ⟨0, []⟩) ∧
    (∀ (k : Fin 16) (mask : BitVec 16),
      (∃ t, exec (.clrmtx k mask) s = .next t ∧ SorusOnly s t k.val ∧ ∀ m x, x = mutexAt s k.val m →
        mutexAt t k.val m = if m < 16 ∧ mask.getLsbD m = true ∧ x.queue = [] then { x with held := false } else x) ∧
      (∃ t, exec (.clrbar k mask) s = .next t ∧ SorusOnly s t k.val ∧ ∀ b x, x = barrierAt s k.val b →
        barrierAt t k.val b = if b < 16 ∧ mask.getLsbD b = true ∧ x.waiters = [] then
          { x with phase := 0, arrived := 0, done := 0, rpt := false, reporters := [], arrivers := [] } else x)) ∧
    (∀ x rest c, s.dev.flits = x :: rest → coreActive s x.dst = true → c = chanAt (s.core x.dst) x.chan → c.refused = [] →
      (c.flits.length < 16 → ∃ t, exec (.channelFlitArrival 0) s = .next t ∧ t.dev.flits = rest ∧
        chanAt (t.core x.dst) x.chan = { c with flits := c.flits ++ [x] } ∧ (t.core x.src).sends = (s.core x.src).sends - 1) ∧
      (16 ≤ c.flits.length → ∃ t, exec (.channelFlitArrival 0) s = .next t ∧ t.dev.flits = rest ∧
        chanAt (t.core x.dst) x.chan = { c with refused := [x] } ∧ (t.core x.src).sends = (s.core x.src).sends)) ∧
    (∀ (core : Fin 128) (n : Fin 8) x rest c, c = chanAt (s.core core.val) n.val → c.refused = x :: rest → c.flits.length < 16 →
      x.dst = core.val → x.chan = n.val → ∃ t, exec (.channelReady core n) s = .next t ∧
        chanAt (t.core core.val) n.val = { c with flits := c.flits ++ [x], refused := rest } ∧
        (t.core x.src).sends = (s.core x.src).sends - 1)

namespace Sys2Proof.Spec
open Sys2Proof.Machine

/-! ### Device events: copies, cells, registers -/

/-- An engine operation that goes on. -/
structure Going (p : Progress) : Prop where
  failed : p.failed = none
  complete : p.complete = false

/-- A collective's contribution and the share of it that its receiver runs agree (R348). -/
def Agrees (c : Coll) (m : CollMsg) : Prop := c.op = m.op ∧ c.count = m.count ∧ c.fmt = m.fmt ∧ c.cores = m.cores ∧ c.nfm = m.nfm

/-- A cell that is armed, at a core where no continuation waits for a place. -/
structure Armed (s : State) (core cell : Nat) (x : Cell) : Prop where
  is : x = s.cellAt core cell
  armed : fieldOf x.ctrl 32 2 = 1
  active : coreActive s core = true
  port : ∀ p ∈ (s.core core).waitingPlace, p.by_ ≠ .cell

end Sys2Proof.Spec

/-- R33, R35, R138, R345, R346, R348, R350, R353, R438, R443: the last acknowledgement of a copy completes it and decrements its cell; a part
that meets a fault stops its operation and is recorded; a contribution reaches the collective that agrees with it, and stops one that does
not; a withdrawal stops the collective of its identifier, is marked where none stands, and is ignored where it has completed; a decrement
lowers a cell's COUNT, and at 0 the cell is DONE, its continuation placed and its waiter woken; the registers that agents write take the
fields of the word. (That NFM too is judged between contribution and receiver, and that a withdrawal which comes after its collective has
completed does nothing, are the model's choice, log entry 56.) -/
def Obligations.EngineCellRegisterEvents : Prop :=
  ∀ (s : State) (core : Fin 128),
    (∀ c h, (s.core core.val).engine = [.copy c] → Going c.prog → c.prog.left = [] → c.prog.posts = [] → c.cell = some h → h < 0x8000 →
      NoTrace s → ∃ t, exec (.copyComplete core 0) s = .next t ∧ (t.core core.val).engine = [] ∧ BytesKept s t ∧
        t.dev.decrs = s.dev.decrs ++ [⟨h / 256, h % 256, 1, 0, 0, some core.val⟩]) ∧
    (∀ n o cause addr, (s.core core.val).engine[n]? = some o → o.cx < 2 → Going o.prog → (cause, addr) ∈ engineFaults s core.val o → cause < 128 →
      isStopped (s.core core.val) o.cx = false → bitOf (s.ctxAt core.val o.cx).cpyerr 0 = false → ∃ t, exec (.copyEngineFault core n cause addr) s = .next t ∧ BytesKept s t ∧
        (t.core core.val).engine[n]? = some (o.setProg { o.prog with left := [], ask := none, failed := some (cause, addr) }) ∧
        bitOf (t.ctxAt core.val o.cx).cpyerr 0 = true ∧ fieldOf (t.ctxAt core.val o.cx).cpyerr 16 7 = cause ∧
        fieldOf (t.ctxAt core.val o.cx).cpyerr 32 16 = o.seq % 65536 ∧ (t.ctxAt core.val o.cx).cpyfa = addr) ∧
    (∀ (src : Fin 128) id m i c, s.dev.collMsgs.find? (fun m => m.dst == core.val && m.src == src.val && m.id == id) = some m →
      collBehind s m = false → coreActive s core.val = true → collIndex (s.core core.val) id = some i → (s.core core.val).engine[i]? = some (.coll c) → Going c.prog →
      (Agrees c m → ∃ t d, exec (.collMessage core src id) s = .next t ∧ t.dev = { s.dev with collMsgs := s.dev.collMsgs.erase m } ∧
        (t.core core.val).engine[i]? = some (.coll d) ∧ d.got = c.got ++ [m.share]) ∧
      (c.op ≠ m.op ∨ c.count ≠ m.count ∨ c.fmt ≠ m.fmt ∨ c.cores ≠ m.cores → ∃ t, exec (.collMessage core src id) s = .next t ∧
        (t.core core.val).engine[i]? = some (.coll { c with prog := { c.prog with left := [], ask := none, failed := some (0x22, 0) } }))) ∧
    (∀ id w, s.dev.withdrawals.find? (fun w => w.dst == core.val && w.id == id) = some w →
      (∀ i c, collIndex (s.core core.val) id = some i → (s.core core.val).engine[i]? = some (.coll c) → Going c.prog →
        (c.cores = w.cores ∧ c.nth = w.nth) ∨ collCount (s.core core.val) (id, w.cores) < w.nth → ∃ t, exec (.collWithdrawal core id) s = .next t ∧ t.dev.withdrawals = s.dev.withdrawals.erase w ∧
          (t.core core.val).engine[i]? = some (.coll { c with prog := { c.prog with left := [], ask := none, failed := some (0x45, 0) } })) ∧
      (collIndex (s.core core.val) id = none → collCount (s.core core.val) (id, w.cores) < w.nth →
        ∃ t, exec (.collWithdrawal core id) s = .next t ∧ t.dev = { s.dev with withdrawals := s.dev.withdrawals.erase w } ∧
          (t.core core.val).withdrawn = (s.core core.val).withdrawn ++ [(id, w.asid)]) ∧
      (collIndex (s.core core.val) id = none → w.nth ≤ collCount (s.core core.val) (id, w.cores) →
        exec (.collWithdrawal core id) s = .next { s with dev := { s.dev with withdrawals := s.dev.withdrawals.erase w } })) ∧
    (∀ n d x, s.dev.decrs[n]? = some d → d.core = core.val → Armed s d.core d.cell x → d.kind = 0 →
      (d.n < fieldOf x.ctrl 0 32 → ∃ t y, exec (.cellDecrement n) s = .next t ∧ t.dev = { s.dev with decrs := s.dev.decrs.eraseIdx n } ∧
        t.cellAt core.val d.cell = y ∧ fieldOf y.ctrl 0 32 = fieldOf x.ctrl 0 32 - d.n ∧ fieldOf y.ctrl 32 32 = fieldOf x.ctrl 32 32 ∧
        { y with ctrl := 0 } = { x with ctrl := 0 } ∧ ∀ i, i ≠ d.cell → t.cellAt core.val i = s.cellAt core.val i) ∧
      (fieldOf x.ctrl 0 32 ≤ d.n → x.cpc = 0 → x.waiter = none → ∃ t, exec (.cellDecrement n) s = .next t ∧
        fieldOf (t.cellAt core.val d.cell).ctrl 0 32 = 0 ∧ fieldOf (t.cellAt core.val d.cell).ctrl 32 2 = 2 ∧
        (t.cellAt core.val d.cell).status = x.status)) ∧
    (∀ (k : Fin 256) x, Armed s core.val k.val x → fieldOf x.ctrl 0 32 = 0 →
      (x.cpc ≠ 0 → bitOf x.status 2 = false → x.waiter = none → (s.core core.val).runList.length < 32 → spilledFor s core.val = false →
        ∃ t, exec (.cellCountZero core k) s = .next t ∧ fieldOf (t.cellAt core.val k.val).ctrl 32 2 = 2 ∧
          (t.core core.val).runList = (s.core core.val).runList ++
            [⟨x.asid, x.urg, .cont x.cpc x.carg (fieldOf x.ctrl 48 16) x.nfm⟩]) ∧
      (∀ (c : CtxId) pc, x.cpc = 0 → x.waiter = some ⟨c.core.val, c.cx.val, none⟩ → WaitsAt (s.ctxAt c.core.val c.cx.val) (.cell k.val) pc →
        ∃ t, exec (.cellCountZero core k) s = .next t ∧ fieldOf (t.cellAt core.val k.val).ctrl 32 2 = 2 ∧
          bitOf (t.cellAt core.val k.val).ctrl 34 = false ∧ (t.cellAt core.val k.val).waiter = none ∧
          Woken (t.ctxAt c.core.val c.cx.val) (.cell k.val) pc (.value x.status))) ∧
    ((s.core core.val).engine = [] →
      (∀ w : Word, ∃ t, exec (.bufpartWrite core w) s = .next t ∧ CoreOnly s t core.val ∧
        { t.core core.val with bufpart := 0 } = { s.core core.val with bufpart := 0 } ∧
        fieldOf (t.core core.val).bufpart 0 7 = min (fieldOf w 0 7) 64 ∧ fieldOf (t.core core.val).bufpart 8 6 = fieldOf w 8 6 ∧
        fieldOf (t.core core.val).bufpart 16 6 = min (fieldOf w 16 6) 32) ∧
      (∀ (b : Buf) (mask : Word), ∃ t, exec (.bufvClear core b mask) s = .next t ∧ CoreOnly s t core.val ∧
        (∀ i, slotAt (t.core core.val) b i = if i < 64 ∧ mask.getLsbD i = true then Tile.empty else slotAt (s.core core.val) b i) ∧
        ∀ b', b' ≠ b → (t.core core.val).buf b' = (s.core core.val).buf b')) ∧
    (∀ w : Word, exec (.gquery w) s = .next { s with launch := { s.launch with gquery := w &&& 0xFFFFFFF } }) ∧
    (∀ (k n : Fin 16) (w : Word), ∃ t v, exec (.spmcSelWrite k n w) s = .next t ∧ SorusOnly s t k.val ∧
      { t.sorus k.val with spmc := [] } = { s.sorus k.val with spmc := [] } ∧ tget (t.sorus k.val).spmc n.val 0 = v ∧
      fieldOf v 56 8 = fieldOf w 56 8 ∧ fieldOf v 0 48 = 0 ∧
      ∀ m, m ≠ n.val → tget (t.sorus k.val).spmc m 0 = tget (s.sorus k.val).spmc m 0) ∧
    (∀ (cx : Fin 2) (w : Word), ∀ p ∈ writeMasks, MayWrite (s.ctxAt core.val cx.val).mode p.1 →
      ∃ t, exec (.registerWrite ⟨core, cx⟩ p.1 w) s = .next t ∧ BytesKept s t ∧
        csrRead t core.val cx.val p.1 = written p.1 p.2 (csrRead s core.val cx.val p.1) w ∧
        ∀ n, n ≠ p.1 → csrRead t core.val cx.val n = csrRead s core.val cx.val n)

namespace Sys2Proof.Spec
open Sys2Proof.Machine

/-! ### Device events: launches and tasks -/

/-- A packet may be dispatched: its phase is 0 or current (R375). -/
def Eligible (s : State) (q : Queued) : Prop := q.pkt.phase = 0 ∨ q.pkt.phase = s.launch.phase

/-- A packet is late (R372). -/
def Late (s : State) (q : Queued) : Prop := q.ld < s.launch.time.toNat

/-- The arbiter takes packet a before packet b: URG first, then those that are not late, then the earlier local deadline, then the smaller
sequence number (R373). -/
def Before (s : State) (a b : Queued) : Prop :=
  (a.pkt.urg = true ∧ b.pkt.urg = false) ∨ (a.pkt.urg = b.pkt.urg ∧ ((¬Late s a ∧ Late s b) ∨ ((Late s a ↔ Late s b) ∧
    (a.ld < b.ld ∨ (a.ld = b.ld ∧ a.seq < b.seq)))))

/-- The packet that the arbiter takes. -/
structure First (s : State) (q : Queued) : Prop where
  listed : q ∈ s.launch.queued
  eligible : Eligible s q
  wins : ∀ e ∈ s.launch.queued, Eligible s e → e ≠ q → Before s q e

/-- No placement waits at any core's ports. -/
def NoPlacing (s : State) : Prop := ∀ p ∈ s.cores, p.2.waitingPlace = []

/-- A context that may take an entry (R379). -/
structure Idle (s : State) (c : CtxId) : Prop where
  active : coreActive s c.core.val = true
  idle : (s.ctxAt c.core.val c.cx.val).active = false
  events : (s.ctxAt c.core.val c.cx.val).events = []
  stopped : isStopped (s.core c.core.val) c.cx.val = false
  held : boundaryHeld s = false

/-- The registers of a task that starts (R379). -/
structure Starts (d : Ctx) (pc argp : Word) (index join : Nat) (nfm fw : Bool) : Prop where
  pc : d.pc = pc
  active : d.active = true
  mode : d.mode = if fw then .firmware else .user
  regs : ∀ j, d.reg j = if j = 1 then argp else if j = 2 then BitVec.ofNat 64 index else 0
  preds : ∀ j, d.pred j = decide (j = 0)
  nfm : d.corectl = if nfm then 1 else 0
  join : d.taskjoin = BitVec.ofNat 64 join
  others : d.tiles = [] ∧ d.fpsr = 0 ∧ d.reptst = 0 ∧ d.wait = none ∧ d.regionOpen = false

/-- The record that a packet names lies on a device-owned page of its job that the root's TLB holds (R374, R462). -/
structure RecordAt (s : State) (p : Packet) (pa : Nat) : Prop where
  named : p.crec ≠ 0 ∧ p.crec.toNat % 32 = 0 ∧ canonical p.crec.toNat = true
  page : ∃ e, (s.sorus 0).tlb = [e] ∧ 12 ≤ e.size ∧ (e.asid = p.asid ∨ bitOf e.leaf 10 = true) ∧
    p.crec.toNat / 2 ^ e.size = e.va / 2 ^ e.size ∧ bitOf e.leaf 7 = true ∧ fieldOf e.leaf 54 2 = 0 ∧
    pa = fieldOf e.leaf 12 40 * 4096 + p.crec.toNat % 2 ^ e.size
  there : LineThere s (lineOf pa)

/-- STATUS of a completed launch (R374). -/
structure RecordStatus (c : LaunchCtr) (w : Word) : Prop where
  done : bitOf w 0 = true
  late : bitOf w 1 = c.late
  dropped : bitOf w 2 = false
  cancelled : bitOf w 3 = c.cancelled
  faulted : bitOf w 4 = c.faulted
  killed : bitOf w 5 = c.killed
  fcount : c.fcount < 2 ^ 16 → fieldOf w 16 16 = c.fcount
  last : c.fcount < 2 ^ 16 → c.last < 128 → fieldOf w 32 7 = c.last

/-- A vector is masked: bit 0 of the last 32-bit word of its entry in the MSI-X table, two words of 8 bytes (R451, log entry 101). -/
def VectorMasked (d : Device) (v : Nat) : Bool := (tget d.msixTable (2 * v + 1) 0).getLsbD 32

/-- A packet enters its queue (R368, R370, R372). -/
def Enters (s t : State) (p : Packet) (fw : Bool) : Prop :=
  t.launch.seq = s.launch.seq + 1 ∧ ∃ q, t.launch.queued = s.launch.queued ++ [q] ∧ q.pkt = p ∧ q.queue = p.queue ∧ q.seq = s.launch.seq ∧
    q.fw = fw ∧ q.ld = if p.deadline = 0 then 2 ^ 64 - 1 else s.launch.time.toNat + (p.deadline.toNat - p.stamp.toNat)

end Sys2Proof.Spec

/-- R368, R370, R371, R372, R373, R374, R376, R377, R378, R421: a packet of the window or the mailbox enters its queue, or raises RCOUNT; the
arbiter takes the packet that R373 puts first, gives it a counter, waits while the topology changes, or drops a late one of a DROPLATE queue; a stub forwards a flit to the
positions below its own and places its entry; a spilled entry returns; a counter at 0 writes its record, MSI-X message with it, and is free.
The message of a masked vector stands in the pending-bit array (R451). (That a late packet is dropped where no counter is free, too, is the
model's choice, log entry 59.) -/
def Obligations.LaunchEvents : Prop :=
  ∀ (s : State), NoTrace s →
    (∀ (slot : Fin 8) (p : Packet), p.queue = slot.val →
      (refuses s p = false → queueLen s slot.val < 16 → ∃ t, exec (.hostWindowPacket slot p) s = .next t ∧ LaunchOnly s t ∧ Enters s t p false) ∧
      (refuses s p = true → p.crec = 0 → ∃ t, exec (.hostWindowPacket slot p) s = .next t ∧ LaunchOnly s t ∧
        t.launch.queued = s.launch.queued ∧
        fieldOf (queueConf t slot.val) 32 16 = min (fieldOf (queueConf s slot.val) 32 16 + 1) 0xFFFF)) ∧
    (∀ p : Packet, packetBad s p = false → queueLen s p.queue < 16 → ∃ t, exec (.mailboxPacket p) s = .next t ∧ Enters s t p true ∧
      { t with dev := s.dev, launch := s.launch } = s) ∧
    (∀ q, First s q → (Late s q → bitOf (queueConf s q.queue) 1 = false) → ∀ ctr slot first rest, freeCtr s = some ctr → freeFan s = some slot →
      targets s q.pkt = first :: rest → topologyMoves s = false → ∃ t c, exec .launchDispatch s = .next t ∧
        t.launch.queued = s.launch.queued.filter (fun e => e.seq != q.seq) ∧ t.launch.ctrs.lookup ctr = some c ∧
        c.left = q.pkt.count ∧ c.seq = q.seq ∧ c.pkt = q.pkt ∧ c.ended = 0 ∧ (c.late = true ↔ Late s q) ∧ BytesKept s t) ∧
    (∀ q, First s q → ¬Late s q → topologyMoves s = true → exec .launchDispatch s = .next s) ∧
    (∀ q, First s q → Late s q → bitOf (queueConf s q.queue) 1 = true → q.pkt.crec = 0 → ∃ t, exec .launchDispatch s = .next t ∧
      t.launch.queued = s.launch.queued.filter (fun e => e.seq != q.seq) ∧ t.launch.ctrs = s.launch.ctrs ∧ BytesKept s t) ∧
    (∀ n f p, s.launch.flits[n]? = some f → coreActive s f.dst = true → (s.core f.dst).stub = [] → (s.core f.dst).waitingPlace = [] →
      (s.core f.dst).runList.length < 32 → spilledFor s f.dst = false →
      (s.launch.slots.find? fun p => p.2.lctr == f.range.lctr) = some p → f.pos < f.range.count →
      ∃ t, exec (.fanoutFlitArrival n) s = .next t ∧
        (t.core f.dst).runList = (s.core f.dst).runList ++ [⟨f.asid, f.urg, .range { f.range with next := f.pos }⟩] ∧
        t.launch.flits = s.launch.flits.eraseIdx n ++
          (((List.range 4).map fun i => 4 * f.pos + 1 + i).filter fun j => j < p.2.targets.length).map fun j =>
            { f with src := f.dst, dst := p.2.targets.getD j 0, pos := j }) ∧
    (∀ (core : Fin 128) p, NoPlacing s → (s.launch.spill.find? fun p => p.core == core.val) = some p →
      (s.core core.val).runList.length < 32 → ∃ t, exec (.spillReturn core) s = .next t ∧
        t.launch.spill = s.launch.spill.erase p ∧ (t.core core.val).runList = (s.core core.val).runList ++ [p.entry] ∧ BytesKept s t) ∧
    (∀ (ctr : Fin 256) c, s.launch.ctrs.lookup ctr.val = some c → c.left = 0 →
      (c.pkt.crec = 0 → ∃ t, exec (.launchCompletion ctr) s = .next t ∧ BytesKept s t ∧ t.launch.ctrs.lookup ctr.val = none) ∧
      (∀ pa, RecordAt s c.pkt pa → s.memOk → ∃ t w, exec (.launchCompletion ctr) s = .next t ∧ t.launch.ctrs.lookup ctr.val = none ∧
        RecordStatus c w ∧ Stores s t pa (lowBytes 8 w ++ lowBytes 8 (BitVec.ofNat 64 c.seq) ++ lowBytes 8 (BitVec.ofNat 64 c.ended) ++
          lowBytes 8 0) ∧
        (c.pkt.irq = false → t.dev.msix = s.dev.msix ∧ t.dev.msixPending = s.dev.msixPending) ∧
        (c.pkt.irq = true → (∀ p ∈ s.dev.posted, p.owner ≠ 0) →
          (VectorMasked s.dev c.pkt.msix = false → t.dev.msix = s.dev.msix ++ [c.pkt.msix]) ∧
          (VectorMasked s.dev c.pkt.msix = true → t.dev.msix = s.dev.msix ∧ c.pkt.msix ∈ t.dev.msixPending))))

/-- R352, R368, R375, R378, R379, R381, R385, R386, R390: an idle context takes an entry and starts its task; a cancel removes what is queued,
marks the counters and the running tasks that it names; a task so marked ends KILLED with its decrements; a blocked task is saved in a slot,
and a task with an X instruction moves to core 7; a boundary makes the next phase current and steps the commanded clocks; a deadlock is told
to the root core once. (The model's choice are: that the save record keeps the marks of uncorrectable flips, log entry 88, and that a
killed task leaves its context in user mode, log entry 41.) -/
def Obligations.TaskEvents : Prop :=
  ∀ (s : State), NoTrace s →
    (∀ (c : CtxId) e, Idle s c → NoPlacing s → (s.core c.core.val).runList = [e] → (e.urg = true ↔ c.cx.val = 1) →
      (∀ r, e.kind = .range r → ∃ t, exec (.taskStart c) s = .next t ∧ BytesKept s t ∧
        Starts (t.ctxAt c.core.val c.cx.val) r.pc (r.argp + BitVec.ofNat 64 (r.next * r.astride * 64)) r.next r.join r.nfm r.fw ∧
        (t.core c.core.val).runList =
          if r.next + r.n < r.count then [{ e with kind := .range { r with next := r.next + r.n } }] else []) ∧
      (∀ pc arg join nfm, e.kind = .cont pc arg join nfm → ∃ t, exec (.taskStart c) s = .next t ∧ BytesKept s t ∧
        Starts (t.ctxAt c.core.val c.cx.val) pc arg 0 join nfm false ∧ (t.core c.core.val).runList = [])) ∧
    (∀ l, ∃ t, exec (.launchUnitCancel l) s = .next t ∧ (∀ e ∈ t.launch.queued, cancelNames l e.seq e.pkt = false) ∧
      ∀ n k, s.launch.ctrs.lookup n = some k → cancelNames l k.seq k.pkt = true →
        (∃ k', t.launch.ctrs.lookup n = some k' ∧ k'.cancelled = true) ∧
        ∀ (c : CtxId) x, (s.ctxAt c.core.val c.cx.val).active = true → (s.ctxAt c.core.val c.cx.val).task = some x → x.lctr = some n →
          (t.ctxAt c.core.val c.cx.val).kill.isSome = true) ∧
    (∀ (c : CtxId) x cause k, x = s.ctxAt c.core.val c.cx.val → x.kill = some cause → x.active = true → x.regionOpen = false → x.commit = none →
      x.task = some k → (s.core c.core.val).engine = [] → (s.core c.core.val).sbuf = [] → ∃ t, exec (.taskKill c) s = .next t ∧ BytesKept s t ∧
        (t.ctxAt c.core.val c.cx.val).active = false ∧ (t.ctxAt c.core.val c.cx.val).task = none ∧
        (t.ctxAt c.core.val c.cx.val).mode = .user ∧ (t.ctxAt c.core.val c.cx.val).kill = none ∧
        (t.dev.decrs = s.dev.decrs ++ if fieldOf x.taskjoin 0 16 = 0xFFFF then []
          else [⟨fieldOf x.taskjoin 8 7, fieldOf x.taskjoin 0 8, 1, 2, cause, some c.core.val⟩]) ∧
        ∀ n q, k.lctr = some n → s.launch.ctrs.lookup n = some q → ∃ d, t.launch.ctrs.lookup n = some d ∧ d.left = q.left - 1 ∧
          d.killed = true ∧ d.last = cause ∧ d.fcount = min (q.fcount + 1) 0xFFFF) ∧
    (∀ (c : CtxId) x asid n, x = s.ctxAt c.core.val c.cx.val → coreActive s c.core.val = true →
      evictSlot s c.core.val c.cx.val = some (asid, n) → evictAsked s c.core.val c.cx.val asid = true → (s.core c.core.val).sbuf = [] →
      ∃ t, exec (.eviction c) s = .next t ∧ (t.ctxAt c.core.val c.cx.val).active = false ∧ (t.ctxAt c.core.val c.cx.val).task = none ∧
        (t.ctxAt c.core.val c.cx.val).heir = some asid ∧
        (t.job asid).used.lookup n = some ⟨x.task, c.core.val, c.cx.val, x.wait, x.retired, x.gue, x.pue, tileMarks x⟩) ∧
    (∀ (c : CtxId) x n pc f to_ e, x = s.ctxAt c.core.val c.cx.val → coreActive s c.core.val = true → x.active = true →
      x.wait = some ⟨.migrate, pc, f⟩ → x.kill = none → paused (s.core c.core.val) c.cx.val = false → coreOutstanding (s.core c.core.val) = false →
      (saveBase s x.asid).isSome = true → freeSlot s x.asid = some n → to_ = 8 * (c.core.val / 8) + 7 →
      e = ⟨x.asid, c.cx.val == 1, .resume n true⟩ → ∃ t, exec (.migration c) s = .next t ∧ (t.ctxAt c.core.val c.cx.val).active = false ∧
        (e ∈ (t.core to_).runList ∨ (∃ q ∈ t.launch.spill, q.core = to_ ∧ q.entry = e) ∨
          ∃ q ∈ (t.core c.core.val).waitingPlace, q.core = to_ ∧ q.entry = e)) ∧
    (∀ q, boundaryReady s = true → otherPhase s = some q → s.dev.rejoin = [] →
      (s.dev.pend = false → exec .phaseBoundary s = .next { s with launch := { s.launch with phase := q.pkt.phase } }) ∧
      (s.dev.pend = true → bitOf s.dev.cmd 31 = false → bitOf s.dev.cmd 23 = false → s.dev.quiet = false → s.dev.clamp0 = false →
        s.dev.clamp1 = false → s.dev.relock0 = [] → s.dev.relock1 = [] → ∃ t, exec .phaseBoundary s = .next t ∧ t.launch = { s.launch with phase := q.pkt.phase } ∧
          t.dev.pend = false ∧ t.dev.cmd = 0 ∧ t.dev.c0clk = (if bitOf s.dev.cmd 7 then fieldOf s.dev.cmd 0 6 else s.dev.c0clk) ∧
          t.dev.c1clk = if bitOf s.dev.cmd 15 then fieldOf s.dev.cmd 8 6 else s.dev.c1clk)) ∧
    (s.launch.reported = false → parkedTasks s ≠ 0 → s.launch.hwake = false → s.dev.pageReqs = [] →
      (∀ n, coreActive s n = true → lineUp s n = true) → meshBusy s = false → launchBusy s = false →
      ∃ t, exec .deadlock s = .next t ∧ RootHears s t 0x61 ∧ t.launch = { s.launch with reported := true } ∧ BytesKept s t)

namespace Sys2Proof.Spec
open Sys2Proof.Machine

/-! ### Device events: containment, debug, the hash pass -/

/-- The sori that a containment entry covers: those whose tiles lie in its rectangle (R51, R413). -/
def Covers (e : Contain) (k : Nat) : Prop := k ∈ e.sori

/-- A read of the window is answered with a word. -/
def Answers (s t : State) (w : Word) : Prop := t.dev = { s.dev with answers := s.dev.answers ++ [lowBytes 8 w] }

/-- The page that a hash pass reads (R449, R450): mapped as it was when it was written, device-owned; the ring on, with room; no log entry
waits. -/
structure HashReady (s : State) (asid size va pa : Nat) : Prop where
  logs : ∀ n, logWaiting (s.core n) = 0
  page : ∃ l, (walkFrom s 0 asid va (fieldOf (s.job asid).ptroot 18 34 * 2 ^ 18) [] [0, 1, 2, 3]).1 = .ok l ∧ l.size = size ∧
    fieldOf l.word 54 2 = 0 ∧ pa = fieldOf l.word 12 40 * 4096 + va % 2 ^ size
  there : (hbmOf s pa).isSome = true
  on : bitOf s.dev.hashRing.ctl 0 = true
  room : (s.dev.hashRing.prod + 1) % s.dev.hashRing.size ≠ s.dev.hashRing.cons % s.dev.hashRing.size

/-- Where the ring's next record goes. -/
def hashRecordAt (s : State) : Nat :=
  fieldOf s.dev.hashRing.base 12 40 * 4096 + s.dev.hashRing.prod % s.dev.hashRing.size * 32

end Sys2Proof.Spec

/-- R413, R414, R415, R440, R441, R442, R449, R450: FENCE ends every task of its sori, empties their caches and removes them; RESET gives them
their reset value; the self-test holds or fails the entry; RELEASE lets the sori rejoin; CMD 00 clears their counts. HALT asks for a stop,
which a boundary takes; HALT 0 resumes, for one instruction with STEP; the window reads and writes a stopped context. A hash pass appends the
record of a dirty page. -/
def Obligations.ContainmentDebugHashEvents : Prop :=
  ∀ (s : State), NoTrace s →
    (∀ (n : Fin 16) x, x = containAt s n.val →
      (fenceRefused s n.val x = false → ∃ t, exec (.containmentFence n) s = .next t ∧
        containAt t n.val = { x with err := false, state := 2 } ∧ ∀ k, Covers x k → sorusActive t k = false ∧
          ∀ c ∈ coresOf k, (t.core c).l1 = [] ∧ (t.core c).wc = [] ∧ (t.core c).sbuf = [] ∧ ∀ cx, (t.ctxAt c cx).active = false) ∧
      (x.state = 3 → ∀ pass, ∃ t, exec (.selfTestDone n pass) s = .next t ∧ DevOnly s t ∧
        containAt t n.val = { x with state := if pass then 4 else 5 }) ∧
      (x.state = 2 → ∃ t, exec (.containmentReset n) s = .next t ∧ containAt t n.val = { x with err := false, state := 3 } ∧
        ∀ k, Covers x k → t.sorus k = Sorus.reset ∧ ∀ c ∈ coresOf k, t.core c = Core.reset) ∧
      (x.state = 4 → ∃ t, exec (.containmentRelease n) s = .next t ∧ DevOnly s t ∧ t.dev.rejoin = s.dev.rejoin ++ x.sori ∧
        containAt t n.val = { x with err := false, state := 0 }) ∧
      (∃ t, exec (.containmentClearCounts n) s = .next t ∧ { t with sori := s.sori } = s ∧
        ∀ k, t.sorus k = if k ∈ x.sori then { s.sorus k with hardEvents := 0 } else s.sorus k)) ∧
    (∀ (core : Fin 128) k, k = s.core core.val →
      (∃ t, exec (.debugHalt core) s = .next t ∧ CoreOnly s t core.val ∧ t.core core.val = { k with dbgctl := k.dbgctl ||| 2 }) ∧
      (isStopped k (dbgCx k) = true →
        (∃ t, exec (.debugResume core) s = .next t ∧ CoreOnly s t core.val ∧
          t.core core.val = { k with dbgctl := k.dbgctl &&& ~~~6#64, stopped := k.stopped.filter (· != dbgCx k), stepping := false }) ∧
        (∃ t, exec (.debugStep core) s = .next t ∧ CoreOnly s t core.val ∧
          t.core core.val = { k with dbgctl := (k.dbgctl &&& ~~~2#64) ||| 4, stopped := k.stopped.filter (· != dbgCx k), stepping := true })) ∧
      (∀ cx x, cx = dbgCx k → x = k.ctx cx → coreActive s core.val = true → bitOf k.dbgctl 1 = true → isStopped k cx = false → x.active = true →
        x.commit = none → x.regionOpen = false → x.hasSent = false → ∃ t, exec (.debugStop core) s = .next t ∧ CoreOnly s t core.val ∧
          isStopped (t.core core.val) cx = true ∧ fieldOf (t.core core.val).dbgctl 6 3 = 1 ∧
          t.ctxAt core.val (1 - cx) = s.ctxAt core.val (1 - cx) ∧
          t.ctxAt core.val cx = { x with wait := x.wait.bind Wait.kept, fwdGot := [], pageGot := [] }) ∧
      (∀ cx x, cx = dbgCx k → x = k.ctx cx → isStopped k cx = true →
        (∃ t, exec (.debugWindowAccess core 8 none) s = .next t ∧ DevOnly s t ∧ Answers s t x.pc) ∧
        (∀ i, i < 63 → ∃ t, exec (.debugWindowAccess core (0x10 + 8 * i) none) s = .next t ∧ DevOnly s t ∧ Answers s t (x.reg (i + 1))) ∧
        (∀ w, ∃ t, exec (.debugWindowAccess core 8 (some w)) s = .next t ∧ CoreOnly s t core.val ∧ (t.ctxAt core.val cx).pc = w ∧
          ∀ j, j < 64 → (t.ctxAt core.val cx).reg j = x.reg j))) ∧
    (∀ asid seq rest, (s.job asid).hashDue = seq :: rest →
      (∃ t, exec (.hashPass asid) s = .next t ∧ (t.job asid).hashDue = rest ∧ (t.job asid).hashPages = []) ∧
      (∀ size va pa, (s.job asid).hashPages = [(size, va)] → HashReady s asid size va pa → LineThere s (lineOf (hashRecordAt s)) → s.memOk →
        ∃ t, exec (.hashPass asid) s = .next t ∧ t.dev.hashRing.prod = (s.dev.hashRing.prod + 1) % s.dev.hashRing.size ∧
          memBytes t (hashRecordAt s + 8) 8 = lowBytes 8 (BitVec.ofNat 64 seq) ∧
          memBytes t (hashRecordAt s + 16) 16 = (sha256 (memBytes s pa (2 ^ size))).take 16))

/-! ### The machine as a whole -/

/-- A context that runs, with nothing to do at its boundary: no kill, abort, event, empty interval or debug stop (R381, R383, R401, R441). -/
structure AtFetch (s : State) : Prop where
  active : coreActive s s.me = true
  running : isStopped s.myCore s.mycx = false
  first : paused s.myCore s.mycx = false
  ctx : s.ctx.active = true
  commit : s.ctx.commit = none
  boundary : s.ctx.boundaryWork = false
  halt : haltAsked s.myCore s.mycx = false
  events : s.ctx.eventReady = false
  relock : NoHold s

/-- The line of the PC holds `bs`, in the instruction cache or at home, where its granules are sound and both caches have room for it (R49). -/
def LineIs (s : State) (pa : Nat) (bs : List Byte) : Prop :=
  match s.myCore.icache.find? fun l => l.asid == s.ctx.asid && l.va == lineOf s.ctx.pc.toNat with
  | some l => l.data = bs
  | none => physRead s (lineOf pa) 64 = bs ∧ (∀ i, i < 64 → poisonedAt s (lineOf pa + i) = false ∧ flippedAt s (lineOf pa + i) = false) ∧
      (s.myCore.icache.filter fun l => icSet l.va == icSet s.ctx.pc.toNat).length < 8 ∧ HomeRoom s (lineOf pa)

/-- Where an instruction executes: an instruction that the core's retired stores must precede finds them performed (R105, log entry 13). -/
def startOfInstr (u : State) (i : Instr) : State := if passesStores i then u else emptyStores u u.me

/-- The acting context's datapath errs no longer, and a scalar instruction has used up an armed injection (R422). -/
def pathClear (i : Instr) (s u : State) : State :=
  s.modCtxAt u.me u.mycx fun c => { c with pathErr := none, injScalar := if i.code < 0x080 then none else c.injScalar }

/-- MMA, MMAX, MMAMX and MMASP, whose executions the counters of a core count (R444). -/
def multiplies (i : Instr) : Bool := 0x140 ≤ i.code && i.code ≤ 0x143

/-- The core without its instruction cache. -/
def noICache (k : Core) : Core := { k with icache := [] }

/-- The turn names context c, or no turn stands and the current context's wait does not block it (log entry 1). -/
def Moves (s : State) (c : CtxId) : Prop :=
  (∃ rest, s.turns = .run c :: rest) ∨ (s.turns = [] ∧ c = s.cur ∧ ∀ w, s.ctx.wait = some w → w.blocks s.myCore = false)

/-- Rules R49, R58, R59, R105, R191, R218, R250, R257, R390 and R444 (derived; the schedule of log entry 1, and which instructions find the
core's retired stores performed, log entry 13, are the model's choice). A context that may move, whose PC is
aligned and lies on a page that it may fetch from, executes the instruction that the bytes from the PC to the end of its fetch block
decode to: the step is exec of it at a state that differs only in the slices' tags and the instruction cache, once the core's retired stores
are performed where the instruction must find them so. Where the context's datapath errs, the instruction is repeated, or takes SCALARCHK
(R250). Bytes that do not decode
raise ILLEGAL, or FETCHX where the instruction does not fit in the block; a misaligned PC raises PCALIGN. A step of a device event is exec
of it, unless the mesh holds its message back. After every step the counters that are selected count, where none is selected nothing
changes, and a report of parked lines is withdrawn where some line is no longer up. -/
def Obligations.StepRunsDecoded : Prop :=
  (∀ (s : State) (c : CtxId) (s0 : State), s.dev.power = true → Moves s c → s0 = { s with turns := s.turns.tail, cur := c } → AtFetch s0 →
    (s0.ctx.pc.toNat % 4 ≠ 0 → step s = .next (settled s (faultNow s0 s0.me s0.mycx (mkFault 0x04 0)) false)) ∧
    (∀ a bs, s0.ctx.pc.toNat % 4 = 0 → Mapped s0 s0.ctx.pc.toNat 4 .fetch a → LineIs s0 a.pa bs →
      ∃ u, Kept noSlices noICache s0 u ∧ u.ctx = s0.ctx ∧ BytesKept s0 u ∧
        (∀ i, decode ((bs.drop (s0.ctx.pc.toNat % 64)).take (32 - s0.ctx.pc.toNat % 32)) = .ok i →
          (s0.ctx.inBlock && blockForbids i) = false → ∀ v, v = startOfInstr u i →
          (∀ t, v.ctx.pathErr = none → exec i v = .next t → step s = .next (settled s t (multiplies i))) ∧
          (∀ t twice, v.ctx.pathErr = some twice → exec i v = .next t → step s = .next (settled s
            (if isChecked i = true ∧ isEnabled i v.ctx = true ∧ (t.ctxAt v.me v.mycx).retired = v.ctx.retired + 1 then
              if twice then faultNow (pathClear i v v) v.me v.mycx (mkFault 0x33 0) else pathClear i t v
            else t) (multiplies i))) ∧
          (∀ x, exec i v = .fault x → step s = .fault x) ∧ (∀ x, exec i v = .refused x → step s = .refused x)) ∧
        (∀ i, decode ((bs.drop (s0.ctx.pc.toNat % 64)).take (32 - s0.ctx.pc.toNat % 32)) = .ok i →
          (s0.ctx.inBlock && blockForbids i) = true → step s = .next (settled s (faultNow u u.me u.mycx (mkFault 0x00 0)) false)) ∧
        (∀ e, decode ((bs.drop (s0.ctx.pc.toNat % 64)).take (32 - s0.ctx.pc.toNat % 32)) = .error e →
          step s = .next (settled s (faultNow u u.me u.mycx (mkFault (if e = .short then 0x02 else 0x00) 0)) false)))) ∧
  (∀ (s : State) (i : Instr) (rest : List Turn), s.dev.power = true → s.turns = .dev i :: rest → i.isEvent = true →
    (meshHolds { s with turns := rest } i = false → ∀ t, exec i { s with turns := rest } = .next t →
      step s = .next (settled s t (multiplies i))) ∧
    (meshHolds { s with turns := rest } i = true → step s = .next (settled s { s with turns := rest } false))) ∧
  (∀ (s t : State) (m : Bool), settled s t m = noteLines (counted s t m) ∧
    ((∀ p ∈ t.cores, ∀ q ∈ p.2.pmsel, bitOf q.2 8 = false) → (∀ p ∈ t.sori, ∀ q ∈ p.2.spmc, fieldOf q.2 56 8 = 0) → counted s t m = t)) ∧
  (∀ s : State, noteLines s =
    if s.launch.reported = true ∧ ∃ c ∈ activeCores s, lineUp s c = false then s.modLaunch fun l => { l with reported := false } else s)

/-- Rules R191 to R205 (derived: words that the spec writes out). Three instructions of the section on instruction words, CMP, BCMP, REPT
and ERET of the rules that encode them, and instructions of the listings of the five programs, decode to what they stand for. -/
def Obligations.DecodeWords : Prop :=
  decode (leBytes 8 0xA0000B1000102100) = .ok (.mma ⟨.w64, 0, 0, 1, false⟩
    { var := 0, sat := false, rnd := .rne, dm := .nfm, fd := some .f32, fa := some (.b8 3), ga := 0, tc := 0, tb := 1, ta := 0, td := 2
      rowsm1 := 0, colsm1 := 0 }) ∧
  decode (leBytes 12 (0x80039C0141854001 + 0x1000 * 2 ^ 64)) = .ok (.tld ⟨.w96, 0, 0, 0, false⟩
    { cols := 7, rows := 7, var := 0, rr := false, sat := false, rnd := .rne, dm := .nfm, fm := some .f16, gb := 6, ga := 5, t := 4
      off := 0x1000, first := 0, last := 0 }) ∧
  decode (leBytes 8 0x100003FFFB103000) = .ok (.addImm ⟨.w64, 0, 0, 0, false⟩ { var := 0, sc := 0, imm := -5, a := 4, d := 3 }) ∧
  decode (leBytes 8 0x0D82000005102000) = .ok (.cmp ⟨.w64, 0, 0, 0, false⟩
    { var := 4, sc := 0, ty := .i64, rnd := .rne, c := 0, b := 5, a := 4, d := 2 }) ∧
  decode (leBytes 8 0x41BFFFFFC3006000) = .ok (.bcmp ⟨.w64, 0, 0, 0, false⟩ { off := -4, cond := .ne, b := 0, a := 6 }) ∧
  decode (leBytes 8 0x4401040004000000) = .ok (.rept ⟨.w64, 0, 0, 0, false⟩ { var := 2, sc := 1, imm := 4, a := 0, d := 0 }) ∧
  decode (leBytes 8 0x4A00000000000000) = .ok (.eret ⟨.w64, 0, 0, 0, false⟩
    { var := 0, sc := 0, ty := .i64, rnd := .rne, c := 0, b := 0, a := 0, d := 0 }) ∧
  decode (leBytes 8 0x2000003008044000) = .ok (.ld ⟨.w64, 0, 0, 0, false⟩ { sc := 0, sp := 0, sz := .dword, off := 8, a := 1, d := 4 }) ∧
  decode (leBytes 8 0x22800000060C7000) = .ok (.amo ⟨.w64, 0, 0, 0, false⟩
    { var := 0, sc := 0, ty := .i64, rnd := .rne, c := 0, b := 6, a := 3, d := 7 }) ∧
  decode (leBytes 8 0xCB000B5000023000) = .ok (.tredr ⟨.w64, 0, 0, 0, false⟩
    { var := 0, sat := false, rnd := .rne, dm := .nfm, fd := some .f32, fa := some .f16, ga := 0, tc := 0, tb := 0, ta := 2, td := 3
      rowsm1 := 0, colsm1 := 0 })

/-- Rules R9, R22, R70, R99, R148, R232, R368, R375, R413 and the field maps (derived; that the contexts are idle and in user mode, with no
region and no block, is the model's reading, log entry 4). At reset: the constant registers read as they
always do; the status registers with a reset value read it; no slot is valid; entry f of every indirection table holds f; floors are 0;
the phase is 1 and sequence numbers start from 1; memory runs at its 6.4 Gb/s step; no containment entry is closed; memory has its
canonical form. -/
def Obligations.ResetState : Prop :=
  (∀ n x, ∀ c, c = State.reset.ctxAt n x →
    c.reg 0 = 0 ∧ c.pred 0 = true ∧ c.mode = .user ∧ c.active = false ∧ c.regionOpen = false ∧ c.inBlock = false) ∧
  (∀ core, core < 128 → ∀ x, x < 2 →
    (∀ n ∈ [0x001, 0x002, 0x00C, 0x00D, 0x010, 0x011, 0x012, 0x105, 0x110, 0x111, 0x400, 0x4C0, 0x4C1, 0x4C2, 0x4C3],
      csrRead State.reset core x n = 0)) ∧
  (∀ n b i, slotAt (State.reset.core n) b i = Tile.empty) ∧
  (∀ n f, itEntry (State.reset.stack n) f = f) ∧
  (∀ n, (State.reset.slice n).floor = 0) ∧
  State.reset.launch.phase = 1 ∧ State.reset.launch.seq = 1 ∧ State.reset.dev.mstep = 3 ∧
  (∀ n, (containAt State.reset n).state = 0) ∧ State.reset.memOk

/-- Rules R191 to R203 (derived). Decoding and encoding agree: the bytes of every legal instruction, whatever follows them, decode to that
instruction, with every operand at every value that the encoding admits; and what decodes is a legal instruction. -/
def Obligations.DecodeEncode : Prop :=
  (∀ (i : Instr) (rest : List Byte), i.isEvent = false → i.wf = true → decode (encode i ++ rest) = .ok i) ∧
  (∀ (bs : List Byte) (i : Instr), decode bs = .ok i → i.isEvent = false ∧ i.wf = true)

/-- Rule R14 with log entry 5 (derived). Every step of every instruction and event keeps memory in its canonical form: addresses rising,
no entry equal to what an unlisted address reads as, so that equal memories are equal data. -/
def Obligations.MemoryStaysCanonical : Prop :=
  ∀ s t : State, s.memOk → Goes s t → t.memOk
end

