-- ==== Sys2Proof/Laws/State.lean ====
section
/-!
SUPPORT. The parts of the state under the updates of Machine/Store.lean: one lemma per field per update, and what reading a part after
an update gives.
-/
namespace Sys2Proof.Machine

/-! ### Tables -/

theorem tget_tset_self {α : Type} (t : Tab α) (k : Nat) (v d : α) : tget (tset t k v) k d = v := by
  induction t with
  | nil => simp [tset, tget]
  | cons p r ih =>
    obtain ⟨i, x⟩ := p
    unfold tset
    split
    · rename_i h
      have : i ≠ k := by omega
      simp [tget, this, ih]
    · split <;> simp [tget]

theorem tget_tset_ne {α : Type} (t : Tab α) {k m : Nat} (h : m ≠ k) (v d : α) : tget (tset t k v) m d = tget t m d := by
  induction t with
  | nil => simp [tset, tget, h.symm]
  | cons p r ih =>
    obtain ⟨i, x⟩ := p
    unfold tset
    split
    · by_cases e : i = m <;> simp [tget, e, ih]
    · split
      · rename_i _ e
        subst e
        simp [tget, h.symm]
      · simp [tget, h.symm]

theorem tget_tset {α : Type} (t : Tab α) (k m : Nat) (v d : α) :
    tget (tset t k v) m d = if m = k then v else tget t m d := by
  split
  · rename_i h; subst h; exact tget_tset_self ..
  · rename_i h; exact tget_tset_ne t h v d

theorem tget_tdel_self {α : Type} (t : Tab α) (k : Nat) (d : α) : tget (tdel t k) k d = d := by
  induction t with
  | nil => rfl
  | cons p r ih =>
    obtain ⟨i, x⟩ := p
    unfold tdel at ih ⊢
    by_cases h : i = k
    · simp [h, ih]
    · simp [h, tget, ih]

theorem tget_tdel_ne {α : Type} (t : Tab α) {k m : Nat} (h : m ≠ k) (d : α) : tget (tdel t k) m d = tget t m d := by
  induction t with
  | nil => rfl
  | cons p r ih =>
    obtain ⟨i, x⟩ := p
    unfold tdel at ih ⊢
    by_cases e : i = k
    · subst e
      simp [tget, h.symm, ih]
    · have : List.filter (fun p => p.1 != k) ((i, x) :: r) = (i, x) :: List.filter (fun p => p.1 != k) r := by simp [e]
      rw [this]
      unfold tget
      rw [ih]

theorem tset_tset {α : Type} (t : Tab α) (k : Nat) (v w : α) : tset (tset t k v) k w = tset t k w := by
  induction t with
  | nil => simp [tset]
  | cons p r ih =>
    obtain ⟨i, x⟩ := p
    by_cases h : i < k
    · simp [tset, h, ih]
    · by_cases e : i = k
      · subst e
        simp [tset]
      · simp [tset, h, e]

/-! ### A core's contexts -/

namespace Core
@[simp] theorem ctx_setCtx_self (k : Core) (x : Nat) (c : Ctx) : (k.setCtx x c).ctx x = c := by
  unfold ctx setCtx; split <;> rfl
@[simp] theorem setCtx_setCtx (k : Core) (x : Nat) (c d : Ctx) : (k.setCtx x c).setCtx x d = k.setCtx x d := by
  unfold setCtx; split <;> rfl
theorem ctx_setCtx (k : Core) (x y : Nat) (c : Ctx) :
    (k.setCtx x c).ctx y = if (x = 0) = (y = 0) then c else k.ctx y := by
  unfold ctx setCtx
  by_cases hx : x = 0 <;> by_cases hy : y = 0 <;> simp [hx, hy]

@[simp] theorem setCtx_bufW (k : Core) (x : Nat) (c : Ctx) : (k.setCtx x c).bufW = k.bufW := by unfold setCtx; split <;> rfl
@[simp] theorem setCtx_bufA (k : Core) (x : Nat) (c : Ctx) : (k.setCtx x c).bufA = k.bufA := by unfold setCtx; split <;> rfl
@[simp] theorem setCtx_bufC (k : Core) (x : Nat) (c : Ctx) : (k.setCtx x c).bufC = k.bufC := by unfold setCtx; split <;> rfl
@[simp] theorem setCtx_cells (k : Core) (x : Nat) (c : Ctx) : (k.setCtx x c).cells = k.cells := by unfold setCtx; split <;> rfl
@[simp] theorem setCtx_dlog (k : Core) (x : Nat) (c : Ctx) : (k.setCtx x c).dlog = k.dlog := by unfold setCtx; split <;> rfl
@[simp] theorem setCtx_dlHead (k : Core) (x : Nat) (c : Ctx) : (k.setCtx x c).dlHead = k.dlHead := by unfold setCtx; split <;> rfl
@[simp] theorem setCtx_dlTail (k : Core) (x : Nat) (c : Ctx) : (k.setCtx x c).dlTail = k.dlTail := by unfold setCtx; split <;> rfl
@[simp] theorem setCtx_dlFull (k : Core) (x : Nat) (c : Ctx) : (k.setCtx x c).dlFull = k.dlFull := by unfold setCtx; split <;> rfl
@[simp] theorem setCtx_dfilter (k : Core) (x : Nat) (c : Ctx) : (k.setCtx x c).dfilter = k.dfilter := by unfold setCtx; split <;> rfl
@[simp] theorem setCtx_bufpart (k : Core) (x : Nat) (c : Ctx) : (k.setCtx x c).bufpart = k.bufpart := by unfold setCtx; split <;> rfl
@[simp] theorem setCtx_l1 (k : Core) (x : Nat) (c : Ctx) : (k.setCtx x c).l1 = k.l1 := by unfold setCtx; split <;> rfl
@[simp] theorem setCtx_victims (k : Core) (x : Nat) (c : Ctx) : (k.setCtx x c).victims = k.victims := by unfold setCtx; split <;> rfl
@[simp] theorem setCtx_sbuf (k : Core) (x : Nat) (c : Ctx) : (k.setCtx x c).sbuf = k.sbuf := by unfold setCtx; split <;> rfl
@[simp] theorem setCtx_soParts (k : Core) (x : Nat) (c : Ctx) : (k.setCtx x c).soParts = k.soParts := by unfold setCtx; split <;> rfl
@[simp] theorem setCtx_samples (k : Core) (x : Nat) (c : Ctx) : (k.setCtx x c).samples = k.samples := by unfold setCtx; split <;> rfl
@[simp] theorem setCtx_holdStores (k : Core) (x : Nat) (c : Ctx) : (k.setCtx x c).holdStores = k.holdStores := by unfold setCtx; split <;> rfl
@[simp] theorem setCtx_icache (k : Core) (x : Nat) (c : Ctx) : (k.setCtx x c).icache = k.icache := by unfold setCtx; split <;> rfl
@[simp] theorem setCtx_wc (k : Core) (x : Nat) (c : Ctx) : (k.setCtx x c).wc = k.wc := by unfold setCtx; split <;> rfl
@[simp] theorem setCtx_nonRet (k : Core) (x : Nat) (c : Ctx) : (k.setCtx x c).nonRet = k.nonRet := by unfold setCtx; split <;> rfl
@[simp] theorem setCtx_posted (k : Core) (x : Nat) (c : Ctx) : (k.setCtx x c).posted = k.posted := by unfold setCtx; split <;> rfl
@[simp] theorem setCtx_sends (k : Core) (x : Nat) (c : Ctx) : (k.setCtx x c).sends = k.sends := by unfold setCtx; split <;> rfl
@[simp] theorem setCtx_engine (k : Core) (x : Nat) (c : Ctx) : (k.setCtx x c).engine = k.engine := by unfold setCtx; split <;> rfl
@[simp] theorem setCtx_toAcquire (k : Core) (x : Nat) (c : Ctx) : (k.setCtx x c).toAcquire = k.toAcquire := by unfold setCtx; split <;> rfl
@[simp] theorem setCtx_withdrawn (k : Core) (x : Nat) (c : Ctx) : (k.setCtx x c).withdrawn = k.withdrawn := by unfold setCtx; split <;> rfl
@[simp] theorem setCtx_colls (k : Core) (x : Nat) (c : Ctx) : (k.setCtx x c).colls = k.colls := by unfold setCtx; split <;> rfl
@[simp] theorem setCtx_chans (k : Core) (x : Nat) (c : Ctx) : (k.setCtx x c).chans = k.chans := by unfold setCtx; split <;> rfl
@[simp] theorem setCtx_runList (k : Core) (x : Nat) (c : Ctx) : (k.setCtx x c).runList = k.runList := by unfold setCtx; split <;> rfl
@[simp] theorem setCtx_stub (k : Core) (x : Nat) (c : Ctx) : (k.setCtx x c).stub = k.stub := by unfold setCtx; split <;> rfl
@[simp] theorem setCtx_waitingPlace (k : Core) (x : Nat) (c : Ctx) : (k.setCtx x c).waitingPlace = k.waitingPlace := by unfold setCtx; split <;> rfl
@[simp] theorem setCtx_cyc (k : Core) (x : Nat) (c : Ctx) : (k.setCtx x c).cyc = k.cyc := by unfold setCtx; split <;> rfl
@[simp] theorem setCtx_ncyc (k : Core) (x : Nat) (c : Ctx) : (k.setCtx x c).ncyc = k.ncyc := by unfold setCtx; split <;> rfl
@[simp] theorem setCtx_pmc (k : Core) (x : Nat) (c : Ctx) : (k.setCtx x c).pmc = k.pmc := by unfold setCtx; split <;> rfl
@[simp] theorem setCtx_pmsel (k : Core) (x : Nat) (c : Ctx) : (k.setCtx x c).pmsel = k.pmsel := by unfold setCtx; split <;> rfl
@[simp] theorem setCtx_dbgctl (k : Core) (x : Nat) (c : Ctx) : (k.setCtx x c).dbgctl = k.dbgctl := by unfold setCtx; split <;> rfl
@[simp] theorem setCtx_sbase (k : Core) (x : Nat) (c : Ctx) : (k.setCtx x c).sbase = k.sbase := by unfold setCtx; split <;> rfl
@[simp] theorem setCtx_sctl (k : Core) (x : Nat) (c : Ctx) : (k.setCtx x c).sctl = k.sctl := by unfold setCtx; split <;> rfl
@[simp] theorem setCtx_misses (k : Core) (x : Nat) (c : Ctx) : (k.setCtx x c).misses = k.misses := by unfold setCtx; split <;> rfl
@[simp] theorem setCtx_stopped (k : Core) (x : Nat) (c : Ctx) : (k.setCtx x c).stopped = k.stopped := by unfold setCtx; split <;> rfl
@[simp] theorem setCtx_stepping (k : Core) (x : Nat) (c : Ctx) : (k.setCtx x c).stepping = k.stepping := by unfold setCtx; split <;> rfl
end Core

namespace State

/-! ### setCore -/
@[simp] theorem setCore_turns (s : State) (n : Nat) (k : Core) : (s.setCore n k).turns = s.turns := rfl
@[simp] theorem setCore_cur (s : State) (n : Nat) (k : Core) : (s.setCore n k).cur = s.cur := rfl
@[simp] theorem setCore_fresh (s : State) (n : Nat) (k : Core) : (s.setCore n k).fresh = s.fresh := rfl
@[simp] theorem setCore_sori (s : State) (n : Nat) (k : Core) : (s.setCore n k).sori = s.sori := rfl
@[simp] theorem setCore_slices (s : State) (n : Nat) (k : Core) : (s.setCore n k).slices = s.slices := rfl
@[simp] theorem setCore_stackTab (s : State) (n : Nat) (k : Core) : (s.setCore n k).stackTab = s.stackTab := rfl
@[simp] theorem setCore_mem (s : State) (n : Nat) (k : Core) : (s.setCore n k).mem = s.mem := rfl
@[simp] theorem setCore_launch (s : State) (n : Nat) (k : Core) : (s.setCore n k).launch = s.launch := rfl
@[simp] theorem setCore_dev (s : State) (n : Nat) (k : Core) : (s.setCore n k).dev = s.dev := rfl

/-! ### modCore -/
@[simp] theorem modCore_turns (s : State) (n : Nat) (f : Core → Core) : (s.modCore n f).turns = s.turns := rfl
@[simp] theorem modCore_cur (s : State) (n : Nat) (f : Core → Core) : (s.modCore n f).cur = s.cur := rfl
@[simp] theorem modCore_fresh (s : State) (n : Nat) (f : Core → Core) : (s.modCore n f).fresh = s.fresh := rfl
@[simp] theorem modCore_sori (s : State) (n : Nat) (f : Core → Core) : (s.modCore n f).sori = s.sori := rfl
@[simp] theorem modCore_slices (s : State) (n : Nat) (f : Core → Core) : (s.modCore n f).slices = s.slices := rfl
@[simp] theorem modCore_stackTab (s : State) (n : Nat) (f : Core → Core) : (s.modCore n f).stackTab = s.stackTab := rfl
@[simp] theorem modCore_mem (s : State) (n : Nat) (f : Core → Core) : (s.modCore n f).mem = s.mem := rfl
@[simp] theorem modCore_launch (s : State) (n : Nat) (f : Core → Core) : (s.modCore n f).launch = s.launch := rfl
@[simp] theorem modCore_dev (s : State) (n : Nat) (f : Core → Core) : (s.modCore n f).dev = s.dev := rfl

/-! ### setCtxAt -/
@[simp] theorem setCtxAt_turns (s : State) (n x : Nat) (c : Ctx) : (s.setCtxAt n x c).turns = s.turns := rfl
@[simp] theorem setCtxAt_cur (s : State) (n x : Nat) (c : Ctx) : (s.setCtxAt n x c).cur = s.cur := rfl
@[simp] theorem setCtxAt_fresh (s : State) (n x : Nat) (c : Ctx) : (s.setCtxAt n x c).fresh = s.fresh := rfl
@[simp] theorem setCtxAt_sori (s : State) (n x : Nat) (c : Ctx) : (s.setCtxAt n x c).sori = s.sori := rfl
@[simp] theorem setCtxAt_slices (s : State) (n x : Nat) (c : Ctx) : (s.setCtxAt n x c).slices = s.slices := rfl
@[simp] theorem setCtxAt_stackTab (s : State) (n x : Nat) (c : Ctx) : (s.setCtxAt n x c).stackTab = s.stackTab := rfl
@[simp] theorem setCtxAt_mem (s : State) (n x : Nat) (c : Ctx) : (s.setCtxAt n x c).mem = s.mem := rfl
@[simp] theorem setCtxAt_launch (s : State) (n x : Nat) (c : Ctx) : (s.setCtxAt n x c).launch = s.launch := rfl
@[simp] theorem setCtxAt_dev (s : State) (n x : Nat) (c : Ctx) : (s.setCtxAt n x c).dev = s.dev := rfl

/-! ### modCtxAt -/
@[simp] theorem modCtxAt_turns (s : State) (n x : Nat) (f : Ctx → Ctx) : (s.modCtxAt n x f).turns = s.turns := rfl
@[simp] theorem modCtxAt_cur (s : State) (n x : Nat) (f : Ctx → Ctx) : (s.modCtxAt n x f).cur = s.cur := rfl
@[simp] theorem modCtxAt_fresh (s : State) (n x : Nat) (f : Ctx → Ctx) : (s.modCtxAt n x f).fresh = s.fresh := rfl
@[simp] theorem modCtxAt_sori (s : State) (n x : Nat) (f : Ctx → Ctx) : (s.modCtxAt n x f).sori = s.sori := rfl
@[simp] theorem modCtxAt_slices (s : State) (n x : Nat) (f : Ctx → Ctx) : (s.modCtxAt n x f).slices = s.slices := rfl
@[simp] theorem modCtxAt_stackTab (s : State) (n x : Nat) (f : Ctx → Ctx) : (s.modCtxAt n x f).stackTab = s.stackTab := rfl
@[simp] theorem modCtxAt_mem (s : State) (n x : Nat) (f : Ctx → Ctx) : (s.modCtxAt n x f).mem = s.mem := rfl
@[simp] theorem modCtxAt_launch (s : State) (n x : Nat) (f : Ctx → Ctx) : (s.modCtxAt n x f).launch = s.launch := rfl
@[simp] theorem modCtxAt_dev (s : State) (n x : Nat) (f : Ctx → Ctx) : (s.modCtxAt n x f).dev = s.dev := rfl

/-! ### setCtx -/
@[simp] theorem setCtx_turns (s : State) (c : Ctx) : (s.setCtx c).turns = s.turns := rfl
@[simp] theorem setCtx_cur (s : State) (c : Ctx) : (s.setCtx c).cur = s.cur := rfl
@[simp] theorem setCtx_fresh (s : State) (c : Ctx) : (s.setCtx c).fresh = s.fresh := rfl
@[simp] theorem setCtx_sori (s : State) (c : Ctx) : (s.setCtx c).sori = s.sori := rfl
@[simp] theorem setCtx_slices (s : State) (c : Ctx) : (s.setCtx c).slices = s.slices := rfl
@[simp] theorem setCtx_stackTab (s : State) (c : Ctx) : (s.setCtx c).stackTab = s.stackTab := rfl
@[simp] theorem setCtx_mem (s : State) (c : Ctx) : (s.setCtx c).mem = s.mem := rfl
@[simp] theorem setCtx_launch (s : State) (c : Ctx) : (s.setCtx c).launch = s.launch := rfl
@[simp] theorem setCtx_dev (s : State) (c : Ctx) : (s.setCtx c).dev = s.dev := rfl

/-! ### modCtx -/
@[simp] theorem modCtx_turns (s : State) (f : Ctx → Ctx) : (s.modCtx f).turns = s.turns := rfl
@[simp] theorem modCtx_cur (s : State) (f : Ctx → Ctx) : (s.modCtx f).cur = s.cur := rfl
@[simp] theorem modCtx_fresh (s : State) (f : Ctx → Ctx) : (s.modCtx f).fresh = s.fresh := rfl
@[simp] theorem modCtx_sori (s : State) (f : Ctx → Ctx) : (s.modCtx f).sori = s.sori := rfl
@[simp] theorem modCtx_slices (s : State) (f : Ctx → Ctx) : (s.modCtx f).slices = s.slices := rfl
@[simp] theorem modCtx_stackTab (s : State) (f : Ctx → Ctx) : (s.modCtx f).stackTab = s.stackTab := rfl
@[simp] theorem modCtx_mem (s : State) (f : Ctx → Ctx) : (s.modCtx f).mem = s.mem := rfl
@[simp] theorem modCtx_launch (s : State) (f : Ctx → Ctx) : (s.modCtx f).launch = s.launch := rfl
@[simp] theorem modCtx_dev (s : State) (f : Ctx → Ctx) : (s.modCtx f).dev = s.dev := rfl

/-! ### modMyCore -/
@[simp] theorem modMyCore_turns (s : State) (f : Core → Core) : (s.modMyCore f).turns = s.turns := rfl
@[simp] theorem modMyCore_cur (s : State) (f : Core → Core) : (s.modMyCore f).cur = s.cur := rfl
@[simp] theorem modMyCore_fresh (s : State) (f : Core → Core) : (s.modMyCore f).fresh = s.fresh := rfl
@[simp] theorem modMyCore_sori (s : State) (f : Core → Core) : (s.modMyCore f).sori = s.sori := rfl
@[simp] theorem modMyCore_slices (s : State) (f : Core → Core) : (s.modMyCore f).slices = s.slices := rfl
@[simp] theorem modMyCore_stackTab (s : State) (f : Core → Core) : (s.modMyCore f).stackTab = s.stackTab := rfl
@[simp] theorem modMyCore_mem (s : State) (f : Core → Core) : (s.modMyCore f).mem = s.mem := rfl
@[simp] theorem modMyCore_launch (s : State) (f : Core → Core) : (s.modMyCore f).launch = s.launch := rfl
@[simp] theorem modMyCore_dev (s : State) (f : Core → Core) : (s.modMyCore f).dev = s.dev := rfl

/-! ### modSorus -/
@[simp] theorem modSorus_turns (s : State) (n : Nat) (f : Sorus → Sorus) : (s.modSorus n f).turns = s.turns := rfl
@[simp] theorem modSorus_cur (s : State) (n : Nat) (f : Sorus → Sorus) : (s.modSorus n f).cur = s.cur := rfl
@[simp] theorem modSorus_fresh (s : State) (n : Nat) (f : Sorus → Sorus) : (s.modSorus n f).fresh = s.fresh := rfl
@[simp] theorem modSorus_cores (s : State) (n : Nat) (f : Sorus → Sorus) : (s.modSorus n f).cores = s.cores := rfl
@[simp] theorem modSorus_slices (s : State) (n : Nat) (f : Sorus → Sorus) : (s.modSorus n f).slices = s.slices := rfl
@[simp] theorem modSorus_stackTab (s : State) (n : Nat) (f : Sorus → Sorus) : (s.modSorus n f).stackTab = s.stackTab := rfl
@[simp] theorem modSorus_mem (s : State) (n : Nat) (f : Sorus → Sorus) : (s.modSorus n f).mem = s.mem := rfl
@[simp] theorem modSorus_launch (s : State) (n : Nat) (f : Sorus → Sorus) : (s.modSorus n f).launch = s.launch := rfl
@[simp] theorem modSorus_dev (s : State) (n : Nat) (f : Sorus → Sorus) : (s.modSorus n f).dev = s.dev := rfl

/-! ### modSlice -/
@[simp] theorem modSlice_turns (s : State) (n : Nat) (f : Slice → Slice) : (s.modSlice n f).turns = s.turns := rfl
@[simp] theorem modSlice_cur (s : State) (n : Nat) (f : Slice → Slice) : (s.modSlice n f).cur = s.cur := rfl
@[simp] theorem modSlice_fresh (s : State) (n : Nat) (f : Slice → Slice) : (s.modSlice n f).fresh = s.fresh := rfl
@[simp] theorem modSlice_cores (s : State) (n : Nat) (f : Slice → Slice) : (s.modSlice n f).cores = s.cores := rfl
@[simp] theorem modSlice_sori (s : State) (n : Nat) (f : Slice → Slice) : (s.modSlice n f).sori = s.sori := rfl
@[simp] theorem modSlice_stackTab (s : State) (n : Nat) (f : Slice → Slice) : (s.modSlice n f).stackTab = s.stackTab := rfl
@[simp] theorem modSlice_mem (s : State) (n : Nat) (f : Slice → Slice) : (s.modSlice n f).mem = s.mem := rfl
@[simp] theorem modSlice_launch (s : State) (n : Nat) (f : Slice → Slice) : (s.modSlice n f).launch = s.launch := rfl
@[simp] theorem modSlice_dev (s : State) (n : Nat) (f : Slice → Slice) : (s.modSlice n f).dev = s.dev := rfl

/-! ### modStack -/
@[simp] theorem modStack_turns (s : State) (n : Nat) (f : Stack → Stack) : (s.modStack n f).turns = s.turns := rfl
@[simp] theorem modStack_cur (s : State) (n : Nat) (f : Stack → Stack) : (s.modStack n f).cur = s.cur := rfl
@[simp] theorem modStack_fresh (s : State) (n : Nat) (f : Stack → Stack) : (s.modStack n f).fresh = s.fresh := rfl
@[simp] theorem modStack_cores (s : State) (n : Nat) (f : Stack → Stack) : (s.modStack n f).cores = s.cores := rfl
@[simp] theorem modStack_sori (s : State) (n : Nat) (f : Stack → Stack) : (s.modStack n f).sori = s.sori := rfl
@[simp] theorem modStack_slices (s : State) (n : Nat) (f : Stack → Stack) : (s.modStack n f).slices = s.slices := rfl
@[simp] theorem modStack_mem (s : State) (n : Nat) (f : Stack → Stack) : (s.modStack n f).mem = s.mem := rfl
@[simp] theorem modStack_launch (s : State) (n : Nat) (f : Stack → Stack) : (s.modStack n f).launch = s.launch := rfl
@[simp] theorem modStack_dev (s : State) (n : Nat) (f : Stack → Stack) : (s.modStack n f).dev = s.dev := rfl

/-! ### modDev -/
@[simp] theorem modDev_turns (s : State) (f : Device → Device) : (s.modDev f).turns = s.turns := rfl
@[simp] theorem modDev_cur (s : State) (f : Device → Device) : (s.modDev f).cur = s.cur := rfl
@[simp] theorem modDev_fresh (s : State) (f : Device → Device) : (s.modDev f).fresh = s.fresh := rfl
@[simp] theorem modDev_cores (s : State) (f : Device → Device) : (s.modDev f).cores = s.cores := rfl
@[simp] theorem modDev_sori (s : State) (f : Device → Device) : (s.modDev f).sori = s.sori := rfl
@[simp] theorem modDev_slices (s : State) (f : Device → Device) : (s.modDev f).slices = s.slices := rfl
@[simp] theorem modDev_stackTab (s : State) (f : Device → Device) : (s.modDev f).stackTab = s.stackTab := rfl
@[simp] theorem modDev_mem (s : State) (f : Device → Device) : (s.modDev f).mem = s.mem := rfl
@[simp] theorem modDev_launch (s : State) (f : Device → Device) : (s.modDev f).launch = s.launch := rfl

/-! ### modLaunch -/
@[simp] theorem modLaunch_turns (s : State) (f : Launch → Launch) : (s.modLaunch f).turns = s.turns := rfl
@[simp] theorem modLaunch_cur (s : State) (f : Launch → Launch) : (s.modLaunch f).cur = s.cur := rfl
@[simp] theorem modLaunch_fresh (s : State) (f : Launch → Launch) : (s.modLaunch f).fresh = s.fresh := rfl
@[simp] theorem modLaunch_cores (s : State) (f : Launch → Launch) : (s.modLaunch f).cores = s.cores := rfl
@[simp] theorem modLaunch_sori (s : State) (f : Launch → Launch) : (s.modLaunch f).sori = s.sori := rfl
@[simp] theorem modLaunch_slices (s : State) (f : Launch → Launch) : (s.modLaunch f).slices = s.slices := rfl
@[simp] theorem modLaunch_stackTab (s : State) (f : Launch → Launch) : (s.modLaunch f).stackTab = s.stackTab := rfl
@[simp] theorem modLaunch_mem (s : State) (f : Launch → Launch) : (s.modLaunch f).mem = s.mem := rfl
@[simp] theorem modLaunch_dev (s : State) (f : Launch → Launch) : (s.modLaunch f).dev = s.dev := rfl

/-! ### modJob -/
@[simp] theorem modJob_turns (s : State) (a : Nat) (f : Job → Job) : (s.modJob a f).turns = s.turns := rfl
@[simp] theorem modJob_cur (s : State) (a : Nat) (f : Job → Job) : (s.modJob a f).cur = s.cur := rfl
@[simp] theorem modJob_fresh (s : State) (a : Nat) (f : Job → Job) : (s.modJob a f).fresh = s.fresh := rfl
@[simp] theorem modJob_cores (s : State) (a : Nat) (f : Job → Job) : (s.modJob a f).cores = s.cores := rfl
@[simp] theorem modJob_sori (s : State) (a : Nat) (f : Job → Job) : (s.modJob a f).sori = s.sori := rfl
@[simp] theorem modJob_slices (s : State) (a : Nat) (f : Job → Job) : (s.modJob a f).slices = s.slices := rfl
@[simp] theorem modJob_stackTab (s : State) (a : Nat) (f : Job → Job) : (s.modJob a f).stackTab = s.stackTab := rfl
@[simp] theorem modJob_mem (s : State) (a : Nat) (f : Job → Job) : (s.modJob a f).mem = s.mem := rfl
@[simp] theorem modJob_dev (s : State) (a : Nat) (f : Job → Job) : (s.modJob a f).dev = s.dev := rfl

/-! ### Reading after an update -/

@[simp] theorem setCore_core_self (s : State) (n : Nat) (k : Core) : (s.setCore n k).core n = k := tget_tset_self ..
theorem setCore_core (s : State) (n m : Nat) (k : Core) : (s.setCore n k).core m = if m = n then k else s.core m := tget_tset ..
@[simp] theorem modCore_core_self (s : State) (n : Nat) (f : Core → Core) : (s.modCore n f).core n = f (s.core n) := tget_tset_self ..
theorem modCore_core (s : State) (n m : Nat) (f : Core → Core) :
    (s.modCore n f).core m = if m = n then f (s.core n) else s.core m := tget_tset ..
theorem modCtxAt_core (s : State) (n x m : Nat) (f : Ctx → Ctx) :
    (s.modCtxAt n x f).core m = if m = n then (s.core n).setCtx x (f (s.ctxAt n x)) else s.core m := tget_tset ..
theorem modCtxAt_ctxAt (s : State) (n x m y : Nat) (f : Ctx → Ctx) :
    (s.modCtxAt n x f).ctxAt m y = if m = n ∧ ((x = 0) = (y = 0)) then f (s.ctxAt n x) else s.ctxAt m y := by
  unfold ctxAt
  rw [modCtxAt_core]
  by_cases h : m = n
  · subst h
    simp only [if_true, true_and, Core.ctx_setCtx]
    rfl
  · simp [h]
@[simp] theorem modCtxAt_ctxAt_self (s : State) (n x : Nat) (f : Ctx → Ctx) : (s.modCtxAt n x f).ctxAt n x = f (s.ctxAt n x) := by
  simp [modCtxAt_ctxAt]
@[simp] theorem modCtx_me (s : State) (f : Ctx → Ctx) : (s.modCtx f).me = s.me := rfl
@[simp] theorem modCtx_mycx (s : State) (f : Ctx → Ctx) : (s.modCtx f).mycx = s.mycx := rfl
@[simp] theorem modCtx_ctx (s : State) (f : Ctx → Ctx) : (s.modCtx f).ctx = f s.ctx := modCtxAt_ctxAt_self ..
theorem modCtx_eq (s : State) (f : Ctx → Ctx) : s.modCtx f = s.modCtxAt s.me s.mycx f := rfl
theorem modCtx_core (s : State) (m : Nat) (f : Ctx → Ctx) :
    (s.modCtx f).core m = if m = s.me then s.myCore.setCtx s.mycx (f s.ctx) else s.core m := modCtxAt_core ..
@[simp] theorem modCtx_myCore (s : State) (f : Ctx → Ctx) : (s.modCtx f).myCore = s.myCore.setCtx s.mycx (f s.ctx) := by
  unfold myCore; rw [modCtx_core]; simp; rfl
@[simp] theorem modSorus_sorus_self (s : State) (n : Nat) (f : Sorus → Sorus) : (s.modSorus n f).sorus n = f (s.sorus n) :=
  tget_tset_self ..
theorem modSorus_sorus (s : State) (n m : Nat) (f : Sorus → Sorus) :
    (s.modSorus n f).sorus m = if m = n then f (s.sorus n) else s.sorus m := tget_tset ..
@[simp] theorem modSlice_slice_self (s : State) (n : Nat) (f : Slice → Slice) : (s.modSlice n f).slice n = f (s.slice n) :=
  tget_tset_self ..
theorem modSlice_slice (s : State) (n m : Nat) (f : Slice → Slice) :
    (s.modSlice n f).slice m = if m = n then f (s.slice n) else s.slice m := tget_tset ..
@[simp] theorem modStack_stack_self (s : State) (n : Nat) (f : Stack → Stack) : (s.modStack n f).stack n = f (s.stack n) :=
  tget_tset_self ..
theorem modStack_stack (s : State) (n m : Nat) (f : Stack → Stack) :
    (s.modStack n f).stack m = if m = n then f (s.stack n) else s.stack m := tget_tset ..
@[simp] theorem modDev_dev (s : State) (f : Device → Device) : (s.modDev f).dev = f s.dev := rfl
@[simp] theorem modLaunch_launch (s : State) (f : Launch → Launch) : (s.modLaunch f).launch = f s.launch := rfl
@[simp] theorem modJob_job_self (s : State) (a : Nat) (f : Job → Job) : (s.modJob a f).job a = f (s.job a) := tget_tset_self ..
theorem modJob_job (s : State) (a b : Nat) (f : Job → Job) :
    (s.modJob a f).job b = if b = a then f (s.job a) else s.job b := tget_tset ..

@[simp] theorem setCore_setCore (s : State) (n : Nat) (k l : Core) : (s.setCore n k).setCore n l = s.setCore n l := by
  unfold setCore; rw [tset_tset]
/-- Two updates of one context are one. -/
theorem modCtxAt_modCtxAt (s : State) (n x : Nat) (f g : Ctx → Ctx) :
    (s.modCtxAt n x f).modCtxAt n x g = s.modCtxAt n x fun c => g (f c) := by
  show ((s.modCtxAt n x f).setCore n _) = _
  rw [modCtxAt_ctxAt_self]
  show (s.setCore n _).setCore n _ = _
  rw [setCore_setCore]
  unfold modCtxAt setCtxAt
  rw [setCore_core_self, Core.setCtx_setCtx]
/-- Two updates of the acting context are one. -/
@[simp] theorem modCtx_modCtx (s : State) (f g : Ctx → Ctx) : (s.modCtx f).modCtx g = s.modCtx fun c => g (f c) :=
  modCtxAt_modCtxAt ..

end State
end Sys2Proof.Machine
end

