-- ==== Sys2Proof/Laws/Memory.lean ====
section
/-!
SUPPORT. The bytes of memory: reading what was written, and the canonical form that every memory operation keeps.
-/
namespace Sys2Proof.Machine

/-- Every key of a list of cells lies above a bound. -/
def keysAbove (k : Nat) (m : List Host.Cell) : Prop := ∀ c ∈ m, k < c.1

theorem memWf_cons {a : Nat} {b : Byte} {t : List Host.Cell} :
    memWf ((a, b) :: t) = true ↔ b ≠ 0 ∧ keysAbove a t ∧ memWf t = true := by
  induction t generalizing a b with
  | nil => simp [memWf, keysAbove]
  | cons p r ih =>
    obtain ⟨a', b'⟩ := p
    rw [memWf]
    constructor
    · intro h
      have h' : a < a' ∧ b ≠ 0 ∧ memWf ((a', b') :: r) = true := by
        simpa [Bool.and_eq_true, and_assoc] using h
      obtain ⟨h1, h2, h3⟩ := h'
      refine ⟨h2, ?_, h3⟩
      intro c hc
      rcases List.mem_cons.mp hc with rfl | hc
      · exact h1
      · exact Nat.lt_trans h1 ((ih.mp h3).2.1 c hc)
    · rintro ⟨h1, h2, h3⟩
      have : a < a' := h2 (a', b') (List.mem_cons_self ..)
      have hb : (b != 0) = true := bne_iff_ne.mpr h1
      simp only [this, hb, h3, decide_true, Bool.and_self]

theorem keysAbove_cellPut {k a : Nat} {v : Byte} {m : List Host.Cell} (h : keysAbove k m) (hk : k < a) :
    keysAbove k (cellPut m a v) := by
  induction m with
  | nil =>
    intro c hc
    unfold cellPut at hc
    split at hc
    · cases hc
    · rw [List.mem_singleton.mp hc]; exact hk
  | cons p r ih =>
    obtain ⟨i, x⟩ := p
    have hr : keysAbove k r := fun c hc => h c (List.mem_cons_of_mem _ hc)
    have hi : k < i := h (i, x) (List.mem_cons_self ..)
    intro c hc
    unfold cellPut at hc
    split at hc
    · rcases List.mem_cons.mp hc with rfl | hc
      · exact hi
      · exact ih hr c hc
    · split at hc
      · split at hc
        · exact hr c hc
        · rcases List.mem_cons.mp hc with rfl | hc
          · exact hk
          · exact hr c hc
      · split at hc
        · exact h c hc
        · rcases List.mem_cons.mp hc with rfl | hc
          · exact hk
          · exact h c hc

/-- Writing a byte keeps the canonical form. -/
theorem memWf_cellPut {m : List Host.Cell} (h : memWf m = true) (a : Nat) (v : Byte) : memWf (cellPut m a v) = true := by
  induction m with
  | nil =>
    unfold cellPut
    split
    · rfl
    · rename_i hv
      exact bne_iff_ne.mpr hv
  | cons p r ih =>
    obtain ⟨i, x⟩ := p
    obtain ⟨hx, hr, hw⟩ := memWf_cons.mp h
    unfold cellPut
    split
    · rename_i hlt
      exact memWf_cons.mpr ⟨hx, keysAbove_cellPut hr hlt, ih hw⟩
    · split
      · rename_i _ he
        split
        · exact hw
        · rename_i hv
          exact memWf_cons.mpr ⟨hv, he ▸ hr, hw⟩
      · rename_i h1 h2
        split
        · exact h
        · rename_i hv
          refine memWf_cons.mpr ⟨hv, ?_, h⟩
          intro c hc
          rcases List.mem_cons.mp hc with rfl | hc
          · simp only; omega
          · have := hr c hc; omega

theorem cellGet_of_above {m : List Host.Cell} {a : Nat} (h : keysAbove a m) : cellGet m a = 0 := by
  induction m with
  | nil => rfl
  | cons p r ih =>
    obtain ⟨i, x⟩ := p
    have hi : a < i := h (i, x) (List.mem_cons_self ..)
    have : i ≠ a := by omega
    simp [cellGet, this, ih fun c hc => h c (List.mem_cons_of_mem _ hc)]

/-- A byte that was written reads back. -/
theorem cellGet_cellPut_self {m : List Host.Cell} (h : memWf m = true) (a : Nat) (v : Byte) : cellGet (cellPut m a v) a = v := by
  induction m with
  | nil =>
    unfold cellPut
    split
    · rename_i hv
      exact hv.symm
    · simp [cellGet]
  | cons p r ih =>
    obtain ⟨i, x⟩ := p
    obtain ⟨_, hr, hw⟩ := memWf_cons.mp h
    unfold cellPut
    split
    · rename_i hlt
      have : i ≠ a := by omega
      simp [cellGet, this, ih hw]
    · split
      · rename_i _ he
        split
        · rename_i hv
          rw [hv]; exact cellGet_of_above (he ▸ hr)
        · simp [cellGet]
      · rename_i h1 h2
        split
        · rename_i hv
          have : keysAbove a ((i, x) :: r) := by
            intro c hc
            rcases List.mem_cons.mp hc with rfl | hc
            · simp only; omega
            · have := hr c hc; omega
          rw [hv]; exact cellGet_of_above this
        · simp [cellGet]

/-- Every other byte reads as before. -/
theorem cellGet_cellPut_ne {m : List Host.Cell} {a b : Nat} (hab : b ≠ a) (v : Byte) :
    cellGet (cellPut m a v) b = cellGet m b := by
  induction m with
  | nil =>
    unfold cellPut
    split
    · rfl
    · simp [cellGet, hab.symm]
  | cons p r ih =>
    obtain ⟨i, x⟩ := p
    unfold cellPut
    split
    · by_cases e : i = b <;> simp [cellGet, e, ih]
    · split
      · rename_i _ he
        subst he
        split <;> simp [cellGet, hab.symm]
      · split
        · rfl
        · simp [cellGet, hab.symm]

/-! ### Device memory -/

@[simp] theorem physPut_turns (s : State) (pa : Nat) (b : Byte) : (physPut s pa b).turns = s.turns := by unfold physPut; split <;> rfl
@[simp] theorem physPut_cur (s : State) (pa : Nat) (b : Byte) : (physPut s pa b).cur = s.cur := by unfold physPut; split <;> rfl
@[simp] theorem physPut_fresh (s : State) (pa : Nat) (b : Byte) : (physPut s pa b).fresh = s.fresh := by unfold physPut; split <;> rfl
@[simp] theorem physPut_cores (s : State) (pa : Nat) (b : Byte) : (physPut s pa b).cores = s.cores := by unfold physPut; split <;> rfl
@[simp] theorem physPut_sori (s : State) (pa : Nat) (b : Byte) : (physPut s pa b).sori = s.sori := by unfold physPut; split <;> rfl
@[simp] theorem physPut_slices (s : State) (pa : Nat) (b : Byte) : (physPut s pa b).slices = s.slices := by unfold physPut; split <;> rfl
@[simp] theorem physPut_stackTab (s : State) (pa : Nat) (b : Byte) : (physPut s pa b).stackTab = s.stackTab := by
  unfold physPut; split <;> rfl
@[simp] theorem physPut_launch (s : State) (pa : Nat) (b : Byte) : (physPut s pa b).launch = s.launch := by unfold physPut; split <;> rfl
@[simp] theorem physPut_dev (s : State) (pa : Nat) (b : Byte) : (physPut s pa b).dev = s.dev := by unfold physPut; split <;> rfl

/-- Where a device-physical address lies depends on the interleave tables and the mode alone. -/
theorem keyOf_congr {s t : State} (h : s.stackTab = t.stackTab) (d : s.dev.minimal = t.dev.minimal) (pa : Nat) :
    keyOf s pa = keyOf t pa := by
  unfold keyOf hbmOf dramOf moveOf State.stack
  rw [h, d]

@[simp] theorem physPut_keyOf (s : State) (pa a : Nat) (b : Byte) : keyOf (physPut s pa b) a = keyOf s a :=
  keyOf_congr (by simp) (by simp) a

/-- Writing one byte of device memory keeps the canonical form. -/
theorem memWf_physPut {s : State} (h : memWf s.mem = true) (pa : Nat) (b : Byte) : memWf (physPut s pa b).mem = true := by
  unfold physPut
  split
  · exact memWf_cellPut h ..
  · exact h

/-- Writing bytes of device memory keeps the canonical form. -/
theorem memWf_physWrite {s : State} (h : memWf s.mem = true) (pa : Nat) (bs : List Byte) :
    memWf (physWrite s pa bs).mem = true := by
  induction bs generalizing s pa with
  | nil => exact h
  | cons b t ih => exact ih (memWf_physPut h pa b) _

/-- A byte of device memory that was written reads back, where HBM populates it. -/
theorem physByte_physPut_self {s : State} (h : memWf s.mem = true) {pa : Nat} (hp : (keyOf s pa).isSome) (b : Byte) :
    physByte (physPut s pa b) pa = b := by
  unfold physByte
  rw [physPut_keyOf]
  obtain ⟨k, hk⟩ := Option.isSome_iff_exists.mp hp
  unfold physPut
  rw [hk]
  exact cellGet_cellPut_self h k b

/-- A byte that lies elsewhere reads as before. -/
theorem physByte_physPut_ne {s : State} {pa a : Nat} (h : keyOf s a ≠ keyOf s pa) (b : Byte) :
    physByte (physPut s pa b) a = physByte s a := by
  unfold physByte
  rw [physPut_keyOf]
  unfold physPut
  cases hp : keyOf s pa with
  | none => rfl
  | some k =>
    cases ha : keyOf s a with
    | none => rfl
    | some m =>
      have : m ≠ k := by
        intro e; exact h (by rw [hp, ha, e])
      exact cellGet_cellPut_ne this b

/-- Memory at reset lists nothing. -/
theorem reset_memWf : memWf State.reset.mem = true := by decide

end Sys2Proof.Machine
end

