-- ==== Sys2Proof/Laws/Ops.lean ====
section
/-!
SUPPORT. What the shared operations of instructions answer: the monad of a body, reading and writing registers, the frame of an
instruction (R196, R218), and retirement.
-/
namespace Sys2Proof.Machine

/-! ### Bodies -/

theorem run_bind_ok {α β : Type} {x : M α} {f : α → M β} {s t : State} {a : α} (h : x.run s = .ok a t) :
    (x >>= f).run s = (f a).run t := by
  have h' : x s = .ok a t := h
  show EStateM.bind x f s = f a t
  unfold EStateM.bind
  rw [h']

theorem run_bind_error {α β : Type} {x : M α} {f : α → M β} {s t : State} {e : Exc} (h : x.run s = .error e t) :
    (x >>= f).run s = .error e t := by
  have h' : x s = .error e t := h
  show EStateM.bind x f s = .error e t
  unfold EStateM.bind
  rw [h']

@[simp] theorem run_pure {α : Type} (a : α) (s : State) : (pure a : M α).run s = .ok a s := rfl
@[simp] theorem run_get_bind {α : Type} (f : State → M α) (s : State) : (get >>= f).run s = (f s).run s := rfl
@[simp] theorem run_modify (f : State → State) (s : State) : (modify f : M PUnit).run s = .ok ⟨⟩ (f s) := rfl
@[simp] theorem run_set (t s : State) : (set t : M PUnit).run s = .ok ⟨⟩ t := rfl
@[simp] theorem run_modify_bind {α : Type} (f : State → State) (g : PUnit → M α) (s : State) :
    ((modify f : M PUnit) >>= g).run s = (g ⟨⟩).run (f s) := rfl
@[simp] theorem run_set_bind {α : Type} (t : State) (g : PUnit → M α) (s : State) :
    ((set t : M PUnit) >>= g).run s = (g ⟨⟩).run t := rfl
@[simp] theorem run_pure_bind {α β : Type} (a : α) (g : α → M β) (s : State) : ((pure a : M α) >>= g).run s = (g a).run s := rfl
@[simp] theorem run_raise {α : Type} (code : Nat) (a : Word) (s : State) :
    (raise code a : M α).run s = .error (.fault (mkFault code a)) s := rfl
@[simp] theorem run_waitFor {α : Type} (k : WaitKind) (s : State) : (waitFor k : M α).run s = .error (.wait k) s := rfl
@[simp] theorem run_raiseIf_false (code : Nat) (a : Word) (s : State) : (raiseIf false code a).run s = .ok ⟨⟩ s := rfl
@[simp] theorem run_raiseIf_true (code : Nat) (a : Word) (s : State) :
    (raiseIf true code a).run s = .error (.fault (mkFault code a)) s := rfl

/-- Bodies run in sequence. -/
theorem run_bind {α β : Type} (x : M α) (f : α → M β) (s : State) :
    (x >>= f).run s = (match x.run s with
      | .ok a t => (f a).run t
      | .error e t => .error e t) := by
  cases h : x.run s with
  | ok a t => exact run_bind_ok h
  | error e t => exact run_bind_error h

/-! ### Registers -/

theorem run_getG {s : State} {i : Nat} (h : s.ctx.readable i = true) : (getG i).run s = .ok (s.ctx.reg i) s := by
  have h' : (i != 0 && s.ctx.gue.getLsbD i) = false := Bool.not_eq_true' _ |>.mp h
  show ((raiseIf (i != 0 && s.ctx.gue.getLsbD i) 0x37 0) >>= fun _ => pure (s.ctx.reg i)).run s = _
  rw [h']; rfl

theorem run_getG_bad {s : State} {i : Nat} (h : s.ctx.readable i = false) :
    (getG i).run s = .error (.fault (mkFault 0x37 0)) s := by
  have h' : (i != 0 && s.ctx.gue.getLsbD i) = true := by simpa [Ctx.readable] using h
  show ((raiseIf (i != 0 && s.ctx.gue.getLsbD i) 0x37 0) >>= fun _ => pure (s.ctx.reg i)).run s = _
  rw [h']; rfl

theorem run_getP {s : State} {i : Nat} (h : s.ctx.pReadable i = true) : (getP i).run s = .ok (s.ctx.pred i) s := by
  have h' : (i != 0 && s.ctx.pue.getLsbD i) = false := Bool.not_eq_true' _ |>.mp h
  show ((raiseIf (i != 0 && s.ctx.pue.getLsbD i) 0x37 0) >>= fun _ => pure (s.ctx.pred i)).run s = _
  rw [h']; rfl

@[simp] theorem run_setG (i : Nat) (v : Word) (s : State) : (setG i v).run s = .ok ⟨⟩ (s.modCtx fun c => c.setReg i v) := rfl
@[simp] theorem run_setP (i : Nat) (v : Bool) (s : State) : (setP i v).run s = .ok ⟨⟩ (s.modCtx fun c => c.setP i v) := rfl
@[simp] theorem run_addFlags (f : Flags) (s : State) :
    (addFlags f).run s = .ok ⟨⟩ (s.modCtx fun c => { c with fpsr := c.fpsr ||| f.setWidth 64 }) := rfl

theorem tget_put (g : Tab Word) (i j : Nat) (v : Word) :
    tget (if v = 0 then tdel g i else tset g i v) j 0 = if j = i then v else tget g j 0 := by
  by_cases e : j = i
  · subst e
    by_cases hv : v = 0
    · simp only [hv, if_true]; exact tget_tdel_self ..
    · simp only [hv, if_false, if_true]; exact tget_tset_self ..
  · by_cases hv : v = 0
    · simp only [hv, if_true, e, if_false]; exact tget_tdel_ne _ e _
    · simp only [hv, if_false, e]; exact tget_tset_ne _ e _ _

/-- A register that was written reads back; g0 stays zero (R9, R232). -/
theorem setReg_reg (c : Ctx) (i j : Nat) (v : Word) : (c.setReg i v).reg j = if j = i ∧ i ≠ 0 then v else c.reg j := by
  unfold Ctx.setReg Ctx.reg
  by_cases hi : i = 0
  · simp [hi]
  · by_cases hj : j = 0
    · have : ¬(j = i ∧ i ≠ 0) := fun h => hi (h.1 ▸ hj)
      rw [if_neg this, if_neg hi, if_pos hj, if_pos hj]
    · rw [if_neg hi, if_neg hj, if_neg hj]
      show tget (if v = 0 then tdel c.g i else tset c.g i v) j 0 = _
      rw [tget_put]
      simp [hi]

@[simp] theorem setReg_zero (c : Ctx) (v : Word) : c.setReg 0 v = c := rfl
@[simp] theorem setP_zero (c : Ctx) (v : Bool) : c.setP 0 v = c := rfl

/-! ### The frame of an instruction (R196, R218) -/

theorem run_enabled {f : Frame} {s : State} (h : Enabled f s) : (enabled f).run s = .ok true s := by
  unfold enabled
  rcases h with h | ⟨hr, hv⟩
  · rw [h]; rfl
  · by_cases h0 : f.pr = 0
    · rw [h0]; rfl
    · have hb : (f.pr == 0) = false := by simpa using h0
      rw [hb]
      show (getP f.pr.val >>= fun v => pure (v != f.pn)).run s = _
      rw [run_bind_ok (run_getP hr), run_pure]
      have : (s.ctx.pred f.pr.val != f.pn) = true := by simpa using hv
      rw [this]

theorem run_disabled {f : Frame} {s : State} (h : Disabled f s) : (enabled f).run s = .ok false s := by
  obtain ⟨h0, hr, hv⟩ := h
  unfold enabled
  have hb : (f.pr == 0) = false := by simpa using h0
  rw [hb]
  show (getP f.pr.val >>= fun v => pure (v != f.pn)).run s = _
  rw [run_bind_ok (run_getP hr), run_pure, hv]
  simp

theorem runBody_ok {s t : State} {len : Nat} {body : M Fin'} {r : Fin'} (h : body.run s = .ok r t) :
    runBody s len body = finish t len r := by
  unfold runBody; rw [h]

theorem runBody_fault {s t : State} {len : Nat} {body : M Fin'} {f : FaultInfo} (h : body.run s = .error (.fault f) t) :
    runBody s len body = faultNow t t.me t.mycx f := by
  unfold runBody; rw [h]

theorem runBody_wait {s t : State} {len : Nat} {body : M Fin'} {k : WaitKind} (h : body.run s = .error (.wait k) t) :
    runBody s len body = t.modCtx fun c => c.waits k := by
  unfold runBody; rw [h]

/-- An enabled instruction that the mode may run and that is no X instruction runs its body. -/
theorem privInstr_enabled {f : Frame} {priv : State → Bool} {body : M Fin'} {s : State} (hp : priv s = false) (h : Enabled f s) :
    privInstr f priv false body s = .next (runBody s f.len.bytes body) := by
  unfold privInstr
  rw [hp]
  simp only [Bool.false_eq_true, if_false]
  unfold runBody
  rw [run_bind_ok (run_enabled h)]
  rfl

theorem instr_enabled {f : Frame} {body : M Fin'} {s : State} (h : Enabled f s) :
    instr f body s = .next (runBody s f.len.bytes body) := privInstr_enabled rfl h

/-- A disabled instruction that the mode may run only retires (R196). -/
theorem privInstr_disabled {f : Frame} {priv : State → Bool} {x : Bool} {body : M Fin'} {s : State} (hp : priv s = false)
    (h : Disabled f s) : privInstr f priv x body s = .next (finish s f.len.bytes .fall) := by
  unfold privInstr
  rw [hp]
  simp only [Bool.false_eq_true, if_false]
  unfold runBody
  rw [run_bind_ok (run_disabled h)]
  rfl

/-- A mode without the right: PRIV, whatever the predicate (R218). -/
theorem privInstr_priv {f : Frame} {priv : State → Bool} {x : Bool} {body : M Fin'} {s : State} (hp : priv s = true) :
    privInstr f priv x body s = .next (faultNow s s.me s.mycx (mkFault 0x01 0)) := by
  unfold privInstr
  rw [hp]
  rfl

/-! ### Retirement -/

theorem stepStop_of_not {s : State} {core cx : Nat} (h : (s.core core).stepping = false) : stepStop s core cx = s := by
  unfold stepStop; rw [h]; rfl

@[simp] theorem finish_fall {s : State} (h : NoStep s) (len : Nat) :
    finish s len .fall = s.modCtx fun c => c.retire (c.pc + wordOf len) := by
  unfold finish
  simp only
  have e : (fun c : Ctx => c.retire (s.ctx.pc + wordOf len)) s.ctx = (fun c : Ctx => c.retire (c.pc + wordOf len)) s.ctx := rfl
  have : s.modCtx (fun c => c.retire (s.ctx.pc + wordOf len)) = s.modCtx fun c => c.retire (c.pc + wordOf len) := rfl
  rw [this]
  apply stepStop_of_not
  rw [State.modCtx_core]
  simp only [if_true, Core.setCtx_stepping]
  exact h

theorem finish_jump {s : State} (h : NoStep s) (len : Nat) (pc : Word) :
    finish s len (.jump pc) = s.modCtx fun c => c.retire pc := by
  unfold finish
  simp only
  apply stepStop_of_not
  rw [State.modCtx_core]
  simp only [if_true, Core.setCtx_stepping]
  exact h

end Sys2Proof.Machine
end

