-- ==== Sys2Proof/Laws/Scalar.lean ====
section
/-!
SUPPORT. The instructions of class 000: what the frame they share answers, and what writing a register or a predicate leaves unchanged.
-/
namespace Sys2Proof.Machine

/-- An update of the acting context leaves everything else. -/
theorem outsideKept_modCtx (s : State) (f : Ctx → Ctx) : OutsideKept s (s.modCtx f) where
  rest := rfl
  core := by
    intro n
    rw [State.modCtx_core]
    split
    · rename_i h
      subst h
      unfold State.myCore Core.setCtx
      split <;> rfl
    · rfl
  ctx := by
    intro n x h
    rw [State.modCtx_eq, State.modCtxAt_ctxAt]
    rw [if_neg]
    intro ⟨h1, h2⟩
    exact h ⟨h1, by rw [eq_iff_iff] at h2; exact h2.symm⟩
  byte := fun _ => rfl

@[simp] theorem setReg_p (c : Ctx) (i : Nat) (v : Word) : (c.setReg i v).p = c.p := by unfold Ctx.setReg; split <;> rfl
@[simp] theorem setReg_pue (c : Ctx) (i : Nat) (v : Word) : (c.setReg i v).pue = c.pue := by unfold Ctx.setReg; split <;> rfl
@[simp] theorem setReg_fpsr (c : Ctx) (i : Nat) (v : Word) : (c.setReg i v).fpsr = c.fpsr := by unfold Ctx.setReg; split <;> rfl
@[simp] theorem setReg_pc (c : Ctx) (i : Nat) (v : Word) : (c.setReg i v).pc = c.pc := by unfold Ctx.setReg; split <;> rfl
@[simp] theorem setReg_retired (c : Ctx) (i : Nat) (v : Word) : (c.setReg i v).retired = c.retired := by
  unfold Ctx.setReg; split <;> rfl
theorem setReg_gue (c : Ctx) (i : Nat) (v : Word) :
    (c.setReg i v).gue = if i = 0 then c.gue else c.gue &&& ~~~(1#64 <<< i) := by
  unfold Ctx.setReg; split <;> rfl

/-- The REPT step reads and writes REPTST, REPTPC, the hold and the PC alone. -/
theorem stepRept_congr {c d : Ctx} (h1 : c.hold = d.hold) (h2 : c.reptst = d.reptst) (h3 : c.reptpc = d.reptpc) (next : Word) :
    (c.stepRept next).pc = (d.stepRept next).pc ∧ (c.stepRept next).reptst = (d.stepRept next).reptst := by
  unfold Ctx.stepRept Ctx.inBlock
  rw [h1, h2, h3]
  dsimp only
  split
  · exact ⟨rfl, rfl⟩
  · split
    · exact ⟨rfl, rfl⟩
    · split <;> exact ⟨rfl, rfl⟩

/-- What the REPT step leaves alone. -/
theorem stepRept_rest (c : Ctx) (next : Word) :
    { c.stepRept next with pc := c.pc, reptst := c.reptst } = c := by
  unfold Ctx.stepRept
  split
  · rfl
  · dsimp only
    split
    · rfl
    · split <;> rfl


/-- An update of the context that leaves everything but scalar registers, predicates, FPSR and an armed injection. -/
def ScalarOnly (c d : Ctx) : Prop :=
  { d with g := c.g, gue := c.gue, p := c.p, pue := c.pue, fpsr := c.fpsr, injScalar := c.injScalar, gnew := c.gnew, pnew := c.pnew } = c

theorem scalarOnly_fields {c d : Ctx} (h : ScalarOnly c d) :
    d.hold = c.hold ∧ d.reptst = c.reptst ∧ d.reptpc = c.reptpc ∧ d.retired = c.retired ∧ d.pc = c.pc := by
  unfold ScalarOnly at h
  have h1 := congrArg Ctx.hold h
  have h2 := congrArg Ctx.reptst h
  have h3 := congrArg Ctx.reptpc h
  have h4 := congrArg Ctx.retired h
  have h5 := congrArg Ctx.pc h
  exact ⟨h1, h2, h3, h4, h5⟩

theorem stepped_retire {c d : Ctx} (h : ScalarOnly c d) (next : Word) : Stepped next c (d.retire next) := by
  obtain ⟨h1, h2, h3, h4, _⟩ := scalarOnly_fields h
  obtain ⟨hp, hr⟩ := stepRept_congr h1 h2 h3 next
  exact ⟨hp, hr, congrArg (· + 1) h4, rfl⟩

theorem specialsKept_retire {c d : Ctx} (h : ScalarOnly c d) (next : Word) : SpecialsKept c (d.retire next) := by
  have h' := stepRept_rest d next
  unfold SpecialsKept ScalarOnly at *
  have e : { d.retire next with
    g := c.g, gue := c.gue, p := c.p, pue := c.pue, fpsr := c.fpsr, pc := c.pc, reptst := c.reptst, retired := c.retired
    wait := c.wait, fwdGot := c.fwdGot, pageGot := c.pageGot, injScalar := c.injScalar, gnew := c.gnew, pnew := c.pnew } =
    { ({ d.stepRept next with pc := d.pc, reptst := d.reptst } : Ctx) with
    g := c.g, gue := c.gue, p := c.p, pue := c.pue, fpsr := c.fpsr, pc := c.pc, reptst := c.reptst, retired := c.retired
    wait := c.wait, fwdGot := c.fwdGot, pageGot := c.pageGot, injScalar := c.injScalar, gnew := c.gnew, pnew := c.pnew } := rfl
  rw [e, h']
  have e2 : { d with
    g := c.g, gue := c.gue, p := c.p, pue := c.pue, fpsr := c.fpsr, pc := c.pc, reptst := c.reptst, retired := c.retired
    wait := c.wait, fwdGot := c.fwdGot, pageGot := c.pageGot, injScalar := c.injScalar, gnew := c.gnew, pnew := c.pnew } =
    { ({ d with g := c.g, gue := c.gue, p := c.p, pue := c.pue, fpsr := c.fpsr, injScalar := c.injScalar, gnew := c.gnew, pnew := c.pnew } : Ctx) with
      pc := c.pc, reptst := c.reptst, retired := c.retired, wait := c.wait, fwdGot := c.fwdGot, pageGot := c.pageGot } := rfl
  rw [e2, h]

@[simp] theorem retire_reg (c : Ctx) (next : Word) (j : Nat) : (c.retire next).reg j = c.reg j := by
  have h := congrArg Ctx.g (stepRept_rest c next)
  unfold Ctx.reg
  show (if j = 0 then 0 else tget (c.stepRept next).g j 0) = _
  rw [show (c.stepRept next).g = c.g from h]

theorem retire_fields (c : Ctx) (next : Word) :
    (c.retire next).g = c.g ∧ (c.retire next).gue = c.gue ∧ (c.retire next).p = c.p ∧ (c.retire next).pue = c.pue ∧
    (c.retire next).fpsr = c.fpsr := by
  have h := stepRept_rest c next
  have h1 := congrArg Ctx.g h
  have h2 := congrArg Ctx.gue h
  have h3 := congrArg Ctx.p h
  have h4 := congrArg Ctx.pue h
  have h5 := congrArg Ctx.fpsr h
  exact ⟨h1, h2, h3, h4, h5⟩

/-- Writing a register and flags, then retiring, sets that register and nothing else. -/
theorem setsReg_of {f : Frame} {s : State} {d : Nat} {v : Word} {fl : Flags} {G : Ctx → Ctx} {next : Word} (hn : next = afterPc f s)
    (hk : ScalarOnly s.ctx (G s.ctx)) (hr : RegsAre s.ctx (G s.ctx) d v)
    (hg : (G s.ctx).gue = if d = 0 then s.ctx.gue else s.ctx.gue &&& ~~~(1#64 <<< d))
    (hp : (G s.ctx).p = s.ctx.p ∧ (G s.ctx).pue = s.ctx.pue) (hf : (G s.ctx).fpsr = s.ctx.fpsr ||| fl.setWidth 64) :
    SetsReg (afterPc f s) s (s.modCtx fun c => (G c).retire next) d v fl := by
  subst hn
  obtain ⟨_, g2, g3, g4, g5⟩ := retire_fields (G s.ctx) (afterPc f s)
  refine ⟨outsideKept_modCtx .., ?_, ?_, ?_, ?_, ?_, ?_⟩ <;> rw [State.modCtx_ctx]
  · exact stepped_retire hk _
  · exact specialsKept_retire hk _
  · intro j; rw [retire_reg]; exact hr j
  · rw [g2]; exact hg
  · rw [g3, g4]; exact hp
  · rw [g5]; exact hf

theorem scalarOnly_setReg (c : Ctx) (d : Nat) (v : Word) : ScalarOnly c (c.setReg d v) := by
  unfold ScalarOnly Ctx.setReg
  split <;> rfl

theorem regsAre_setReg (c : Ctx) (d : Nat) (v : Word) : RegsAre c (c.setReg d v) d v := fun j => setReg_reg c d j v

/-- The frame of class 000 around a body that completes. -/
theorem scalar_next {f : Frame} {s t : State} {body : M Unit} (he : Enabled f s) (hb : body.run s = .ok ⟨⟩ t)
    (hs : NoStep (t.modCtx fun c => { c with injScalar := none })) :
    scalar f body s = .next ((t.modCtx fun c => { c with injScalar := none }).modCtx fun c => c.retire (c.pc + wordOf f.len.bytes)) := by
  unfold scalar
  rw [instr_enabled he]
  rw [runBody_ok (r := .fall) (t := t.modCtx fun c => { c with injScalar := none })]
  · rw [finish_fall hs]
  · rw [run_bind_ok hb]; rfl

theorem noStep_modCtx {s : State} (h : NoStep s) (f : Ctx → Ctx) : NoStep (s.modCtx f) := by
  unfold NoStep at *
  rw [State.modCtx_myCore, Core.setCtx_stepping]
  exact h

/-- A body of class 000 that updates the acting context by `G`. -/
theorem scalar_ctx {f : Frame} {s : State} {body : M Unit} {G : Ctx → Ctx} (he : Enabled f s) (hs : NoStep s)
    (hb : body.run s = .ok ⟨⟩ (s.modCtx G)) (hpc : (G s.ctx).pc = s.ctx.pc) :
    scalar f body s = .next (s.modCtx fun c => ({ G c with injScalar := none } : Ctx).retire (afterPc f s)) := by
  rw [scalar_next he hb (noStep_modCtx (noStep_modCtx hs _) _), State.modCtx_modCtx, State.modCtx_modCtx]
  unfold State.modCtx
  dsimp only
  rw [hpc]
  rfl

/-- A body that writes one scalar register and gathers flags. -/
theorem scalar_setsReg {f : Frame} {s : State} {body : M Unit} {d : Nat} {v : Word} {fl : Flags} (he : Enabled f s) (hs : NoStep s)
    (hb : body.run s = .ok ⟨⟩ (s.modCtx fun c => ({ c with fpsr := c.fpsr ||| fl.setWidth 64 } : Ctx).setReg d v)) :
    ∃ t, scalar f body s = .next t ∧ SetsReg (afterPc f s) s t d v fl := by
  refine ⟨_, scalar_ctx he hs hb (setReg_pc ..), ?_⟩
  refine setsReg_of (G := fun c =>
    { ({ c with fpsr := c.fpsr ||| fl.setWidth 64 } : Ctx).setReg d v with injScalar := none }) rfl ?_ ?_ ?_ ?_ ?_
  · have := scalarOnly_setReg { s.ctx with fpsr := s.ctx.fpsr ||| fl.setWidth 64 } d v
    unfold ScalarOnly at this ⊢
    have h := congrArg (fun c : Ctx => ({ c with fpsr := s.ctx.fpsr } : Ctx)) this
    exact h
  · exact regsAre_setReg { s.ctx with fpsr := s.ctx.fpsr ||| fl.setWidth 64 } d v
  · exact setReg_gue ..
  · exact ⟨setReg_p .., setReg_pue ..⟩
  · exact setReg_fpsr ..

/-- A body that writes one scalar register. -/
theorem scalar_setG {f : Frame} {s : State} {body : M Unit} {d : Nat} {v : Word} (he : Enabled f s) (hs : NoStep s)
    (hb : body.run s = .ok ⟨⟩ (s.modCtx fun c => c.setReg d v)) : ∃ t, scalar f body s = .next t ∧ SetsReg (afterPc f s) s t d v 0 := by
  apply scalar_setsReg he hs
  rw [hb]
  have : ∀ c : Ctx, ({ c with fpsr := c.fpsr ||| (0 : Flags).setWidth 64 } : Ctx) = c := by
    intro c
    have h : c.fpsr ||| (0 : Flags).setWidth 64 = c.fpsr := by simp
    rw [h]
  simp only [this]

/-! ### Predicates -/

@[simp] theorem setP_g (c : Ctx) (i : Nat) (v : Bool) : (c.setP i v).g = c.g := by unfold Ctx.setP; split <;> rfl
@[simp] theorem setP_gue (c : Ctx) (i : Nat) (v : Bool) : (c.setP i v).gue = c.gue := by unfold Ctx.setP; split <;> rfl
@[simp] theorem setP_fpsr (c : Ctx) (i : Nat) (v : Bool) : (c.setP i v).fpsr = c.fpsr := by unfold Ctx.setP; split <;> rfl
@[simp] theorem setP_pc (c : Ctx) (i : Nat) (v : Bool) : (c.setP i v).pc = c.pc := by unfold Ctx.setP; split <;> rfl
theorem setP_pue (c : Ctx) (i : Nat) (v : Bool) :
    (c.setP i v).pue = if i = 0 then c.pue else c.pue &&& ~~~(1#8 <<< i) := by
  unfold Ctx.setP; split <;> rfl

theorem scalarOnly_setP (c : Ctx) (i : Nat) (v : Bool) : ScalarOnly c (c.setP i v) := by
  unfold ScalarOnly Ctx.setP
  split <;> rfl

/-- A predicate that was written reads back; p0 stays true (R9, R232). -/
theorem setP_pred (c : Ctx) (i j : Nat) (v : Bool) (hj : j < 8) :
    (c.setP i v).pred j = if j = i ∧ i ≠ 0 then v else c.pred j := by
  unfold Ctx.setP Ctx.pred
  by_cases hi : i = 0
  · simp [hi]
  · by_cases hz : j = 0
    · simp [hi, hz]
      exact Or.inl fun h => hi h.symm
    · have hb : (j == 0) = false := by simpa using hz
      rw [if_neg hi, hb]
      simp only [Bool.false_or]
      cases v with
      | true =>
        simp only [if_true, BitVec.getLsbD_or, BitVec.getLsbD_shiftLeft]
        by_cases e : j = i
        · subst e; simp [hj, hi]
        · rw [if_neg (fun h => e h.1)]
          have : (1#8).getLsbD (j - i) = true ↔ j - i = 0 := by simp [BitVec.getLsbD_one]
          by_cases hl : j < i
          · simp [hj, hl]
          · have h2 : ¬(j - i = 0) := by omega
            have h3 : (1#8).getLsbD (j - i) = false := by
              cases hq : (1#8).getLsbD (j - i) with
              | true => exact absurd (this.mp hq) h2
              | false => rfl
            simp [h3]
      | false =>
        simp only [Bool.false_eq_true, if_false, BitVec.getLsbD_and, BitVec.getLsbD_not, BitVec.getLsbD_shiftLeft]
        by_cases e : j = i
        · subst e; simp [hj, hi]
        · rw [if_neg (fun h => e h.1)]
          have : (1#8).getLsbD (j - i) = true ↔ j - i = 0 := by simp [BitVec.getLsbD_one]
          by_cases hl : j < i
          · simp [hj, hl]
          · have h2 : ¬(j - i = 0) := by omega
            have h3 : (1#8).getLsbD (j - i) = false := by
              cases hq : (1#8).getLsbD (j - i) with
              | true => exact absurd (this.mp hq) h2
              | false => rfl
            simp [h3, hj]

/-- A body that writes one predicate and gathers flags. -/
theorem scalar_setsPred {f : Frame} {s : State} {body : M Unit} {d : Nat} {v : Bool} {fl : Flags} (he : Enabled f s) (hs : NoStep s)
    (hb : body.run s = .ok ⟨⟩ (s.modCtx fun c => ({ c with fpsr := c.fpsr ||| fl.setWidth 64 } : Ctx).setP d v)) :
    ∃ t, scalar f body s = .next t ∧ SetsPred (afterPc f s) s t d v fl := by
  refine ⟨_, scalar_ctx he hs hb (setP_pc ..), ?_⟩
  have hk : ScalarOnly s.ctx { ({ s.ctx with fpsr := s.ctx.fpsr ||| fl.setWidth 64 } : Ctx).setP d v with injScalar := none } := by
    have := scalarOnly_setP { s.ctx with fpsr := s.ctx.fpsr ||| fl.setWidth 64 } d v
    unfold ScalarOnly at this ⊢
    have h := congrArg (fun c : Ctx => ({ c with fpsr := s.ctx.fpsr } : Ctx)) this
    exact h
  obtain ⟨g1, g2, g3, g4, g5⟩ := retire_fields
    { ({ s.ctx with fpsr := s.ctx.fpsr ||| fl.setWidth 64 } : Ctx).setP d v with injScalar := none } (afterPc f s)
  refine ⟨outsideKept_modCtx .., ?_, ?_, ?_, ?_, ?_, ?_⟩ <;> rw [State.modCtx_ctx]
  · exact stepped_retire hk _
  · exact specialsKept_retire hk _
  · rw [g1, g2]; exact ⟨setP_g .., setP_gue ..⟩
  · rw [g4]; exact setP_pue ..
  · intro j hj
    unfold Ctx.pred
    rw [g3]
    exact setP_pred { s.ctx with fpsr := s.ctx.fpsr ||| fl.setWidth 64 } d j v hj
  · rw [g5]; exact setP_fpsr ..

/-- A body that writes one predicate. -/
theorem scalar_setP {f : Frame} {s : State} {body : M Unit} {d : Nat} {v : Bool} (he : Enabled f s) (hs : NoStep s)
    (hb : body.run s = .ok ⟨⟩ (s.modCtx fun c => c.setP d v)) : ∃ t, scalar f body s = .next t ∧ SetsPred (afterPc f s) s t d v 0 := by
  apply scalar_setsPred he hs
  rw [hb]
  have : ∀ c : Ctx, ({ c with fpsr := c.fpsr ||| (0 : Flags).setWidth 64 } : Ctx) = c := by
    intro c
    have h : c.fpsr ||| (0 : Flags).setWidth 64 = c.fpsr := by simp
    rw [h]
  simp only [this]

/-- Rounding into a register. -/
theorem run_putFloat (t : Ty) (rnd : Rnd) (r d : Nat) (x : Val × Flags) (s : State) :
    (putFloat t rnd r d x).run s = .ok ⟨⟩ (s.modCtx fun c =>
      ({ c with fpsr := c.fpsr ||| (((tySpec t).encode rnd r false x.1).2 ||| x.2).setWidth 64 } : Ctx).setReg d
        (wordOf ((tySpec t).encode rnd r false x.1).1)) := by
  unfold putFloat
  show (_ : M Unit).run s = _
  simp only [run_bind, run_addFlags, run_setG, State.modCtx_modCtx]

end Sys2Proof.Machine
end

