-- ==== Sys2Proof/Laws/Home.lean ====
section
/-!
SUPPORT. Reads and writes at home: a read changes the slice's tags alone; a write of a line that no registrant and no waiter watches
changes the slices, memory and poison alone, and puts its bytes where they belong.
-/
namespace Sys2Proof.Machine

/-! ### Slices -/

/-- Only the slices differ, and no slice's list of waiters does. -/
def SlicesOnly (s t : State) : Prop := (∃ x, t = { s with slices := x }) ∧ ∀ n, (t.slice n).waits = (s.slice n).waits

theorem SlicesOnly.refl (s : State) : SlicesOnly s s := ⟨⟨s.slices, rfl⟩, fun _ => rfl⟩

theorem SlicesOnly.trans {s t u : State} (h : SlicesOnly s t) (k : SlicesOnly t u) : SlicesOnly s u := by
  obtain ⟨⟨x, rfl⟩, h2⟩ := h
  obtain ⟨⟨y, rfl⟩, k2⟩ := k
  exact ⟨⟨y, rfl⟩, fun n => (k2 n).trans (h2 n)⟩

theorem slicesOnly_modSlice (s : State) (n : Nat) (f : Slice → Slice) (h : ∀ k, (f k).waits = k.waits) :
    SlicesOnly s (s.modSlice n f) := by
  refine ⟨⟨_, rfl⟩, fun m => ?_⟩
  rw [State.modSlice_slice]
  split
  · rename_i e; rw [h, e]
  · rfl

theorem slicesOnly_foldl {α : Type} (l : List α) (f : State → α → State) (h : ∀ s a, SlicesOnly s (f s a)) (s : State) :
    SlicesOnly s (l.foldl f s) := by
  induction l generalizing s with
  | nil => exact .refl s
  | cons a t ih => exact (h s a).trans (ih _)

theorem slicesOnly_dropReplicas (s : State) (line : Nat) : SlicesOnly s (dropReplicas s line) := by
  unfold dropReplicas
  dsimp only
  split
  · refine SlicesOnly.trans (slicesOnly_foldl _ _ ?_ s) (slicesOnly_modSlice _ _ _ fun _ => rfl)
    intro s n
    split
    · exact slicesOnly_modSlice _ _ _ fun _ => rfl
    · exact .refl s
  · exact .refl s

/-- A line that finds a free way of its set evicts nothing. -/
theorem slicesOnly_l2Alloc {s : State} {slice : Nat} {t : L2Tag} (h : (l2Ways (s.slice slice) t.line).length < 16) :
    SlicesOnly s (l2Alloc s slice t) := by
  unfold l2Alloc
  dsimp only
  rw [if_pos h]
  exact slicesOnly_modSlice _ _ _ fun _ => rfl

theorem slicesOnly_makeEntry {s t : State} {line : Nat} (hr : SideRoom s line) (h : makeEntry s line = some t) : SlicesOnly s t := by
  unfold makeEntry at h
  dsimp only at h
  split at h
  · cases h; exact .refl s
  · rename_i hn
    rw [if_pos (hr.resolve_left hn)] at h
    cases h; exact slicesOnly_modSlice _ _ _ fun _ => rfl

/-- The tags of a slice name the same lines, replicas and homes alike. -/
def TagsKept (n : Nat) (s t : State) : Prop :=
  ((t.slice n).tags.map fun x => (x.line, x.rcopy)) = (s.slice n).tags.map fun x => (x.line, x.rcopy)

theorem TagsKept.trans {n : Nat} {s t u : State} (h : TagsKept n s t) (k : TagsKept n t u) : TagsKept n s u := Eq.trans k h

theorem tagsKept_modSlice (s : State) (n m : Nat) (f : Slice → Slice)
    (h : ((f (s.slice m)).tags.map fun x => (x.line, x.rcopy)) = (s.slice m).tags.map fun x => (x.line, x.rcopy)) :
    TagsKept n s (s.modSlice m f) := by
  unfold TagsKept
  rw [State.modSlice_slice]
  split
  · rename_i e; rw [h, e]
  · rfl

theorem any_congr_map {α β : Type} {f : α → β} {l m : List α} {p : α → Bool} {q : β → Bool} (hq : ∀ x, p x = q (f x))
    (h : m.map f = l.map f) : m.any p = l.any p := by
  have e : ∀ l : List α, l.any p = (l.map f).any q := by
    intro l
    rw [List.any_map]
    congr 1
    funext x
    exact hq x
  rw [e, e, h]

theorem filter_length_congr_map {α β : Type} {f : α → β} {l m : List α} {p : α → Bool} {q : β → Bool} (hq : ∀ x, p x = q (f x))
    (h : m.map f = l.map f) : (m.filter p).length = (l.filter p).length := by
  have e : ∀ l : List α, (l.filter p).length = ((l.map f).filter q).length := by
    intro l
    rw [List.filter_map, List.length_map]
    congr 2
    funext x
    exact hq x
  rw [e, e, h]

theorem homeRoom_congr {s t : State} {line : Nat} (e : TagsKept (homeOf line) s t) (h : HomeRoom s line) : HomeRoom t line := by
  unfold HomeRoom at *
  rw [any_congr_map (q := fun x => x.1 == line && !x.2) (fun _ => rfl) e]
  unfold l2Ways at *
  rw [filter_length_congr_map (q := fun x => l2Set x.1 == l2Set line) (fun _ => rfl) e]
  exact h

theorem not_mem_otherDie (h : Nat) : ∀ n ∈ otherDie h, n ≠ h := by
  intro n hn
  unfold otherDie at hn
  rw [List.mem_map] at hn
  obtain ⟨i, hi, rfl⟩ := hn
  have : i < 64 := by simpa [upTo] using hi
  split <;> omega

theorem tagsKept_dropReplicas (s : State) (line : Nat) : TagsKept (homeOf line) s (dropReplicas s line) := by
  unfold dropReplicas
  dsimp only
  split
  · have hf : ∀ (l : List Nat) (s : State), (∀ n ∈ l, n ≠ homeOf line) →
        TagsKept (homeOf line) s (l.foldl (fun s n =>
          if (s.slice n).tags.any fun t => t.line == line && t.rcopy then
            s.modSlice n fun k => { k with tags := k.tags.filter fun t => !(t.line == line && t.rcopy) }
          else s) s) := by
      intro l
      induction l with
      | nil => intro s _; exact rfl
      | cons n t ih =>
        intro s hn
        refine TagsKept.trans ?_ (ih _ fun m hm => hn m (by simp [hm]))
        dsimp only
        split
        · unfold TagsKept
          rw [State.modSlice_slice, if_neg (fun e => hn n (by simp) e.symm)]
        · exact rfl
    refine (hf _ s (not_mem_otherDie _)).trans (tagsKept_modSlice _ _ _ _ ?_)
    rw [List.map_map]
    apply List.map_congr_left
    intro x _
    dsimp only [Function.comp]
    split <;> rfl
  · exact rfl

/-- The entry that a line has afterwards: the one it had, or a fresh one without slots. -/
theorem makeEntry_slots {s t : State} {line : Nat} (hr : SideRoom s line) (h : makeEntry s line = some t)
    (hs : ∀ e ∈ (s.slice (homeOf line)).side, e.line = line → e.slots = []) :
    ∀ e ∈ (t.slice (homeOf line)).side, e.line = line → e.slots = [] := by
  unfold makeEntry at h
  dsimp only at h
  split at h
  · cases h; exact hs
  · rename_i hn
    rw [if_pos (hr.resolve_left hn)] at h
    cases h
    intro e he
    rw [State.modSlice_slice_self] at he
    simp only [List.mem_append, List.mem_singleton] at he
    rcases he with he | rfl
    · exact hs e he
    · intro _; rfl

theorem tagsKept_makeEntry {n : Nat} {s t : State} {line : Nat} (hr : SideRoom s line) (h : makeEntry s line = some t) :
    TagsKept n s t := by
  unfold makeEntry at h
  dsimp only at h
  split at h
  · cases h; exact rfl
  · rename_i hn
    rw [if_pos (hr.resolve_left hn)] at h
    cases h
    exact tagsKept_modSlice _ _ _ _ rfl

/-- A write at home by anything but a commit, of a line that no registrant watches: positions alone move. -/
theorem outsideWrite_quiet {s : State} {line : Nat} (hr : SideRoom s line)
    (hs : ∀ e ∈ (s.slice (homeOf line)).side, e.line = line → e.slots = []) :
    SlicesOnly s (outsideWrite s line) ∧ TagsKept (homeOf line) s (outsideWrite s line) := by
  unfold outsideWrite
  dsimp only
  split
  · exact ⟨slicesOnly_modSlice _ _ _ fun _ => rfl, tagsKept_modSlice _ _ _ _ rfl⟩
  · rename_i t ht
    have hk := makeEntry_slots hr ht hs
    have done : ∀ p : Word, SlicesOnly s (modEntry t line fun e => { e with wts := p, rts := p, slots := [] }) ∧
        TagsKept (homeOf line) s (modEntry t line fun e => { e with wts := p, rts := p, slots := [] }) := fun p =>
      ⟨(slicesOnly_makeEntry hr ht).trans (slicesOnly_modSlice _ _ _ fun _ => rfl),
        (tagsKept_makeEntry hr ht).trans (tagsKept_modSlice _ _ _ _ rfl)⟩
    cases hf : (t.slice (homeOf line)).side.find? fun e => e.line == line with
    | none => exact done _
    | some e =>
      have : e.slots = [] := hk e (List.mem_of_find?_eq_some hf) (by simpa using List.find?_some hf)
      dsimp only
      rw [this]
      exact done _

/-- A read at home: the bytes as they stand, and the slice's tags. -/
theorem homeRead_fst (s : State) (pa n : Nat) : (homeRead s pa n).1 = physRead s pa n := rfl

/-- Soundness is the stacks' own. -/
theorem sound_of_slicesOnly {s t : State} (h : SlicesOnly s t) (pa : Nat) :
    poisonedAt t pa = poisonedAt s pa ∧ flippedAt t pa = flippedAt s pa := by
  obtain ⟨⟨x, rfl⟩, _⟩ := h
  exact ⟨rfl, rfl⟩

/-- A controller that reads a granule without poison and without a flip notes nothing. -/
theorem readGranuleAt_sound {s : State} {pa : Nat} (hp : poisonedAt s pa = false) (hf : flippedAt s pa = false) :
    readGranuleAt s pa = s := by
  unfold poisonedAt at hp
  unfold flippedAt at hf
  unfold readGranuleAt
  cases hg : granuleOf s pa with
  | none => rfl
  | some p =>
    rw [hg] at hp hf
    dsimp only at hp hf ⊢
    unfold readGranule
    dsimp only
    rw [hp, hf]
    rfl

/-- A request that makes a bank busy changes that and nothing else. -/
theorem useBankOf_quiet (s : State) (line : Nat) : SlicesOnly s (useBankOf s line) ∧ TagsKept (homeOf line) s (useBankOf s line) := by
  unfold useBankOf useBank
  split
  · exact ⟨slicesOnly_modSlice _ _ _ fun _ => rfl, tagsKept_modSlice _ _ _ _ rfl⟩
  · exact ⟨.refl s, rfl⟩

/-- A controller that reads a line without poison and without a flip makes a bank busy. -/
theorem readLine_sound {s : State} {line : Nat} (hp : ∀ i, i < 64 → poisonedAt s (line + i) = false)
    (hf : ∀ i, i < 64 → flippedAt s (line + i) = false) : readLine s line = useBankOf s line := by
  have hq := (useBankOf_quiet s line).1
  have one : ∀ i, i < 64 → readGranuleAt (useBankOf s line) (line + i) = useBankOf s line := fun i hi =>
    readGranuleAt_sound ((sound_of_slicesOnly hq _).1.trans (hp i hi)) ((sound_of_slicesOnly hq _).2.trans (hf i hi))
  show readGranuleAt (readGranuleAt (useBankOf s line) (line + 32 * 0)) (line + 32 * 1) = _
  rw [one (32 * 0) (by omega), one (32 * 1) (by omega)]

/-- A slice that has room fetches a sound line: the slice's tags and banks alone. -/
theorem slicesOnly_fetchHome {s : State} {line : Nat} (hr : HomeRoom s line) (hp : ∀ i, i < 64 → poisonedAt s (line + i) = false)
    (hf : ∀ i, i < 64 → flippedAt s (line + i) = false) : SlicesOnly s (fetchHome s line) := by
  unfold fetchHome
  split
  · exact .refl s
  · rename_i hn
    obtain ⟨hq, hk⟩ := useBankOf_quiet s line
    rw [readLine_sound hp hf]
    refine hq.trans (slicesOnly_l2Alloc ((homeRoom_congr hk hr).resolve_left fun h => hn ?_))
    rw [← h]
    exact (any_congr_map (q := fun x => x.1 == line && !x.2) (fun _ => rfl) hk).symm

theorem slicesOnly_homeRead {s : State} {pa : Nat} (n : Nat) (hr : HomeRoom s (lineOf pa))
    (hp : ∀ i, i < 64 → poisonedAt s (lineOf pa + i) = false) (hf : ∀ i, i < 64 → flippedAt s (lineOf pa + i) = false) :
    SlicesOnly s (homeRead s pa n).2 := slicesOnly_fetchHome hr hp hf

/-- A read that a replica of the core's own slice may serve: the same bytes, and the tags alone (R55). -/
theorem slicesOnly_fillRead {s : State} (core : Nat) {pa : Nat} (n : Nat) (hr : HomeRoom s (lineOf pa))
    (hp : ∀ i, i < 64 → poisonedAt s (lineOf pa + i) = false) (hf : ∀ i, i < 64 → flippedAt s (lineOf pa + i) = false) :
    (fillRead s core pa n).1 = physRead s pa n ∧ SlicesOnly s (fillRead s core pa n).2 := by
  unfold fillRead
  dsimp only
  split
  · exact ⟨rfl, .refl s⟩
  · exact ⟨rfl, slicesOnly_homeRead n hr hp hf⟩

/-- The home slice notes a write of a sound line, for which it has room: its tags and banks alone. -/
theorem slicesOnly_noteWrite {s : State} {line : Nat} {wr : List (Nat × Byte)} (hr : HomeRoom s line) (hw : ∀ p ∈ wr, lineOf p.1 = line)
    (hs : homeHolds s line = true ∨ ∀ i, i < 64 → poisonedAt s (line + i) = false ∧ flippedAt s (line + i) = false) :
    SlicesOnly s (noteWrite s line wr) := by
  unfold noteWrite
  split
  · exact slicesOnly_modSlice _ _ _ fun _ => rfl
  · rename_i hn
    split
    · exact slicesOnly_l2Alloc (hr.resolve_left hn)
    · have hq := (useBankOf_quiet s line).1
      have hs := hs.resolve_left hn
      have hg : ∀ g ∈ granulesOf wr, ∃ i, i < 64 ∧ 32 * g = line + i := by
        intro g hg
        obtain ⟨p, hp, rfl⟩ := List.mem_map.mp (List.mem_eraseDups.mp hg)
        have := hw p hp
        unfold lineOf at this
        exact ⟨32 * (p.1 / 32) - line, by omega, by omega⟩
      revert hg
      generalize granulesOf wr = gs
      suffices ∀ u, SlicesOnly s u → (∀ g ∈ gs, ∃ i, i < 64 ∧ 32 * g = line + i) →
          SlicesOnly s (gs.foldl (fun s g => if coversGranule wr g then s else readGranuleAt s (32 * g)) u) from this _ hq
      induction gs with
      | nil => intro u hu _; exact hu
      | cons g r ih =>
        intro u hu hg
        obtain ⟨i, hi, e⟩ := hg g (by simp)
        refine ih _ ?_ fun g' h' => hg g' (by simp [h'])
        dsimp only
        split
        · exact hu
        · rw [e, readGranuleAt_sound ((sound_of_slicesOnly hu _).1.trans (hs i hi).1) ((sound_of_slicesOnly hu _).2.trans (hs i hi).2)]
          exact hu

/-! ### Poison -/

/-- Only the poison and the flips of stacks differ. -/
def PoisonOnly (s t : State) : Prop := (∃ x, t = { s with stackTab := x }) ∧ StacksKept s t

theorem PoisonOnly.refl (s : State) : PoisonOnly s s := ⟨⟨s.stackTab, rfl⟩, fun _ => rfl⟩

theorem PoisonOnly.trans {s t u : State} (h : PoisonOnly s t) (k : PoisonOnly t u) : PoisonOnly s u := by
  obtain ⟨⟨x, rfl⟩, h2⟩ := h
  obtain ⟨⟨y, rfl⟩, k2⟩ := k
  refine ⟨⟨y, rfl⟩, fun n => ?_⟩
  have a := k2 n
  have b := h2 n
  rw [← b]
  rw [← a]

theorem poisonOnly_setPoison (s : State) (pa : Nat) (on : Bool) : PoisonOnly s (setPoison s pa on) := by
  unfold setPoison
  split
  · rename_i st g _
    refine ⟨⟨_, rfl⟩, fun n => ?_⟩
    rw [State.modStack_stack]
    split
    · rename_i e; subst e; rfl
    · rfl
  · exact .refl s

theorem poisonOnly_clearPoison (s : State) (pa : Nat) : PoisonOnly s (clearPoison s pa) := by
  unfold clearPoison
  split
  · rename_i st g _
    refine ⟨⟨_, rfl⟩, fun n => ?_⟩
    rw [State.modStack_stack]
    split
    · rename_i e; subst e; rfl
    · rfl
  · exact .refl s

theorem keyOf_of_stacksKept {s t : State} (h : StacksKept s t) (d : t.dev.minimal = s.dev.minimal) (pa : Nat) :
    keyOf t pa = keyOf s pa := by
  have e : ∀ st off, dramOf t st off = dramOf s st off := by
    intro st off
    unfold dramOf moveOf
    have h1 := congrArg Stack.moves (h st)
    have h2 := congrArg Stack.it (h st)
    dsimp only at h1 h2
    rw [h1, h2]
  unfold keyOf hbmOf
  rw [d]
  simp only [e]

theorem keyOf_of_poisonOnly {s t : State} (h : PoisonOnly s t) (pa : Nat) : keyOf t pa = keyOf s pa := by
  obtain ⟨⟨x, rfl⟩, hs⟩ := h
  exact keyOf_of_stacksKept hs rfl pa

theorem physByte_of_poisonOnly {s t : State} (h : PoisonOnly s t) (pa : Nat) : physByte t pa = physByte s pa := by
  unfold physByte
  rw [keyOf_of_poisonOnly h]
  obtain ⟨⟨x, rfl⟩, _⟩ := h
  rfl

theorem physByte_of_slicesOnly {s t : State} (h : SlicesOnly s t) (pa : Nat) : physByte t pa = physByte s pa := by
  obtain ⟨⟨x, rfl⟩, _⟩ := h
  rfl

theorem keyOf_of_slicesOnly {s t : State} (h : SlicesOnly s t) (pa : Nat) : keyOf t pa = keyOf s pa := by
  obtain ⟨⟨x, rfl⟩, _⟩ := h
  rfl

/-! ### Bytes -/

/-- Bytes at addresses, put one after another. -/
def putAll (s : State) (wr : List (Nat × Byte)) : State := wr.foldl (fun s p => physPut s p.1 p.2) s

/-- Only memory differs. -/
def MemOnly (s t : State) : Prop := ∃ x, t = { s with mem := x }

theorem memOnly_physPut (s : State) (pa : Nat) (b : Byte) : MemOnly s (physPut s pa b) := by
  unfold physPut
  split
  · exact ⟨_, rfl⟩
  · exact ⟨s.mem, rfl⟩

theorem memOnly_putAll (s : State) (wr : List (Nat × Byte)) : MemOnly s (putAll s wr) := by
  induction wr generalizing s with
  | nil => exact ⟨s.mem, rfl⟩
  | cons p t ih =>
    obtain ⟨x, hx⟩ := memOnly_physPut s p.1 p.2
    obtain ⟨y, hy⟩ := ih (physPut s p.1 p.2)
    refine ⟨y, ?_⟩
    show putAll (physPut s p.1 p.2) t = _
    rw [hy, hx]

theorem keyOf_putAll (s : State) (wr : List (Nat × Byte)) (a : Nat) : keyOf (putAll s wr) a = keyOf s a := by
  obtain ⟨x, hx⟩ := memOnly_putAll s wr
  rw [hx]; rfl

theorem memWf_putAll {s : State} (h : memWf s.mem = true) (wr : List (Nat × Byte)) : memWf (putAll s wr).mem = true := by
  induction wr generalizing s with
  | nil => exact h
  | cons p t ih => exact ih (memWf_physPut h p.1 p.2)

theorem physByte_putAll_other (s : State) (wr : List (Nat × Byte)) (a : Nat) (h : ∀ p ∈ wr, keyOf s a ≠ keyOf s p.1) :
    physByte (putAll s wr) a = physByte s a := by
  induction wr generalizing s with
  | nil => rfl
  | cons p t ih =>
    show physByte (putAll (physPut s p.1 p.2) t) a = _
    rw [ih]
    · exact physByte_physPut_ne (h p (by simp)) _
    · intro q hq
      rw [physPut_keyOf, physPut_keyOf]
      exact h q (by simp [hq])

/-- Bytes at consecutive addresses that lie in different places read back. -/
theorem physByte_putAll_pairs {s : State} (hm : memWf s.mem = true) (pa : Nat) (bs : List Byte)
    (hp : ∀ i, i < bs.length → (keyOf s (pa + i)).isSome)
    (hd : ∀ i j, i < bs.length → j < bs.length → i ≠ j → keyOf s (pa + i) ≠ keyOf s (pa + j)) :
    ∀ i, i < bs.length → physByte (putAll s (pairsFrom pa bs)) (pa + i) = bs.getD i 0 := by
  induction bs generalizing s pa with
  | nil => intro i h; simp at h
  | cons b t ih =>
    intro i hi
    show physByte (putAll (physPut s pa b) (pairsFrom (pa + 1) t)) (pa + i) = _
    cases i with
    | zero =>
      rw [physByte_putAll_other]
      · exact physByte_physPut_self hm (hp 0 (by simp)) b
      · intro p hq
        rw [physPut_keyOf, physPut_keyOf]
        have : ∃ j, j < t.length ∧ p.1 = pa + 1 + j := by
          clear ih hp hd hi hm
          generalize pa + 1 = q at hq ⊢
          induction t generalizing q with
          | nil => simp [pairsFrom] at hq
          | cons c u ih =>
            simp only [pairsFrom, List.mem_cons] at hq
            rcases hq with rfl | hq
            · exact ⟨0, by simp, rfl⟩
            · obtain ⟨j, hj, e⟩ := ih (q + 1) hq
              exact ⟨j + 1, by simp; omega, by rw [e]; omega⟩
        obtain ⟨j, hj, e⟩ := this
        rw [e]
        have := hd 0 (j + 1) (by simp) (by simp; omega) (by omega)
        rw [show pa + 1 + j = pa + (j + 1) by omega]
        exact this
    | succ i =>
      have := ih (s := physPut s pa b) (memWf_physPut hm pa b) (pa + 1)
        (fun j hj => by rw [physPut_keyOf, show pa + 1 + j = pa + (j + 1) by omega]; exact hp (j + 1) (by simp; omega))
        (fun j k hj hk hne => by
          rw [physPut_keyOf, physPut_keyOf, show pa + 1 + j = pa + (j + 1) by omega, show pa + 1 + k = pa + (k + 1) by omega]
          exact hd (j + 1) (k + 1) (by simp; omega) (by simp; omega) (by omega))
        i (by simp at hi; omega)
      rw [show pa + (i + 1) = pa + 1 + i by omega, this]
      rfl

theorem mem_pairsFrom {pa : Nat} {bs : List Byte} {p : Nat × Byte} (h : p ∈ pairsFrom pa bs) :
    ∃ j, j < bs.length ∧ p.1 = pa + j := by
  induction bs generalizing pa with
  | nil => simp [pairsFrom] at h
  | cons c u ih =>
    simp only [pairsFrom, List.mem_cons] at h
    rcases h with rfl | h
    · exact ⟨0, by simp, rfl⟩
    · obtain ⟨j, hj, e⟩ := ih h
      exact ⟨j + 1, by simp; omega, by rw [e]; omega⟩

theorem length_pairsFrom (pa : Nat) (bs : List Byte) : (pairsFrom pa bs).length = bs.length := by
  induction bs generalizing pa with
  | nil => rfl
  | cons b t ih => simp [pairsFrom, ih]

/-- Different bytes of one line lie in different places. -/
theorem keyOf_line {s : State} {a b : Nat} (h : lineOf a = lineOf b) (hk : (keyOf s a).isSome) (e : keyOf s a = keyOf s b) : a = b := by
  unfold lineOf at h
  have hk' := hk
  rw [e] at hk'
  unfold keyOf hbmOf at hk hk' e
  dsimp only at hk hk' e
  have q1 : a / 2 ^ 36 = b / 2 ^ 36 := by omega
  have q2 : a % 2 ^ 36 / 65536 = b % 2 ^ 36 / 65536 := by omega
  have q3 : a % 2 ^ 36 % 65536 / 64 = b % 2 ^ 36 % 65536 / 64 := by omega
  split at hk
  · split at hk'
    · rename_i c1 c2
      rw [if_pos c1, if_pos c2] at e
      simp only [Option.map_some, Option.some.injEq] at e
      unfold dramOf at e
      dsimp only at e
      rw [q1, q2, q3] at e
      omega
    · simp at hk'
  · simp at hk

/-- Putting bytes: memory alone differs, beyond poison. -/
theorem putBytes_eq (s : State) (wr : List (Nat × Byte)) :
    PoisonOnly (putAll s wr) (putBytes s wr) := by
  unfold putBytes
  dsimp only
  show PoisonOnly (putAll s wr) (List.foldl _ (putAll s wr) _)
  generalize putAll s wr = t
  generalize granulesOf wr = gs
  induction gs generalizing t with
  | nil => exact .refl t
  | cons g r ih =>
    rw [List.foldl_cons]
    refine PoisonOnly.trans ?_ (ih _)
    split
    · split
      · exact poisonOnly_clearPoison ..
      · exact poisonOnly_setPoison ..
    · exact .refl t

/-- Fewer than 32 consecutive bytes cover no granule: poison stays. -/
theorem putBytes_few (s : State) (pa : Nat) (bs : List Byte) (h : bs.length < 32) :
    putBytes s (pairsFrom pa bs) = putAll s (pairsFrom pa bs) := by
  unfold putBytes
  dsimp only
  show List.foldl _ (putAll s (pairsFrom pa bs)) _ = putAll s (pairsFrom pa bs)
  have hc : ∀ g, coversGranule (pairsFrom pa bs) g = false := by
    intro g
    unfold coversGranule
    cases hall : ((upTo 32).all fun i => (pairsFrom pa bs).any fun p => p.1 == 32 * g + i) with
    | false => rfl
    | true =>
      exfalso
      rw [List.all_eq_true] at hall
      have get : ∀ i, i < 32 → ∃ j, j < bs.length ∧ 32 * g + i = pa + j := by
        intro i hi
        have := hall i (by simpa [upTo] using hi)
        rw [List.any_eq_true] at this
        obtain ⟨p, hp, e⟩ := this
        obtain ⟨j, hj, e'⟩ := mem_pairsFrom hp
        exact ⟨j, hj, by rw [← e']; exact (by simpa using e : p.1 = 32 * g + i).symm⟩
      obtain ⟨j, hj, e1⟩ := get 0 (by omega)
      obtain ⟨k, hk, e2⟩ := get 31 (by omega)
      omega
  generalize putAll s (pairsFrom pa bs) = t
  generalize granulesOf (pairsFrom pa bs) = gs
  induction gs generalizing t with
  | nil => rfl
  | cons g r ih =>
    rw [List.foldl_cons, if_neg (by rw [hc g]; decide)]
    exact ih t

/-! ### Writes -/

theorem wakeLine_none {s : State} {line : Nat} (h : ∀ e ∈ (s.slice (homeOf line)).waits, e.line ≠ line) : wakeLine s line = s := by
  unfold wakeLine
  dsimp only
  have : ((s.slice (homeOf line)).waits.partition fun e => e.line == line).1 = [] := by
    rw [List.partition_eq_filter_filter]
    simp only [List.filter_eq_nil_iff]
    intro e he
    simpa using h e he
  rw [this]
  rfl

/-- A write at home of a line that nothing watches: the slices differ, then bytes are put. -/
theorem homeWrite_quiet {s : State} {line : Nat} {wr : List (Nat × Byte)} (h : Unwatched s line) (hne : wr ≠ [])
    (hw : ∀ p ∈ wr, lineOf p.1 = line) :
    ∃ t, SlicesOnly s t ∧ homeWrite s line wr = putBytes t wr := by
  have hb : wr.isEmpty = false := by cases wr with
    | nil => exact absurd rfl hne
    | cons _ _ => rfl
  obtain ⟨h1, k1⟩ := outsideWrite_quiet h.side h.slots
  have h2 := slicesOnly_dropReplicas (outsideWrite s line) line
  have hk := k1.trans (tagsKept_dropReplicas _ line)
  have h3 := slicesOnly_noteWrite (wr := wr) (homeRoom_congr hk h.room) hw (by
    rcases h.sound with h | h
    · left
      rw [← h]
      exact any_congr_map (q := fun x => x.1 == line && !x.2) (fun _ => rfl) hk
    · right
      intro i hi
      have := sound_of_slicesOnly (h1.trans h2) (line + i)
      exact ⟨this.1.trans (h i hi).1, this.2.trans (h i hi).2⟩)
  have h4 := (h1.trans h2).trans h3
  refine ⟨noteWrite (dropReplicas (outsideWrite s line) line) line wr, h4, ?_⟩
  unfold homeWrite homeCommit
  rw [hb]
  simp only [Bool.false_eq_true, if_false]
  apply wakeLine_none
  intro e he
  apply h.waits e
  have hs : (putBytes (noteWrite (dropReplicas (outsideWrite s line) line) line wr) wr).slices =
      (noteWrite (dropReplicas (outsideWrite s line) line) line wr).slices := by
    obtain ⟨⟨x, hx⟩, _⟩ := putBytes_eq (noteWrite (dropReplicas (outsideWrite s line) line) line wr) wr
    rw [hx]
    obtain ⟨y, hy⟩ := memOnly_putAll (noteWrite (dropReplicas (outsideWrite s line) line) line wr) wr
    rw [hy]
  have hs' : ∀ n, (putBytes (noteWrite (dropReplicas (outsideWrite s line) line) line wr) wr).slice n =
      (noteWrite (dropReplicas (outsideWrite s line) line) line wr).slice n := by
    intro n
    unfold State.slice
    rw [hs]
  rw [hs', h4.2] at he
  exact he

theorem byLine_one {line : Nat} {wr : List (Nat × Byte)} (h : ∀ p ∈ wr, lineOf p.1 = line) (hne : wr ≠ []) :
    byLine wr = [(line, wr)] := by
  induction wr with
  | nil => exact absurd rfl hne
  | cons p t ih =>
    cases t with
    | nil =>
      show [(lineOf p.1, [p])] = _
      rw [h p (by simp)]
    | cons q u =>
      have e := ih (fun r hr => h r (by simp [hr])) (by simp)
      unfold byLine
      rw [e]
      simp only
      rw [if_pos (h p (by simp)).symm]

/-- A store at home inside one line that nothing watches. -/
theorem homeStore_quiet {s : State} {pa : Nat} {bs : List Byte} (h : Unwatched s (lineOf pa)) (hb : 0 < bs.length)
    (hl : pa % 64 + bs.length ≤ 64) :
    ∃ t, SlicesOnly s t ∧ homeStore s pa bs = putBytes t (pairsFrom pa bs) := by
  have hne : pairsFrom pa bs ≠ [] := by
    intro e
    have := length_pairsFrom pa bs
    rw [e] at this
    simp at this
    omega
  have hw : ∀ p ∈ pairsFrom pa bs, lineOf p.1 = lineOf pa := by
    intro p hp
    obtain ⟨j, hj, e⟩ := mem_pairsFrom hp
    rw [e]
    unfold lineOf
    omega
  unfold homeStore
  rw [byLine_one hw hne]
  exact homeWrite_quiet h hne hw

/-- What a store at home leaves in memory. -/
theorem stores_putBytes {s t : State} {pa : Nat} {bs : List Byte} (hs : SlicesOnly s t) (hm : memWf s.mem = true)
    (hl : pa % 64 + bs.length ≤ 64) (hp : ∀ i, i < bs.length → (keyOf s (pa + i)).isSome) :
    Stores s (putBytes t (pairsFrom pa bs)) pa bs := by
  obtain ⟨⟨x, rfl⟩, _⟩ := hs
  have hq := putBytes_eq { s with slices := x } (pairsFrom pa bs)
  refine ⟨fun i hi => ?_, fun a ha => ?_⟩
  · rw [physByte_of_poisonOnly hq]
    refine physByte_putAll_pairs (s := { s with slices := x }) hm pa bs hp ?_ i hi
    intro i j hi hj hne e
    have := keyOf_line (s := s) (by unfold lineOf; omega) (hp i hi) e
    omega
  · rw [physByte_of_poisonOnly hq]
    rw [physByte_putAll_other]
    · rfl
    · intro p hp'
      obtain ⟨j, hj, e⟩ := mem_pairsFrom hp'
      rw [e]
      exact ha j hj

end Sys2Proof.Machine
end

