-- ==== Sys2Proof/Laws/Access.lean ====
section
/-!
SUPPORT. Accesses of the acting context under a mapped page: lookup, loads and stores that are served at home, hits in the L1, and the
frame they leave.
-/
namespace Sys2Proof.Machine

/-! ### Frames -/

theorem Kept.refl {m : State → State} {k : Core → Core} (s : State) : Kept m k s s := ⟨rfl, rfl, fun _ _ => rfl, rfl, rfl⟩

theorem mycx_lt (s : State) : s.mycx < 2 := s.cur.cx.isLt

/-- An update of the acting context keeps every frame. -/
theorem Kept.modCtx {m : State → State} {k : Core → Core} {s t : State} (h : Kept m k s t) (f : Ctx → Ctx) :
    Kept m k s (t.modCtx f) := by
  have hme : t.me = s.me := by unfold State.me; rw [h.cur]
  have hcx : t.mycx = s.mycx := by unfold State.mycx; rw [h.cur]
  refine ⟨?_, h.cur, fun n hn => ?_, ?_, ?_⟩
  · rw [← h.rest]; rfl
  · rw [State.modCtx_core, if_neg (by rw [hme]; exact hn)]
    exact h.others n hn
  · rw [← h.mine, State.modCtx_myCore]
    congr 1
    unfold Core.setCtx Core.bare
    split <;> rfl
  · rw [← h.other, State.modCtx_eq, State.modCtxAt_ctxAt, if_neg]
    intro ⟨_, h2⟩
    rw [hcx] at h2
    have := mycx_lt s
    rw [eq_iff_iff] at h2
    omega

theorem BytesKept.refl (s : State) : BytesKept s s := fun _ => rfl
theorem BytesKept.modCtx {s t : State} (h : BytesKept s t) (f : Ctx → Ctx) : BytesKept s (t.modCtx f) := h
theorem BytesKept.trans {s t u : State} (h : BytesKept s t) (k : BytesKept t u) : BytesKept s u := fun a => (k a).trans (h a)

theorem Stores.modCtx {s t : State} {pa : Nat} {bs : List Byte} (h : Stores s t pa bs) (f : Ctx → Ctx) : Stores s (t.modCtx f) pa bs :=
  ⟨h.stored, h.others⟩

/-- What an access leaves: the frame, and the acting context. -/
structure Left (m : State → State) (k : Core → Core) (s t : State) : Prop where
  kept : Kept m k s t
  ctx : t.ctx = s.ctx

theorem Left.refl {m : State → State} {k : Core → Core} (s : State) : Left m k s s := ⟨.refl s, rfl⟩

theorem Kept.trans {m : State → State} {k : Core → Core} {s t u : State} (h : Kept m k s t) (j : Kept m k t u) : Kept m k s u := by
  have hme : t.me = s.me := by unfold State.me; rw [h.cur]
  have hcx : t.mycx = s.mycx := by unfold State.mycx; rw [h.cur]
  refine ⟨j.rest.trans h.rest, j.cur.trans h.cur, fun n hn => ?_, j.mine.trans h.mine, ?_⟩
  · rw [j.others n (by rw [hme]; exact hn), h.others n hn]
  · have := j.other
    rw [hme, hcx] at this
    rw [this, h.other]

theorem Left.trans {m : State → State} {k : Core → Core} {s t u : State} (h : Left m k s t) (j : Left m k t u) : Left m k s u :=
  ⟨h.kept.trans j.kept, j.ctx.trans h.ctx⟩

theorem Left.me {m : State → State} {k : Core → Core} {s t : State} (h : Left m k s t) : t.me = s.me := by
  unfold State.me; rw [h.kept.cur]

theorem Left.stepping {m : State → State} {k : Core → Core} {s t : State} (h : Left m k s t)
    (hk : ∀ c d : Core, k c = k d → c.stepping = d.stepping) (hs : NoStep s) : NoStep t := by
  have := hk _ _ h.kept.mine
  unfold NoStep at *
  exact this.trans hs

theorem left_slicesOnly {s t : State} (h : SlicesOnly s t) : Left noSlices noL1 s t := by
  obtain ⟨⟨x, rfl⟩, _⟩ := h
  exact ⟨⟨rfl, rfl, fun _ _ => rfl, rfl, rfl⟩, rfl⟩

/-- The end of an instruction that wrote one register after an access. -/
theorem done_finish {m : State → State} {k : Core → Core} {f : Frame} {s t : State} (h : Left m k s t) (g : Ctx → Ctx)
    (hpc : (g s.ctx).pc = s.ctx.pc) :
    Done m k f s ((t.modCtx g).modCtx fun c => c.retire (c.pc + wordOf f.len.bytes)) (g s.ctx) := by
  refine ⟨?_, (h.kept.modCtx g).modCtx _⟩
  rw [State.modCtx_ctx, State.modCtx_ctx, h.ctx, hpc]
  rfl

/-! ### Lookup -/

theorem isControl_of_key {s : State} {pa : Nat} (h : (keyOf s pa).isSome) : isControl pa = false := by
  unfold keyOf hbmOf at h
  dsimp only at h
  split at h
  · rename_i hc
    unfold isControl
    have : pa < 2 ^ 39 := by simp at hc; omega
    have : ¬(0xF000000000000 ≤ pa) := by omega
    simp [this]
  · simp at h

theorem hbm_of_key {s : State} {pa : Nat} (h : (keyOf s pa).isSome) : (hbmOf s pa).isNone = false := by
  unfold keyOf at h
  cases hh : hbmOf s pa with
  | none => rw [hh] at h; simp at h
  | some _ => rfl

theorem Mapped.own {s : State} {va n : Nat} {acc : Access} {a : Attr} (h : Mapped s va n acc a) (i : Nat) (hi : i < n) :
    (keyOf s (a.pa + i)).isSome := by
  have h1 := h.there (a.pa % 64 + i) (by have := h.line; have := h.offset; omega)
  have : lineOf a.pa + (a.pa % 64 + i) = a.pa + i := by unfold lineOf; omega
  rwa [this] at h1

theorem Mapped.notControl {s : State} {va n : Nat} {acc : Access} {a : Attr} (h : Mapped s va n acc a) : isControl a.pa = false :=
  isControl_of_key (by have := h.own 0 h.size; rwa [Nat.add_zero] at this)

/-- A mapped access translates, and nothing changes. -/
theorem translate_mapped {s : State} {va n : Nat} {acc : Access} {a : Attr} (h : Mapped s va n acc a) (fresh : Bool) :
    translate s (sorusOf s.me) s.ctx.xlat va acc fresh = (.ok a, s) := by
  obtain ⟨e, h1, h2, h3⟩ := h.page
  have hz : mapsHole s a = false := by
    unfold mapsHole
    rw [h.notControl, h.owner]
    have := hbm_of_key (by have := h.own 0 h.size; rwa [Nat.add_zero] at this)
    simp only [Bool.false_eq_true, if_false, this, Bool.and_false]
  unfold translate
  change (match (s.sorus (sorusOf s.me)).tlb.find? (fun e =>
      (e.asid == s.ctx.asid || bitOf e.leaf 10) && va / 2 ^ e.size == e.va / 2 ^ e.size) with
    | some e => _
    | none => _) = _
  rw [h1]
  dsimp only
  rw [← h2, hz, show leafAllows e.leaf acc s.ctx.xlat.mode = true from h3]
  rfl

theorem portHeld_none {s : State} (h : NoHold s) (core : Nat) : portHeld s core = false := by
  unfold portHeld holdsOf
  rw [h.1, h.2]
  split <;> rfl

theorem flitHeld_none {s : State} (h : NoHold s) (core pa : Nat) : flitHeld s core pa = false := by
  unfold flitHeld bridgeHeld
  rw [portHeld_none h, h.1, h.2]
  simp

/-- A flit that no relock holds. -/
theorem run_portTurn {s : State} (h : NoHold s) : portTurn.run s = .ok ⟨⟩ s := by
  unfold portTurn
  rw [run_get_bind, portHeld_none h]
  rfl

theorem run_sliceTurn {s : State} (h : NoHold s) (pa : Nat) : (sliceTurn pa).run s = .ok ⟨⟩ s := by
  unfold sliceTurn
  rw [run_get_bind, flitHeld_none h]
  rfl

theorem run_xlatM {s : State} {va n : Nat} {acc : Access} {a : Attr} (h : Mapped s va n acc a) (hs : Settled s) (faddr : Word) :
    (xlatM va acc faddr).run s = .ok (a, true) s := by
  have hp : pageAnswer s.ctx va = none := by unfold pageAnswer; rw [hs.pages]; rfl
  have ht : (xlatTurn acc).run s = .ok ⟨⟩ s := by
    unfold xlatTurn
    split
    · rfl
    · exact run_portTurn hs.relock
  have hf : (failedPage none faddr).run s = .ok ⟨⟩ s := rfl
  unfold xlatM
  rw [run_get_bind]
  dsimp only
  rw [hp, translate_mapped h]
  rw [run_bind_ok ht, run_bind_ok hf]
  rfl

/-- A mapped access that misses the L1. -/
theorem run_lookupM {s : State} {va n : Nat} {acc : Access} {a : Attr} (h : Mapped s va n acc a)
    (hs : Settled s) (hm : l1Find s s.me s.ctx.asid va = none) (k : Nat) (faddr : Word) : (lookupM va k acc faddr).run s = .ok (a, true) s := by
  unfold lookupM
  rw [h.canonical]
  simp only [Bool.not_true]
  rw [run_bind_ok (run_raiseIf_false ..), run_get_bind]
  rw [hm]
  dsimp only
  rw [run_bind_ok (run_xlatM h hs faddr)]
  dsimp only
  rw [h.notControl]
  simp only [Bool.and_false, Bool.false_and]
  rfl

theorem partsOf_line {va n : Nat} (h : va % 64 + n ≤ 64) : partsOf va n = [(va, n)] := by
  unfold partsOf
  dsimp only
  rw [if_pos (by omega)]

theorem run_checkAccess {s : State} {va n : Nat} {acc : Access} {a : Attr} (h : Mapped s va n acc a) (hs : Settled s)
    (hm : l1Find s s.me s.ctx.asid va = none) : (checkAccess va n acc).run s = .ok [⟨va, n, a⟩] s := by
  unfold checkAccess
  rw [partsOf_line h.line]
  dsimp only
  rw [run_bind_ok (run_lookupM h hs hm n _)]
  rfl

theorem run_checkOne {s : State} {ea : Word} {n : Nat} {acc : Access} {a : Attr} (h : Mapped s ea.toNat n acc a) (hs : Settled s)
    (hm : l1Find s s.me s.ctx.asid ea.toNat = none) : (checkOne ea n acc).run s = .ok a s := by
  unfold checkOne
  rw [run_bind_ok (run_lookupM h hs hm n _)]
  rfl

theorem piecesOf_line {va n : Nat} {a : Attr} (h : va % 64 + n ≤ 64) (hn : 0 < n) : piecesOf va n a = [⟨va, n, a⟩] := by
  unfold piecesOf
  have : (va % 64 + n + 63) / 64 = 1 := by omega
  rw [this]
  show [(_ : Part)] = _
  dsimp only
  congr 1
  have e : min (va + n) (va - va % 64 + 64 * (0 + 1)) - va = n := by omega
  simp only [if_true]
  rw [e]
  simp

theorem allPieces_line {va n : Nat} {a : Attr} (h : va % 64 + n ≤ 64) (hn : 0 < n) : allPieces [⟨va, n, a⟩] = [⟨va, n, a⟩] := by
  unfold allPieces
  simp [piecesOf_line h hn]

/-! ### Poison and what is on its way -/

theorem firstPoison_none {s : State} {pa n : Nat} (h : ∀ i, i < n → poisonedAt s (pa + i) = false) : firstPoison s pa n = none := by
  induction n generalizing pa with
  | zero => rfl
  | succ n ih =>
    unfold firstPoison
    have h0 := h 0 (by omega)
    rw [Nat.add_zero] at h0
    rw [h0]
    simp only [Bool.false_eq_true, if_false]
    apply ih
    intro i hi
    have := h (i + 1) (by omega)
    rwa [show pa + 1 + i = pa + (i + 1) by omega]

theorem AtHome.cleanAt {s : State} {va n : Nat} {acc : Access} {a : Attr} (h : AtHome s va a) (m : Mapped s va n acc a) (i : Nat)
    (hi : i < n) : poisonedAt s (a.pa + i) = false := by
  have h1 := h.clean (a.pa % 64 + i) (by have := m.line; have := m.offset; omega)
  have : lineOf a.pa + (a.pa % 64 + i) = a.pa + i := by unfold lineOf; omega
  rwa [this] at h1

theorem run_checkPoison {s : State} {va n : Nat} {acc : Access} {a : Attr} (h : AtHome s va a) (m : Mapped s va n acc a)
    (hs : Settled s) : (checkPoison va a n).run s = .ok ⟨⟩ s := by
  unfold checkPoison
  rw [run_bind_ok (run_sliceTurn hs.relock _), run_get_bind]
  have : poisonIn s a.pa n = none := by
    unfold poisonIn
    rw [hs.wc]
    exact firstPoison_none (h.cleanAt m)
  rw [this]
  rfl

theorem drainLine_none {s : State} {core line : Nat} (h : (s.core core).nonRet = []) : drainLine s core line = s := by
  unfold drainLine
  rw [h]
  rfl

theorem emptyWc_none {s : State} {core : Nat} (h : (s.core core).wc = []) : emptyWc s core = s := by
  unfold emptyWc
  rw [h]
  rfl

theorem sendWcFor_none {s : State} {core pa : Nat} (h : (s.core core).wc = []) : sendWcFor s core pa = s := by
  unfold sendWcFor
  rw [h]
  rfl

theorem wcOver_none {s : State} {core pa : Nat} {o : Option Nat} {bs : List Byte} (h : (s.core core).wc = []) :
    wcOver s core pa o bs = bs := by
  unfold wcOver
  rw [h]
  rfl

/-- An SO access whose turn has come, with nothing before it. -/
theorem run_soTurn {s : State} {a : Attr} (hs : Settled s) : (soTurn a).run s = .ok ⟨⟩ s := by
  unfold soTurn
  rw [run_get_bind]
  split
  · rfl
  · have hb : soBusy s s.me = false := by
      unfold soBusy soBehind
      rw [hs.ordered, show (s.core s.me).soParts = [] from hs.parts, show (s.core s.me).nonRet = [] from hs.ops,
        show (s.core s.me).engine.any (fun o => o.soLeft s s.me) = false from hs.copies]
      rfl
    rw [hb]
    simp only [Bool.false_eq_true, if_false]
    rw [run_set, hs.stores]
    simp only [List.any_nil, Bool.false_eq_true, if_false]
    rw [emptyWc_none hs.wc]

/-! ### Loads at home -/

theorem myCore_slicesOnly {s t : State} (h : SlicesOnly s t) : t.myCore = s.myCore ∧ t.me = s.me ∧ t.ctx = s.ctx ∧ t.mycx = s.mycx := by
  obtain ⟨⟨x, rfl⟩, _⟩ := h
  exact ⟨rfl, rfl, rfl, rfl⟩

theorem sampleMiss_off {s : State} {core va kind : Nat} {line : Option Nat} {home : Bool} (h : bitOf (s.core core).sbase 0 = false) :
    sampleMiss s core va kind line home = s := by
  unfold sampleMiss takeSample
  dsimp only
  rw [h]
  rfl

/-- A core that takes no samples. -/
theorem run_sampleM {s : State} {kind va : Nat} {line : Option Nat} (hs : Settled s) : (sampleM kind va line).run s = .ok ⟨⟩ s := by
  have := sampleMiss_off (core := s.me) (va := va) (kind := kind) (line := line) (home := s.ctx.regionOpen) hs.sample
  unfold sampleM
  rw [run_modify, this]

/-- A piece read at home. -/
theorem run_homeReadM {s : State} {kind va n : Nat} {acc : Access} {a : Attr} (h : AtHome s va a) (m : Mapped s va n acc a)
    (hs : Settled s) : ∃ t, SlicesOnly s t ∧ (homeReadM kind va a n).run s = .ok (physRead s a.pa n) t := by
  have hk := slicesOnly_homeRead n h.room h.clean h.sound
  refine ⟨(homeRead s a.pa n).2, hk, ?_⟩
  unfold homeReadM
  rw [run_bind_ok (run_checkPoison h m hs), run_bind_ok (run_soTurn hs), run_bind_ok (run_sampleM hs), run_get_bind]
  dsimp only
  rw [drainLine_none (show (s.core s.me).nonRet = [] from hs.ops), run_set_bind, run_pure]
  congr 1
  apply wcOver_none
  obtain ⟨h1, h2, _⟩ := myCore_slicesOnly hk
  show (homeRead s a.pa n).2.myCore.wc = []
  rw [h1]
  exact hs.wc

theorem physRead_length (s : State) (pa n : Nat) : (physRead s pa n).length = n := by
  induction n generalizing pa with
  | zero => rfl
  | succ n ih => simp [physRead, ih]

theorem physRead_take (s : State) (pa n m : Nat) (h : n ≤ m) : (physRead s pa m).take n = physRead s pa n := by
  induction n generalizing pa m with
  | zero => simp [physRead]
  | succ n ih =>
    obtain ⟨j, rfl⟩ : ∃ j, m = j + 1 := ⟨m - 1, by omega⟩
    simp only [physRead, List.take_succ_cons]
    rw [ih (pa + 1) j (by omega)]

theorem physRead_drop_take (s : State) (pa k n m : Nat) (h : k + n ≤ m) :
    ((physRead s pa m).drop k).take n = physRead s (pa + k) n := by
  induction k generalizing pa m with
  | zero => exact physRead_take s pa n m (by omega)
  | succ k ih =>
    obtain ⟨j, rfl⟩ : ∃ j, m = j + 1 := ⟨m - 1, by omega⟩
    simp only [physRead, List.drop_succ_cons]
    rw [ih (pa + 1) j (by omega), show pa + 1 + k = pa + (k + 1) by omega]

/-! ### Fills -/

theorem makeRoom_none {s : State} {core cx : Nat} {r : Bool} {va : Nat}
    (h : ((s.core core).l1.filter fun l => l1Set l.va == l1Set va).length < 10) : makeRoom s core cx r va = (false, s) := by
  unfold makeRoom
  dsimp only
  rw [if_pos h]

theorem physRead_congr {s t : State} (h : ∀ a, physByte t a = physByte s a) (pa n : Nat) : physRead t pa n = physRead s pa n := by
  induction n generalizing pa with
  | zero => rfl
  | succ n ih =>
    unfold physRead
    rw [h, ih]

theorem poisonedAt_slicesOnly {s t : State} (h : SlicesOnly s t) (pa : Nat) : poisonedAt t pa = poisonedAt s pa := by
  obtain ⟨⟨x, rfl⟩, _⟩ := h
  rfl

/-- The line that a fill of an absent line brings. -/
def filledLine (s : State) (asid va : Nat) (a : Attr) : L1Line :=
  ⟨lineOf va, asid, lineOf a.pa, a.kind == 1, a.w, a.r, a.u, a.size, a.glob, BitVec.allOnes 64, 0, 0, none, physRead s (lineOf a.pa) 64⟩

/-- A core with a line at the head of its L1. -/
def addLine (l : L1Line) (k : Core) : Core := { k with l1 := l :: k.l1 }

/-- A fill of a line that is nowhere but at home: the slices, then the line. -/
theorem fillLine_home {s : State} {va : Nat} {a : Attr} (h : AtHome s va a) (hs : Settled s) (kind : Nat) :
    ∃ t, SlicesOnly s t ∧ fillLine s s.me s.ctx.asid va a kind false =
      t.modCore s.me (addLine (filledLine s s.ctx.asid va a)) := by
  have e1 := sampleMiss_off (va := va) (kind := kind) (line := some (lineOf a.pa)) (home := false) hs.sample
  have e2 : beforeFill s s.me s.ctx.asid va (lineOf a.pa) = s := by
    unfold beforeFill
    rw [h.alone]
    rfl
  have e3 : drainLine s s.me (lineOf a.pa) = s := drainLine_none hs.ops
  have hll : lineOf (lineOf a.pa) = lineOf a.pa := by unfold lineOf; omega
  obtain ⟨hb, ⟨x, hx⟩, hw⟩ := slicesOnly_fillRead s.me (pa := lineOf a.pa) 64 (by rw [hll]; exact h.room) (by rw [hll]; exact h.clean)
    (by rw [hll]; exact h.sound)
  refine ⟨(fillRead s s.me (lineOf a.pa) 64).2, ⟨⟨x, hx⟩, hw⟩, ?_⟩
  have ec : (fillRead s s.me (lineOf a.pa) 64).2.core s.me = s.core s.me := by rw [hx]; rfl
  have em : fillMask (fillRead s s.me (lineOf a.pa) 64).2 (lineOf a.pa) = BitVec.allOnes 64 := by
    have c0 := h.clean 0 (by omega)
    have c1 := h.clean 32 (by omega)
    rw [Nat.add_zero] at c0
    unfold fillMask
    rw [poisonedAt_slicesOnly ⟨⟨x, hx⟩, hw⟩, poisonedAt_slicesOnly ⟨⟨x, hx⟩, hw⟩, c0, c1]
    decide
  have hf : l1Find (fillRead s s.me (lineOf a.pa) 64).2 s.me s.ctx.asid va = none := by
    rw [← h.miss]
    unfold l1Find
    rw [ec]
  have hn : ((fillRead s s.me (lineOf a.pa) 64).2.core s.me).l1.any (fun x => x.tagged s.ctx.asid (lineOf va)) = false := by
    unfold l1Find at hf
    rw [List.find?_eq_none] at hf
    rw [List.any_eq_false]
    intro l hl
    have := hf l hl
    unfold L1Line.tagged at this ⊢
    rwa [show lineOf (lineOf va) = lineOf va by unfold lineOf; omega]
  unfold fillLine
  dsimp only
  rw [e1, e2, e3]
  simp only [Bool.false_eq_true, if_false]
  rw [em, hf, hb]
  dsimp only
  unfold l1Put State.modCore
  dsimp only
  rw [hn]
  rfl

/-- A line that a core holds at the head of its cache is found. -/
theorem filledLine_tagged (s : State) (asid va : Nat) (a : Attr) : (filledLine s asid va a).tagged asid va = true := by
  unfold L1Line.tagged filledLine
  simp

theorem byteOn_allOnes {i : Nat} (h : i < 64) : byteOn (BitVec.allOnes 64) i = true := by
  unfold byteOn
  rw [BitVec.getLsbD_allOnes]
  simpa using h

theorem left_modMine {s t : State} (h : SlicesOnly s t) (f : Core → Core)
    (hf : ∀ k, noL1 (f k) = noL1 k) : Left noSlices noL1 s (t.modCore s.me f) := by
  have hf' : ∀ k, (f k).c0 = k.c0 ∧ (f k).c1 = k.c1 := by
    intro k
    have h0 := congrArg Core.c0 (hf k)
    have h1 := congrArg Core.c1 (hf k)
    exact ⟨h0, h1⟩
  obtain ⟨⟨x, rfl⟩, _⟩ := h
  have hc : ∀ x', ({ s with slices := x } : State).modCore s.me f |>.ctxAt s.me x' |> (· = s.ctxAt s.me x') := by
    intro x'
    unfold State.ctxAt
    rw [State.modCore_core_self]
    unfold Core.ctx
    show (if x' = 0 then (f (s.core s.me)).c0 else (f (s.core s.me)).c1) = _
    rw [(hf' _).1, (hf' _).2]
  refine ⟨⟨rfl, rfl, fun n hn => ?_, ?_, hc _⟩, hc _⟩
  · rw [State.modCore_core, if_neg hn]
    rfl
  · unfold State.myCore
    rw [show (({ s with slices := x } : State).modCore s.me f).me = s.me from rfl, State.modCore_core_self]
    have := hf (s.core s.me)
    unfold noL1 Core.bare at *
    have := congrArg (fun k : Core => { k with c0 := Ctx.reset, c1 := Ctx.reset }) this
    exact this

/-- A read outside a region bounds nothing. -/
theorem sawLine_closed {s : State} {core cx line : Nat} (h : (s.ctxAt core cx).regionOpen = false) : sawLine s core cx line = s := by
  unfold sawLine
  rw [h]
  rfl

/-- A piece read through the L1 where the line is nowhere but at home. -/
theorem run_cachedRead {s : State} {kind va n : Nat} {acc : Access} {a : Attr} (h : AtHome s va a) (m : Mapped s va n acc a) (hs : Settled s) :
    ∃ t, SlicesOnly s t ∧
      (cachedRead kind va a n >>= fun bs => if bs.isEmpty then filledRead va n else pure bs).run s = .ok (physRead s a.pa n)
        (t.modCore s.me (addLine (filledLine s s.ctx.asid va a))) := by
  obtain ⟨t, ht, e⟩ := fillLine_home h hs kind
  refine ⟨t, ht, ?_⟩
  have e1 : (cachedRead kind va a n).run s = .ok []
      (t.modCore s.me (addLine (filledLine s s.ctx.asid va a))) := by
    unfold cachedRead
    rw [run_get_bind]
    dsimp only
    rw [h.miss]
    dsimp only
    rw [run_bind_ok (run_sliceTurn hs.relock _), makeRoom_none h.ways]
    dsimp only
    rw [run_set_bind]
    simp only [Bool.false_eq_true, if_false]
    have hc := (left_modMine ht (addLine (filledLine s s.ctx.asid va a)) (fun _ => rfl)).ctx
    rw [run_set_bind, run_pure, hs.region, e, sawLine_closed]
    have hm : (t.modCore s.me (addLine (filledLine s s.ctx.asid va a))).me = s.me ∧
        (t.modCore s.me (addLine (filledLine s s.ctx.asid va a))).mycx = s.mycx := by
      obtain ⟨⟨x, rfl⟩, _⟩ := ht
      exact ⟨rfl, rfl⟩
    have hr : ∀ u : State, u.me = s.me → u.mycx = s.mycx → u.ctx.regionOpen = false → (u.ctxAt s.me s.mycx).regionOpen = false := by
      intro u h1 h2 h3
      rw [← h1, ← h2]
      exact h3
    exact hr _ hm.1 hm.2 (by rw [hc]; exact hs.region)
  rw [run_bind_ok e1]
  simp only [List.isEmpty_nil, if_true]
  unfold filledRead
  rw [run_get_bind]
  have hl : l1Find (t.modCore s.me (addLine (filledLine s s.ctx.asid va a)))
      (t.modCore s.me (addLine (filledLine s s.ctx.asid va a))).me
      (t.modCore s.me (addLine (filledLine s s.ctx.asid va a))).ctx.asid va =
      some (filledLine s s.ctx.asid va a) := by
    have hk := (left_modMine ht (addLine (filledLine s s.ctx.asid va a)) (fun _ => rfl)).ctx
    rw [hk]
    have hme : (t.modCore s.me (addLine (filledLine s s.ctx.asid va a))).me = s.me := by
      obtain ⟨⟨x, rfl⟩, _⟩ := ht; rfl
    rw [hme]
    unfold l1Find
    rw [State.modCore_core_self]
    exact List.find?_cons_of_pos (filledLine_tagged ..)
  rw [hl]
  dsimp only
  have hp : ((upTo n).find? fun i => !(byteOn (filledLine s s.ctx.asid va a).pres (va % 64 + i))) = none := by
    rw [List.find?_eq_none]
    intro i hi
    have hin : i < n := by simpa [upTo] using hi
    have hq := m.line
    have hpres : (filledLine s s.ctx.asid va a).pres = BitVec.allOnes 64 := rfl
    rw [hpres, byteOn_allOnes (by omega)]
    decide
  rw [hp]
  dsimp only
  rw [run_pure]
  have hd : (filledLine s s.ctx.asid va a).data = physRead s (lineOf a.pa) 64 := rfl
  have ho : lineOf a.pa + va % 64 = a.pa := by have := m.offset; unfold lineOf; omega
  rw [hd, physRead_drop_take _ _ _ _ _ m.line, ho]

/-! ### Loads -/

/-- What a load leaves: the slices' own state and, where the page is cached, the line that it brought. -/
theorem run_loadM {s : State} {va n : Nat} {a : Attr} (h : AtHome s va a) (m : Mapped s va n .read a) (hs : Settled s) :
    ∃ t, Left noSlices noL1 s t ∧ BytesKept s t ∧ (loadM va n).run s = .ok (physRead s a.pa n) t := by
  unfold loadM
  rw [run_bind_ok (run_checkAccess m hs h.miss)]
  suffices hl : ∃ t, Left noSlices noL1 s t ∧ BytesKept s t ∧ (loadParts [⟨va, n, a⟩]).run s = .ok (physRead s a.pa n) t by
    obtain ⟨t, h1, h2, h3⟩ := hl
    refine ⟨t, h1, h2, ?_⟩
    rw [run_bind_ok h3, run_get_bind]
    have hb : t.myCore.sbuf = s.myCore.sbuf := by
      have := congrArg Core.sbuf h1.kept.mine
      exact this
    dsimp only
    rw [hb, hs.stores]
    rfl
  unfold loadParts
  have e1 : (each (fun p => regionPage p.a) [(⟨va, n, a⟩ : Part)]).run s = .ok ⟨⟩ s := by
    unfold each
    have : (regionPage a).run s = .ok ⟨⟩ s := by
      unfold regionPage
      rw [run_get_bind, hs.region]
      rfl
    rw [run_bind_ok this]
    rfl
  rw [run_bind_ok e1, show byAddress Part.va [(⟨va, n, a⟩ : Part)] = [⟨va, n, a⟩] from rfl, allPieces_line m.line m.size]
  have e2 : (each checkHomePoison [(⟨va, n, a⟩ : Part)]).run s = .ok ⟨⟩ s := by
    unfold each
    have : (checkHomePoison ⟨va, n, a⟩).run s = .ok ⟨⟩ s := by
      unfold checkHomePoison
      dsimp only
      split
      · exact run_checkPoison h m hs
      · rfl
    rw [run_bind_ok this]
    rfl
  rw [run_bind_ok e2]
  show ∃ t, Left noSlices noL1 s t ∧ BytesKept s t ∧ (gather (readPiece 0) (allPieces [⟨va, n, a⟩])).run s = .ok (physRead s a.pa n) t
  rw [allPieces_line m.line m.size]
  have hg : ∀ (bs : List Byte) (t : State), (readPiece 0 ⟨va, n, a⟩).run s = .ok bs t →
      (gather (readPiece 0) [(⟨va, n, a⟩ : Part)]).run s = .ok bs t := by
    intro bs t hr
    unfold gather
    rw [run_bind_ok hr]
    unfold gather
    rw [run_pure_bind, run_pure, List.append_nil]
  suffices hh : ∃ t, Left noSlices noL1 s t ∧ BytesKept s t ∧ (readPiece 0 ⟨va, n, a⟩).run s = .ok (physRead s a.pa n) t by
    obtain ⟨t, h1, h2, h3⟩ := hh
    exact ⟨t, h1, h2, hg _ _ h3⟩
  unfold readPiece
  dsimp only
  rw [m.owner, m.notControl]
  simp only [bne_self_eq_false, Bool.false_eq_true, if_false]
  split
  · obtain ⟨t, h1, h2⟩ := run_homeReadM h m hs
    exact ⟨t, left_slicesOnly h1, physByte_of_slicesOnly h1, h2⟩
  · have e3 : (regionTouch va a false).run s = .ok ⟨⟩ s := by
      unfold regionTouch
      rw [run_get_bind]
      dsimp only
      rw [hs.region]
      rfl
    rw [run_bind_ok e3]
    obtain ⟨t, h1, h2⟩ := run_cachedRead h m hs
    exact ⟨_, left_modMine h1 (addLine _) (fun _ => rfl), fun b => physByte_of_slicesOnly h1 b, h2⟩

/-! ### Lines of the L1 -/

/-- A line that was put is found. -/
theorem l1Find_l1Put {s : State} {core asid va : Nat} {l : L1Line} (h : l.tagged asid va = true) :
    l1Find (l1Put s core l) core asid va = some l := by
  unfold l1Find l1Put
  rw [State.modCore_core_self]
  dsimp only
  have ht : ∀ x : L1Line, x.tagged l.asid l.va = x.tagged asid va := by
    intro x
    unfold L1Line.tagged at h ⊢
    simp only [Bool.and_eq_true, beq_iff_eq] at h
    rw [h.1, h.2]
    unfold lineOf
    congr 2
    omega
  simp only [ht]
  generalize (s.core core).l1 = ls
  split
  · rename_i hany
    induction ls with
    | nil => simp at hany
    | cons x t ih =>
      rw [List.map_cons]
      cases hx : x.tagged asid va with
      | true => simp [h]
      | false =>
        simp only [Bool.false_eq_true, if_false]
        rw [List.find?_cons_of_neg (by rw [hx]; decide)]
        apply ih
        simpa [hx] using hany
  · exact List.find?_cons_of_pos h

theorem left_l1Put {s : State} (l : L1Line) : Left noSlices noL1 s (l1Put s s.me l) :=
  left_modMine (.refl s) _ (fun _ => rfl)

theorem bytesKept_l1Put (s : State) (core : Nat) (l : L1Line) : BytesKept s (l1Put s core l) := fun _ => rfl

/-! ### Stores -/

theorem run_each_one {α : Type} {f : α → M Unit} {x : α} {s t : State} (h : (f x).run s = .ok ⟨⟩ t) : (each f [x]).run s = .ok ⟨⟩ t := by
  unfold each
  rw [run_bind_ok h]
  rfl

theorem run_regionPage {s : State} {a : Attr} (h : s.ctx.regionOpen = false) : (regionPage a).run s = .ok ⟨⟩ s := by
  unfold regionPage
  rw [run_get_bind, h]
  rfl

theorem run_regionTouch {s : State} {va : Nat} {a : Attr} {w : Bool} (h : s.ctx.regionOpen = false) :
    (regionTouch va a w).run s = .ok ⟨⟩ s := by
  unfold regionTouch
  rw [run_get_bind]
  dsimp only
  rw [h]
  rfl

theorem run_noteM {s : State} {va : Nat} (h : Noted s va) : (noteM va).run s = .ok ⟨⟩ s := by
  unfold noteM
  rw [run_get_bind]
  unfold Noted at h
  rw [h]
  rfl

theorem run_dropPinOver {s : State} {va n : Nat} (h : s.ctx.pin = none) : (dropPinOver va n).run s = .ok ⟨⟩ s := by
  unfold dropPinOver
  rw [run_modify, h]
  rfl

theorem filter_one {α : Type} (p : α → Bool) (x : α) : [x].filter p = [x] ∨ [x].filter p = [] := by
  rw [List.filter_cons]
  split
  · exact .inl rfl
  · exact .inr rfl

/-- A store inside one line: all that goes before its one piece is written. -/
theorem run_storeParts {s t : State} {va n : Nat} {a : Attr} {bs : List Byte} {acc : Access} (m : Mapped s va n acc a) (hs : Settled s)
    (hn : Noted s va) (hb : bs.length = n) (hw : (writePiece ⟨va, n, a⟩ bs).run s = .ok [] t) :
    (storeParts [⟨va, n, a⟩] bs).run s = .ok ⟨⟩ t := by
  unfold storeParts
  have ht : (storesTurn (allPieces [⟨va, n, a⟩])).run s = .ok ⟨⟩ s := by
    unfold storesTurn
    rw [run_get_bind, allPieces_line m.line m.size]
    have : [(⟨va, n, a⟩ : Part)].any (pieceHeld s) = false := by
      unfold pieceHeld
      simp [flitHeld_none hs.relock]
    rw [this]
    rfl
  rw [run_bind_ok ht]
  suffices hbs : (beforeStore [⟨va, n, a⟩]).run s = .ok ⟨⟩ s by
    rw [run_bind_ok hbs]
    have hwp : (writeParts [⟨va, n, a⟩] bs).run s = .ok [] t := by
      show (writePieces (allPieces [⟨va, n, a⟩]) bs).run s = .ok [] t
      rw [allPieces_line m.line m.size]
      unfold writePieces
      have e3 : bs.take n = bs := by rw [← hb]; exact List.take_length
      dsimp only
      rw [e3, run_bind_ok hw]
      rfl
    rw [run_bind_ok hwp]
    rfl
  unfold beforeStore
  rw [run_bind_ok (run_each_one (f := fun p : Part => regionPage p.a) (run_regionPage hs.region)),
    show byAddress Part.va [(⟨va, n, a⟩ : Part)] = [⟨va, n, a⟩] from rfl, allPieces_line m.line m.size]
  have e1 : (postedRoom [(⟨va, n, a⟩ : Part)]).run s = .ok ⟨⟩ s := by
    unfold postedRoom
    have hf : [(⟨va, n, a⟩ : Part)].any (fun p => p.a.fwd == 2) = false := by simp [m.owner]
    have h1 : (wayThere ⟨va, n, a⟩).run s = .ok ⟨⟩ s := by
      unfold wayThere
      rw [if_pos (by simp [m.owner])]
      rfl
    rw [run_bind_ok (run_each_one h1), run_get_bind]
    dsimp only
    rw [hf]
    rfl
  have e0 : (each (fun p => soTurn p.a) [(⟨va, n, a⟩ : Part)]).run s = .ok ⟨⟩ s :=
    run_each_one (f := fun p : Part => soTurn p.a) (x := ⟨va, n, a⟩) (run_soTurn hs)
  suffices hbp : (beforePieces [⟨va, n, a⟩]).run s = .ok ⟨⟩ s by
    rw [run_bind_ok hbp]
    exact run_each_one (f := fun p : Part => dropPinOver p.va p.n) (run_dropPinOver hs.pin)
  unfold beforePieces
  rw [run_bind_ok e1, run_bind_ok e0, run_get_bind]
  have e2 : (each (fun p => noteM p.va) (notesOf s [(⟨va, n, a⟩ : Part)])).run s = .ok ⟨⟩ s := by
    unfold notesOf
    dsimp only
    generalize hq : (List.filter _ [(⟨va, n, a⟩ : Part)]) = ps
    have : ps = [⟨va, n, a⟩] ∨ ps = [] := by rw [← hq]; exact filter_one ..
    rcases this with rfl | rfl
    · exact run_each_one (f := fun p : Part => noteM p.va) (x := ⟨va, n, a⟩) (run_noteM hn)
    · rfl
  exact e2

/-- A store that need not wait is performed in its step (R105, log entry 13). -/
theorem retireStore_now {s : State} {ps : List Part} {bs : List Byte} (hs : Settled s) :
    (retireStore ps bs).run s = (storeParts ps bs).run s := by
  unfold retireStore
  rw [run_get_bind]
  have : holdable s ps = false := by
    unfold holdable pieceHeld
    rw [hs.hold, hs.stores]
    simp [flitHeld_none hs.relock]
  rw [this]
  rfl

theorem left_stored {s t : State} {pa : Nat} {bs : List Byte} (h : SlicesOnly s t) (hb : bs.length < 32) :
    Left noMemory nothing s (putBytes t (pairsFrom pa bs)) := by
  rw [putBytes_few _ _ _ hb]
  obtain ⟨⟨x, rfl⟩, _⟩ := h
  obtain ⟨y, hy⟩ := memOnly_putAll { s with slices := x } (pairsFrom pa bs)
  rw [hy]
  exact ⟨⟨rfl, rfl, fun _ _ => rfl, rfl, rfl⟩, rfl⟩

theorem run_storeM {s t : State} {va : Nat} {a : Attr} {bs : List Byte} (m : Mapped s va bs.length .write a)
    (hm : l1Find s s.me s.ctx.asid va = none) (hs : Settled s) (hn : Noted s va)
    (hw : (writePiece ⟨va, bs.length, a⟩ bs).run s = .ok [] t) : (storeM va bs).run s = .ok ⟨⟩ t := by
  unfold storeM
  rw [run_bind_ok (run_checkAccess m hs hm)]
  exact run_storeParts m hs hn rfl hw

theorem writePiece_own {s t : State} {va n : Nat} {a : Attr} {acc : Access} {bs : List Byte} (m : Mapped s va n acc a) (hs : Settled s)
    (hw : (if a.kind == 2 || !a.c then homeWriteM a bs else cachedWrite va a bs).run s = .ok ⟨⟩ t) :
    (writePiece ⟨va, n, a⟩ bs).run s = .ok [] t := by
  have hb : soBehind s s.me = false := by
    unfold soBehind
    rw [hs.ordered, show (s.core s.me).soParts = [] from hs.parts]
    rfl
  unfold writePiece
  rw [run_get_bind]
  dsimp only
  rw [hb, m.owner, m.notControl]
  simp only [Bool.and_false, bne_self_eq_false, Bool.false_eq_true, if_false]
  split at hw <;> rename_i hk
  · rw [if_pos hk, run_bind_ok hw]
    rfl
  · rw [if_neg hk, run_bind_ok hw]
    rfl

/-- A store on a page that is served at home. -/
theorem run_storeM_home {s : State} {va : Nat} {a : Attr} {bs : List Byte} (h : AtHome s va a) (m : Mapped s va bs.length .write a)
    (hs : Settled s) (hn : Noted s va) (hu : a.uncached) (hw : Unwatched s (lineOf a.pa)) (hm : s.memOk) (hb : bs.length < 32) :
    ∃ t, Left noMemory nothing s t ∧ Stores s t a.pa bs ∧ (storeM va bs).run s = .ok ⟨⟩ t := by
  have hl : a.pa % 64 + bs.length ≤ 64 := by have := m.line; have := m.offset; omega
  obtain ⟨t, ht, e⟩ := homeStore_quiet hw m.size hl
  refine ⟨putBytes t (pairsFrom a.pa bs), left_stored ht hb, stores_putBytes ht hm hl m.own, ?_⟩
  apply run_storeM m h.miss hs hn
  apply writePiece_own m hs
  have hk : (a.kind == 2 || !a.c) = true := by
    rcases hu with hu | ⟨h1, h2⟩
    · simp [hu]
    · simp [h2]
  rw [hk]
  simp only [if_true]
  have h1 : (a.kind == 1) = false := by
    rcases hu with hu | ⟨h1, h2⟩
    · simp [hu]
    · simp [h1]
  unfold homeWriteM
  rw [h1]
  simp only [Bool.false_eq_true, if_false]
  rw [run_bind_ok (run_soTurn hs), run_modify, drainLine_none (show (s.core s.me).nonRet = [] from hs.ops), e]

/-- The write-combining buffer after a store into it while it is empty. -/
def wcEntry (pa : Nat) (bs : List Byte) : WcLine :=
  ⟨lineOf pa, none, byteMask (pa % 64) bs.length,
    (upTo 64).map fun i => if pa % 64 ≤ i && i < pa % 64 + bs.length then bs.getD (i - pa % 64) 0 else 0⟩

/-- A store on a UO page with C = 0 enters the write-combining buffer. -/
theorem run_storeM_wc {s : State} {va : Nat} {a : Attr} {bs : List Byte} (h : AtHome s va a) (m : Mapped s va bs.length .write a)
    (hs : Settled s) (hn : Noted s va) (hk : a.kind = 1) (hc : a.c = false) :
    (storeM va bs).run s = .ok ⟨⟩ (s.modMyCore fun k => { k with wc := [wcEntry a.pa bs] }) := by
  apply run_storeM m h.miss hs hn
  apply writePiece_own m hs
  simp only [hk, hc, Bool.not_false, Bool.or_true, if_true]
  unfold homeWriteM
  simp only [hk, beq_self_eq_true, if_true]
  rw [run_modify]
  unfold wcStore
  have hw : (s.core s.me).wc = [] := hs.wc
  dsimp only
  rw [hw]
  simp only [List.any_nil, Bool.false_eq_true, if_false, List.length_nil]
  rw [if_neg (by omega)]
  have e : a.pa - lineOf a.pa = a.pa % 64 := by unfold lineOf; omega
  rw [e]
  unfold State.modMyCore State.modCore
  dsimp only
  rw [hw]
  have ez : (0 : BitVec 64) ||| byteMask (a.pa % 64) bs.length = byteMask (a.pa % 64) bs.length := by simp
  simp only [List.nil_append, List.getD_nil]
  rw [ez]
  rfl

/-- The line that a store leaves in the L1 where it was nowhere but at home: an RC line was filled, a UO line holds the stored bytes. -/
def storedLine (s : State) (va : Nat) (a : Attr) (bs : List Byte) : L1Line :=
  (if a.kind = 0 then filledLine s s.ctx.asid va a
    else ⟨lineOf va, s.ctx.asid, lineOf a.pa, true, a.w, a.r, a.u, a.size, a.glob, 0, 0, 0, none, []⟩).merge (va % 64) bs none

theorem merge_tagged {l : L1Line} {asid va off : Nat} {bs : List Byte} {sp : Option Nat} (h : l.tagged asid va = true) :
    (l.merge off bs sp).tagged asid va = true := h

/-- A store on a cached page whose line is nowhere but at home. -/
theorem run_storeM_l1 {s : State} {va : Nat} {a : Attr} {bs : List Byte} (h : AtHome s va a) (m : Mapped s va bs.length .write a)
    (hs : Settled s) (hn : Noted s va) (hc : a.cached) :
    ∃ t, Left noSlices noL1 s t ∧ BytesKept s t ∧ l1Find t s.me s.ctx.asid va = some (storedLine s va a bs) ∧
      (storeM va bs).run s = .ok ⟨⟩ t := by
  suffices hh : ∃ u l, Left noSlices noL1 s u ∧ BytesKept s u ∧ (lineForStore va a).run s = .ok ⟨⟩ u ∧
      l1Find u s.me s.ctx.asid va = some l ∧ l.tagged s.ctx.asid va = true ∧ l.merge (va % 64) bs none = storedLine s va a bs by
    obtain ⟨u, l, hu, hby, hr, hf, ht, he⟩ := hh
    have hl : Left noSlices noL1 u (l1Put u s.me (l.merge (va % 64) bs none)) := by
      have := left_l1Put (s := u) (l.merge (va % 64) bs none)
      rwa [hu.me] at this
    refine ⟨l1Put u s.me (l.merge (va % 64) bs none), hu.trans hl, hby.trans (bytesKept_l1Put _ _ _), ?_, ?_⟩
    · rw [← he]
      exact l1Find_l1Put (merge_tagged ht)
    · apply run_storeM m h.miss hs hn
      apply writePiece_own m hs
      have hk : (a.kind == 2 || !a.c) = false := by
        have := hc.1
        simp [hc.2, this]
      rw [hk]
      simp only [Bool.false_eq_true, if_false]
      unfold cachedWrite
      rw [run_bind_ok (run_regionTouch hs.region), run_bind_ok hr, run_get_bind]
      dsimp only
      rw [hu.ctx, hu.me, hf]
      dsimp only
      rw [hs.region]
      rfl
  have e1 : becomeOnly s s.me s.ctx.asid va (lineOf a.pa) = s := by
    unfold becomeOnly
    rw [h.alone]
    rfl
  have e2 : (if a.kind == 0 then becomeOnly s s.me s.ctx.asid va (lineOf a.pa) else s) = s := by
    split
    · exact e1
    · rfl
  have run0 : ∀ u, (if a.kind == 0 then fillLine s s.me s.ctx.asid va a 1 s.ctx.regionOpen
      else l1Put (beforeFill s s.me s.ctx.asid va (lineOf a.pa)) s.me
        ⟨lineOf va, s.ctx.asid, lineOf a.pa, true, a.w, a.r, a.u, a.size, a.glob, 0, 0, 0, none, []⟩) = u →
      (lineForStore va a).run s = .ok ⟨⟩ u := by
    intro u hu
    have e4 : storeLine s s.me s.mycx s.ctx.asid s.ctx.regionOpen va a = (false, u) := by
      unfold storeLine
      dsimp only
      rw [h.miss]
      dsimp only
      rw [e2, h.miss]
      dsimp only
      rw [makeRoom_none h.ways]
      dsimp only
      simp only [Bool.false_eq_true, if_false]
      rw [drainLine_none (show (s.core s.me).nonRet = [] from hs.ops)]
      rw [← hu]
      split <;> rfl
    unfold lineForStore
    rw [run_get_bind]
    dsimp only
    rw [e4]
    rfl
  by_cases hk : a.kind = 0
  · obtain ⟨t, ht, e⟩ := fillLine_home h hs 1
    refine ⟨t.modCore s.me (addLine (filledLine s s.ctx.asid va a)), filledLine s s.ctx.asid va a, left_modMine ht _ (fun _ => rfl),
      fun b => physByte_of_slicesOnly ht b, ?_, ?_, filledLine_tagged .., ?_⟩
    · apply run0
      simp only [hk, beq_self_eq_true, if_true]
      rw [hs.region]
      exact e
    · unfold l1Find
      rw [State.modCore_core_self]
      exact List.find?_cons_of_pos (filledLine_tagged ..)
    · unfold storedLine
      rw [if_pos hk]
  · refine ⟨l1Put s s.me ⟨lineOf va, s.ctx.asid, lineOf a.pa, true, a.w, a.r, a.u, a.size, a.glob, 0, 0, 0, none, []⟩,
      ⟨lineOf va, s.ctx.asid, lineOf a.pa, true, a.w, a.r, a.u, a.size, a.glob, 0, 0, 0, none, []⟩, left_l1Put _, bytesKept_l1Put _ _ _, ?_, ?_, ?_, ?_⟩
    · apply run0
      have hk' : (a.kind == 0) = false := by simpa using hk
      rw [hk']
      simp only [Bool.false_eq_true, if_false]
      congr 1
      unfold beforeFill
      rw [h.alone]
      rfl
    · apply l1Find_l1Put
      unfold L1Line.tagged
      simp
    · unfold L1Line.tagged
      simp
    · unfold storedLine
      rw [if_neg hk]

/-! ### The end of an instruction -/

theorem noL1_stepping (c d : Core) (h : noL1 c = noL1 d) : c.stepping = d.stepping := by
  have := congrArg Core.stepping h
  exact this
theorem noWc_stepping (c d : Core) (h : noWc c = noWc d) : c.stepping = d.stepping := by
  have := congrArg Core.stepping h
  exact this
theorem noOps_stepping (c d : Core) (h : noOps c = noOps d) : c.stepping = d.stepping := by
  have := congrArg Core.stepping h
  exact this
theorem nothing_stepping (c d : Core) (h : nothing c = nothing d) : c.stepping = d.stepping := by
  have := congrArg Core.stepping h
  exact this

/-- An instruction whose body leaves a state under a frame and then updates its context. -/
theorem instr_done {m : State → State} {k : Core → Core} {f : Frame} {s t : State} {body : M Fin'} {g : Ctx → Ctx} (he : Enabled f s)
    (h : Left m k s t) (hk : ∀ c d : Core, k c = k d → c.stepping = d.stepping) (hs : NoStep s)
    (hpc : (g s.ctx).pc = s.ctx.pc) (hb : body.run s = .ok .fall (t.modCtx g)) :
    ∃ u, instr f body s = .next u ∧ Done m k f s u (g s.ctx) ∧
      u = (t.modCtx g).modCtx fun c => c.retire (c.pc + wordOf f.len.bytes) := by
  refine ⟨_, ?_, done_finish h g hpc, rfl⟩
  rw [instr_enabled he, runBody_ok hb, finish_fall (noStep_modCtx (h.stepping hk hs) g)]

end Sys2Proof.Machine
end

