-- ==== Sys2Proof/Laws/Frames.lean ====
section
/-!
SUPPORT. What a read or a write at home may change in any state: slices, memory with what its stacks know of errors, narrowings on their way,
the run lists and the spill ring, the waits, events and pending aborts of contexts, the count of free values; and that memory keeps its
canonical form.
-/
namespace Sys2Proof.Machine

/-- What a read or a write at home leaves unchanged. -/
structure HomeFrame (s t : State) : Prop where
  rest : { t with
      cores := [], slices := [], mem := [], stackTab := [], fresh := 0, dev := { t.dev with narrows := [] }
      launch := { t.launch with spill := [], jobs := [] } } =
    { s with
      cores := [], slices := [], mem := [], stackTab := [], fresh := 0, dev := { s.dev with narrows := [] }
      launch := { s.launch with spill := [], jobs := [] } }
  core : ∀ n, { (t.core n).bare with runList := [], waitingPlace := [] } = { (s.core n).bare with runList := [], waitingPlace := [] }
  ctx : ∀ n x, { t.ctxAt n x with wait := none, heldWait := none, abort := none, events := [] } =
    { s.ctxAt n x with wait := none, heldWait := none, abort := none, events := [] }
  stackState : StacksKept s t
  wf : memWf s.mem = true → memWf t.mem = true

namespace HomeFrame

theorem refl (s : State) : HomeFrame s s := ⟨rfl, fun _ => rfl, fun _ _ => rfl, fun _ => rfl, id⟩

theorem trans {s t u : State} (h : HomeFrame s t) (k : HomeFrame t u) : HomeFrame s u := by
  refine ⟨k.rest.trans h.rest, fun n => (k.core n).trans (h.core n), fun n x => (k.ctx n x).trans (h.ctx n x), fun n => ?_,
    fun w => k.wf (h.wf w)⟩
  have a := k.stackState n
  have b := h.stackState n
  rw [← b]
  rw [← a]

theorem foldl {α : Type} (l : List α) (f : State → α → State) (h : ∀ s a, HomeFrame s (f s a)) (s : State) :
    HomeFrame s (l.foldl f s) := by
  induction l generalizing s with
  | nil => exact .refl s
  | cons a t ih => exact (h s a).trans (ih _)

theorem l1 {s t : State} (h : HomeFrame s t) (n : Nat) : (t.core n).l1 = (s.core n).l1 := by
  have := congrArg Core.l1 (h.core n)
  exact this
theorem wc {s t : State} (h : HomeFrame s t) (n : Nat) : (t.core n).wc = (s.core n).wc := by
  have := congrArg Core.wc (h.core n)
  exact this
theorem nonRet {s t : State} (h : HomeFrame s t) (n : Nat) : (t.core n).nonRet = (s.core n).nonRet := by
  have := congrArg Core.nonRet (h.core n)
  exact this
theorem posted {s t : State} (h : HomeFrame s t) (n : Nat) : (t.core n).posted = (s.core n).posted := by
  have := congrArg Core.posted (h.core n)
  exact this
theorem stepping {s t : State} (h : HomeFrame s t) (n : Nat) : (t.core n).stepping = (s.core n).stepping := by
  have := congrArg Core.stepping (h.core n)
  exact this
theorem cur {s t : State} (h : HomeFrame s t) : t.cur = s.cur := by
  have := congrArg State.cur h.rest
  exact this
theorem me {s t : State} (h : HomeFrame s t) : t.me = s.me := by unfold State.me; rw [h.cur]
theorem mycx {s t : State} (h : HomeFrame s t) : t.mycx = s.mycx := by unfold State.mycx; rw [h.cur]
theorem dev {s t : State} (h : HomeFrame s t) : { t.dev with narrows := [] } = { s.dev with narrows := [] } := by
  have := congrArg State.dev h.rest
  exact this

theorem modSlice (s : State) (n : Nat) (f : Slice → Slice) : HomeFrame s (s.modSlice n f) :=
  ⟨rfl, fun _ => rfl, fun _ _ => rfl, fun _ => rfl, id⟩

theorem modDev (s : State) (f : Device → Device) (h : ∀ d, { f d with narrows := [] } = { d with narrows := [] }) :
    HomeFrame s (s.modDev f) := by
  refine ⟨?_, fun _ => rfl, fun _ _ => rfl, fun _ => rfl, id⟩
  have := h s.dev
  show ({ s with
      cores := [], slices := [], mem := [], stackTab := [], fresh := 0, dev := { f s.dev with narrows := [] }
      launch := { s.launch with spill := [], jobs := [] } } : State) = _
  rw [this]

theorem modLaunch (s : State) (f : Launch → Launch)
    (h : ∀ d, { f d with spill := [], jobs := [] } = { d with spill := [], jobs := [] }) : HomeFrame s (s.modLaunch f) := by
  refine ⟨?_, fun _ => rfl, fun _ _ => rfl, fun _ => rfl, id⟩
  have := h s.launch
  show ({ s with
      cores := [], slices := [], mem := [], stackTab := [], fresh := 0, dev := { s.dev with narrows := [] }
      launch := { f s.launch with spill := [], jobs := [] } } : State) = _
  rw [this]

theorem modCore (s : State) (n : Nat) (f : Core → Core)
    (h : ∀ k, { f k with runList := [], waitingPlace := [] } = { k with runList := [], waitingPlace := [] }) :
    HomeFrame s (s.modCore n f) := by
  refine ⟨rfl, fun m => ?_, fun m x => ?_, fun _ => rfl, id⟩
  · rw [State.modCore_core]
    split
    · rename_i e
      subst e
      have := congrArg (fun k : Core => { k with c0 := Ctx.reset, c1 := Ctx.reset }) (h (s.core m))
      exact this
    · rfl
  · have e : (s.modCore n f).ctxAt m x = s.ctxAt m x := by
      unfold State.ctxAt
      rw [State.modCore_core]
      split
      · rename_i e
        subst e
        have h0 := congrArg Core.c0 (h (s.core m))
        have h1 := congrArg Core.c1 (h (s.core m))
        dsimp only at h0 h1
        unfold Core.ctx
        rw [h0, h1]
      · rfl
    rw [e]

theorem modCtxAt (s : State) (n x : Nat) (f : Ctx → Ctx)
    (h : ∀ c, { f c with wait := none, heldWait := none, abort := none, events := [] } =
      { c with wait := none, heldWait := none, abort := none, events := [] }) :
    HomeFrame s (s.modCtxAt n x f) := by
  refine ⟨rfl, fun m => ?_, fun m y => ?_, fun _ => rfl, id⟩
  · rw [State.modCtxAt_core]
    split
    · rename_i e
      subst e
      unfold Core.bare Core.setCtx
      split <;> rfl
    · rfl
  · rw [State.modCtxAt_ctxAt]
    split
    · rename_i e
      obtain ⟨rfl, e2⟩ := e
      have : s.ctxAt m y = s.ctxAt m x := by
        unfold State.ctxAt Core.ctx
        rw [eq_iff_iff] at e2
        by_cases hx : x = 0
        · rw [if_pos hx, if_pos (e2.mp hx)]
        · rw [if_neg hx, if_neg (fun q => hx (e2.mpr q))]
      rw [this, h]
    · rfl

theorem physPut (s : State) (pa : Nat) (b : Byte) : HomeFrame s (physPut s pa b) := by
  obtain ⟨x, hx⟩ := memOnly_physPut s pa b
  have hw := memWf_physPut (s := s) (pa := pa) (b := b)
  rw [hx] at hw ⊢
  exact ⟨rfl, fun _ => rfl, fun _ _ => rfl, fun _ => rfl, hw⟩

theorem of_poison {s t : State} (h : PoisonOnly s t) : HomeFrame s t := by
  obtain ⟨⟨x, rfl⟩, hs⟩ := h
  exact ⟨rfl, fun _ => rfl, fun _ _ => rfl, hs, id⟩

theorem of_slices {s t : State} (h : SlicesOnly s t) : HomeFrame s t := by
  obtain ⟨⟨x, rfl⟩, _⟩ := h
  exact ⟨rfl, fun _ => rfl, fun _ _ => rfl, fun _ => rfl, id⟩

theorem putBytes (s : State) (wr : List (Nat × Byte)) : HomeFrame s (putBytes s wr) := by
  refine HomeFrame.trans (t := putAll s wr) ?_ (of_poison (putBytes_eq s wr))
  exact foldl wr _ (fun s (p : Nat × Byte) => physPut s p.1 p.2) s

theorem tryPlace {s t : State} {p : Placement} (h : tryPlace s p = some t) : HomeFrame s t := by
  unfold Machine.tryPlace at h
  split at h
  · cases h; exact modCore _ _ _ fun _ => rfl
  · split at h
    · cases h; exact modLaunch _ _ fun _ => rfl
    · cases h

theorem placeEntry (s : State) (frm : Nat) (p : Placement) : HomeFrame s (placeEntry s frm p) := by
  unfold Machine.placeEntry
  dsimp only
  split
  · exact modCore _ _ _ fun _ => rfl
  · cases h : Machine.tryPlace s p with
    | none => exact modCore s frm (fun k => { k with waitingPlace := k.waitingPlace ++ [p] }) fun _ => rfl
    | some t => exact tryPlace h

theorem fireWho (s : State) (w : Who) (kind : WaitKind → Bool) (f : Fired) : HomeFrame s (fireWho s w kind f) := by
  unfold Machine.fireWho
  dsimp only
  split
  · exact modCtxAt _ _ _ _ fun _ => rfl
  · split
    · exact .refl s
    · refine HomeFrame.trans ?_ (placeEntry ..)
      exact HomeFrame.modLaunch s (fun l => { l with jobs := _ }) fun _ => rfl

theorem wakeLine (s : State) (line : Nat) : HomeFrame s (wakeLine s line) := by
  unfold Machine.wakeLine
  dsimp only
  split
  · exact .refl s
  · exact (modSlice _ _ _).trans (foldl _ _ (fun s e => fireWho ..) _)

theorem abortRegion (s : State) (core cx cause : Nat) : HomeFrame s (abortRegion s core cx cause) := by
  unfold Machine.abortRegion
  refine modCtxAt _ _ _ _ fun c => ?_
  split <;> rfl

theorem sendNarrow (s : State) (slice core cx : Nat) (upper : Bool) (b : Option Word) : HomeFrame s (sendNarrow s slice core cx upper b) :=
  modDev s (fun d => { d with narrows := _ }) fun _ => rfl

theorem meetWrite (s : State) (slice : Nat) (p : Word) (w : SideSlot) : HomeFrame s (meetWrite s slice p w).1 := by
  unfold Machine.meetWrite
  split
  · exact abortRegion ..
  · cases w.writer <;> simp only [Bool.false_eq_true, if_false, if_true] <;> split
    · exact sendNarrow ..
    · exact .refl s
    · exact (sendNarrow ..).trans (sendNarrow ..)
    · exact sendNarrow ..

theorem meetWrites (s : State) (slice : Nat) (p : Word) (l : List SideSlot) : HomeFrame s (meetWrites s slice p l).1 := by
  induction l generalizing s with
  | nil => exact .refl s
  | cons w t ih =>
    unfold Machine.meetWrites
    exact (meetWrite s slice p w).trans (ih _)

/-- A choice counts one free value. -/
theorem anyOf {α : Type} (s : State) (l : List α) : HomeFrame s (anyOf s l).2 := by
  cases l with
  | nil => exact .refl s
  | cons x t => exact ⟨rfl, fun _ => rfl, fun _ _ => rfl, fun _ => rfl, id⟩

theorem dropReplicas (s : State) (line : Nat) : HomeFrame s (dropReplicas s line) := of_slices (slicesOnly_dropReplicas s line)

theorem dropHome (s : State) (slice : Nat) (t : L2Tag) : HomeFrame s (dropHome s slice t) := by
  unfold Machine.dropHome
  exact (modSlice _ _ _).trans (foldl _ _ (fun s w => fireWho ..) _)

/-- What a stack notes of errors. -/
theorem modStack (s : State) (n : Nat) (f : Stack → Stack)
    (h : ∀ k, { f k with poison := k.poison, flips := k.flips, corrected := k.corrected, retreq := k.retreq } = k) :
    HomeFrame s (s.modStack n f) := by
  refine ⟨rfl, fun _ => rfl, fun _ _ => rfl, fun m => ?_, id⟩
  rw [State.modStack_stack]
  split
  · rename_i e; subst e; exact h _
  · rfl

theorem askRetire (s : State) (st : Nat) (ue : Bool) (frame : Nat) : HomeFrame s (askRetire s st ue frame) := by
  unfold Machine.askRetire
  dsimp only
  split
  · exact .refl s
  · refine HomeFrame.trans ?_ (modStack _ _ _ fun _ => rfl)
    split
    · unfold postRoot postEvent
      refine modCtxAt _ _ _ _ fun c => ?_
      dsimp only
      split <;> rfl
    · exact .refl s

theorem readGranule (s : State) (st g : Nat) : HomeFrame s (readGranule s st g).2 := by
  unfold Machine.readGranule
  dsimp only
  split
  · exact askRetire ..
  · split
    · have h1 := modStack s st (fun k => { k with
        flips := k.flips.filter (· != g), corrected := tset k.corrected (g / 2048) (tget (s.stack st).corrected (g / 2048) 0 + 1) })
        fun _ => rfl
      dsimp only
      split
      · exact h1.trans (askRetire ..)
      · exact h1
    · exact .refl s

theorem readGranuleAt (s : State) (pa : Nat) : HomeFrame s (readGranuleAt s pa) := by
  unfold Machine.readGranuleAt
  split
  · exact readGranule ..
  · exact .refl s

theorem useBankOf (s : State) (line : Nat) : HomeFrame s (useBankOf s line) := of_slices (useBankOf_quiet s line).1

theorem readLine (s : State) (line : Nat) : HomeFrame s (readLine s line) :=
  (useBankOf s line).trans (foldl _ _ (fun _ _ => readGranuleAt ..) _)

theorem settleGranule (s : State) (slice : Nat) (dirty : Bool) (pa : Nat) : HomeFrame s (settleGranule s slice dirty pa) := by
  unfold Machine.settleGranule
  dsimp only
  have hu : ∀ b : Bool, HomeFrame s (if b then s.modSlice slice fun k => { k with under := k.under.filter (· != pa / 32) } else s) := by
    intro b
    split
    · exact modSlice ..
    · exact .refl s
  refine HomeFrame.trans (hu ((s.slice slice).under.contains (pa / 32))) ?_
  generalize (if (s.slice slice).under.contains (pa / 32) then s.modSlice slice fun k => { k with under := k.under.filter (· != pa / 32) }
    else s) = u
  split
  · split
    · split
      · exact modStack _ _ _ fun _ => rfl
      · exact .refl _
    · exact .refl _
  · split
    · exact of_poison (poisonOnly_setPoison ..)
    · exact .refl _

theorem settleWay (s : State) (slice : Nat) (t : L2Tag) : HomeFrame s (settleWay s slice t) := by
  unfold Machine.settleWay
  refine HomeFrame.trans ?_ (foldl _ _ (fun _ _ => settleGranule ..) _)
  split
  · exact useBankOf ..
  · exact .refl s

theorem dropWay (s : State) (slice : Nat) (t : L2Tag) : HomeFrame s (dropWay s slice t) := by
  unfold Machine.dropWay
  split
  · exact modSlice ..
  · exact ((dropReplicas ..).trans (settleWay ..)).trans (dropHome ..)

/-- A line taken in by a slice, whatever it evicts (R52, R278). -/
theorem l2Alloc (s : State) (slice : Nat) (t : L2Tag) : HomeFrame s (l2Alloc s slice t) := by
  unfold Machine.l2Alloc
  dsimp only
  refine HomeFrame.trans ?_ (modSlice _ _ _)
  split
  · exact .refl s
  · generalize (if (List.filter (fun w => !(s.slice slice).waited w) (l2Ways (s.slice slice) t.line)).isEmpty = true then
      l2Ways (s.slice slice) t.line
      else List.filter (fun w => !(s.slice slice).waited w) (l2Ways (s.slice slice) t.line)) = l
    have ha := anyOf s l
    cases hc : Machine.anyOf s l with
    | mk o u =>
      rw [hc] at ha
      cases o with
      | none => exact ha
      | some v => exact ha.trans (dropWay ..)

theorem noteWrite (s : State) (line : Nat) (wr : List (Nat × Byte)) : HomeFrame s (noteWrite s line wr) := by
  unfold Machine.noteWrite
  split
  · exact modSlice ..
  · split
    · exact l2Alloc ..
    · refine (useBankOf s line).trans (foldl _ _ (fun s g => ?_) _)
      split
      · exact .refl s
      · exact readGranuleAt ..

theorem makeEntry {s t : State} {line : Nat} (h : makeEntry s line = some t) : HomeFrame s t := by
  unfold Machine.makeEntry at h
  dsimp only at h
  split at h
  · cases h; exact .refl s
  · split at h
    · cases h; exact modSlice ..
    · have ha := anyOf s (List.filter (fun e => e.slots.isEmpty)
        (List.filter (fun e => sideSet e.line == sideSet line) (s.slice (homeOf line)).side))
      split at h
      · cases h
      · rename_i v u hc
        cases h
        rw [hc] at ha
        exact ha.trans (modSlice ..)

theorem outsideWrite (s : State) (line : Nat) : HomeFrame s (outsideWrite s line) := by
  unfold Machine.outsideWrite
  dsimp only
  split
  · exact modSlice ..
  · rename_i t ht
    exact ((makeEntry ht).trans (meetWrites ..)).trans (modSlice ..)

theorem homeCommit (s : State) (line : Nat) (wr : List (Nat × Byte)) : HomeFrame s (homeCommit s line wr) := by
  unfold Machine.homeCommit
  split
  · exact .refl s
  · exact (((dropReplicas s line).trans (noteWrite _ _ _)).trans (putBytes _ _)).trans
      (wakeLine _ _)

/-- A write at home. -/
theorem homeWrite (s : State) (line : Nat) (wr : List (Nat × Byte)) : HomeFrame s (homeWrite s line wr) := by
  unfold Machine.homeWrite
  split
  · exact .refl s
  · exact (outsideWrite s line).trans (homeCommit ..)

theorem homeStore (s : State) (pa : Nat) (bs : List Byte) : HomeFrame s (homeStore s pa bs) :=
  foldl _ _ (fun _ _ => homeWrite ..) s

/-- A line that its slice holds, or fetches. -/
theorem fetchHome (s : State) (line : Nat) : HomeFrame s (fetchHome s line) := by
  unfold Machine.fetchHome
  split
  · exact .refl s
  · exact (readLine ..).trans (l2Alloc ..)

/-- A read at home. -/
theorem homeRead (s : State) (pa n : Nat) : HomeFrame s (homeRead s pa n).2 := fetchHome ..

theorem homeAtomic (s : State) (op : AtomicOp) (w32 : Bool) (pa : Nat) (b c : Word) : HomeFrame s (homeAtomic s op w32 pa b c).2 := by
  unfold Machine.homeAtomic
  dsimp only
  split
  · exact fetchHome ..
  · exact (fetchHome ..).trans (homeWrite ..)

theorem performHomeOp (s : State) (op : HomeOp) : HomeFrame s (performHomeOp s op) := by
  unfold Machine.performHomeOp
  split
  · exact homeAtomic ..
  · exact (fetchHome ..).trans (homeWrite ..)
  · exact homeWrite ..

end HomeFrame

end Sys2Proof.Machine
end

