-- ==== Sys2Proof/Tests/Slice0.lean ====
section
/-!
SUPPORT. Tests: what WellFormed refuses, words of the spec that decode, single steps with results from the spec's rules, and states that
meet the hypotheses of every statement.
-/
namespace Sys2Proof.Tests
set_option Elab.async false
open Sys2Proof Sys2Proof.Machine Sys2Proof.Spec

/-! ### Small states -/

/-- The plain frame: 64 bits, no hint, no predicate. -/
def f0 : Frame := ⟨.w64, 0, 0, 0, false⟩

/-- An R body of register numbers. -/
def rr (d a b c : Fin 64) : FmtR := ⟨0, 0, .i64, .rne, c, b, a, d⟩

/-- An I body. -/
def ri (d a : Fin 64) (imm : Word) : FmtI := ⟨0, 0, imm, a, d⟩

/-- An M body of 8 bytes. -/
def rm (d a : Fin 64) (off : Word) : FmtM := ⟨0, 0, .dword, off, a, d⟩

/-- A context that runs, with traps on and registers as listed. -/
def runs (g : Tab Word) : Ctx := { Ctx.reset with active := true, tvec := 0x8001, g := g }

/-- A leaf at device frame 0x100 (R74): A, U, X, W, R, LEAF, V, and the KIND and C given in bits [5:3]. -/
def leaf (x : Word) : Word := 0x100BC3 ||| x

/-- The page at 0x1000 in a TLB. -/
def page (l : Word) : TlbEntry := ⟨0, 0x1000, 12, l, 0, true, 0, 0, none⟩

/-- A core whose dirty filter holds the page. -/
def core0 : Core := { Core.reset with dfilter := [⟨0, 0x1000, 12, false⟩] }

/-- A machine whose core 0 has one context at work and whose sorus 0 holds one page. -/
def at0 (l : Word) (c : Ctx) (k : Core := core0) : State :=
  { State.reset with cores := [(0, { k with c0 := c })], sori := [(0, { Sorus.reset with tlb := [page l] })] }

/-- The attributes of the page's first byte. -/
def attr (l : Word) : Attr := attrOf l 0x1000 12

/-- Registers: g1 names the page, g2 is 5, g3 is −1, g4 is not canonical. -/
def regs0 : Tab Word := [(1, 0x1000), (2, 5), (3, -1), (4, 0x0100000000000000)]

/-- A page of KIND and C as bits [5:3] of x say. -/
def sk (x : Word) : State := at0 (leaf x) (runs regs0)

def s0 : State := sk 0

/-- What a region saved. -/
def ckpt0 : Checkpoint := ⟨regs0, 1, 0, 0, [], 0, 0, 0, 0, 0, 0x2000⟩

/-- A context in a mode with a value of ESTAT. -/
def sm (m : Mode) (e : Word) : State := at0 (leaf 0) { runs regs0 with mode := m, estat := e }

/-- The same core with a change. -/
def sc (f : Core → Core) : State := at0 (leaf 0) (runs regs0) (f core0)

/-! ### States that meet the hypotheses of the statements -/

theorem mapped_of {s : State} {va n : Nat} {acc : Access} {a : Attr} (e : TlbEntry)
    (h : canonical va = true ∧ 0 < n ∧ va % 64 + n ≤ 64 ∧ ((s.sorus (sorusOf s.me)).tlb.find? fun e =>
        (e.asid == s.ctx.asid || bitOf e.leaf 10) && va / 2 ^ e.size == e.va / 2 ^ e.size) = some e ∧
      a = attrOf e.leaf va e.size ∧ leafAllows e.leaf acc s.ctx.mode = true ∧ a.fwd = 0 ∧ a.pa % 64 = va % 64 ∧
      ∀ i, i < 64 → (keyOf s (lineOf a.pa + i)).isSome) : Mapped s va n acc a :=
  ⟨h.1, h.2.1, h.2.2.1, ⟨e, h.2.2.2.1, h.2.2.2.2.1, h.2.2.2.2.2.1⟩, h.2.2.2.2.2.2.1, h.2.2.2.2.2.2.2.1, h.2.2.2.2.2.2.2.2⟩

theorem settled_of {s : State} (h : s.myCore.stepping = false ∧ s.ctx.wait = none ∧ s.ctx.regionOpen = false ∧ s.myCore.wc = [] ∧
    s.myCore.nonRet = [] ∧ (∀ l ∈ s.myCore.l1, l.spec = none) ∧ bitOf s.myCore.sbase 0 = false ∧ s.ctx.pin = none)
    (k : s.myCore.sbuf = [] ∧ s.myCore.holdStores = false ∧ s.dev.posted.any (fun p => p.so && p.core == some s.me) = false ∧
      s.myCore.soParts = [] ∧ NoHold s ∧ s.ctx.pageGot = [] ∧ s.myCore.engine.any (fun o => o.soLeft s s.me) = false := by
        exact ⟨rfl, rfl, rfl, rfl, ⟨rfl, rfl⟩, rfl, rfl⟩) : Settled s :=
  ⟨h.1, h.2.1, h.2.2.1, k.1, k.2.1, h.2.2.2.1, h.2.2.2.2.1, k.2.2.1, k.2.2.2.1, k.2.2.2.2.1, k.2.2.2.2.2.1, k.2.2.2.2.2.2,
    h.2.2.2.2.2.1, h.2.2.2.2.2.2.1, h.2.2.2.2.2.2.2⟩

theorem trapReady_of {s : State} (h : bitOf s.ctx.tvec 0 = true ∧ bitOf s.ctx.estat 2 = false ∧ s.ctx.regionOpen = false ∧
    bitOf s.dev.trace.ctl 0 = false ∧ s.myCore.stepping = false) : TrapReady s := ⟨h.1, h.2.1, h.2.2.1, h.2.2.2.1, h.2.2.2.2⟩

/-- Slices that hold nothing have room for every line. -/
theorem room_of {s : State} (h : s.slices = []) (line : Nat) : HomeRoom s line ∧ SideRoom s line := by
  have e : s.slice (homeOf line) = Slice.reset := by unfold State.slice; rw [h]; rfl
  unfold HomeRoom SideRoom
  rw [e]
  exact ⟨Or.inr (Nat.zero_lt_succ _), Or.inr (Nat.zero_lt_succ _)⟩

theorem atHome_of {s : State} {va : Nat} {a : Attr} (h : l1Find s s.me s.ctx.asid va = none ∧
      (s.myCore.l1.filter fun l => l1Set l.va == l1Set va).length < 10 ∧ holders s (sorusOf s.me) (lineOf a.pa) = [] ∧
      (∀ i, i < 64 → poisonedAt s (lineOf a.pa + i) = false) ∧ ∀ i, i < 64 → flippedAt s (lineOf a.pa + i) = false)
    (r : s.slices = [] := by exact rfl) : AtHome s va a :=
  ⟨h.1, h.2.1, h.2.2.1, h.2.2.2.1, h.2.2.2.2, (room_of r _).1⟩

theorem unwatched_of {s : State} (h : s.slices = []) (line : Nat)
    (k : ∀ i, i < 64 → poisonedAt s (line + i) = false ∧ flippedAt s (line + i) = false) : Unwatched s line := by
  refine ⟨(room_of h line).1, (room_of h line).2, Or.inr k, ?_, ?_⟩ <;> (unfold State.slice; rw [h]; exact fun e h => absurd h (List.not_mem_nil (a := e)))

theorem enabled0 (s : State) : Enabled f0 s := Or.inl rfl

theorem settled0 : Settled s0 := settled_of (by decide +kernel)

theorem trapReady0 : TrapReady s0 := trapReady_of (by decide +kernel)

theorem mapped0 : ∀ acc ∈ [Access.read, .write, .both, .fetch], ∀ n ∈ [1, 2, 4, 8, 16, 64], Mapped s0 0x1000 n acc (attr (leaf 0)) := by
  intro acc ha n hn
  have h : ∀ acc ∈ [Access.read, .write, .both, .fetch], leafAllows (leaf 0) acc s0.ctx.mode = true := by decide +kernel
  have m : ∀ n ∈ [1, 2, 4, 8, 16, 64], 0 < n ∧ 0x1000 % 64 + n ≤ 64 := by decide +kernel
  exact mapped_of (page (leaf 0)) ⟨by decide +kernel, (m n hn).1, (m n hn).2, by decide +kernel, rfl, h acc ha, by decide +kernel⟩

theorem atHome0 : AtHome s0 0x1000 (attr (leaf 0)) := atHome_of (by decide +kernel)

theorem unwatched0 : Unwatched s0 (lineOf (attr (leaf 0)).pa) := unwatched_of rfl _ (by decide +kernel)

theorem noted0 : Noted s0 0x1000 := by unfold Noted; decide +kernel

theorem homeOp0 (n : Nat) (hn : n ∈ [1, 2, 4, 8, 16, 64]) (acc : Access) (ha : acc ∈ [Access.read, .write, .both, .fetch]) :
    HomeOpReady s0 0x1000 n acc (attr (leaf 0)) :=
  ⟨by revert n; decide +kernel, mapped0 acc ha n hn, atHome0, noted0, unwatched0⟩

theorem meets_IntegerOperations : Enabled f0 s0 ∧ NoStep s0 ∧ s0.ctx.readable 1 = true ∧ s0.ctx.readable 2 = true :=
  ⟨enabled0 _, rfl, by decide +kernel, by decide +kernel⟩

theorem meets_CountsSelectionConstants : Enabled f0 s0 ∧ NoStep s0 ∧ s0.ctx.readable 1 = true ∧ s0.ctx.readable 2 = true ∧
    s0.ctx.pReadable 1 = true ∧ (({ rr 4 2 0 0 with var := 2 } : FmtR).var.val, 32) ∈ [(0, 8), (1, 16), (2, 32)] :=
  ⟨enabled0 _, rfl, by decide +kernel⟩

theorem meets_PredicateResults : Enabled f0 s0 ∧ NoStep s0 ∧ condOf 2 = some .eq ∧ condOf 7 = some .geu ∧ s0.ctx.readable 1 = true ∧
    s0.ctx.readable 2 = true ∧ s0.ctx.pReadable 1 = true := ⟨enabled0 _, rfl, by decide +kernel⟩

/-- A floating R body: FP32, rounding as given. -/
def rf (var : Fin 32) (ty : Ty) (m : Rnd) : FmtR := ⟨var, 2, ty, m, 3, 2, 1, 4⟩

theorem meets_FloatOperations : Enabled f0 s0 ∧ NoStep s0 ∧ SeedReadable (rf 0 .f32 .rne) s0 ∧ SeedReadable (rf 0 .f32 .sr) s0 ∧
    s0.ctx.readable 1 = true ∧ s0.ctx.readable 2 = true ∧ s0.ctx.readable 3 = true ∧
    (Ty.isInt .f32 = false ∧ fcvtSrc (rf 4 .f32 .rne) = .f32) ∧ fcvtSrc (rf 2 .f32 .rne) ≠ .f32 ∧ Ty.isInt .i32 = true :=
  ⟨enabled0 _, rfl, fun _ => by decide +kernel, fun _ => by decide +kernel, by decide +kernel⟩

theorem meets_Branches : Enabled f0 s0 ∧ NoStep s0 ∧ s0.ctx.pReadable 1 = true ∧ s0.ctx.readable 1 = true ∧ s0.ctx.readable 2 = true :=
  ⟨enabled0 _, rfl, by decide +kernel⟩

/-- A context that fetches from the page, whose second instruction there is a NOP (R259). -/
def sfetch : State := { at0 (leaf 0x20) { runs regs0 with pc := 0x1000 } with mem := [(0x10000F, 0x40)] }

theorem meets_ReptBlocks : Enabled f0 s0 ∧ NoStep s0 ∧ s0.ctx.readable 2 = true ∧ (s0.ctx.reg 2 + (ri 0 2 4).imm).toNat % 2 ^ 32 ≠ 0 ∧
    (sfetch.ctx.reg 0 + 0).toNat % 2 ^ 32 = 0 ∧ ∃ next u, (skipM 1 (afterPc f0 sfetch)).run sfetch = .ok next u ∧ NoStep u := by
  refine ⟨enabled0 _, rfl, by decide +kernel, by decide +kernel, by decide +kernel, ?_⟩
  have h : (match (skipM 1 (afterPc f0 sfetch)).run sfetch with
    | .ok n u => n == 0x1010 && !u.myCore.stepping
    | .error _ _ => false) = true := by decide +kernel
  revert h
  cases (skipM 1 (afterPc f0 sfetch)).run sfetch with
  | ok n u => exact fun h => ⟨n, u, rfl, by simpa [NoStep] using (Bool.and_eq_true_iff.mp h).2⟩
  | error e u => exact fun h => Bool.noConfusion h

/-- A trap of a task of launch counter 3 that was handed up. -/
def sended : State :=
  let s := (sm .supervisor 0x84).modCtxAt 0 0 fun c => { c with task := some ⟨0, some 3, 0, false, false, false⟩ }
  { s with launch := { s.launch with ctrs := [(3, ⟨1, 1, 0, 0, 0, false, false, false, false, ⟨0, 0, 0, 0, 0, 0, 0, 0⟩⟩)] } }

theorem meets_RaisingAndReturning : (Enabled f0 s0 ∧ TrapReady s0 ∧ s0.ctx.mode = .user ∧ bitOf s0.myCore.dbgctl 0 = false) ∧
    (TrapReady (sm .supervisor 0) ∧ (sm .supervisor 0).ctx.mode = .supervisor) ∧ (TrapReady (sm .firmware 0) ∧ (sm .firmware 0).ctx.mode = .firmware) ∧
    (TrapReady (sc fun k => { k with dbgctl := 1 }) ∧ bitOf (sc fun k => { k with dbgctl := 1 }).myCore.dbgctl 0 = true ∧
      dbgCx (sc fun k => { k with dbgctl := 1 }).myCore = (sc fun k => { k with dbgctl := 1 }).mycx) ∧
    (NoStep (sm .supervisor 4) ∧ (sm .supervisor 4).ctx.mode ≠ .user ∧ bitOf (sm .supervisor 4).ctx.estat 7 = false) ∧
    (bitOf (sm .firmware 0x84).ctx.estat 7 = true ∧ NoTrace (sm .firmware 0x84) ∧ (sm .firmware 0x84).ctx.task = none ∧ NoRegion (sm .firmware 0x84) ∧
      StoresDone (sm .firmware 0x84)) ∧
    (∃ (s : State) (k : Task) (n : Nat) (c : LaunchCtr), Enabled f0 s ∧ NoStep s ∧ s.ctx.mode ≠ .user ∧ bitOf s.ctx.estat 7 = true ∧ NoTrace s ∧
      NoRegion s ∧ StoresDone s ∧ s.ctx.task = some k ∧ k.lctr = some n ∧ s.launch.ctrs.lookup n = some c ∧ c.pkt.gfail = false) :=
  ⟨⟨enabled0 _, trapReady0, rfl, by decide +kernel⟩, ⟨trapReady_of (by decide +kernel), rfl⟩, ⟨trapReady_of (by decide +kernel), rfl⟩,
    ⟨trapReady_of (by decide +kernel), by decide +kernel⟩, ⟨rfl, by decide +kernel⟩,
    ⟨by decide +kernel, by unfold NoTrace; decide +kernel, rfl, by unfold NoRegion; decide +kernel, rfl⟩,
    ⟨sended, _, _, _, enabled0 _, by unfold NoStep; decide +kernel, by decide +kernel, by decide +kernel, by unfold NoTrace; decide +kernel,
      by unfold NoRegion; decide +kernel, rfl, rfl, rfl, rfl, by decide +kernel⟩⟩

theorem ea0 : (eaOf s0 (rm 4 1 0)).toNat = 0x1000 := by decide +kernel

theorem meets_LoadsFromHome : Enabled f0 s0 ∧ Settled s0 ∧ s0.ctx.readable 1 = true ∧
    Mapped s0 (eaOf s0 (rm 4 1 0)).toNat (sizeBytes .dword) .read (attr (leaf 0)) ∧ AtHome s0 (eaOf s0 (rm 4 1 0)).toNat (attr (leaf 0)) ∧
    (∃ sc, ScopeIs s0 0 sc) ∧ (eaOf s0 (rm 4 1 0)).toNat % sizeBytes .dword = 0 := by
  rw [ea0]
  exact ⟨enabled0 _, settled0, by decide +kernel, mapped0 _ (by decide) _ (by decide), atHome0, ⟨_, rfl⟩, by decide +kernel⟩

theorem meets_StoresReachHome : s0.memOk ∧ s0.ctx.readable 2 = true ∧
    Mapped s0 (eaOf s0 (rm 2 1 0)).toNat (sizeBytes .dword) .write (attr (leaf 0)) ∧ Noted s0 (eaOf s0 (rm 2 1 0)).toNat ∧
    Unwatched s0 (lineOf (attr (leaf 0)).pa) ∧ (attr (leaf 0)).uncached ∧ (∃ sc, ScopeIs s0 0 sc ∧ Released s0.me s0.myCore sc) ∧
    s0.myCore.posted = [] ∧ s0.dev.posted = [] :=
  ⟨rfl, by decide +kernel, mapped0 _ (by decide) _ (by decide), noted0, unwatched0, Or.inr (by decide +kernel),
    ⟨_, rfl, fun l h => absurd h (List.not_mem_nil (a := l))⟩, rfl, rfl⟩

theorem meets_StoresStayInCore : (Settled (sk 0x20) ∧ Mapped (sk 0x20) 0x1000 8 .write (attr (leaf 0x20)) ∧ AtHome (sk 0x20) 0x1000 (attr (leaf 0x20)) ∧
      Noted (sk 0x20) 0x1000 ∧ (attr (leaf 0x20)).cached) ∧
    (Settled (sk 8) ∧ Mapped (sk 8) 0x1000 8 .write (attr (leaf 8)) ∧ AtHome (sk 8) 0x1000 (attr (leaf 8)) ∧ Noted (sk 8) 0x1000 ∧
      (attr (leaf 8)).kind = 1 ∧ (attr (leaf 8)).c = false) ∧
    ((sk 0x20).modMyCore fun k => { k with holdStores := true }).myCore.holdStores = true :=
  ⟨⟨settled_of (by decide +kernel), mapped_of (page (leaf 0x20)) (by decide +kernel), atHome_of (by decide +kernel),
      by unfold Noted; decide +kernel, by unfold Attr.cached; decide +kernel⟩,
    ⟨settled_of (by decide +kernel), mapped_of (page (leaf 8)) (by decide +kernel), atHome_of (by decide +kernel),
      by unfold Noted; decide +kernel, by decide +kernel⟩, by decide +kernel⟩

theorem meets_AtomicsAtHome : Enabled f0 s0 ∧ Settled s0 ∧ s0.memOk ∧ s0.ctx.readable 1 = true ∧ s0.ctx.readable 2 = true ∧
    (rr 4 1 2 3).var.val < 10 ∧ HomeOpReady s0 (s0.ctx.reg 1) (atomicBits (rr 4 1 2 3) / 8) .both (attr (leaf 0)) :=
  ⟨enabled0 _, settled0, rfl, by decide +kernel, by decide +kernel, by decide +kernel, homeOp0 8 (by decide) _ (by decide)⟩

theorem meets_ReductionsAndCells : Enabled f0 s0 ∧ Settled s0 ∧ s0.memOk ∧ (rr 4 1 2 3).var.val < 8 ∧
    HomeOpReady s0 (s0.ctx.reg 1) (atomicBits (rr 4 1 2 3) / 8) .write (attr (leaf 0)) ∧
    HomeOpReady s0 (s0.ctx.reg 1) 64 .write (attr (leaf 0)) ∧ HomeOpReady s0 (s0.ctx.reg 1) 64 .both (attr (leaf 0)) :=
  ⟨enabled0 _, settled0, rfl, by decide +kernel, homeOp0 8 (by decide) _ (by decide), homeOp0 64 (by decide) _ (by decide),
    homeOp0 64 (by decide) _ (by decide)⟩

/-- A line of the page in the L1, as R45 fills it. -/
def line0 : L1Line := ⟨0x1000, 0, 0x100000, false, true, true, true, 12, false, BitVec.allOnes 64, 0, 0, none, List.replicate 64 7⟩

theorem meets_LoadsFromL1AndPrefetch : (NoStep (sc fun k => { k with l1 := [line0] }) ∧ canonical 0x1000 = true ∧
      l1Find (sc fun k => { k with l1 := [line0] }) 0 0 0x1000 = some line0 ∧ line0.spec = none ∧ line0.rd = true ∧ line0.usr = true ∧
      isControl line0.pa = false ∧ ∀ i, i < 8 → line0.pres.getLsbD i = true) ∧
    (Settled (sk 0x20) ∧ Mapped (sk 0x20) 0x1000 1 .read (attr (leaf 0x20)) ∧ AtHome (sk 0x20) 0x1000 (attr (leaf 0x20)) ∧
      (attr (leaf 0x20)).cached) ∧ canonical (eaOf s0 (rm 0 4 0)).toNat = false :=
  ⟨⟨rfl, by decide +kernel⟩, ⟨settled_of (by decide +kernel), mapped_of (page (leaf 0x20)) (by decide +kernel), atHome_of (by decide +kernel),
    by unfold Attr.cached; decide +kernel⟩, by decide +kernel⟩

/-- The page without W. -/
def sro : State := at0 (leaf 0 &&& ~~~0x80#64) (runs regs0)

theorem meets_AccessFaults : Enabled f0 s0 ∧ TrapReady s0 ∧ (eaOf s0 (rm 2 1 1)).toNat % 8 ≠ 0 ∧
    (canonical (eaOf s0 (rm 2 4 0)).toNat = false ∧ (eaOf s0 (rm 2 4 0)).toNat % 8 = 0) ∧
    TrapReady sro ∧ Refused sro 0x1000 .write ∧ Refused sro 0x1000 .both ∧
    Refused (at0 (leaf 0 &&& ~~~0x40#64) (runs regs0)) 0x1000 .read :=
  ⟨enabled0 _, trapReady0, by decide +kernel, by decide +kernel, trapReady_of (by decide +kernel),
    ⟨by decide +kernel, rfl, rfl, ⟨rfl, rfl⟩, rfl, ⟨page (leaf 0 &&& ~~~0x80#64), by decide +kernel⟩⟩,
    ⟨by decide +kernel, rfl, rfl, ⟨rfl, rfl⟩, rfl, ⟨page (leaf 0 &&& ~~~0x80#64), by decide +kernel⟩⟩,
    ⟨by decide +kernel, rfl, rfl, ⟨rfl, rfl⟩, rfl, ⟨page (leaf 0 &&& ~~~0x40#64), by decide +kernel⟩⟩⟩

theorem meets_DisabledInstructions : (Instr.add ⟨.w64, 0, 0, 1, false⟩ (rr 4 1 2 0)).parts? = some (⟨.w64, 0, 0, 1, false⟩, .r (rr 4 1 2 0)) ∧
    hasRight (.add ⟨.w64, 0, 0, 1, false⟩ (rr 4 1 2 0)) .user = true ∧ Disabled ⟨.w64, 0, 0, 1, false⟩ s0 ∧ NoStep s0 :=
  ⟨rfl, rfl, by unfold Disabled; decide +kernel, rfl⟩

theorem meets_StatusRegisterAccess : Enabled f0 s0 ∧ NoStep s0 ∧ NoRegion s0 ∧ BuffersIdle s0 ∧ Assigned 0x001 ∧ Assigned 0xF00 ∧ MayRead .user 0x001 ∧
    MayRead .firmware 0xF00 ∧ MayWrite .user 0x001 ∧ MayWrite .supervisor 0x4CB ∧ MayWrite .supervisor 0x00C ∧ s0.ctx.inBlock = false ∧
    (at0 (leaf 0) { runs regs0 with hold := true }).ctx.hold = true :=
  ⟨enabled0 _, rfl, settled0.region, rfl, by unfold Assigned; decide +kernel, by unfold Assigned; decide +kernel, by unfold MayRead; decide +kernel,
    by unfold MayRead; decide +kernel, by unfold MayWrite MayRead ReadOnly; decide +kernel,
    by unfold MayWrite MayRead ReadOnly; decide +kernel, by unfold MayWrite MayRead ReadOnly; decide +kernel, by decide +kernel⟩

theorem meets_BufferRegisterWrites : NoStep (sm .supervisor 0) ∧ NoRegion (sm .supervisor 0) ∧ BuffersIdle (sm .supervisor 0) ∧
    (sm .supervisor 0).ctx.mode ≠ .user ∧ (sm .supervisor 0).ctx.readable 2 = true :=
  ⟨rfl, by unfold NoRegion; decide +kernel, rfl, by decide +kernel⟩

theorem meets_PrivilegeRules : Enabled f0 s0 ∧ TrapReady s0 ∧ ¬Assigned 0x003 ∧ (Assigned 0x400 ∧ ¬MayRead .user 0x400) ∧
    (Assigned 0x00C ∧ ¬MayWrite .user 0x00C) ∧ s0.ctx.mode = .user ∧ s0.ctx.mode ≠ .firmware :=
  ⟨enabled0 _, trapReady0, by unfold Assigned; decide +kernel, by unfold Assigned MayRead; decide +kernel,
    by unfold Assigned MayWrite MayRead ReadOnly; decide +kernel, rfl, by decide +kernel⟩

theorem core_of {s : State} {P : Core → Prop} (h0 : P Core.reset) (h : ∀ p ∈ s.cores, P p.2) (n : Nat) : P (s.core n) := by
  have key : ∀ t : Tab Core, (∀ p ∈ t, P p.2) → P (tget t n Core.reset) := by
    intro t
    induction t with
    | nil => exact fun _ => h0
    | cons p t ih =>
      intro h
      unfold tget
      split
      · exact h _ (List.mem_cons_self)
      · exact ih fun q hq => h q (List.mem_cons_of_mem _ hq)
  exact key s.cores h

theorem linesAligned_of {s : State} (h : ∀ p ∈ s.cores, ∀ l ∈ p.2.l1, l.va % 64 = 0) : LinesAligned s :=
  core_of (P := fun k => ∀ l ∈ k.l1, l.va % 64 = 0) (by decide +kernel) h

theorem meets_InvalidationAndCaches : NoStep (sm .supervisor 0) ∧ NoRegion (sm .supervisor 0) ∧ LinesAligned (sm .supervisor 0) ∧
    (sm .supervisor 0).ctx.mode ≠ .user ∧ (sm .supervisor 0).ctx.readable 2 = true ∧ ((sm .supervisor 0).ctx.reg 2).toNat < 4096 ∧
    TrapReady (sm .supervisor 0) ∧ ((sm .supervisor 0).ctx.reg 1).toNat ≥ 4096 ∧ (∀ p ∈ (sm .supervisor 0).cores, p.2.sbuf = []) :=
  ⟨rfl, by unfold NoRegion; decide +kernel, linesAligned_of (by decide +kernel), by decide +kernel, by decide +kernel, by decide +kernel,
    trapReady_of (by decide +kernel), by decide +kernel, by decide +kernel⟩

theorem meets_HarvestAndPhase : (∀ n, LogSound ((sm .supervisor 0).core n)) ∧ coreActive (sm .supervisor 0) 0 = true ∧
    sorusActive (sm .supervisor 0) ((sm .supervisor 0).ctx.reg 2).toNat = true ∧ sorusActive (sm .supervisor 0) ((sm .supervisor 0).ctx.reg 1).toNat = false ∧
    (sm .supervisor 0).dev.minimal = false ∧ ¬BadPhase (sm .supervisor 0) 0x9400 false ∧ ¬BadPhase (sm .supervisor 0) 0x9400 true ∧
    BadPhase (sm .supervisor 0) 0x80 false ∧ BadPhase (sm .supervisor 0) 0x80800000 true ∧ (sm .supervisor 0).dev.clamp0 = false :=
  ⟨core_of (by unfold LogSound; decide +kernel) (by unfold LogSound; decide +kernel), by decide +kernel, by decide +kernel, by decide +kernel, rfl, by unfold BadPhase; decide +kernel,
    by unfold BadPhase; decide +kernel, by unfold BadPhase; decide +kernel, by unfold BadPhase; decide +kernel, rfl⟩

/-- A tile of two by two bytes. -/
def tile0 : Tile := ⟨true, 2, 2, some .ui8, false, [1, 2, 3, 4], [3, 7], [4, 6], []⟩

/-- A machine with a tile in t0, and registers as listed. -/
def st (x : Tile) (m : Mode) (g : Tab Word) : State := at0 (leaf 0) { runs g with mode := m, tiles := [(0, x)] }

theorem meets_DebugInjection : (st tile0 .firmware []).ctx.mode = .firmware ∧ (st tile0 .firmware []).ctx.tile 0 = tile0 ∧ tile0.valid = true ∧
    tile0.elems.length = tile0.rows * tile0.cols ∧ (fieldOf (0x0000#64) 8 5 < tile0.rows ∧ fieldOf (0x2100#64) 13 7 < tile0.cols) ∧
    fieldOf (1#64) 0 4 = 1 ∧ fieldOf (2#64) 0 4 = 2 ∧ fieldOf (3#64) 0 4 > 2 ∧ fieldOf (0x200#64) 8 5 ≥ tile0.rows ∧
    TrapReady (st tile0 .firmware []) ∧
    (∃ s : State, s.ctx.ckpt = some { ckpt0 with tiles := [(0, tile0)] } ∧ s.ctx.tile 0 = tile0 ∧ s.ctx.mode = .firmware ∧ s.myCore.stepping = false) :=
  ⟨rfl, rfl, rfl, rfl, by decide +kernel, by decide +kernel, by decide +kernel, by decide +kernel, by decide +kernel,
    trapReady_of (by decide +kernel),
    ⟨at0 (leaf 0) { runs [] with tiles := [(0, tile0)], mode := .firmware, ckpt := some { ckpt0 with tiles := [(0, tile0)] } }, by decide +kernel⟩⟩

theorem meets_TaskEnd : (NoTrace s0 ∧ NoRegion s0 ∧ CoreDrained s0.myCore ∧ bitOf s0.ctx.cpyerr 0 = false ∧ s0.ctx.task = none) ∧
    (at0 (leaf 0) { runs regs0 with task := some ⟨0, some 0, 0, false, false, false⟩ }).ctx.task.isSome = true ∧
    (at0 (leaf 0) { runs regs0 with erstat := 0x100 }).ctx.regionOpen = true :=
  ⟨⟨trapReady0.trace, settled0.region, ⟨rfl, rfl, rfl, rfl, rfl, rfl, rfl, rfl, rfl⟩, by decide +kernel, rfl⟩, rfl, by decide +kernel⟩

/-- A machine with other agents in sorus 0 and another core 1. -/
def su (f : Sorus → Sorus) (k1 : Core := Core.reset) (c : Ctx := runs regs0) : State :=
  { State.reset with cores := [(0, { core0 with c0 := c }), (1, k1)], sori := [(0, f { Sorus.reset with tlb := [page (leaf 0)] })] }

def sa : State := sc fun k => { k with bufA := [(0, tile0)] }

theorem meets_BufferBytes : (Enabled f0 sa ∧ NoStep sa ∧ NoRegion sa ∧ BuffersIdle sa ∧ sa.ctx.readable 2 = true ∧
      (eaOf sa { rm 2 0 0 with sz := .byte }).toNat = 0 ∧ BufReadable sa 0 1 ∧ BufReadable sa 0x4FFFC 4) ∧
    (Mine sa .a 0 ∧ slotAt sa.myCore .a 0 = tile0 ∧ TileSound tile0 ∧ (∀ g, tile0.fmt = some g → g.isMx = false) ∧ tile0.ue = [] ∧
      0 % 0x1000 / 128 < tile0.rows ∧ 0 % 128 + 1 ≤ tile0.cols * tile0.width) ∧
    (TrapReady sa ∧ ({ rm 2 0 0 with sp := 1 } : FmtM).sp.val ≠ 0) :=
  ⟨⟨enabled0 _, rfl, by unfold NoRegion; decide +kernel, rfl, by decide +kernel, by decide +kernel,
      ⟨rfl, ⟨(0, 0x40000, some 0x1000), by decide, by decide, by decide, fun h => absurd h (by decide), fun w h => by
        cases h; exact ⟨by unfold Mine; decide +kernel, fun _ => by decide +kernel⟩⟩⟩,
      ⟨rfl, ⟨(0x4E000, 0x2000, none), by decide, by decide, by decide, fun h => absurd h (by decide), fun w h => by cases h⟩⟩⟩,
    ⟨by unfold Mine; decide +kernel, by decide +kernel, ⟨rfl, by decide +kernel, by decide, by decide +kernel⟩,
      fun g h => by cases h; rfl, rfl, by decide +kernel⟩, trapReady_of (by decide +kernel), by decide⟩

theorem free_of {s : State} (h : s.myCore.stepping = false ∧ s.ctx.wait = none ∧ s.ctx.regionOpen = false) : Free s := ⟨h.1, h.2.1, h.2.2⟩

theorem unitAt_of {s : State} {a : Word} {k lo hi n : Nat} (h : a.toNat < 65536 ∧ a.toNat / 4096 = k ∧ sorusActive s k = true ∧
    (lo ≤ a.toNat % 4096 ∧ a.toNat % 4096 < hi ∧ (a.toNat % 4096 - lo) / 16 = n) ∧ a.toNat % 16 = 0) : UnitAt s a k lo hi n :=
  ⟨h.1, h.2.1, h.2.2.1, h.2.2.2.1, h.2.2.2.2⟩

theorem meets_UnitWindow : Free s0 ∧ BarrierAt s0 0 0 0 ∧ BarrierAt s0 0xF0F0 15 15 ∧ MutexAt s0 0x100 0 0 ∧ MutexAt s0 0xF1F0 15 15 ∧
    LineAt s0 0x200 0 0 ∧ LineAt s0 0xF3F0 15 31 ∧ (MutexAt s0 (0x108 - 8) 0 0 ∧ (mutexAt s0 0 0).held = false) ∧
    (LineAt (su fun k => { k with evlines := [(0, ⟨1, []⟩)] }) (0x208 - 8) 0 0 ∧
      (evLineAt (su fun k => { k with evlines := [(0, ⟨1, []⟩)] }) 0 0).pending ≠ 0) ∧
    (Free (sm .supervisor 0) ∧ (sm .supervisor 0).ctx.mode ≠ .user ∧ (barrierAt (sm .supervisor 0) 0 0).waiters = [] ∧
      (mutexAt (sm .supervisor 0) 0 0).queue = [] ∧ (evLineAt (sm .supervisor 0) 0 0).waiters = []) ∧ TrapReady s0 ∧ s0.ctx.mode = .user :=
  ⟨free_of (by decide +kernel), unitAt_of (by decide +kernel), unitAt_of (by decide +kernel), unitAt_of (by decide +kernel),
    unitAt_of (by decide +kernel), unitAt_of (by decide +kernel), unitAt_of (by decide +kernel),
    ⟨unitAt_of (by decide +kernel), by decide +kernel⟩, ⟨unitAt_of (by decide +kernel), by decide +kernel⟩,
    ⟨free_of (by decide +kernel), by decide +kernel⟩, trapReady0, rfl⟩

theorem nothingSent0 : NothingSent s0 := ⟨⟨rfl, rfl⟩, rfl, by decide +kernel, by decide +kernel, rfl, by decide +kernel, rfl, rfl, rfl⟩

theorem meets_FencesAndCounts : Enabled f0 s0 ∧ NoStep s0 ∧ NoRegion s0 ∧ LinesAligned s0 ∧ (∃ sc, ScopeIs s0 0 sc) ∧ NothingSent s0 ∧
    BuffersIdle s0 ∧ s0.myCore.sends = 0 ∧ bitOf s0.ctx.cpyerr 0 = false ∧ s0.myCore.nonRet.length ≤ 0 ∧ s0.myCore.posted.length ≤ 0 ∧
    TrapReady s0 ∧ NoScope s0 31 :=
  ⟨enabled0 _, rfl, settled0.region, linesAligned_of (by decide +kernel), ⟨_, rfl⟩, nothingSent0, rfl, rfl, by decide +kernel, by decide, by decide,
    trapReady0, by unfold NoScope; decide +kernel⟩

theorem meets_WaitAndWake : Settled s0 ∧ AtHome s0 0x1000 (attr (leaf 0)) ∧ Mapped s0 0x1000 8 .read (attr (leaf 0)) ∧
    Mapped s0 0x1000 4 .write (attr (leaf 0)) ∧ waitSize { rr 4 1 2 0 with ty := .i32 } = 4 ∧
    fromBytes 64 (memBytes s0 (attr (leaf 0)).pa 8) ≠ (s0.ctx.reg 2).setWidth 64 ∧
    fromBytes 64 (memBytes s0 (attr (leaf 0)).pa 8) = (s0.ctx.reg 0).setWidth 64 ∧
    (s0.slice (homeOf (lineOf (attr (leaf 0)).pa))).waits.length < 256 :=
  ⟨settled0, atHome0, mapped0 _ (by decide) _ (by decide), mapped0 _ (by decide) _ (by decide), rfl, by decide +kernel⟩

/-- Barrier 0 of sorus 0 as given; core 1 waits there for a token. -/
def sb (x : Barrier) : State :=
  su (fun k => { k with barriers := [(0, x)] }) { Core.reset with c0 := { Ctx.reset with active := true, wait := some ⟨.barrier 0 0 1, 0, none⟩ } }

def who1 : Who := ⟨1, 0, none⟩

theorem meets_BarrierInstructions : (Free (sb ⟨0, 0, 0, 0, 2, false, 0, 0, [], [], []⟩) ∧ BarrierAt (sb ⟨0, 0, 0, 0, 2, false, 0, 0, [], [], []⟩) 0 0 0 ∧
      barrierAt (sb ⟨0, 0, 0, 0, 2, false, 0, 0, [], [], []⟩) 0 0 = ⟨0, 0, 0, 0, 2, false, 0, 0, [], [], []⟩) ∧
    barrierAt (sb ⟨0, 0, 0, 0, 1, false, 0, 65535, [], [], []⟩) 0 0 = ⟨0, 0, 0, 0, 1, false, 0, 65535, [], [], []⟩ ∧
    (Another (sb ⟨0, 0, 0, 0, 2, false, 1, 0, [⟨who1, some 1, false⟩], [], []⟩) who1 ∧
      tokenOf ⟨0, 0, 0, 0, 2, false, 1, 0, [⟨who1, some 1, false⟩], [], []⟩ = 1 ∧
      ((sb ⟨0, 0, 0, 0, 2, false, 1, 0, [⟨who1, some 1, false⟩], [], []⟩).ctxAt 1 0).wait = some ⟨.barrier 0 0 1, 0, none⟩) ∧
    (⟨0, 2, 0, 1, 1, false, 0, 0, [], [], []⟩ : Barrier).span ≠ 0 ∧ sinceToken Barrier.reset 0 < 0x8000 ∧
    (s0.ctx.reg 0).getLsbD 0 ≠ ((Barrier.reset.phase + 1) % 2 == 1) ∧ TrapReady s0 ∧ (barrierAt s0 0 0).expect = 0 :=
  ⟨⟨free_of (by decide +kernel), unitAt_of (by decide +kernel), by decide +kernel⟩, by decide +kernel,
    ⟨by unfold Another; decide +kernel, by decide +kernel⟩, by decide, by decide, by decide +kernel, trapReady0, by decide +kernel⟩

/-- Mutex 0 of sorus 0 as given; core 1 waits for it. -/
def sx (x : Mutex) : State :=
  su (fun k => { k with mutexes := [(0, x)] }) { Core.reset with c0 := { Ctx.reset with active := true, wait := some ⟨.mutex 0 0, 0, none⟩ } }

theorem meets_MutexesAndEventLines : (Free (sx ⟨false, 0, 0, []⟩) ∧ MutexAt (sx ⟨false, 0, 0, []⟩) 0x100 0 0 ∧
      mutexAt (sx ⟨false, 0, 0, []⟩) 0 0 = ⟨false, 0, 0, []⟩) ∧
    (mutexAt (sx ⟨true, 1, 0, []⟩) 0 0 = ⟨true, 1, 0, []⟩ ∧ ¬(1 = (sx ⟨true, 1, 0, []⟩).me ∧ 0 = (sx ⟨true, 1, 0, []⟩).mycx)) ∧
    (mutexAt (sx ⟨true, 0, 0, []⟩) 0 0 = ⟨true, 0, 0, []⟩ ∧ (sx ⟨true, 0, 0, []⟩).me = 0 ∧ (sx ⟨true, 0, 0, []⟩).mycx = 0) ∧
    (mutexAt (sx ⟨true, 0, 0, [⟨who1, false⟩]⟩) 0 0 = ⟨true, 0, 0, [⟨who1, false⟩]⟩ ∧ Another (sx ⟨true, 0, 0, [⟨who1, false⟩]⟩) who1 ∧
      ((sx ⟨true, 0, 0, [⟨who1, false⟩]⟩).ctxAt 1 0).wait = some ⟨.mutex 0 0, 0, none⟩) ∧ TrapReady (sx ⟨true, 0, 0, []⟩) ∧
    ((evLineAt s0 0 0).waiters = [] ∧ (evLineAt s0 0 0).pending = 0 ∧
      (evLineAt (su fun k => { k with evlines := [(0, ⟨1, []⟩)] }) 0 0).pending ≠ 0) ∧
    (∃ s : State, (evLineAt s 0 0).waiters = [⟨who1, false⟩] ∧ Another s who1 ∧ (s.ctxAt 1 0).wait = some ⟨.evline 0 0, 0, none⟩ ∧
      min ((evLineAt s 0 0).pending + (s.ctx.reg 1).toNat % 2 ^ 32) 0xFFFFFFFF ≠ 0 ∧ LineAt s 0x200 0 0 ∧ Free s) :=
  ⟨⟨free_of (by decide +kernel), unitAt_of (by decide +kernel), by decide +kernel⟩, by decide +kernel, by decide +kernel,
    ⟨by decide +kernel, by unfold Another; decide +kernel, by decide +kernel⟩, trapReady_of (by decide +kernel), by decide +kernel,
    ⟨(su fun k => { k with evlines := [(0, ⟨0, [⟨who1, false⟩]⟩)] }).modCtxAt 1 0 fun c => { c with wait := some ⟨.evline 0 0, 0, none⟩ },
      by decide +kernel, by unfold Another; decide +kernel, by decide +kernel, by decide +kernel, unitAt_of (by decide +kernel),
      free_of (by decide +kernel)⟩⟩

/-- Channel 0 of core 0 as given. -/
def sch (c : Chan) : State := sc fun k => { k with chans := [(0, c)] }

def flit0 (nfm : Bool) : Flit := ⟨1, 0, 0, 0, 1, nfm, [9]⟩

theorem meets_Channels : (Free s0 ∧ (s0.ctx.reg 0) &&& ~~~(0x7F07#64) = 0 ∧ coreActive s0 0 = true ∧ s0.myCore.sends < 16 ∧
      s0.ctx.readable 2 = true) ∧
    ((chanAt (sch ⟨[flit0 false], []⟩).myCore 0).flits = [flit0 false] ∧ FlitSound (flit0 false) ∧
      (flit0 false).nfm = bitOf (sch ⟨[flit0 false], []⟩).ctx.corectl 0 ∧ Free (sch ⟨[flit0 false], []⟩)) ∧
    (TrapReady (sch ⟨[flit0 true], []⟩) ∧ (flit0 true).nfm ≠ bitOf (sch ⟨[flit0 true], []⟩).ctx.corectl 0) ∧ (chanAt s0.myCore 0).flits = [] ∧
    TrapReady s0 ∧ (s0.ctx.reg 1).toNat ≥ 8 :=
  ⟨⟨free_of (by decide +kernel), by decide +kernel⟩, ⟨by decide +kernel, ⟨by decide, by decide, by decide⟩, by decide +kernel,
    free_of (by decide +kernel)⟩, ⟨trapReady_of (by decide +kernel), by decide +kernel⟩, by decide +kernel, trapReady0, by decide +kernel⟩

/-- A context with a region open. -/
def sr : State := at0 (leaf 0) { runs regs0 with erstat := 0x100, ckpt := some ckpt0 }

theorem meets_Regions : (NoRegion s0 ∧ (s0.ctxAt s0.me (1 - s0.mycx)).regionOpen = false) ∧
    (Enabled f0 sr ∧ NoStep sr ∧ sr.ctx.regionOpen = true ∧ sr.ctx.readable 2 = true ∧ sr.ctx.commit = none ∧ sr.ctx.regLines = [] ∧
      sr.ctx.erlo.ule sr.ctx.erhi = true ∧ (∀ n ∈ sr.dev.narrows, ¬(n.core = sr.me ∧ n.cx = sr.mycx)) ∧
      (∀ l ∈ sr.myCore.l1, l.spec ≠ some sr.mycx) ∧ sr.ctx.ckpt = some ckpt0) ∧ TrapReady s0 :=
  ⟨⟨settled0.region, by decide +kernel⟩, ⟨enabled0 _, rfl, by decide +kernel⟩, trapReady0⟩

/-- Cell 0 of core 0 as given. -/
def scell (ctrl : Word) : State := sc fun k => { k with cells := [(0, { Cell.idle with ctrl := ctrl })] }

theorem cellAt_of {s : State} {a : Word} {core k : Nat} (h : a.toNat < 2 ^ 15 ∧ fieldOf a 8 7 = core ∧ fieldOf a 0 8 = k ∧ coreActive s core = true) :
    CellAt s a core k := ⟨h.1, h.2.1, h.2.2.1, h.2.2.2⟩

theorem meets_TaskCells : (Settled s0 ∧ NothingSent s0 ∧ PortFree s0 ∧ CellAt s0 0 s0.me 0 ∧ fieldOf (s0.cellAt 0 0).ctrl 32 2 ≠ 1 ∧
      (s0.ctx.reg 2).toNat < 2 ^ 32 ∧ s0.ctx.reg 2 ≠ 0 ∧ s0.ctx.reg 0 = 0) ∧
    (s0.ctx.reg 1 ≠ 0 ∧ (s0.ctx.reg 1).toNat % 8 = 0 ∧ Mapped s0 (s0.ctx.reg 1).toNat 16 .read (attr (leaf 0)) ∧
      AtHome s0 (s0.ctx.reg 1).toNat (attr (leaf 0)) ∧ fromBytes 64 (memBytes s0 (attr (leaf 0)).pa 8) = 0) ∧
    (Settled (scell (2#64 <<< 32)) ∧ NothingSent (scell (2#64 <<< 32)) ∧ PortFree (scell (2#64 <<< 32)) ∧
      CellAt (scell (2#64 <<< 32)) 0 0 0 ∧ fieldOf ((scell (2#64 <<< 32)).cellAt 0 0).ctrl 32 2 = 2) ∧ fieldOf (s0.cellAt 0 0).ctrl 32 2 = 0 ∧
    (fieldOf ((scell (1#64 <<< 32)).cellAt 0 0).ctrl 32 2 = 1 ∧ bitOf ((scell (1#64 <<< 32)).cellAt 0 0).ctrl 34 = false ∧
      bitOf ((scell (1#64 <<< 32)).cellAt 0 0).status 2 = false ∧ ((scell (1#64 <<< 32)).cellAt 0 0).waiter = none) ∧
    TrapReady (scell (1#64 <<< 32)) :=
  ⟨⟨settled0, nothingSent0, by unfold PortFree; decide +kernel, cellAt_of (by decide +kernel), by decide +kernel⟩,
    ⟨by decide +kernel, by decide +kernel, mapped0 _ (by decide) _ (by decide), atHome0, by decide +kernel⟩,
    ⟨settled_of (by decide +kernel), ⟨⟨rfl, rfl⟩, rfl, by decide +kernel, by decide +kernel, rfl, by decide +kernel, rfl, rfl, rfl⟩, by unfold PortFree; decide +kernel, cellAt_of (by decide +kernel), by decide +kernel⟩,
    by decide +kernel, by decide +kernel, trapReady_of (by decide +kernel)⟩

/-- A packet of three tasks (R369): PC 0x6000000000, cores of sori 0, 1 and 8 with core index 0, no record. -/
def pkt0 : Packet := ⟨0, 0x6000000000, 0x6000020000, 0xFFFF000000000003, 0x10103, 0, 0, 0⟩

/-- The page holds the packet, and queue 0 takes packets of ASID 0. -/
def sp (en : Word) : State := physWrite { s0 with launch := { Launch.reset with conf := [(0, en)] } } 0x100000
  ((leBytes 8 pkt0.ctl.toNat) ++ leBytes 8 pkt0.pc.toNat ++ leBytes 8 pkt0.argp.toNat ++ leBytes 8 pkt0.cnt.toNat ++ leBytes 8 pkt0.shape.toNat)

theorem meets_CancelsAndLaunches : (Settled (sp 1) ∧ (sp 1).ctx.readable 1 = true ∧ (sm .supervisor 0).ctx.mode ≠ .user) ∧
    (NothingSent (sp 1) ∧ Released (sp 1).me (sp 1).myCore devScope ∧ ((sp 1).ctx.reg 1).toNat % 64 = 0 ∧
      Mapped (sp 1) ((sp 1).ctx.reg 1).toNat 64 .read (attr (leaf 0)) ∧ AtHome (sp 1) ((sp 1).ctx.reg 1).toNat (attr (leaf 0)) ∧
      Packet.ofBytes (memBytes (sp 1) (attr (leaf 0)).pa 64) = pkt0 ∧ pkt0.asid = (sp 1).ctx.asid ∧ refuses (sp 1) pkt0 = false ∧
      queueLen (sp 1) pkt0.queue < 16) ∧ (TrapReady (sp 0) ∧ refuses (sp 0) pkt0 = true) :=
  ⟨⟨settled_of (by decide +kernel), by decide +kernel⟩, ⟨⟨⟨rfl, rfl⟩, rfl, by decide +kernel, by decide +kernel, rfl, by decide +kernel, rfl, rfl, rfl⟩, fun l h => absurd h (List.not_mem_nil (a := l)), by decide +kernel,
    mapped_of (page (leaf 0)) (by decide +kernel), atHome_of (by decide +kernel), by decide +kernel⟩, trapReady_of (by decide +kernel), by decide +kernel⟩

/-- A TM body of two rows of two bytes at [g1], packed. -/
def rtm (x : Bool) : FmtTM :=
  { cols := 1, rows := 1, var := 0, rr := x, sat := false, rnd := .rne, dm := .nfm, fm := some .ui8, gb := 0, ga := 1, t := 0, off := 0
    first := if x then 1 else 0, last := if x then 1 else 0 }

/-- The tile with its checks. -/
def tile1 : Tile := tile0.withChecks

/-- The attributes of row i of the body's tile. -/
def rowAttr (i : Nat) : Attr := attrOf (leaf 0) (0x1000 + 2 * i) 12

theorem ready_of {s : State} (h : Settled s) (t : bitOf s.dev.trace.ctl 0 = false) (g : s.ctx.fwdGot = []) : Ready s := ⟨h, t, g⟩

theorem atHomeRow_of {s : State} {va n : Nat} {acc : Access} {a : Attr} (e : TlbEntry)
    (h : canonical va = true ∧ 0 < n ∧ va % 4096 + n ≤ 4096 ∧ ((s.sorus (sorusOf s.me)).tlb.find? fun e =>
        (e.asid == s.ctx.asid || bitOf e.leaf 10) && va / 2 ^ e.size == e.va / 2 ^ e.size) = some e ∧
      a = attrOf e.leaf va e.size ∧ leafAllows e.leaf acc s.ctx.mode = true ∧ a.fwd = 0 ∧ (a.kind = 2 ∨ (a.kind = 0 ∧ a.c = false)) ∧
      a.pa % 4096 = va % 4096)
    (k : (∀ i, i < 128 → lineOf a.pa + i < lineOf (a.pa + n - 1) + 64 → (keyOf s (lineOf a.pa + i)).isSome) ∧
      lineOf (a.pa + n - 1) + 64 ≤ lineOf a.pa + 128 ∧
      (∀ x, x < n → l1Find s s.me s.ctx.asid (va + x) = none) ∧ (∀ x, x < n → poisonedAt s (a.pa + x) = false))
    (held : ∀ x, x < n → HomeHeld s (lineOf (a.pa + x)))
    (q : acc = .write → ∀ x, x < n → Noted s (va + x) ∧ Unwatched s (lineOf (a.pa + x)) ∧ SideHeld s (lineOf (a.pa + x))) : AtHomeRow s va n acc a :=
  ⟨h.1, h.2.1, h.2.2.1, ⟨e, h.2.2.2.1, h.2.2.2.2.1, h.2.2.2.2.2.1⟩, h.2.2.2.2.2.2.1, h.2.2.2.2.2.2.2.1, h.2.2.2.2.2.2.2.2,
    fun p h1 h2 => by
      have := k.1 (p - lineOf a.pa) (by have := k.2.1; omega) (by omega)
      rwa [Nat.add_sub_cancel' h1] at this, k.2.2.1, k.2.2.2, held, q⟩

/-- The line at 0x100000 stands in its home slice, with an entry of the side array. -/
def sth (x : Tile) (m : Mode) (g : Tab Word) : State := { st x m g with
  slices := [(homeOf 0x100000, { Slice.reset with tags := [⟨0x100000, false, false, false⟩], side := [⟨0x100000, 0, 0, []⟩] })] }

theorem meets_TileLoads : (Enabled f0 (sth tile1 .user regs0) ∧ Ready (sth tile1 .user regs0) ∧ TmReadable (rtm false) (sth tile1 .user regs0) ∧
      (rtm false).first.val ≤ (rtm false).last.val ∧
      ∀ i, rowRange (rtm false) i → AtHomeRow (sth tile1 .user regs0) (addrOf (sth tile1 .user regs0) (rtm false) 2 i) 2 .read (rowAttr i)) ∧
    (tileAt (sth tile1 .user regs0) 0 = tile1 ∧ TileSound tile1 ∧ tile1.valid = true ∧ tile1.fmt = some .ui8 ∧ tile1.ue = [] ∧
      tile1.dom = (domainOf .nfm (sth tile1 .user regs0) && Fmt.hasDomain .ui8)) ∧
    (∀ i, i < 2 → InL1 (sc fun k => { k with l1 := [line0] }) (addrOf (sc fun k => { k with l1 := [line0] }) (rtm false) 2 i) 2) := by
  refine ⟨⟨enabled0 _, ready_of (settled_of (by decide +kernel)) (by decide +kernel) rfl, by unfold TmReadable; decide +kernel, by decide, ?_⟩,
    ⟨by decide +kernel, ⟨rfl, by decide +kernel, by decide +kernel, by decide +kernel⟩, by decide +kernel⟩, ?_⟩
  · intro i hi
    have hi : i < 2 := hi
    rcases (by omega : i = 0 ∨ i = 1) with rfl | rfl <;>
      exact atHomeRow_of (page (leaf 0)) (by decide +kernel) (by decide +kernel) (by unfold HomeHeld; decide +kernel) (fun h => absurd h (by decide))
  · intro i hi
    have l : ∀ i, i < 2 → ∀ x, x < 2 → l1Find (sc fun k => { k with l1 := [line0] }) (sc fun k => { k with l1 := [line0] }).me
        (sc fun k => { k with l1 := [line0] }).ctx.asid (addrOf (sc fun k => { k with l1 := [line0] }) (rtm false) 2 i + x) = some line0 := by
      decide +kernel
    have p : ∀ i, i < 2 → ∀ x, x < 2 →
        line0.pres.getLsbD ((addrOf (sc fun k => { k with l1 := [line0] }) (rtm false) 2 i + x) % 64) = true ∧
        isControl (line0.pa + addrOf (sc fun k => { k with l1 := [line0] }) (rtm false) 2 i % 64 + x) = false := by decide +kernel
    have q : ∀ i, i < 2 → canonical (addrOf (sc fun k => { k with l1 := [line0] }) (rtm false) 2 i) = true ∧
        addrOf (sc fun k => { k with l1 := [line0] }) (rtm false) 2 i % 4096 + 2 ≤ 4096 := by decide +kernel
    exact ⟨(q i hi).1, by decide, (q i hi).2, fun x hx => ⟨line0, l i hi x hx, rfl, rfl, fun _ => rfl, (p i hi x hx).1, rfl⟩,
      fun l' hl x hx => by have h0 := l i hi 0 (by decide); rw [Nat.add_zero] at h0; rw [h0] at hl; cases hl; exact (p i hi x hx).2⟩

/-- A tile with an element changed after its checks, and one with a bad check on each side. -/
def tile2 : Tile := { tile1 with elems := [1, 2, 3, 5] }
def tile3 : Tile := { tile1 with elems := [1, 9, 3, 5] }

theorem meets_TileStores : (Ready (sth tile1 .user regs0) ∧ (sth tile1 .user regs0).memOk ∧ tileAt (sth tile1 .user regs0) 0 = tile1 ∧
      (∀ i, i < 2 → AtHomeRow (sth tile1 .user regs0) (addrOf (sth tile1 .user regs0) (rtm false) 2 i) 2 .write (rowAttr i)) ∧
      (∀ i, i < 2 → ∀ j, j < 2 → i ≠ j → (rowAttr i).pa + 2 ≤ (rowAttr j).pa ∨ (rowAttr j).pa + 2 ≤ (rowAttr i).pa) ∧
      (∀ i, i < 2 → ∀ j, j < 2 → ∀ u, u < 2 → ∀ v, v < 2 →
        keyOf (sth tile1 .user regs0) ((rowAttr i).pa + u) = keyOf (sth tile1 .user regs0) ((rowAttr j).pa + v) →
          (rowAttr i).pa + u = (rowAttr j).pa + v) ∧ tile1.verify.state = 0) ∧
    (TrapReady (st tile2 .user regs0) ∧ tile2.verify.state ≠ 0) ∧
    ¬((sth tile1 .user regs0).ctx.tile 1).valid = true := by
  refine ⟨⟨ready_of (settled_of (by decide +kernel)) (by decide +kernel) rfl, rfl, by decide +kernel, ?_, by decide +kernel, by decide +kernel,
    by decide +kernel⟩, ⟨trapReady_of (by decide +kernel), by decide +kernel⟩, by decide +kernel⟩
  intro i hi
  have w : ∀ x, x < 4 → noteAt (sth tile1 .user regs0) (sth tile1 .user regs0).me (sth tile1 .user regs0).ctx.xlat (0x1000 + x) =
      some (sth tile1 .user regs0) := by decide +kernel
  have q : Unwatched (sth tile1 .user regs0) 0x100000 :=
    ⟨Or.inl (by decide +kernel), Or.inl (by decide +kernel), Or.inl (by decide +kernel), by decide +kernel, by decide +kernel⟩
  have l : ∀ x, x < 4 → lineOf (0x100000 + x) = 0x100000 := by decide
  rcases (by omega : i = 0 ∨ i = 1) with rfl | rfl
  · exact atHomeRow_of (page (leaf 0)) (by decide +kernel) (by decide +kernel) (by unfold HomeHeld; decide +kernel) (fun _ x hx => by
      have e : lineOf ((rowAttr 0).pa + x) = 0x100000 := l x (by omega)
      rw [e]; exact ⟨w x (by omega), q, by unfold SideHeld; decide +kernel⟩)
  · exact atHomeRow_of (page (leaf 0)) (by decide +kernel) (by decide +kernel) (by unfold HomeHeld; decide +kernel) (fun _ x hx => by
      have e : lineOf ((rowAttr 1).pa + x) = 0x100000 := by have := l (2 + x) (by omega); rwa [← Nat.add_assoc] at this
      rw [e]; exact ⟨(Nat.add_assoc 0x1000 2 x) ▸ w (2 + x) (by omega), q, by unfold SideHeld; decide +kernel⟩)

/-- Slot 0 of buffer A, and t0, hold the tile. -/
def sta (g : Tab Word) : State := at0 (leaf 0) { runs g with tiles := [(0, tile1)] } { core0 with bufA := [(0, tile1)] }

theorem meets_TilesAndBuffers : (Enabled f0 (sta []) ∧ NoStep (sta []) ∧ NoRegion (sta []) ∧ NoTrace (sta []) ∧ BuffersIdle (sta []) ∧
      (tmEa (sta []) (rtm false)).toNat = 0 ∧ Mine (sta []) .a 0 ∧ slotAt (sta []).myCore .a 0 = tile1 ∧ tileAt (sta []) 0 = tile1 ∧
      tile1.valid = true ∧ tile1.rows = 2 ∧ tile1.cols = 2 ∧ tile1.fmt = some .ui8 ∧ tile1.ue = []) ∧
    (TrapReady (sta [(1, 0x40000)]) ∧ OffSlots .a (tmEa (sta [(1, 0x40000)]) (rtm false)).toNat) ∧
    (TrapReady (sta [(1, 0x50000)]) ∧ (tmEa (sta [(1, 0x50000)]) (rtm false)).toNat / 0x1000 ≥ slotsOf .a ∧
      ¬OffSlots .a (tmEa (sta [(1, 0x50000)]) (rtm false)).toNat) ∧
    ((tmEa (sta [(1, 8)]) (rtm false)).toNat % 0x1000 ≠ 0 ∧ Mine (sta [(1, 8)]) .a 0) ∧ (slotAt (sta []).myCore .a 1).valid = false ∧ bufOf 1 = .w :=
  ⟨⟨enabled0 _, rfl, by unfold NoRegion; decide +kernel, by unfold NoTrace; decide +kernel, rfl, by unfold Mine; decide +kernel⟩, ⟨trapReady_of (by decide +kernel), by unfold OffSlots; decide +kernel⟩,
    ⟨trapReady_of (by decide +kernel), by decide +kernel, by unfold OffSlots; decide +kernel⟩,
    ⟨by decide +kernel, by unfold Mine; decide +kernel⟩, by decide +kernel, rfl⟩

/-- A TM body of one cell at [g1]. -/
def rcell : FmtTM := { rtm false with cols := 0, rows := 0, fm := some .f32 }

/-- One FP32 element with its checks. -/
def tile4 : Tile := Tile.withChecks ⟨true, 1, 1, some .f32, false, [0x3F800000], [], [], []⟩

def stc : State := st tile4 .user regs0

theorem cells_ready (acc : Access) (h : acc ∈ [Access.write, .both]) : CellsReady stc rcell acc fun _ _ => attr (leaf 0) := by
  intro i j hi hj
  have hi : i < 1 := hi
  have hj : j < 1 := hj
  obtain rfl : i = 0 := by omega
  obtain rfl : j = 0 := by omega
  have e : cellAddr stc rcell 0 0 = 0x1000 := by decide +kernel
  have l : ∀ acc ∈ [Access.write, .both], leafAllows (leaf 0) acc stc.ctx.mode = true := by decide +kernel
  rw [e]
  exact ⟨by decide, mapped_of (page (leaf 0)) ⟨by decide +kernel, by decide, by decide, by decide +kernel, by decide +kernel, l acc h,
    by decide +kernel⟩, atHome_of (by decide +kernel), by unfold Noted; decide +kernel,
    unwatched_of rfl _ (by decide +kernel)⟩

theorem meets_TilesAndCells : (Enabled f0 stc ∧ Ready stc ∧ TmReadable rcell stc ∧ (tmEa stc rcell).toNat % 64 = 0 ∧
      (strideOf stc rcell (64 * (rcell.cols.val + 1))).toNat % 64 = 0) ∧
    (CellsReady stc rcell .write fun _ _ => attr (leaf 0)) ∧ (CellsReady stc rcell .both fun _ _ => attr (leaf 0)) ∧
    (tileAt stc 0 = tile4 ∧ tile4.valid = true ∧ tile4.rows = 1 ∧ tile4.cols = 1 ∧ tile4.fmt = some .f32 ∧ tile4.ue = [] ∧ tile4.verify.state = 0) :=
  ⟨⟨enabled0 _, ready_of (settled_of (by decide +kernel)) (by decide +kernel) rfl, by unfold TmReadable; decide +kernel, by decide +kernel⟩,
    cells_ready _ (by decide), cells_ready _ (by decide), by decide +kernel⟩

/-- A T body. -/
def rt (fd fa : Fmt) (td ta tb tc : Fin 16) (ga : Fin 64) : FmtT :=
  { var := 0, sat := false, rnd := .rne, dm := .nfm, fd := some fd, fa := some fa, ga := ga, tc := tc, tb := tb, ta := ta, td := td
    rowsm1 := 1, colsm1 := 1 }

/-- g5 is an element, g6 the index of row 1, column 1, g8 an index outside. -/
def regs1 : Tab Word := [(5, 7), (6, 0x81), (8, 0x1000)]

theorem meets_TileElements : (Enabled f0 (st tile1 .user regs1) ∧ NoStep (st tile1 .user regs1) ∧ NoTrace (st tile1 .user regs1) ∧
      tileAt (st tile1 .user regs1) 0 = tile1 ∧ (rt .i8 .ui8 1 0 0 0 5).fd = some .i8 ∧ tile1.valid = true ∧ tile1.ue = [] ∧
      tile1.width = Fmt.bytes .i8 ∧ Fmt.isMx .i8 = false) ∧
    (((st tile1 .user regs1).ctx.reg 6).toNat < 2 ^ 12 ∧ rowOf ((st tile1 .user regs1).ctx.reg 6) < tile1.rows ∧
      colOf ((st tile1 .user regs1).ctx.reg 6) < tile1.cols ∧ TileSound tile1 ∧ ∀ g, tile1.fmt = some g → g.isMx = false) ∧
    (TrapReady (st tile1 .user regs1) ∧ (tileAt (st tile1 .user regs1) 3).valid = false ∧ ((st tile1 .user regs1).ctx.reg 8).toNat ≥ 2 ^ 12) :=
  ⟨⟨enabled0 _, rfl, by unfold NoTrace; decide +kernel, by decide +kernel⟩, ⟨by decide +kernel, by decide +kernel, by decide +kernel,
    ⟨rfl, by decide +kernel, by decide +kernel, by decide +kernel⟩, fun g h => by cases h; rfl⟩, trapReady_of (by decide +kernel), by decide +kernel⟩

/-- A descriptor of a copy of 64 bytes from 0x2000 to 0x3000 (R340), one of a broadcast of 64 bytes by core 0 to itself (R347), and one
without a dimension. -/
def descCopy : List Byte := leBytes 8 0x2000 ++ leBytes 8 0x3000 ++ leBytes 8 1 ++ leBytes 4 64 ++ List.replicate 100 0
def descColl : List Byte := leBytes 8 0x2000 ++ leBytes 8 0x3000 ++ leBytes 8 0 ++ leBytes 8 64 ++ leBytes 16 1 ++ List.replicate 80 0

/-- The L1 holds 128 bytes at 0x1000. -/
def sdesc (bs : List Byte) (g : Tab Word) : State :=
  at0 (leaf 0) (runs g) { core0 with l1 := [{ line0 with data := bs.take 64 }, { line0 with va := 0x1040, pa := 0x100040, data := bs.drop 64 }] }

theorem inL1_of {s : State} {va n : Nat} (h : canonical va = true ∧ 0 < n ∧ va % 4096 + n ≤ 4096)
    (k : ∀ x, x < n → (match l1Find s s.me s.ctx.asid (va + x) with
      | some l => l.spec.isNone && l.rd && l.usr && l.pres.getLsbD ((va + x) % 64) && l.data.length == 64
      | none => false) = true)
    (d : ∀ x, x < n → (match l1Find s s.me s.ctx.asid va with
      | some l => !isControl (l.pa + va % 64 + x)
      | none => false) = true) : InL1 s va n :=
  ⟨h.1, h.2.1, h.2.2, fun x hx => by
    have := k x hx
    revert this
    cases l1Find s s.me s.ctx.asid (va + x) with
    | none => exact fun h => Bool.noConfusion h
    | some l => exact fun h => ⟨l, rfl, by simp at h; exact ⟨h.1.1.1.1, h.1.1.1.2, fun _ => h.1.1.2, h.1.2, h.2⟩⟩, fun l hl x hx => by
    have := d x hx
    rw [hl] at this
    simpa using this⟩

/-- The state in which copies are issued: g1 names the descriptor, g2 a cell of core 0, g3 a length, g5 one above 2^40. -/
def sd (bs : List Byte) : State := sdesc bs [(1, 0x1000), (2, 3), (3, 64), (5, 0x10000000001)]

theorem meets_CopiesAndCollectives : (Enabled f0 (sd descCopy) ∧ NoStep (sd descCopy) ∧ NoRegion (sd descCopy) ∧ NoTrace (sd descCopy) ∧
      LinesAligned (sd descCopy) ∧ BuffersIdle (sd descCopy) ∧ (sd descCopy).dev.posted = [] ∧ (sd descCopy).myCore.wc = [] ∧ InL1 (sd descCopy) 0x1000 128 ∧ descCopy = l1Bytes (sd descCopy) 0x1000 128 ∧
      (copyDescOf descCopy).ok = true ∧ (copyBuffers (copyDescOf descCopy)).run (sd descCopy) = .ok () (sd descCopy) ∧
      CellAt (sd descCopy) ((sd descCopy).ctx.reg 2) 0 3) ∧
    (InL1 (sd descColl) 0x1000 128 ∧ descColl = l1Bytes (sd descColl) 0x1000 128 ∧ (collOf (sd descColl) 1 descColl).ok 0 descColl = true ∧
      (rangesM (collOf (sd descColl) 1 descColl).slotRanges).run (sd descColl) = .ok () (sd descColl) ∧ (sd descColl).myCore.withdrawn = []) ∧
    (TrapReady (sd descColl) ∧ (copyDescOf descColl).ok = false) ∧ ((sd descCopy).ctx.reg 3 ≠ 0 ∧ ((sd descCopy).ctx.reg 3).toNat ≤ 2 ^ 40) ∧
    (sd descCopy).ctx.reg 0 = 0 ∧ ((sd descCopy).ctx.reg 5).toNat > 2 ^ 40 :=
  ⟨⟨enabled0 _, rfl, by unfold NoRegion; decide +kernel, by unfold NoTrace; decide +kernel, linesAligned_of (by decide +kernel), rfl, rfl, rfl,
      inL1_of (by decide +kernel) (by decide +kernel) (by decide +kernel), by decide +kernel, by decide +kernel, rfl, cellAt_of (by decide +kernel)⟩,
    ⟨inL1_of (by decide +kernel) (by decide +kernel) (by decide +kernel), by decide +kernel, by decide +kernel, rfl, rfl⟩,
    ⟨trapReady_of (by decide +kernel), by decide +kernel⟩, by decide +kernel⟩

/-- A tile of one row from its encodings, with checks. -/
def row (f : Fmt) (l : List Nat) : Tile := Tile.withChecks ⟨true, 1, l.length, some f, false, l, [], [], []⟩

/-- The tiles of a product: A in t0, B in t1 and t5, C in t2, scales in t3 and t4, metadata in t6. -/
def sma (fa fd : Fmt) (ka kb : Nat) (n : Nat) : State := { State.reset with
  cores := [(n, { Core.reset with c0 := { runs [] with tiles := [(0, row fa (List.replicate ka 2)), (1, row fa (List.replicate kb 3)),
    (2, row fd [1]), (3, row .ui8 [127]), (4, row .ui8 [127]), (5, row fa (List.replicate kb 1)), (6, row .ui8 [0x44])] } })]
  cur := ⟨Fin.ofNat 128 n, 0⟩ }

theorem source_of {s : State} {n : Nat} {f : Option Fmt} {x : Tile} (h : x = tileAt s n ∧ x.valid = true ∧ x.fmt = f ∧ x.ue = []) : Source s n f x :=
  ⟨h.1, h.2.1, h.2.2.1, h.2.2.2⟩

theorem seedIs_of {s : State} {r : FmtT} {n : Nat} (h : r.rnd ≠ .sr) : SeedIs s r n 0 := by unfold SeedIs; rw [if_neg h]

theorem meets_MatrixProducts :
    (Enabled f0 (sma .i8 .i32 2 2 0) ∧ NoTrace (sma .i8 .i32 2 2 0) ∧ SeedIs (sma .i8 .i32 2 2 0) (rt .i32 .i8 2 0 1 0 0) 0 0 ∧
      Source (sma .i8 .i32 2 2 0) 0 (some .i8) (row .i8 [2, 2]) ∧ Source (sma .i8 .i32 2 2 0) 1 (some .i8) (row .i8 [3, 3]) ∧
      Source (sma .i8 .i32 2 2 0) 2 (some .i32) (row .i32 [1]) ∧ FormatsMeet false .i8 (row .i8 [3, 3]) ∧
      ChecksOut (sma .i8 .i32 2 2 0) (rt .i32 .i8 2 0 1 0 0) .i32 (denseOps (row .i8 [2, 2]) (row .i8 [3, 3]) (row .i32 [1])) 0) ∧
    (isXCore (sma .f32 .f32 1 1 7).me = true ∧ Source (sma .f32 .f32 1 1 7) 0 (some .f32) (row .f32 [2]) ∧
      ChecksOut (sma .f32 .f32 1 1 7) (rt .f32 .f32 2 0 1 0 0) .f32 (denseOps (row .f32 [2]) (row .f32 [3]) (row .f32 [1])) 0) ∧
    (Source (sma .mxi8 .f32 32 32 0) 0 (some .mxi8) (row .mxi8 (List.replicate 32 2)) ∧
      Source (sma .mxi8 .f32 32 32 0) 3 (some .ui8) (row .ui8 [127]) ∧ Source (sma .mxi8 .f32 32 32 0) 4 (some .ui8) (row .ui8 [127]) ∧
      ChecksOut (sma .mxi8 .f32 32 32 0) (rt .f32 .mxi8 2 0 1 3 0) .f32
        { denseOps (row .mxi8 (List.replicate 32 2)) (row .mxi8 (List.replicate 32 3)) (row .f32 [1]) with
          terms := fun i j => (upTo 32).map fun k => (mxValue (row .mxi8 (List.replicate 32 2)) (row .ui8 [127]) i k,
            mxValue (row .mxi8 (List.replicate 32 3)) (row .ui8 [127]) j k), isum := fun _ _ => 0 } 0) ∧
    (Source (sma .i8 .i32 4 4 0) 6 (some .ui8) (row .ui8 [0x44]) ∧ (row .i8 [2, 2, 2, 2]).cols % 4 = 0 ∧
      Source (sma .i8 .i32 4 4 0) 5 (some .i8) (row .i8 [1, 1, 1, 1]) ∧ groupOk (groupPos (row .ui8 [0x44]) 0 0) = true ∧
      groupOk (groupPos (row .ui8 [0x44]) 0 1) = true ∧ ChecksOut (sma .i8 .i32 4 4 0) (rt .i32 .i8 2 0 1 6 0) .i32
        (sparseOps (row .i8 [2, 2, 2, 2]) (row .ui8 [0x44]) (row .i8 [3, 3, 3, 3]) (row .i8 [1, 1, 1, 1]) (row .i32 [1])) 0) ∧
    (TrapReady (sma .i8 .i32 2 2 0) ∧ (tileAt (sma .i8 .i32 2 2 0) 3).fmt ≠ some .i8) ∧
    (isXCore (sma .f32 .f32 1 1 0).me = false ∧ bitOf (at0 (leaf 0) { runs [] with tcfg := 1 }).ctx.tcfg 0 = true) :=
  ⟨⟨enabled0 _, by unfold NoTrace; decide +kernel, seedIs_of (by decide), source_of (by decide +kernel), source_of (by decide +kernel),
      source_of (by decide +kernel), (show Fmt.i8 = Fmt.i8 from rfl), ⟨⟨rfl, rfl⟩, by decide +kernel⟩⟩,
    ⟨by decide +kernel, source_of (by decide +kernel), ⟨⟨rfl, rfl⟩, by decide +kernel⟩⟩,
    ⟨source_of (by decide +kernel), source_of (by decide +kernel), source_of (by decide +kernel), ⟨⟨rfl, rfl⟩, by decide +kernel⟩⟩,
    ⟨source_of (by decide +kernel), by decide +kernel, source_of (by decide +kernel), by decide +kernel, by decide +kernel, ⟨⟨rfl, rfl⟩, by decide +kernel⟩⟩,
    ⟨trapReady_of (by decide +kernel), by decide +kernel⟩, by decide +kernel⟩

theorem meets_ChecksAndRepair : (Enabled f0 (st tile1 .user regs1) ∧ Source (st tile1 .user regs1) 0 (some .ui8) tile1 ∧ tile1.verify.state = 0) ∧
    (Source (st tile2 .user regs1) 0 (some .ui8) tile2 ∧ tile2.verify.state = 1 ∧ TileSound tile2) ∧
    (Source (st tile3 .user regs1) 0 (some .ui8) tile3 ∧ tile3.verify.state = 2 ∧ TrapReady (st tile3 .user regs1)) ∧
    (st tile1 .supervisor regs1).ctx.mode ≠ .user ∧ (st tile1 .user regs1).ctx.mode = .user ∧ ((st tile1 .user [(6, 31)]).ctx.reg 6).toNat < 32 ∧
    ((st tile1 .user [(6, 127)]).ctx.reg 6).toNat < 128 :=
  ⟨⟨enabled0 _, source_of (by decide +kernel), by decide +kernel⟩,
    ⟨source_of (by decide +kernel), by decide +kernel, ⟨rfl, by decide +kernel, by decide, by decide +kernel⟩⟩,
    ⟨source_of (by decide +kernel), by decide +kernel, trapReady_of (by decide +kernel)⟩, by decide +kernel⟩

/-- Three like tiles in t0, t1 and t2, and a tile of flags in t3. -/
def stt (f : Fmt) (l : List Nat) : State :=
  at0 (leaf 0) { runs regs0 with tiles := [(0, row f l), (1, row f l), (2, row f l), (3, row .ui8 (List.replicate l.length 1))] }

theorem elementwise_of {r : FmtT} {s : State} {fa fd : Fmt} {a : Tile} (h : s.myCore.stepping = false ∧ bitOf s.dev.trace.ctl 0 = false ∧
    r.fa = some fa ∧ r.fd = some fd) (c : OnItsCore s r) (a' : Source s r.ta.val (some fa) a) : Elementwise f0 r s fa fd a :=
  ⟨enabled0 _, h.1, h.2.1, c, h.2.2.1, h.2.2.2, a'⟩

theorem noF64 {s : State} {fd fa : Fmt} {a b c d : Fin 16} {g : Fin 64} (h : fa ≠ .f64 ∧ fd ≠ .f64) : OnItsCore s (rt fd fa a b c d g) := by
  rintro (e | e) <;> simp [rt] at e
  · exact absurd e h.1
  · exact absurd e h.2

theorem meets_ElementwiseArithmetic : Elementwise f0 (rt .f32 .f32 4 0 1 2 0) (stt .f32 [0x3F800000, 0]) .f32 .f32 (row .f32 [0x3F800000, 0]) ∧
    Elementwise f0 (rt .i8 .i8 4 0 1 2 1) (stt .i8 [1, 255]) .i8 .i8 (row .i8 [1, 255]) ∧ Fmt.isMx .f32 = false ∧
    SecondIs (stt .f32 [0x3F800000, 0]) (rt .f32 .f32 4 0 1 2 0) false .f32 (row .f32 [0x3F800000, 0]) (row .f32 [0x3F800000, 0]) ∧
    SecondIs (stt .f32 [0x3F800000, 0]) (rt .f32 .f32 4 0 1 2 0) true .f32 (row .f32 [0x3F800000, 0]) Tile.empty ∧
    Source (stt .f32 [0x3F800000, 0]) 2 (some .f32) (row .f32 [0x3F800000, 0]) ∧ SeedIs (stt .f32 []) (rt .f32 .f32 4 0 1 2 0) 0 0 ∧
    TrapReady (stt .f32 [0x3F800000, 0]) ∧ (tileAt (stt .f32 [0x3F800000, 0]) 3).fmt ≠ some .f32 ∧
    (Elementwise f0 (rt .f32 .i8 4 0 1 2 0) (stt .i8 (List.replicate 128 1)) .i8 .f32 (row .i8 (List.replicate 128 1)) ∧ Fmt.shapeOk .f32 1 128 = false) :=
  ⟨elementwise_of ⟨rfl, by decide +kernel, rfl, rfl⟩ (noF64 (by decide)) (source_of (by decide +kernel)),
    elementwise_of ⟨rfl, by decide +kernel, rfl, rfl⟩ (noF64 (by decide)) (source_of (by decide +kernel)), rfl,
    ⟨source_of (by decide +kernel), rfl, rfl⟩, (show (stt .f32 [0x3F800000, 0]).ctx.readable 0 = true from by decide +kernel), source_of (by decide +kernel), seedIs_of (by decide),
    trapReady_of (by decide +kernel), by decide +kernel,
    ⟨elementwise_of ⟨rfl, by decide +kernel, rfl, rfl⟩ (noF64 (by decide)) (source_of (by decide +kernel)), by decide +kernel⟩⟩

theorem meets_TileSelectionAndConversion :
    Elementwise f0 (rt .f16 .f32 4 0 1 3 0) (stt .f32 [0x3F800000, 0]) .f32 .f16 (row .f32 [0x3F800000, 0]) ∧
    SecondIs (stt .f32 [0x3F800000, 0]) (rt .f16 .f32 4 0 1 3 0) false .f32 (row .f32 [0x3F800000, 0]) (row .f32 [0x3F800000, 0]) ∧
    Fmt.shapeOk .f16 1 2 = true ∧ Source (stt .f32 [0x3F800000, 0]) 3 (some .ui8) (row .ui8 [1, 1]) ∧
    (Elementwise f0 (rt .f32 .mxi8 4 0 1 3 0) (stt .mxi8 (List.replicate 32 1)) .mxi8 .f32 (row .mxi8 (List.replicate 32 1)) ∧
      Fmt.shapeOk .f32 1 32 = true ∧ (row .ui8 [127]).cols = 32 / 32) ∧
    (Fmt.isMx .mxi8 = true ∧ Fmt.shapeOk .mxi8 1 32 = true ∧
      Elementwise f0 (rt .f32 .mxi8 4 0 1 0 0) (stt .mxi8 (List.replicate 32 1)) .mxi8 .f32 (row .mxi8 (List.replicate 32 1)) ∧
      TrapReady (stt .mxi8 (List.replicate 32 1)) ∧ (rt .f32 .mxi8 4 0 1 0 0).tc.val = 0) ∧ 2 ≤ ({ rt .ui8 .f32 4 0 1 3 0 with var := 4 } : FmtT).var.val % 16 :=
  ⟨elementwise_of ⟨rfl, by decide +kernel, rfl, rfl⟩ (noF64 (by decide)) (source_of (by decide +kernel)), ⟨source_of (by decide +kernel), rfl, rfl⟩,
    by decide +kernel, source_of (by decide +kernel),
    ⟨elementwise_of ⟨rfl, by decide +kernel, rfl, rfl⟩ (noF64 (by decide)) (source_of (by decide +kernel)), by decide +kernel, rfl⟩,
    ⟨rfl, by decide +kernel, elementwise_of ⟨rfl, by decide +kernel, rfl, rfl⟩ (noF64 (by decide)) (source_of (by decide +kernel)),
      trapReady_of (by decide +kernel), rfl⟩, by decide⟩

theorem meets_TileBitsLayoutAndIota : Elementwise f0 (rt .ui8 .ui8 4 0 1 3 2) (stt .ui8 [3]) .ui8 .ui8 (row .ui8 [3]) ∧
    SecondIs (stt .ui8 [3]) (rt .ui8 .ui8 4 0 1 3 2) false .ui8 (row .ui8 [3]) (row .ui8 [3]) ∧ Fmt.isInt .ui8 = true ∧
    ((row .ui8 [3]).rows = 1 ∧ (row .ui8 [3]).cols = 1 ∧ Fmt.shapeOk .ui8 ((stt .ui8 [3]).ctx.reg 2).toNat 1 = true ∧
      Fmt.shapeOk .ui8 1 ((stt .ui8 [3]).ctx.reg 2).toNat = true ∧ Fmt.shapeOk .ui8 1 1 = true) ∧
    (NoTrace (stt .ui8 [3]) ∧ OnItsCore (stt .ui8 [3]) (rt .i32 .ui8 4 0 1 3 2)) :=
  ⟨elementwise_of ⟨rfl, by decide +kernel, rfl, rfl⟩ (noF64 (by decide)) (source_of (by decide +kernel)), ⟨source_of (by decide +kernel), rfl, rfl⟩, rfl,
    by decide +kernel, by unfold NoTrace; decide +kernel, noF64 (by decide)⟩

/-! ### States for the device events -/

def c00 : CtxId := ⟨0, 0⟩

/-- An open region of context 0 with fields as changed. -/
def sg (f : Ctx → Ctx) (k : Core → Core) (l : Word := leaf 0x20) : State :=
  at0 l (f { runs regs0 with erstat := 0x100, erhi := BitVec.allOnes 64, ckpt := some ckpt0 }) (k core0)

/-- A line of the region in the L1. -/
def spec0 : L1Line := { line0 with dirty := 0xFF, spec := some 0 }

def sEvent : State := at0 (leaf 0) { runs regs0 with events := [⟨0x60, false, 0⟩] }
def sNarrow : State := { sr with dev := { Device.reset with narrows := [⟨0, 0, 3, true, some 5⟩, ⟨0, 0, 3, false, none⟩] } }
def commit0 : Commit := ⟨9, [homeOf 0x100000], [], [(0x100000, maskedBytes 0x100000 0xFF (List.replicate 64 7))], 8⟩
def sCommit : State := sg (fun c => { c with commit := some commit0, regLines := [(0x100000, true)] }) (fun k => { k with l1 := [spec0] })

theorem meets_RegionEvents : (∃ e, (sEvent.ctxAt 0 0).events = [e] ∧ e.code < 128 ∧ coreActive sEvent 0 = true ∧
      isStopped (sEvent.core 0) 0 = false ∧ (sEvent.ctxAt 0 0).active = true ∧ bitOf (sEvent.ctxAt 0 0).tvec 0 = true ∧
      bitOf (sEvent.ctxAt 0 0).estat 2 = false ∧ (sEvent.ctxAt 0 0).regionOpen = false ∧ (sEvent.ctxAt 0 0).commit = none ∧ paused (sEvent.core 0) 0 = false ∧ NoTrace sEvent) ∧
    (coreActive (sg id id) 0 = true ∧ paused (sg (fun c => { c with abort := some (5, 0, 0) }) id |>.core 0) 0 = false) ∧
    (∃ x, x = (sg (fun c => { c with abort := some (5, 0, 0) }) id).ctxAt 0 0 ∧ x.regionOpen = true ∧ x.commit = none ∧ x.ckpt = some ckpt0 ∧
      x.abort = some (5, 0, 0)) ∧
    (∃ x, x = (sg (fun c => { c with erlo := 8, erhi := 7 }) id).ctxAt 0 0 ∧ x.regionOpen = true ∧ x.abort = none ∧ x.erhi.ult x.erlo = true) ∧
    (coreActive (sg id id) 0 = true ∧ Mapped (actingAs (sg id id) c00) 0x1000 1 .read (attr (leaf 0x20)) ∧
      Mapped (actingAs (sg id id) c00) 0x1000 1 .write (attr (leaf 0x20)) ∧ l1Find (sg id id) 0 0 0x1000 = none ∧ (attr (leaf 0x20)).cached ∧
      ((sg id id).ctxAt 0 0).regLines = [] ∧ ((sg id id).slice (homeOf 0x100000)).side = [] ∧
      holders (sg id id) (sorusOf 0) 0x100000 = [] ∧ ((sg id id).core 0).wc = [] ∧ ((sg id id).core 0).nonRet = [] ∧ ((sg id id).ctxAt 0 0).intervalEmpty = false ∧ SideRoom (sg id id) 0x100000) ∧
    (∃ m, sNarrow.dev.narrows[0]? = some m ∧ m.core = 0 ∧ m.cx = 0 ∧ (sNarrow.ctxAt 0 0).regionOpen = true ∧ (sNarrow.ctxAt 0 0).commit = none ∧ m.bound = some 5 ∧
      ∃ m', sNarrow.dev.narrows[1]? = some m' ∧ m'.core = 0 ∧ m'.cx = 0 ∧ m'.bound = none) ∧
    (∃ k, (sCommit.ctxAt 0 0).commit = some k ∧ homeOf 0x100000 ∈ k.slices ∧ (sCommit.ctxAt 0 0).regLines = [(0x100000, true)] ∧
      homeOf 0x100000 < 128 ∧ sCommit.memOk ∧ (∀ i, i < 64 → (keyOf sCommit (0x100000 + i)).isSome) ∧
      k.writes.lookup 0x100000 = some (maskedBytes 0x100000 0xFF (List.replicate 64 7))) :=
  ⟨⟨⟨0x60, false, 0⟩, by unfold NoTrace; decide +kernel⟩,
    by decide +kernel, ⟨_, rfl, by decide +kernel⟩, ⟨_, rfl, by decide +kernel⟩,
    ⟨by decide +kernel, mapped_of (page (leaf 0x20)) (by decide +kernel), mapped_of (page (leaf 0x20)) (by decide +kernel), by decide +kernel,
      by unfold Attr.cached; decide +kernel, by decide +kernel, by decide +kernel, by decide +kernel, rfl, rfl, by decide +kernel, (room_of rfl _).2⟩,
    ⟨_, rfl, by decide +kernel, by decide +kernel, by decide +kernel, by decide +kernel, rfl, ⟨_, rfl, by decide +kernel⟩⟩,
    ⟨commit0, by decide +kernel, by decide +kernel, by decide +kernel, by decide +kernel, rfl, by decide +kernel, by decide +kernel⟩⟩

/-- A region at a line of set 0 of the side array of slice 0. -/
def sSide : State := { sg id id with slices := [(0, { Slice.reset with side := [⟨0, 0, 0, [⟨0, 0, true, false, false, 0, 9⟩]⟩] })] }

theorem meets_ErrorEvents : (st tile1 .user []).ctx.tile 0 = tile1 ∧ tile1.valid = true ∧ UnderEcc (.scalar c00 1) ∧
    (∃ e ∈ (sSide.slice 0).side, sideSet e.line = 0 % 128 ∧ ∃ w ∈ e.slots, (sSide.ctxAt w.core w.cx).regionOpen = true ∧
      (sSide.ctxAt w.core w.cx).commit = none ∧ (sSide.ctxAt w.core w.cx).abort = none) ∧
    4 ≤ ((su fun k => { k with hardEvents := 4 }).sorus 0).hardEvents :=
  ⟨rfl, rfl, (show UnderEcc (.scalar c00 1) from trivial), ⟨_, List.mem_cons_self, rfl, _, List.mem_cons_self, by decide +kernel⟩, by decide +kernel⟩

theorem lineThere_of {s : State} {pa : Nat} (h : pa % 64 = 0 ∧ ∀ i, i < 64 → (keyOf s (pa + i)).isSome) : LineThere s pa := ⟨h.1, h.2⟩

def wc0 : WcLine := ⟨0x100000, none, 1, List.replicate 64 7⟩

theorem meets_HomeEvents :
    (LineThere s0 (lineOf 0x100000) ∧ s0.memOk ∧
      ((sc fun k => { k with nonRet := [⟨0, [.atomic (atomicOf 0) false 0x100000 1], [], false, false, []⟩] }).core 0).nonRet =
        [⟨0, [.atomic (atomicOf 0) false 0x100000 1], [], false, false, []⟩]) ∧
    ((sc fun k => { k with nonRet := [⟨0, [], [], false, false, []⟩] }).core 0).nonRet = [⟨0, [], [], false, false, []⟩] ∧
    (coreActive (sk 0x20) 0 = true ∧ Mapped (actingAs (sk 0x20) c00) 0x1000 1 .read (attr (leaf 0x20)) ∧
      AtHome (actingAs (sk 0x20) c00) 0x1000 (attr (leaf 0x20)) ∧ (attr (leaf 0x20)).cached ∧ ((sk 0x20).core 0).nonRet = [] ∧
      bitOf ((sk 0x20).core 0).sbase 0 = false) ∧
    (((sc fun k => { k with l1 := [{ line0 with dirty := 1 }] }).core 0).l1[0]? = some { line0 with dirty := 1 } ∧
      ({ line0 with dirty := 1 } : L1Line).dirty ≠ 0 ∧ LineThere s0 line0.pa ∧ (core0.nonRet = [])) ∧
    (({ line0 with pa := 0x1000 } : L1Line).dirty = 0 ∧ ({ line0 with pa := 0x1000 } : L1Line).spec = none ∧
      ((sc fun k => { k with l1 := [{ line0 with pa := 0x1000 }] }).core 0).l1[0]? = some { line0 with pa := 0x1000 } ∧
      line0.va % 64 = 0 ∧ dieOf (homeOf 0x1000) ≠ dieOf 0) ∧
    ((sc fun k => { k with wc := [wc0] }).core 0).wc[0]? = some wc0 ∧
    (LineThere s0 0x1000 ∧ dieOf 0 ≠ dieOf (homeOf 0x1000) ∧ ((s0.slice 0).tags = []) ∧
      0x1000 ∈ ((sc fun k => { k with victims := [0x1000] }).core 0).victims ∧ HomeRoom s0 0x1000) ∧
    (0x1000, []) ∈ (({ s0 with slices := [(0, { Slice.reset with inval := [(0x1000, [])] })] } : State).slice 0).inval ∧
    (512 ≤ logWaiting { core0 with dlTail := 600 } ∧ LogSound { core0 with dlTail := 600 }) :=
  ⟨⟨lineThere_of (by decide +kernel), rfl, by decide +kernel⟩, by decide +kernel,
    ⟨by decide +kernel, mapped_of (page (leaf 0x20)) (by decide +kernel), atHome_of (by decide +kernel), by unfold Attr.cached; decide +kernel,
      by decide +kernel⟩,
    ⟨rfl, by decide +kernel, lineThere_of (by decide +kernel), rfl⟩, by decide +kernel, rfl,
    ⟨lineThere_of (by decide +kernel), by decide +kernel, rfl, List.mem_cons_self, (room_of rfl _).1⟩, List.mem_cons_self,
    ⟨by decide +kernel, by unfold LogSound; decide +kernel⟩⟩

/-- A request of slice 3 for granule 2 of stack 0. -/
def req0 : MemReq := ⟨1, 3, 0, 2, 0xFF, List.replicate 64 7, false⟩

def itReq0 : ItReq := ⟨1, 3, 0, 2048, 0xC0000, false⟩

/-- Stack 0 as given. -/
def sst (k : Stack) : State := { s0 with stackTab := [(0, k)] }

theorem served0 (n : Nat) (h : n = 32 ∨ n = 64) : Served s0 0 req0 n :=
  ⟨⟨rfl, by decide +kernel⟩, by decide +kernel, rfl, by decide +kernel, fun _ => by decide +kernel, by decide +kernel, by
    rcases h with rfl | rfl <;> decide +kernel⟩

theorem meets_ControllerEvents : (CleanStack s0 0 ∧ Served s0 0 req0 32 ∧ Served s0 0 req0 64 ∧ s0.memOk ∧ ({ req0 with mask := 0 } : MemReq).mask = 0) ∧
    (Served (sst { Stack.reset with poison := [2] }) 0 { req0 with mask := 0 } 32 ∧
      poisonedAt (sst { Stack.reset with poison := [2] }) (reqPa 0 { req0 with mask := 0 }) = true) ∧
    (ItServed s0 0 itReq0 1 ∧ FreeFrame s0 0 itReq0.dframe.val) ∧
    (((sst { Stack.reset with moves := [⟨1, 1, 0xC0000, 1023, true, 0, 3, false⟩] }).stack 0).moves[0]? =
      some ⟨1, 1, 0xC0000, 1023, true, 0, 3, false⟩) ∧
    ((((sst { Stack.reset with replies := [⟨0, 1, 3, 0, []⟩] }).stack 0).replies.filter fun x => x.op == 0)[0]? = some ⟨0, 1, 3, 0, []⟩ ∧
      ((sst { Stack.reset with replies := [⟨0, 1, 3, 0, []⟩] }).slice 3).missq = []) ∧
    ((sst { Stack.reset with retreq := [(false, 7)] }).stack 0).retreq = [(false, 7)] ∧
    (BankBusy { sst { Stack.reset with postponed := [(0, 8)] } with slices := [(3, { Slice.reset with banks := [(0, bankKey 0 0)] })] } 0 (bankKey 0 0) ∧
      8 ≤ tget ((sst { Stack.reset with postponed := [(0, 8)] }).stack 0).postponed (bankKey 0 0) 0 ∧ ¬BankBusy s0 0 (bankKey 0 0) ∧
      tget (s0.stack 0).postponed (bankKey 0 0) 0 < 8) ∧
    (∀ held ∈ [none, some (0x8A86#64, false), some (0x86#64, true)], ∀ q ∈ [false, true], ∃ s : State, s.dev.retraining = true ∧
      s.dev.clkHeld = held ∧ s.dev.quiet = q ∧ s.dev.clamp0 = false ∧ s.dev.clamp1 = false ∧ s.dev.relock0 = [] ∧ s.dev.relock1 = [] ∧ ∀ p ∈ s.slices, p.2.sent = [] ∧ p.2.missq = []) ∧
    (∃ s : State, s.dev.retraining = true ∧ ∃ p ∈ s.slices, p.2.sent ≠ []) ∧
    (dieHolds { s0.dev with relock0 := [20] } 0 = [20] ∧ dieHolds { s0.dev with relock1 := [20, 20, 24] } 1 = [20, 20, 24] ∧ dieHolds s0.dev 1 = []) :=
  ⟨⟨by unfold CleanStack; decide +kernel, served0 _ (Or.inl rfl), served0 _ (Or.inr rfl), rfl, rfl⟩,
    ⟨⟨⟨rfl, by decide +kernel⟩, by decide +kernel, rfl, by decide +kernel, fun h => absurd h (by decide), by decide +kernel, by decide +kernel⟩, by decide +kernel⟩,
    ⟨⟨⟨rfl, by decide +kernel⟩, rfl, by decide +kernel, by decide +kernel, by decide +kernel⟩,
      ⟨by decide +kernel, by decide +kernel, by decide +kernel, by decide +kernel⟩⟩,
    rfl, ⟨rfl, by decide +kernel⟩, rfl, by unfold BankBusy; decide +kernel,
    fun held _ q _ => ⟨{ s0 with dev := { Device.reset with retraining := true, clkHeld := held, quiet := q } }, rfl, rfl, rfl, rfl, rfl, rfl, rfl,
      fun p h => absurd h List.not_mem_nil⟩,
    ⟨{ s0 with dev := { Device.reset with retraining := true }, slices := [(3, { Slice.reset with sent := [(0, 1)] })] }, rfl, _,
      List.mem_cons_self, by decide +kernel⟩, by decide +kernel⟩

/-- A walker's pointer to the last table of the page at 0x1000, whose leaf stands in memory (R74, R79). -/
def swalk : State := physWrite { s0 with sori := [(0, { Sorus.reset with ptrs := [⟨0, 0, 3, 0, 0x50000⟩] })] } 0x50008 (leBytes 8 0x1003C3)

/-- A context that waits, and the access or request it waits for. -/
def swait (k : WaitKind) (d : Device → Device) : State := { at0 (leaf 0) { runs regs0 with wait := some ⟨k, 0, none⟩ } with dev := d Device.reset }

def sown (reads : Nat) (x : Word) (d : Device → Device) : State :=
  { s0 with sori := [(0, { Sorus.reset with tlb := [{ page x with reads := reads }] })], dev := d Device.reset }

def remote0 (ret : Bool) : Remote := ⟨1, 7, 0, 0, ret, .exactClear 0⟩

/-- A page request of context 0 of core 0, a read that waits for the host, a translation request for the page, a partner's tags. -/
def pageReq0 : PageReq := ⟨0, 0x2000, 0, true, false, true, [(0, 0)]⟩
def fwd0 : Forwarded := ⟨3, ⟨0, 0, none⟩, 0, 0x2000, 8, .read, ⟨0, false⟩⟩
def ats0 : AtsReq := ⟨0, 0, 0x1000, 0⟩
def port0 (o : List Remote) (r : List (Nat × List Byte)) : Port :=
  { Port.reset with up := true, partners := [(Port.reset.peer, { Partner.reset with outstanding := o, results := r })] }

theorem meets_TranslationEvents :
    (∃ levels table l, (swalk.sorus 0).walker = 0 ∧ canonical 0x1000 = true ∧ coreActive swalk 0 = true ∧
      (∀ e ∈ (swalk.sorus 0).tlb, e.asid ≠ (swalk.ctxAt 0 0).asid ∧ bitOf e.leaf 10 = false) ∧
      (levels, table) = startOf (swalk.sorus 0) 0 (swalk.ctxAt 0 0).asid 0x1000 (fieldOf (swalk.ctxAt 0 0).ptroot 18 34 * 2 ^ 18) ∧
      (walkFrom swalk 0 (swalk.ctxAt 0 0).asid 0x1000 table [] levels).1 = .ok l ∧
      mapsHole swalk (attrOf l.word 0x1000 l.size) = false ∧ leafAllows l.word .read (swalk.ctxAt 0 0).mode = true ∧
      swalk.memOk ∧ (keyOf swalk (l.entryPa + 1)).isSome) ∧
    (∃ q, (swait (.pageReq 0x2000) fun d => { d with pageReqs := [pageReq0] }).dev.pageReqs[0]? = some q ∧ q.who = [(0, 0)] ∧
      WaitsAt ((swait (.pageReq 0x2000) fun d => { d with pageReqs := [pageReq0] }).ctxAt 0 0) (.pageReq q.va) 0) ∧
    (∃ e, ((sown 0 (leaf 0 ||| 1#64 <<< 54) fun d => { d with atsReqs := [ats0] }).sorus 0).tlb[0]? = some e ∧ ToHost e ∧ AsksFor 0 e ats0) ∧
    (∃ w, (swait (.forward 3) fun d => { d with forwarded := [fwd0] }).dev.forwarded[0]? = some w ∧
      w.who = ⟨0, 0, none⟩ ∧ WaitsAt ((swait (.forward 3) fun d => { d with forwarded := [fwd0] }).ctxAt 0 0) (.forward w.id) 0 ∧
      Answerable (swait (.forward 3) fun d => { d with forwarded := [fwd0] }) w) ∧
    (∃ r, (outstandingOps (swait (.remote 7) fun d => { d with ports := [(0, port0 [remote0 true] [])] })).find? (fun r => r.id == 7) = some r ∧
      WaitsAt ((swait (.remote 7) fun d => { d with ports := [(0, port0 [remote0 true] [])] }).ctxAt 0 0) (.remote 7) 0) ∧
    (∃ e, ((sown 1 (leaf 0 ||| 3#64 <<< 53) fun d => { d with mhcfg := 0x101 }).sorus 0).tlb[0]? = some e ∧
      HintDue (sown 1 (leaf 0 ||| 3#64 <<< 53) fun d => { d with mhcfg := 0x101 }) e) := by
  refine ⟨⟨[3], 0x50000, ⟨0x1003C3, 0x50008, 0x1000, 12⟩, rfl, by decide +kernel, by decide +kernel, by decide +kernel, by decide +kernel, ?_,
    by unfold State.memOk; decide +kernel⟩, ⟨_, rfl, rfl, rfl⟩,
    ⟨_, rfl, by unfold ToHost; decide +kernel, ⟨rfl, rfl, rfl⟩⟩, ⟨_, rfl, rfl, rfl, Or.inl ⟨rfl, fun p h => absurd h List.not_mem_nil⟩⟩,
    ⟨_, rfl, rfl⟩, ⟨_, rfl, ⟨by decide +kernel, by decide +kernel, by decide +kernel, by decide +kernel⟩⟩⟩
  have h : (match (walkFrom swalk 0 (swalk.ctxAt 0 0).asid 0x1000 0x50000 [] [3]).1 with
    | .ok l => l == ⟨0x1003C3, 0x50008, 0x1000, 12⟩
    | .error _ => false) = true := by decide +kernel
  revert h
  cases (walkFrom swalk 0 (swalk.ctxAt 0 0).asid 0x1000 0x50000 [] [3]).1 with
  | ok l => exact fun h => by simp only [beq_iff_eq] at h; rw [h]
  | error e => exact fun h => Bool.noConfusion h

/-- Port 0 up, with operations and results. -/
def sport (o : List Remote) (r : List (Nat × List Byte)) : State :=
  { at0 (leaf 0) { runs regs0 with wait := some ⟨.remote 7, 0, none⟩ } with
    dev := { Device.reset with ports := [(0, port0 o r)] } }

theorem meets_LinkEvents : (LineThere s0 (lineOf 0x100000) ∧ 0x100000 % 64 + 64 ≤ 64 ∧ (∀ i, i < 64 → poisonedAt s0 (0x100000 + i) = false) ∧ s0.memOk) ∧
    ((portAt (sport [] []) 0).up = true ∧ (hbmOf (sport [] []) 0x100000).isSome ∧ LineThere (sport [] []) 0x100000 ∧ (sport [] []).memOk ∧
      firstPoison (sport [] []) 0x100000 64 = none ∧ firstPoison { sport [] [] with stackTab := [(0, { Stack.reset with poison := [0x8000] })] } 0x100000 64 = some 0x100000) ∧
    (partnerOf (sport [] [(5, [])]) 0).results.find? (fun r => r.1 == 5) = some (5, []) ∧
    ((partnerOf (sport [remote0 true] []) 0).outstanding = [remote0 true] ∧ (remote0 true).returns = true ∧
      WaitsAt ((sport [remote0 true] []).ctxAt 0 0) (.remote 7) 0) ∧
    ((partnerOf (sport [remote0 false] []) 0).outstanding = [remote0 false] ∧ (remote0 false).returns = false) :=
  ⟨⟨lineThere_of (by decide +kernel), by decide +kernel, by decide +kernel, rfl⟩,
    ⟨by decide +kernel, by decide +kernel, lineThere_of (by decide +kernel), rfl, by decide +kernel, by decide +kernel⟩, by decide +kernel,
    ⟨by decide +kernel, rfl, rfl⟩, by decide +kernel⟩

theorem meets_PowerEvents : (List.replicate 32 (0 : Byte)).length = 32 ∧ (s0.dev.judged = false ∧ s0.dev.bootOk = false) ∧
    ({ s0.dev with bootOk := true } : Device).bootOk = true ∧ ({ s0.dev with fails := 3 } : Device).fails = 3 ∧
    (1 < dieAfter s0.dev 0 ∧ 1 < dieAfter { s0.dev with relock0 := [20] } 0 ∧ dieClamped s0.dev 0 = false ∧ dieClamped { s0.dev with clamp0 := true } 0 = true) ∧
    (dieClamped { s0.dev with clamp1 := true, c1clk := 31 } 1 = true ∧ dieAfter { s0.dev with clamp1 := true, c1clk := 31 } 1 ≠ 0) := by
  decide +kernel

/-- A report for barrier 0 of sorus 0, which spans two sori. -/
def srep (done : Nat) : State :=
  { su fun k => { k with barriers := [(0, ⟨0, 2, done, 1, 3, false, 0, 0, [], [], []⟩)] } with
    dev := { Device.reset with reports := [⟨8, 0, 0, .port⟩], completions := [(0, 0)] } }

def sflit (n : Nat) (r : List Flit) : State :=
  { sc fun k => { k with chans := [(0, ⟨List.replicate n (flit0 false), r⟩)] } with dev := { Device.reset with flits := [flit0 false] } }

/-- Its root has been removed, and context 0 of core 0 waits for the barrier of sorus 0. -/
def sgone : State :=
  { at0 (leaf 0) { runs regs0 with wait := some ⟨.barrier 0 0 0, 0, none⟩ } with
    sori := [(0, { Sorus.reset with barriers := [(0, ⟨8, 2, 0, 1, 3, true, 3, 0, [⟨⟨0, 0, none⟩, none, false⟩], [], []⟩)] })]
    dev := { Device.reset with reports := [⟨0, 8, 0, .mesh⟩], removed := [8] } }

theorem meets_UnitEvents : ((srep 0).dev.reports[0]? = some ⟨8, 0, 0, .port⟩ ∧ 0 ∉ (srep 0).dev.removed ∧ (barrierAt (srep 0) 0 0).done < 31 ∧ (barrierAt (srep 0) 0 0).done + 1 ≠ (barrierAt (srep 0) 0 0).nsor) ∧
    (barrierAt (srep 1) 0 0).done + 1 = (barrierAt (srep 1) 0 0).nsor ∧
    ((0, 0) ∈ (srep 0).dev.completions ∧ (barrierAt (srep 0) 0 0).waiters = [] ∧
      (barrierAt (srep 0) 0 0).arrived ≠ (barrierAt (srep 0) 0 0).expect) ∧
    (sgone.dev.reports[0]? = some ⟨0, 8, 0, .mesh⟩ ∧ 8 ∈ sgone.dev.removed ∧ ∃ w, (barrierAt sgone 0 0).waiters = [w] ∧ w.who = ⟨0, 0, none⟩ ∧
      WaitsAt (sgone.ctxAt 0 0) (.barrier 0 0 0) 0) ∧
    ((mutexAt (sx ⟨true, 0, 0, [⟨who1, false⟩]⟩) 0 0).queue = [⟨⟨1, 0, none⟩, false⟩] ∧
      WaitsAt ((sx ⟨true, 0, 0, [⟨who1, false⟩]⟩).ctxAt 1 0) (.mutex 0 0) 0) ∧ (∀ p ∈ (s0.sorus 0).evlines, p.2.waiters = []) ∧
    ((sflit 15 []).dev.flits = [flit0 false] ∧ coreActive (sflit 15 []) 0 = true ∧ (chanAt ((sflit 15 []).core 0) 0).refused = [] ∧
      (chanAt ((sflit 15 []).core 0) 0).flits.length < 16) ∧ 16 ≤ (chanAt ((sflit 16 []).core 0) 0).flits.length ∧
    (chanAt ((sflit 15 [flit0 false]).core 0) 0).refused = [flit0 false] :=
  ⟨⟨rfl, by decide +kernel⟩, by decide +kernel, by decide +kernel, ⟨rfl, by decide +kernel, _, rfl, rfl, rfl⟩, ⟨by decide +kernel, rfl⟩, by decide +kernel⟩

/-- A copy that has moved all its bytes, and one with a part left that no page maps. -/
def copy0 (l : List (Nat × Nat)) : EngineOp :=
  .copy ⟨0, 1, ⟨0, 0, .user⟩, copyDescOf (leBytes 8 0x0100000000000000 ++ leBytes 8 0x3000 ++ leBytes 8 1 ++ leBytes 4 64), some 3, ⟨l, none, [], none, false, [], []⟩⟩

/-- A broadcast that waits for core 1's contribution, and that contribution. -/
def coll0 : Coll := { collOf s0 1 descColl with cores := 3, nth := 1 }

def msg0 (op : Nat) : CollMsg := ⟨0, 1, 0, op, 64, 0, 3, false, ⟨1, [], []⟩⟩

def seng (e : List EngineOp) (d : Device → Device) : State := { sc fun k => { k with engine := e } with dev := d Device.reset }

def sarm (ctrl : Word) (cpc : Word) (w : Option Who) : State :=
  { at0 (leaf 0) { runs regs0 with wait := some ⟨.cell 0, 0, none⟩ } { core0 with cells := [(0, { Cell.idle with ctrl := ctrl, cpc := cpc, waiter := w })] } with
    dev := { Device.reset with decrs := [⟨0, 0, 1, 0, 0, none⟩] } }

theorem armed_of {s : State} {core cell : Nat} (h : fieldOf (s.cellAt core cell).ctrl 32 2 = 1 ∧ coreActive s core = true ∧
    ∀ p ∈ (s.core core).waitingPlace, p.by_ ≠ .cell) : Armed s core cell (s.cellAt core cell) := ⟨rfl, h.1, h.2.1, h.2.2⟩

theorem meets_EngineCellRegisterEvents :
    (∃ c, ((seng [copy0 []] id).core 0).engine = [.copy c] ∧ Going c.prog ∧ c.prog.left = [] ∧ c.prog.posts = [] ∧ c.cell = some 3 ∧ NoTrace (seng [copy0 []] id)) ∧
    (Going (copy0 [(0, 64)]).prog ∧ (0x11, 0x3000) ∈ engineFaults (seng [copy0 [(0, 64)]] id) 0 (copy0 [(0, 64)]) ∧
      bitOf ((seng [copy0 [(0, 64)]] id).ctxAt 0 0).cpyerr 0 = false) ∧
    ((seng [.coll coll0] fun d => { d with collMsgs := [msg0 0] }).dev.collMsgs.find? (fun m => m.dst == 0 && m.src == 1 && m.id == 0) = some (msg0 0) ∧
      collIndex ((seng [.coll coll0] fun d => { d with collMsgs := [msg0 0] }).core 0) 0 = some 0 ∧ Going coll0.prog ∧ Agrees coll0 (msg0 0) ∧
      coll0.op ≠ (msg0 1).op) ∧
    ((seng [.coll coll0] fun d => { d with withdrawals := [⟨0, 0, 3, 1, 0⟩] }).dev.withdrawals.find? (fun w => w.dst == 0 && w.id == 0) = some ⟨0, 0, 3, 1, 0⟩ ∧
      coll0.cores = 3 ∧ coll0.nth = 1 ∧ collIndex (s0.core 0) 0 = none ∧ collCount (s0.core 0) (0, 3) < 1 ∧
      collIndex ((seng [.coll coll0] id).core 0) 0 = some 0 ∧ 1 ≤ collCount (sc (fun k => { k with colls := [((0, 3), 1, 0)] }) |>.core 0) (0, 3)) ∧
    ((sarm (1#64 <<< 32 ||| 2) 0 none).dev.decrs[0]? = some ⟨0, 0, 1, 0, 0, none⟩ ∧
      Armed (sarm (1#64 <<< 32 ||| 2) 0 none) 0 0 ((sarm (1#64 <<< 32 ||| 2) 0 none).cellAt 0 0) ∧
      1 < fieldOf ((sarm (1#64 <<< 32 ||| 2) 0 none).cellAt 0 0).ctrl 0 32 ∧ fieldOf ((sarm (1#64 <<< 32 ||| 1) 0 none).cellAt 0 0).ctrl 0 32 ≤ 1) ∧
    (Armed (sarm (1#64 <<< 32) 0x1000 none) 0 0 ((sarm (1#64 <<< 32) 0x1000 none).cellAt 0 0) ∧
      ((sarm (1#64 <<< 32) 0x1000 none).core 0).runList.length < 32 ∧ spilledFor (sarm (1#64 <<< 32) 0x1000 none) 0 = false) ∧
    (((sarm (1#64 <<< 32) 0 (some ⟨0, 0, none⟩)).cellAt 0 0).waiter = some ⟨0, 0, none⟩ ∧
      WaitsAt ((sarm (1#64 <<< 32) 0 (some ⟨0, 0, none⟩)).ctxAt 0 0) (.cell 0) 0) ∧ (s0.core 0).engine = [] ∧ MayWrite (s0.ctxAt 0 0).mode 0x001 :=
  ⟨⟨_, rfl, ⟨rfl, rfl⟩, rfl, rfl, rfl, by unfold NoTrace; decide +kernel⟩, ⟨⟨rfl, rfl⟩, by decide +kernel, by decide +kernel⟩,
    ⟨rfl, by decide +kernel, ⟨rfl, rfl⟩, by unfold Agrees; decide +kernel, by decide +kernel⟩, by decide +kernel,
    ⟨rfl, armed_of (by decide +kernel), by decide +kernel, by decide +kernel⟩, ⟨armed_of (by decide +kernel), by decide +kernel⟩,
    ⟨rfl, rfl⟩, rfl, by unfold MayWrite MayRead ReadOnly; decide +kernel⟩

/-- Two packets that wait, of phases 0 and 1, and the launch unit that holds them with queue 0 as `conf` says. -/
def q1 : Queued := ⟨pkt0, 0, 5, 1, false⟩
def q2 : Queued := ⟨{ pkt0 with ctl := 0x100000000 }, 0, 5, 2, false⟩
def q3 : Queued := { q2 with pkt := { pkt0 with ctl := 0x200000000 } }

def sl (conf : Word) (f : Launch → Launch) : State :=
  { sp conf with launch := f { Launch.reset with conf := [(0, conf)] } }

theorem first_q1 (conf time : Word) : First (sl conf fun l => { l with queued := [q2, q1], time := time }) q1 := by
  refine ⟨List.mem_cons_of_mem _ List.mem_cons_self, Or.inl (by decide +kernel), fun e he _ hne => ?_⟩
  have h2 : e = q2 := by
    rcases List.mem_cons.mp he with h | h
    · exact h
    · exact absurd (List.mem_singleton.mp h) hne
  subst h2
  exact Or.inr ⟨rfl, Or.inr ⟨Iff.rfl, Or.inr ⟨rfl, by decide⟩⟩⟩

/-- The arbiter reads the launch unit alone. -/
theorem first_dev {s : State} {q : Queued} (h : First s q) (d : Device) : First { s with dev := d } q := ⟨h.listed, h.eligible, h.wins⟩

/-- A range of three tasks, its flit for position 1, and the fan-out slot it came from. -/
def range0 : Range := ⟨0x1000, 0x3000, 3, 2, 0, 1, 0xFFFF, 7, false, false, false⟩

def fan0 : FanFlit := ⟨0, 1, 1, 0, range0, false, 0⟩

/-- A launch that has run all its tasks; its record goes to the page at 0x1000. -/
def ctr0 (crec : Word) : LaunchCtr := ⟨1, 0, 3, 0, 0, false, false, false, false, { pkt0 with crec := crec }⟩

theorem meets_LaunchEvents : (NoTrace (sp 1) ∧ refuses (sp 1) pkt0 = false ∧ queueLen (sp 1) 0 < 16 ∧ pkt0.queue = 0) ∧
    (NoTrace (sp 0) ∧ refuses (sp 0) pkt0 = true ∧ pkt0.crec = 0) ∧ packetBad (sp 1) pkt0 = false ∧
    (∃ s q, First s q ∧ ¬Late s q ∧ freeCtr s = some 0 ∧ freeFan s = some 0 ∧ targets s q.pkt = [0, 8, 64] ∧ topologyMoves s = false) ∧
    (∃ s q, First s q ∧ Late s q ∧ bitOf (queueConf s q.queue) 1 = false ∧ freeCtr s = some 0 ∧ freeFan s = some 0 ∧ targets s q.pkt = [0, 8, 64] ∧ topologyMoves s = false) ∧
    (∃ s q, First s q ∧ ¬Late s q ∧ topologyMoves s = true) ∧
    (∃ s q, First s q ∧ Late s q ∧ bitOf (queueConf s q.queue) 1 = true ∧ q.pkt.crec = 0) ∧
    (∃ s p, s.launch.flits[0]? = some fan0 ∧ coreActive s fan0.dst = true ∧ (s.core fan0.dst).stub = [] ∧ (s.core fan0.dst).waitingPlace = [] ∧
      (s.core fan0.dst).runList.length < 32 ∧ spilledFor s fan0.dst = false ∧
      (s.launch.slots.find? fun p => p.2.lctr == fan0.range.lctr) = some p ∧ fan0.pos < fan0.range.count) ∧
    (∃ s p, NoPlacing s ∧ (s.launch.spill.find? fun p => p.core == 0) = some p ∧ (s.core 0).runList.length < 32) ∧
    (∃ (s : State) (c : LaunchCtr), s.launch.ctrs.lookup 0 = some c ∧ c.left = 0 ∧ c.pkt.crec = 0) ∧
    (∃ (s : State) (c : LaunchCtr) (pa : Nat), s.launch.ctrs.lookup 0 = some c ∧ c.left = 0 ∧ RecordAt s c.pkt pa ∧ s.memOk ∧ c.fcount < 2 ^ 16 ∧ c.last < 128 ∧ NoTrace s) :=
  ⟨⟨by unfold NoTrace; decide +kernel, by decide +kernel⟩, ⟨by unfold NoTrace; decide +kernel, by decide +kernel⟩, by decide +kernel,
    ⟨_, q1, first_q1 1 0, by unfold Late; decide +kernel, by decide +kernel⟩, ⟨_, q1, first_q1 1 9, by unfold Late; decide +kernel, by decide +kernel⟩,
    ⟨{ (sl 1 fun l => { l with queued := [q2, q1], time := 0 }) with dev := { Device.reset with contain := [(0, ⟨false, 1, 7, 4, 1, 0⟩)] } }, q1,
      first_dev (first_q1 1 0) _, by unfold Late; decide +kernel, by decide +kernel⟩,
    ⟨_, q1, first_q1 3 9, by unfold Late; decide +kernel, by decide +kernel⟩,
    ⟨sl 1 fun l => { l with flits := [fan0], slots := [(0, ⟨7, 3, [0, 1, 8]⟩)] }, (0, ⟨7, 3, [0, 1, 8]⟩), by decide +kernel⟩,
    ⟨sl 1 fun l => { l with spill := [⟨0, ⟨0, false, .range range0⟩, .cell⟩] }, ⟨0, ⟨0, false, .range range0⟩, .cell⟩, by unfold NoPlacing; decide +kernel, by decide +kernel⟩,
    ⟨sl 1 fun l => { l with ctrs := [(0, ctr0 0)] }, ctr0 0, by decide +kernel⟩,
    ⟨{ s0 with launch := { Launch.reset with ctrs := [(0, ctr0 0x1000)] } }, ctr0 0x1000, 0x100000, by decide +kernel, rfl,
      ⟨by decide +kernel, ⟨page (leaf 0), by decide +kernel⟩, lineThere_of (by decide +kernel)⟩, rfl, by decide, by decide, by unfold NoTrace; decide +kernel⟩⟩

/-- An idle context 0 of core 0 with entries on the run list. -/
def sidle (e : List Entry) : State := at0 (leaf 0) Ctx.reset { core0 with runList := e }

/-- A task of launch counter 0 in context 0, changed as f says. -/
def task0 : Task := ⟨0, some 0, 0, false, false, false⟩

def stask (f : Ctx → Ctx) (k : Core → Core) (l : Launch → Launch) : State :=
  { at0 (leaf 0) (f { runs regs0 with task := some task0, taskjoin := 0x0102 }) (k core0) with launch := l { Launch.reset with ctrs := [(0, ctr0 0)] } }

/-- The job of ASID 0 has a save area. -/
def saves (l : Launch) : Launch := { l with jobs := [(0, { Job.reset with save := 0x200001 })] }

theorem meets_TaskEvents : (∃ s, Idle s c00 ∧ NoPlacing s ∧ (s.core 0).runList = [⟨0, false, .range range0⟩] ∧ NoTrace s) ∧
    (∃ s, Idle s c00 ∧ NoPlacing s ∧ (s.core 0).runList = [⟨0, false, .cont 0x1000 5 0xFFFF true⟩]) ∧
    (∃ (s : State) (k : LaunchCtr) (x : Task) (l : CancelReq), s.launch.ctrs.lookup 0 = some k ∧ cancelNames l k.seq k.pkt = true ∧ (s.ctxAt 0 0).active = true ∧ (s.ctxAt 0 0).task = some x ∧
      x.lctr = some 0) ∧
    (∃ (s : State) (x : Ctx) (q : LaunchCtr), x = s.ctxAt 0 0 ∧ x.kill = some 5 ∧ x.active = true ∧ x.regionOpen = false ∧ x.task = some task0 ∧ (s.core 0).engine = [] ∧ x.commit = none ∧ (s.core 0).sbuf = [] ∧
      s.launch.ctrs.lookup 0 = some q ∧ NoTrace s) ∧
    (∃ s, coreActive s 0 = true ∧ evictSlot s 0 0 = some (0, 0) ∧ evictAsked s 0 0 0 = true ∧ (s.core 0).sbuf = [] ∧ NoTrace s) ∧
    (∃ (s : State) (x : Ctx), x = s.ctxAt 0 0 ∧ coreActive s 0 = true ∧ x.active = true ∧ x.wait = some ⟨.migrate, 0, none⟩ ∧ x.kill = none ∧ x.regionOpen = false ∧
      paused (s.core 0) 0 = false ∧ coreOutstanding (s.core 0) = false ∧ (saveBase s x.asid).isSome = true ∧ freeSlot s x.asid = some 0) ∧
    (∃ s, boundaryReady s = true ∧ otherPhase s = some q3 ∧ s.dev.rejoin = [] ∧ s.dev.pend = false) ∧
    (∃ s q, boundaryReady s = true ∧ otherPhase s = some q ∧ s.dev.rejoin = [] ∧ s.dev.pend = true ∧ bitOf s.dev.cmd 31 = false ∧
      bitOf s.dev.cmd 23 = false ∧ s.dev.quiet = false ∧ s.dev.clamp0 = false ∧ s.dev.clamp1 = false ∧ s.dev.relock0 = [] ∧ s.dev.relock1 = []) ∧
    (∃ s : State, s.launch.reported = false ∧ parkedTasks s ≠ 0 ∧ s.launch.hwake = false ∧ s.dev.pageReqs = [] ∧
      ((upTo 128).all fun n => !coreActive s n || lineUp s n) = true ∧ meshBusy s = false ∧ launchBusy s = false) :=
  ⟨⟨sidle [⟨0, false, .range range0⟩], ⟨by decide +kernel, by decide +kernel, by decide +kernel, by decide +kernel, by decide +kernel⟩,
      by unfold NoPlacing NoTrace; decide +kernel⟩,
    ⟨sidle [⟨0, false, .cont 0x1000 5 0xFFFF true⟩], ⟨by decide +kernel, by decide +kernel, by decide +kernel, by decide +kernel, by decide +kernel⟩,
      by unfold NoPlacing; decide +kernel, by decide +kernel⟩,
    ⟨stask id id id, ctr0 0, task0, ⟨.lnch, 1, none⟩, by decide +kernel⟩,
    ⟨stask (fun c => { c with kill := some 5 }) id id, _, ctr0 0, rfl, by unfold NoTrace; decide +kernel⟩,
    ⟨stask (fun c => { c with wait := some ⟨.cell 0, 0x1000, none⟩ }) (fun k => { k with runList := [⟨0, false, .cont 0x1000 5 0xFFFF true⟩] }) saves,
      by unfold NoTrace; decide +kernel⟩,
    ⟨stask (fun c => { c with wait := some ⟨.migrate, 0, none⟩ }) id saves, _, rfl, by decide +kernel⟩,
    ⟨sl 1 fun l => { l with queued := [q3] }, by decide +kernel⟩,
    ⟨{ (sl 1 fun l => { l with queued := [q3] }) with dev := { Device.reset with pend := true, cmd := 0x8488 } },
      q3, by decide +kernel⟩,
    ⟨stask (fun c => { c with wait := some ⟨.cell 0, 0x1000, none⟩ }) id fun l => { l with ctrs := [] }, by decide +kernel⟩⟩

/-- Entry 0 of the containment table covers sorus 1 alone. -/
def scon (st : Nat) : State := { s0 with dev := { Device.reset with contain := [(0, ⟨false, st, 7, 4, 1, 0⟩)] } }

/-- Core 0 with a debug control word and stop. -/
def sdbg (w : Word) (x : List Nat) : State := sc fun k => { k with dbgctl := w, stopped := x }

/-- Page tables that map the page 0x1000 to the frame of `leaf`, a launch that awaits its hash pass, and the ring at frame 0x300. -/
def shash : State :=
  let s := [(0x00000, 0x40001), (0x40000, 0x50001), (0x50000, 0x60001), (0x60008, 0x1003C3)].foldl
    (fun s p => physWrite s p.1 (leBytes 8 p.2)) s0
  { s with launch := { s.launch with jobs := [(0, { Job.reset with hash := true, hashPages := [(12, 0x1000)], hashDue := [4] })] },
           dev := { s.dev with hashRing := { base := 0x300000, prod := 1, cons := 0, ctl := 1 } } }

theorem hashReady0 : HashReady shash 0 12 0x1000 0x100000 := by
  refine ⟨fun n => ?_, ⟨⟨0x1003C3, 0x60008, 0x1000, 12⟩, ?_, rfl, by decide +kernel, by decide +kernel⟩, by decide +kernel, by decide +kernel, by decide +kernel⟩
  · have e : shash.cores = [(0, shash.core 0)] := by decide +kernel
    have h0 : logWaiting (shash.core 0) = 0 := by decide +kernel
    have hr : logWaiting Core.reset = 0 := by decide +kernel
    by_cases hn : n = 0
    · rw [hn]; exact h0
    · have hc : shash.core n = Core.reset := by
        unfold State.core
        rw [e]
        simp [tget]
        exact fun h => absurd h.symm hn
      rw [hc]; exact hr
  · have h : (match (walkFrom shash 0 0 0x1000 (fieldOf (shash.job 0).ptroot 18 34 * 2 ^ 18) [] [0, 1, 2, 3]).1 with
      | .ok l => l == ⟨0x1003C3, 0x60008, 0x1000, 12⟩
      | .error _ => false) = true := by decide +kernel
    revert h
    cases (walkFrom shash 0 0 0x1000 (fieldOf (shash.job 0).ptroot 18 34 * 2 ^ 18) [] [0, 1, 2, 3]).1 with
    | ok l => exact fun h => by simp only [beq_iff_eq] at h; rw [h]
    | error e => exact fun h => Bool.noConfusion h

theorem meets_ContainmentDebugHashEvents : NoTrace (scon 0) ∧ fenceRefused (scon 0) 0 (containAt (scon 0) 0) = false ∧
    Covers (containAt (scon 0) 0) 1 ∧ ((containAt (scon 2) 0).state = 2 ∧ (containAt (scon 3) 0).state = 3 ∧ (containAt (scon 4) 0).state = 4) ∧
    (isStopped ((sdbg 2 [0]).core 0) (dbgCx ((sdbg 2 [0]).core 0)) = true) ∧
    (∃ (s : State) (k : Core) (x : Ctx), k = s.core 0 ∧ x = k.ctx (dbgCx k) ∧ coreActive s 0 = true ∧ bitOf k.dbgctl 1 = true ∧ isStopped k (dbgCx k) = false ∧ x.active = true ∧
      x.commit = none ∧ x.regionOpen = false ∧ NoTrace s) ∧
    ((shash.job 0).hashDue = [4] ∧ (shash.job 0).hashPages = [(12, 0x1000)] ∧ HashReady shash 0 12 0x1000 0x100000 ∧
      LineThere shash (lineOf (hashRecordAt shash)) ∧ shash.memOk ∧ NoTrace shash) :=
  ⟨by unfold NoTrace; decide +kernel, by decide +kernel, by unfold Covers; decide +kernel, by decide +kernel, by decide +kernel,
    ⟨sdbg 2 [], _, _, rfl, rfl, by unfold NoTrace; decide +kernel⟩,
    ⟨by decide +kernel, by decide +kernel, hashReady0, lineThere_of (by decide +kernel), by unfold State.memOk; decide +kernel, by unfold NoTrace; decide +kernel⟩⟩

/-- A context at 0x1000 of the page, where an instruction word stands. -/
def swords (w : Nat) (pc : Word := 0x1000) (d : List Turn := []) : State :=
  { physWrite (at0 (leaf 0) { runs regs0 with pc := pc }) 0x100000 (leBytes 8 w) with turns := d }

theorem atFetch_of {s : State} (h : coreActive s s.me = true ∧ isStopped s.myCore s.mycx = false ∧ paused s.myCore s.mycx = false ∧
    s.ctx.active = true ∧ s.ctx.commit = none ∧ s.ctx.boundaryWork = false ∧ haltAsked s.myCore s.mycx = false ∧ s.ctx.eventReady = false ∧
    s.dev.relock0 = [] ∧ s.dev.relock1 = []) :
    AtFetch s := ⟨h.1, h.2.1, h.2.2.1, h.2.2.2.1, h.2.2.2.2.1, h.2.2.2.2.2.1, h.2.2.2.2.2.2.1, h.2.2.2.2.2.2.2.1, h.2.2.2.2.2.2.2.2⟩

theorem lineIs_of {s : State} {pa : Nat} (h : (s.myCore.icache.find? fun l => l.asid == s.ctx.asid && l.va == lineOf s.ctx.pc.toNat) = none)
    (hp : (∀ i, i < 64 → poisonedAt s (lineOf pa + i) = false ∧ flippedAt s (lineOf pa + i) = false) ∧ s.myCore.icache = []) (r : s.slices = []) :
    LineIs s pa (physRead s (lineOf pa) 64) := by
  unfold LineIs; rw [h]; exact ⟨rfl, hp.1, by rw [hp.2]; exact Nat.zero_lt_succ _, (room_of r _).1⟩

theorem meets_StepRunsDecoded : (∃ s : State, s.dev.power = true ∧ Moves s c00 ∧
      AtFetch { s with turns := s.turns.tail, cur := c00 } ∧ (s.ctx.pc.toNat % 4 ≠ 0)) ∧
    (∀ w ∈ [0x4000000000000000, 0x7F80000000000000], ∃ s s0 : State, ∃ a : Attr, ∃ bs, s.dev.power = true ∧ Moves s c00 ∧ s0 = { s with turns := s.turns.tail, cur := c00 } ∧ AtFetch s0 ∧
      s0.ctx.pc.toNat % 4 = 0 ∧ Mapped s0 s0.ctx.pc.toNat 4 .fetch a ∧ LineIs s0 a.pa bs ∧
      ((bs.drop (s0.ctx.pc.toNat % 64)).take (32 - s0.ctx.pc.toNat % 32)) = leBytes 32 w) ∧
    ((match decode (leBytes 32 0x4000000000000000) with | .ok i => i == .nop f0 ⟨0, 0, .i64, .rne, 0, 0, 0, 0⟩ | .error _ => false) = true ∧
      (match decode (leBytes 32 0x7F80000000000000) with | .ok _ => false | .error _ => true) = true) ∧
    (∃ s : State, s.dev.power = true ∧ s.turns = [.dev (.debugHalt 0)] ∧ (Instr.debugHalt 0).isEvent = true ∧
      meshHolds { s with turns := [] } (.debugHalt 0) = false ∧ ∃ t, exec (.debugHalt 0) { s with turns := [] } = .next t) ∧
    (∃ s : State, s.dev.power = true ∧ s.turns = [.dev (.channelFlitArrival 0)] ∧ (Instr.channelFlitArrival 0).isEvent = true ∧
      meshHolds { s with turns := [] } (.channelFlitArrival 0) = true) := by
  refine ⟨⟨swords 0 0x1002, by decide +kernel, Or.inr ⟨rfl, by decide +kernel, fun w h => ?_⟩, atFetch_of (by decide +kernel), by decide +kernel⟩, ?_,
    by decide +kernel, ⟨swords 0 0x1000 [.dev (.debugHalt 0)], by decide +kernel, rfl, rfl, rfl, _, rfl⟩,
    ⟨{ s0 with turns := [.dev (.channelFlitArrival 0)], dev := { Device.reset with flits := [flit0 false], relock0 := [20] } },
      by decide +kernel, rfl, rfl, by decide +kernel⟩⟩
  · have hw : (swords 0 0x1002).ctx.wait = none := by decide +kernel
    rw [hw] at h; cases h
  · intro w hw
    refine ⟨swords w 0x1000 [.run c00], _, attr (leaf 0), _, ?_, Or.inl ⟨[], rfl⟩, rfl, atFetch_of ?_, ?_, mapped_of (page (leaf 0)) ?_,
      lineIs_of ?_ ?_ rfl, ?_⟩ <;> revert w <;> decide +kernel

theorem meets_DecodeEncode : (∃ i : Instr, i.isEvent = false ∧ i.wf = true) ∧
    (match decode (leBytes 8 0x4000000000000000) with | .ok _ => true | .error _ => false) = true :=
  ⟨⟨.nop f0 ⟨0, 0, .i64, .rne, 0, 0, 0, 0⟩, by decide +kernel⟩, by decide +kernel⟩

theorem meets_MemoryStaysCanonical : State.reset.memOk ∧ (∃ t, Goes State.reset t) :=
  ⟨rfl, ⟨_, rfl⟩⟩

/-! ### Further clauses of the statements, each met -/

/-- Both contexts of core 1 wait at the page's first line (R276). -/
def swake : State :=
  { su id { Core.reset with c0 := { Ctx.reset with active := true, wait := some ⟨.addr 0x100000, 0x40, none⟩ },
                            c1 := { Ctx.reset with active := true, wait := some ⟨.addr 0x100008, 0x80, none⟩ } } with
    slices := [(homeOf 0x100000, { Slice.reset with waits := [⟨0x100000, ⟨1, 0, none⟩⟩, ⟨0x100000, ⟨1, 1, none⟩⟩] })] }

theorem meets_WaitAndWake_waiters : Settled swake ∧ AtHome swake 0x1000 (attr (leaf 0)) ∧ Mapped swake 0x1000 4 .write (attr (leaf 0)) ∧
    waitersOf swake (lineOf (attr (leaf 0)).pa) = [⟨0x100000, ⟨1, 0, none⟩⟩, ⟨0x100000, ⟨1, 1, none⟩⟩] ∧
    (Another swake ⟨1, 0, none⟩ ∧ (swake.ctxAt 1 0).wait = some ⟨.addr 0x100000, 0x40, none⟩) ∧
    (Another swake ⟨1, 1, none⟩ ∧ (swake.ctxAt 1 1).wait = some ⟨.addr 0x100008, 0x80, none⟩ ∧ lineOf 0x100008 = lineOf (attr (leaf 0)).pa) :=
  ⟨settled_of (by decide +kernel), ⟨by decide +kernel, by decide +kernel, by decide +kernel, by decide +kernel, by decide +kernel,
    by unfold HomeRoom; decide +kernel⟩, mapped_of (page (leaf 0)) (by decide +kernel), by decide +kernel,
    ⟨by unfold Another; decide +kernel, by decide +kernel⟩, by unfold Another; decide +kernel⟩

/-- The page holds a record of a PC and an argument (R351). -/
def srec : State := physWrite s0 0x100000 (leBytes 8 0x6000000000 ++ leBytes 8 5)

/-- g1 names no cell, g2 a cell of core 1. -/
def sbadcell : State := at0 (leaf 0) (runs [(1, 0x8000), (2, 0x100)])

theorem meets_TaskCells_more :
    (TrapReady sbadcell ∧ (sbadcell.ctx.reg 1).toNat ≥ 2 ^ 15 ∧ fieldOf (sbadcell.ctx.reg 2) 8 7 ≠ sbadcell.me) ∧
    (Settled srec ∧ NothingSent srec ∧ PortFree srec ∧ CellAt srec 0 srec.me 0 ∧ fieldOf (srec.cellAt srec.me 0).ctrl 32 2 ≠ 1 ∧ srec.ctx.reg 0 = 0 ∧
      srec.ctx.reg 1 ≠ 0 ∧ (srec.ctx.reg 1).toNat % 8 = 0 ∧ Mapped srec (srec.ctx.reg 1).toNat 16 .read (attr (leaf 0)) ∧
      AtHome srec (srec.ctx.reg 1).toNat (attr (leaf 0)) ∧ fromBytes 64 (memBytes srec (attr (leaf 0)).pa 8) = 0x6000000000#64 ∧
      entryPcOk 0x6000000000 = true ∧ srec.myCore.runList.length < 32 ∧ spilledFor srec srec.me = false) ∧
    ∃ s, s = (sc fun k => { k with cells := [(0, { Cell.idle with ctrl := 1#64 <<< 32, status := 4 })] }) ∧ Settled s ∧ NothingSent s ∧ PortFree s ∧
      CellAt s 0 s.me 0 ∧ fieldOf (s.cellAt s.me 0).ctrl 32 2 = 1 ∧ bitOf (s.cellAt s.me 0).status 2 = true :=
  ⟨⟨trapReady_of (by decide +kernel), by decide +kernel⟩,
    ⟨settled_of (by decide +kernel), ⟨⟨rfl, rfl⟩, rfl, by decide +kernel, by decide +kernel, rfl, by decide +kernel, rfl, rfl, rfl⟩,
      by unfold PortFree; decide +kernel, cellAt_of (by decide +kernel), by decide +kernel, by decide +kernel, by decide +kernel, by decide +kernel,
      mapped_of (page (leaf 0)) (by decide +kernel), atHome_of (by decide +kernel), by decide +kernel⟩,
    _, rfl, settled_of (by decide +kernel), ⟨⟨rfl, rfl⟩, rfl, by decide +kernel, by decide +kernel, rfl, by decide +kernel, rfl, rfl, rfl⟩,
    by unfold PortFree; decide +kernel, cellAt_of (by decide +kernel), by decide +kernel⟩

theorem meets_PrivilegeRules_tcancel : TrapReady s0 ∧ s0.ctx.mode = .user ∧ Enabled f0 s0 := ⟨trapReady0, rfl, enabled0 _⟩

/-- Page tables map the page, and the dirty log of core 0 holds it (R74, R88). -/
def slogged : State :=
  (shash.modMyCore fun k => { k with dlog := [(0, 1)], dlTail := 1 }).modCtxAt 0 0 fun c => { c with mode := .supervisor }

theorem meets_HarvestAndPhase_entry : slogged.ctx.mode ≠ .user ∧ NoStep slogged ∧ NoRegion slogged ∧ slogged.memOk ∧
    allLogged slogged (activeCores slogged) = [(0, 1)] ∧ (loggedLeaf slogged 0 1).isSome = true :=
  ⟨by decide +kernel, by unfold NoStep; decide +kernel, by unfold NoRegion; decide +kernel, by unfold State.memOk; decide +kernel, by decide +kernel,
    by decide +kernel⟩

/-- A region in firmware, whose t0 has been written since RGBEGIN or not. -/
def sinj (new : BitVec 16) : State :=
  at0 (leaf 0) { runs [] with tiles := [(0, tile0)], mode := .firmware, ckpt := some { ckpt0 with tiles := [(0, tile0)] }, tnew := new }

theorem meets_DebugInjection_region : ∀ new ∈ [0#16, 1#16], (sinj new).ctx.mode = .firmware ∧ NoStep (sinj new) ∧ (sinj new).ctx.tile 0 = tile0 ∧
    (sinj new).ctx.ckpt = some { ckpt0 with tiles := [(0, tile0)] } ∧ (sinj new).ctx.tnew.getLsbD 0 = new.getLsbD 0 :=
  fun _ _ => ⟨rfl, rfl, rfl, rfl, rfl⟩

theorem meets_TilesAndBuffers_shapes :
    (TrapReady (sta []) ∧ Mine (sta []) .a 0 ∧ (slotAt (sta []).myCore .a 0).valid = true ∧
      ∀ r ∈ [{ rtm false with rows := 2 }, { rtm false with cols := 2 }, { rtm false with fm := some .i8 }],
        ¬((slotAt (sta []).myCore .a 0).rows = r.rows.val + 1 ∧ (slotAt (sta []).myCore .a 0).cols = r.cols.val + 1 ∧
          (slotAt (sta []).myCore .a 0).fmt = r.fm)) ∧
    (TrapReady (st tile1 .user []) ∧ (tileAt (st tile1 .user []) 0).valid = true ∧
      ¬((tileAt (st tile1 .user []) 0).rows = ({ rtm false with rows := 2 } : FmtTM).rows.val + 1)) ∧ (tileAt (st tile1 .user []) 1).valid = false :=
  ⟨⟨trapReady_of (by decide +kernel), by unfold Mine; decide +kernel⟩,
    ⟨trapReady_of (by decide +kernel), by decide +kernel⟩, by decide +kernel⟩

/-- A body of cells whose stride is g2. -/
def rstride : FmtTM := { rtm true with cols := 0, rows := 0, fm := some .f32, gb := 2 }

theorem meets_TilesAndCells_align : (TrapReady (st tile4 .user [(1, 0x1008)]) ∧ (tmEa (st tile4 .user [(1, 0x1008)]) rcell).toNat % 64 ≠ 0) ∧
    (TrapReady (st tile4 .user [(1, 0x1000), (2, 8)]) ∧ (tmEa (st tile4 .user [(1, 0x1000), (2, 8)]) rstride).toNat % 64 = 0 ∧
      (strideOf (st tile4 .user [(1, 0x1000), (2, 8)]) rstride (64 * (rstride.cols.val + 1))).toNat % 64 ≠ 0) ∧
    TmReadable rstride (st tile4 .user [(1, 0x1000), (2, 8)]) :=
  ⟨⟨trapReady_of (by decide +kernel), by decide +kernel⟩, ⟨trapReady_of (by decide +kernel), by decide +kernel⟩,
    by unfold TmReadable; decide +kernel⟩

/-- A cell whose line its home slice holds. -/
theorem meets_TilesAndCells_held : Ready (sth tile4 .user regs0) ∧ CellsReady (sth tile4 .user regs0) rcell .both (fun _ _ => attr (leaf 0)) ∧
    (∀ i j, i < rcell.rows.val + 1 → j < rcell.cols.val + 1 → HomeHeld (sth tile4 .user regs0) (lineOf (attr (leaf 0)).pa)) := by
  refine ⟨ready_of (settled_of (by decide +kernel)) (by decide +kernel) rfl, ?_, fun _ _ _ _ => by unfold HomeHeld; decide +kernel⟩
  intro i j hi hj
  have hi : i < 1 := hi
  have hj : j < 1 := hj
  obtain rfl : i = 0 := by omega
  obtain rfl : j = 0 := by omega
  have e : cellAddr (sth tile4 .user regs0) rcell 0 0 = 0x1000 := by decide +kernel
  rw [e]
  exact ⟨by decide, mapped_of (page (leaf 0)) (by decide +kernel), ⟨by decide +kernel, by decide +kernel, by decide +kernel, by decide +kernel,
    by decide +kernel, by unfold HomeRoom; decide +kernel⟩, by unfold Noted; decide +kernel,
    ⟨Or.inl (by decide +kernel), Or.inl (by decide +kernel), Or.inl (by decide +kernel), by decide +kernel, by decide +kernel⟩⟩

/-- A broadcast by core 0 to itself of the first slot of the A buffer. -/
def descSlot : List Byte := leBytes 8 0 ++ leBytes 8 0x3000 ++ leBytes 8 0x10 ++ leBytes 8 0x1000 ++ leBytes 16 1 ++ List.replicate 80 0

theorem meets_CopiesAndCollectives_slots : ∃ x y : State, x = sd descSlot ∧ y = x.modMyCore (fun k => { k with bufA := [(0, tile0)] }) ∧
    (collOf x 1 descSlot).ok 0 descSlot = true ∧ (rangesM (collOf x 1 descSlot).slotRanges).run x = .ok () x ∧
    (collOf x 1 descSlot).senders.contains x.me = true ∧ bufOfSpace (collOf x 1 descSlot).ssp = some .a ∧ (collOf x 1 descSlot).count = 0x1000 ∧
    (slotAt x.myCore .a 0).valid = false ∧ (slotAt y.myCore .a 0).valid = true ∧ NoHold x ∧ TrapReady x :=
  ⟨_, _, rfl, rfl, by decide +kernel, rfl, by decide +kernel, by decide +kernel, by decide +kernel, by decide +kernel, by decide +kernel, ⟨rfl, rfl⟩,
    trapReady_of (by decide +kernel)⟩

theorem meets_ReductionsAndCells_ordered : (sk 0x10).ctx.fwdGot = [] ∧ (attr (leaf 0x10)).kind = 2 ∧
    HomeOpReady (sk 0x10) ((sk 0x10).ctx.reg 1) 64 .both (attr (leaf 0x10)) :=
  ⟨rfl, by decide +kernel, by decide, mapped_of (page (leaf 0x10)) (by decide +kernel), atHome_of (by decide +kernel),
    by unfold Noted; decide +kernel, unwatched_of rfl _ (by decide +kernel)⟩

theorem meets_RegionEvents_more : (sg id id).dev.relock0 = [] ∧ (sg id id).dev.relock1 = [] ∧ (∀ p ∈ ((sg id id).ctxAt 0 0).early, p.1 ≠ 0x100000) ∧
    ((sg id id).slice (homeOf 0x100000)).floor ≠ BitVec.allOnes 64 ∧ (sEvent.ctxAt 0 0).hasSent = false ∧
    ((sCommit.ctxAt 0 0).commit = some commit0 ∧ NoHold sCommit) :=
  ⟨rfl, rfl, by decide +kernel, by decide +kernel, by decide +kernel, by decide +kernel, rfl, rfl⟩

theorem meets_ErrorEvents_more : (Tile.valid tile1 = true ∧ TileSound tile1 ∧ slotAt ((sc fun k => { k with bufA := [(0, tile1)] }).core 0) .a 0 = tile1 ∧
      0 < slotsOf .a ∧ 0 < tile1.rows ∧ 0 < tile1.cols ∧ 0 < 8 * tile1.width) ∧
    cachedGranule s0 0 0x8000 = none ∧ cachedGranule (sth tile1 .user []) 0 0x8000 = some 0x100000 :=
  ⟨⟨rfl, ⟨rfl, by decide +kernel, by decide +kernel, by decide +kernel⟩, by decide +kernel⟩, by decide +kernel, by decide +kernel⟩

theorem meets_HomeEvents_acknowledged : ∃ older n rest, (∀ p ∈ older, p.ops ≠ []) ∧ n.ops = [] ∧ n.remote = [] ∧ n.samples = [] ∧
    ((sc fun k => { k with nonRet := [⟨0, [.atomic (atomicOf 0) false 0x100000 1], [], false, false, []⟩, ⟨0, [], [], false, false, []⟩] }).core 0).nonRet =
      older ++ n :: rest :=
  ⟨[⟨0, [.atomic (atomicOf 0) false 0x100000 1], [], false, false, []⟩], ⟨0, [], [], false, false, []⟩, [], by decide, rfl, rfl, rfl, rfl⟩

theorem meets_ControllerEvents_phase : ∃ s : State, s.dev.retraining = true ∧ s.dev.clkHeld = some (0x8A86, false) ∧
    (s.launch.queued.find? fun q => q.pkt.phase != 0 && q.pkt.phase != s.launch.phase) = some q3 :=
  ⟨{ (sl 1 fun l => { l with queued := [q3] }) with dev := { Device.reset with retraining := true, clkHeld := some (0x8A86, false) } },
    rfl, rfl, by decide +kernel⟩

/-- A context waits for a peer that has the operation, and refuses it or not. -/
def sremote (x : List Nat) : State :=
  { at0 (leaf 0) { runs regs0 with wait := some ⟨.remote 7, 0, none⟩ } with
    dev := { Device.reset with ports := [(0, port0 [remote0 true] [])], refused := x } }

theorem meets_TranslationEvents_more :
    (∃ q, ((sown 0 (leaf 0 ||| 1#64 <<< 54) fun d => { d with atsReqs := [{ ats0 with sorus := 1 }, ats0] }).dev.atsReqs.filter fun q => q.sorus == 0)[0]? =
      some q ∧ q = ats0) ∧
    (∀ x ∈ [[], [7]], WaitsAt ((sremote x).ctxAt 0 0) (.remote 7) 0 ∧ (outstandingOps (sremote x)).find? (fun r => r.id == 7) = some (remote0 true) ∧
      answerable (sremote x) 7 = true ∧ (sremote x).dev.peerq = [] ∧ ((sremote x).core 0).samples = [] ∧ (sremote x).dev.refused.contains 7 = !x.isEmpty) ∧
    (s0.dev.forwarded = [] ∧ s0.dev.posted = [] ∧ ∀ p ∈ s0.cores, p.2.soParts = [] ∧ ∀ w ∈ p.2.wc, w.fwd = none) :=
  ⟨⟨_, rfl, rfl⟩, fun x hx => ⟨rfl, by revert x; decide +kernel, by revert x; decide +kernel, rfl, by revert x; decide +kernel, by revert x; decide +kernel⟩,
    rfl, rfl, by decide +kernel⟩

theorem meets_PowerEvents_quiet : ∃ d : Device, d = { s0.dev with quiet := true, clamp0 := true, cmd0 := 30, c0clk := 23 } ∧
    24 = withinMode d 0 (dieCommand d 0) ∧ dieClamped d 0 = true ∧ dieAfter d 0 = 23 :=
  ⟨_, rfl, by decide +kernel⟩

/-- Vector 0 masked or not (R451). -/
def smask (m : Bool) : Device := { Device.reset with msixTable := [(1, if m then 0x100000000 else 0)] }

theorem meets_LaunchEvents_masked : ({ ctr0 0x1000 with pkt := { (ctr0 0x1000).pkt with ctl := 0x40000 } } : LaunchCtr).pkt.irq = true ∧
    VectorMasked (smask true) 0 = true ∧ VectorMasked (smask false) 0 = false ∧ (smask true).posted = [] := by decide +kernel

theorem meets_ContainmentDebugHashEvents_sent : ((sdbg 2 []).ctxAt 0 0).hasSent = false := by decide +kernel

theorem meets_StepRunsDecoded_upset : ∀ x ∈ [none, some false, some true], ∃ s : State, s.ctx.pathErr = x ∧
    isChecked (.add f0 (rr 4 1 2 0)) = true ∧ isEnabled (.add f0 (rr 4 1 2 0)) s.ctx = true :=
  fun x _ => ⟨at0 (leaf 0) { runs regs0 with pathErr := x }, rfl, rfl, rfl⟩

/-! ### WellFormed: one ill-formed term for each check -/

/-- An R body with fields as changed. -/
def r0 : FmtR := rr 0 0 0 0

/-- A T body: t2 := t0, t1 with FP32 to FP32. -/
def t0 : FmtT := ⟨0, false, .rne, .nfm, some .f32, some .f32, 0, 0, 1, 0, 2, 0, 0⟩

/-- A TM body: t0, [g1], FP32, one row of eight. -/
def m0 : FmtTM := ⟨7, 0, 0, false, false, .rne, .nfm, some .f32, 0, 1, 0, 0, 0, 0⟩

/-- The frame of a 96-bit and of a 128-bit instruction. -/
def f96 : Frame := { f0 with len := .w96 }
def f128 : Frame := { f0 with len := .w128 }

/-- The terms that the refused ones below differ from are legal. -/
theorem test_wf_legal : ([.add f0 (rr 1 2 3 0), .addImm f0 (ri 1 2 131071), .addImm f96 (ri 1 2 131072), .ld f0 (rm 1 2 2047),
    .ld f96 (rm 1 2 2048), .nop f0 r0, .tadd f0 t0, .tld f0 m0, .b f0 ⟨1, .always, 0, 0⟩, .waitcnt f0 ⟨1, 2, 3, 4⟩,
    .tld f128 { m0 with rr := true, rows := 3, first := 1, last := 2 },
    .tzero f96 { t0 with fa := none, ta := 0, tb := 0, rowsm1 := 1, colsm1 := 31 }, .mma f0 { t0 with fa := some .f16 }] : List Instr).all
    Instr.wf = true := by decide +kernel

/-- R193, R196: the frame and the length. -/
theorem test_wf_frame : ([.add { f0 with pn := true } (rr 1 2 3 0), .addImm f0 (ri 1 2 131072), .addImm f96 (ri 1 2 0x80000000),
    .ld f0 (rm 1 2 2048), .ld f96 (rm 1 2 0x80000000), .nop { f0 with pr := 1 } r0] : List Instr).all (fun i => !i.wf) = true := by decide +kernel

/-- R233 to R248: the scalar instructions. -/
theorem test_wf_scalar : ([.add f0 { rr 1 2 3 0 with ty := .f32 }, .add f0 (rr 1 2 3 4), .sub f0 { rr 1 2 3 0 with rnd := .rz }, .addImm f0 { ri 1 2 5 with var := 2 },
    .clz f0 (rr 1 2 3 0), .sext f0 { rr 1 2 0 0 with var := 3 }, .sel f0 (rr 1 2 3 8), .cmp f0 { rr 8 2 3 0 with var := 2 },
    .cmp f0 { rr 1 2 3 0 with var := 1 }, .cmpImm f0 { ri 1 2 3 with var := 8 }, .plogic f0 { rr 1 2 3 0 with var := 16 },
    .fmin f0 (rr 1 2 3 0), .fcmp f0 { rr 1 2 3 0 with var := 6, ty := .f32 }, .fadd f0 { rr 1 2 3 0 with sc := 1, ty := .f32 },
    .ffma f0 (rr 1 2 3 4), .fsqrt f0 { rr 1 2 3 0 with ty := .f32 }, .li f0 (ri 1 2 3), .lea f0 { ri 1 2 3 with var := 0 },
    .fcvt f0 { rr 1 2 0 0 with var := 1 }, .fcvt f0 { rr 1 2 0 0 with var := 20, ty := .f32 }, .fclass f0 (rr 1 2 0 0)] : List Instr).all
    (fun i => !i.wf) = true := by decide +kernel

/-- R265 to R277: memory, atomics, fences. -/
theorem test_wf_memory : ([.ld f0 { rm 1 2 0 with sp := 1 }, .ldAcq f0 (rm 1 2 0), .st f0 { rm 1 2 0 with sz := .byteSx }, .stRel f0 (rm 1 2 0),
    .ldEv f0 { rm 1 2 0 with sp := 2, sz := .halfSx }, .stEv f0 { rm 1 2 0 with sp := 2, sc := 1 }, .ldl f0 { rm 1 2 0 with sp := 3 },
    .stl f0 { rm 1 2 0 with sz := .wordSx }, .pref f0 (rm 0 2 0), .amo f0 { rr 1 2 3 0 with var := 10 }, .amo f0 (rr 1 2 3 4),
    .red f0 { rr 0 2 3 0 with var := 8 }, .rede f0 (rr 0 2 3 0), .rde f0 { rr 1 2 0 0 with ty := .f32, rnd := .sr }, .clre f0 (rr 1 2 0 0),
    .fenceAcq f0 { r0 with var := 1 }, .fenceRel f0 r0, .fenceFull f0 r0, .fenceEng f0 r0, .waita f0 { rr 1 2 3 0 with var := 1 },
    .wake f0 (rr 1 2 3 4)] : List Instr).all (fun i => !i.wf) = true := by decide +kernel

/-- R251 to R261, R353 to R361: control and system. -/
theorem test_wf_control : ([.b f0 ⟨1, .eq, 0, 0⟩, .bc f0 ⟨1, .always, 0, 8⟩, .bcmp f0 ⟨1, .always, 1, 2⟩, .call f0 ⟨1, .never, 0, 0⟩, .callr f0 (rr 1 2 3 0),
    .ret f0 (rr 1 2 0 0), .jmpr f0 (rr 1 2 0 0), .rept f0 (ri 1 0 4), .trap f0 (ri 1 0 4), .tend f0 (rr 1 0 0 0), .csrr f0 (ri 1 2 0x400),
    .csrw f0 (ri 0 2 4096), .csrxSwap f0 { ri 1 2 0x400 with var := 1 }, .csrxSet f0 (ri 1 2 0x400), .csrxClr f0 (ri 1 2 0x400), .ecall f0 (ri 0 1 0),
    .eret f0 (rr 0 1 0 0), .tlbiAll f0 { r0 with var := 1 }, .tlbiAsid f0 r0, .tlbiVa f0 r0, .l1invI f0 (rr 0 1 0 0), .l1invD f0 r0, .l1wb f0 (rr 1 2 3 0),
    .harvestAll f0 (rr 0 1 0 0), .harvestSor f0 r0, .phase f0 (ri 0 1 1), .phaseNow f0 (ri 0 1 0), .bkpt f0 (ri 1 0 0), .dbginj f0 (rr 1 2 3 0)] :
    List Instr).all (fun i => !i.wf) = true := by decide +kernel

/-- R279 to R292, R352, R343: synchronisation, regions, tasks, copies. -/
theorem test_wf_sync : ([.bar f0 (rr 1 2 3 0), .bara f0 (rr 1 2 3 0), .barw f0 { rr 1 2 3 0 with var := 2 }, .evsig f0 (rr 1 2 3 0), .evwait f0 (rr 1 2 3 0),
    .mtxl f0 (rr 1 2 0 0), .mtxu f0 (rr 1 2 0 0), .chs f0 { rr 0 1 63 0 with var := 1 }, .chr f0 { rr 63 1 0 0 with var := 1 }, .chp f0 (rr 1 2 0 8),
    .rgbegin f0 (ri 0 0 2), .rgend f0 (rr 1 0 0 0), .rgabort f0 (ri 0 0 65536), .rgbound f0 (rr 1 2 0 0), .tspawn f0 (rr 1 2 3 4), .tdec f0 (rr 1 2 3 0),
    .tjoin f0 (rr 1 2 3 0), .lnch f0 (rr 1 2 3 0), .tcancelCell f0 { rr 0 2 0 0 with var := 1 }, .tcancelLnch f0 (rr 0 2 0 0), .tcancelGraph f0 (rr 0 2 0 0),
    .tcancelPhase f0 (rr 0 2 0 0), .tcancelJob f0 (rr 0 2 0 0), .cpy f0 (rr 1 2 0 0), .coll f0 (rr 0 1 2 0), .cpyl f0 (rr 1 2 3 4), .cpyc f0 (rr 0 1 2 3)] :
    List Instr).all (fun i => !i.wf) = true := by decide +kernel

/-- R203, R205, R206, R296: tiles to and from memory. -/
theorem test_wf_tile_memory : ([.tld f0 { m0 with fm := none }, .tld f0 { m0 with cols := 32 }, .tld f0 { m0 with dm := .ext }, .tld f0 { m0 with sat := true },
    .tld f0 { m0 with off := 1 }, .tld f96 { m0 with rr := true }, .tld f128 { m0 with rr := true, rows := 3, first := 2, last := 1 },
    .tld f128 { m0 with rr := true, rows := 3, first := 1, last := 4 }, .tld f0 { m0 with first := 1 }, .tld f0 { m0 with fm := some .mxi8 },
    .tst f0 { m0 with fm := some (.b8 3), dm := .fin }, .tldl f0 { m0 with gb := 1 }, .tstl f0 { m0 with var := 3 }, .trede f0 { m0 with fm := some .i32 },
    .trde f0 { m0 with fm := some (.b8 3) }, .trde f0 { m0 with rnd := .sr }] : List Instr).all (fun i => !i.wf) = true := by decide +kernel

/-- R202, R306 to R316: tile registers, matrices, checksums. -/
theorem test_wf_matrix : ([.tzero f0 { t0 with fa := none, ta := 0, tb := 0 }, .tzero f96 { t0 with fa := none, ta := 0, tb := 0, colsm1 := 32 },
    .tfill f96 { t0 with tb := 0 }, .tmov f0 { t0 with fa := none, fd := none }, .tretag f0 { t0 with fa := none, fd := none, tb := 0 },
    .tget f0 { t0 with fa := none, fd := none, tb := 0, td := 0, ga := 63 }, .tsete f0 { t0 with fa := none, fd := none, tb := 0, ga := 63 },
    .mma f0 t0, .mma f0 { t0 with fa := some .f16, var := 1 }, .mma f0 { t0 with fa := some .f16, ga := 1 }, .mmasp f0 { t0 with fa := some .i8, fd := some .f32 },
    .mmamx f0 { t0 with fa := some .f16 }, .mmax f0 { t0 with fa := some .f64 }, .tchk f0 { t0 with fa := none, fd := none, td := 0, tb := 0, var := 1 },
    .tchkFix f0 { t0 with fa := none, fd := none, tb := 0 }, .tcfix f0 t0, .tcgen f0 { t0 with fa := none, fd := none, tb := 0, ga := 1 },
    .tcrd f0 { t0 with fa := none, fd := none, td := 0, tb := 0, ga := 63 }] : List Instr).all (fun i => !i.wf) = true := by decide +kernel

/-- R318 to R341: the elementwise instructions. -/
theorem test_wf_elementwise : ([.tadd f0 { t0 with fa := some .i32 }, .tadd f0 { t0 with var := 1 }, .tsub f0 { t0 with ga := 1 }, .tmul f0 { t0 with rowsm1 := 1 },
    .tfma f0 { t0 with var := 1 }, .tmin f0 { t0 with rnd := .rz }, .tmax f0 { t0 with fd := some .f16 }, .tabs f0 t0, .tneg f0 t0, .tscale f0 t0,
    .trcp f0 t0, .trsq f0 { t0 with tb := 0, fa := some .i32 }, .texp2 f0 { t0 with tb := 0, var := 1 }, .tlog2 f0 t0,
    .tcvt f0 { t0 with tb := 0, tc := 1 }, .tcvt f0 { t0 with tb := 0, fa := some .mxi8, fd := some (.mxb8 3) }, .tand f0 { t0 with fa := some .f16 },
    .tor f0 { t0 with sat := true }, .txor f0 { t0 with var := 2 }, .tshl f0 { t0 with tb := 0 }, .tshr f0 { t0 with tb := 0 }, .tcmp f0 { t0 with var := 2 },
    .tcmp f0 { t0 with var := 6, fd := some .ui8 }, .tsel f0 { t0 with ga := 1 }, .ttrn f0 t0, .tbrow f0 t0, .tbcol f0 t0, .tredr f0 { t0 with tb := 0, var := 4 },
    .tredc f0 { t0 with tb := 0, rnd := .sr }, .tiota f96 { t0 with fa := none, tb := 0, var := 3 }, .tiota f0 { t0 with fa := none, tb := 0 }] : List Instr).all
    (fun i => !i.wf) = true := by decide +kernel

/-! ### Words of the specification and of its encoding tables -/

/-- The bytes of a word, n of them, decode to i. -/
def reads (n w : Nat) (i : Instr) : Bool :=
  match decode (leBytes n w) with
  | .ok j => j == i
  | .error _ => false

/-- The bytes of a word are refused for the reason given. -/
def refusedAs (n w : Nat) (x : DecodeError) : Bool :=
  match decode (leBytes n w) with
  | .ok _ => false
  | .error e => e == x

/-- R210: class 000; the words of FADD, FCVT and LI by the tables of R197 and R198. -/
theorem test_decode_scalar : reads 8 0x0080000005208000 (.sub f0 (rr 8 8 5 0)) = true ∧ reads 8 0x0000000005249000 (.add f0 (rr 9 9 5 0)) = true ∧
    reads 8 0x10000000011C7000 (.addImm f0 (ri 7 7 1)) = true ∧ reads 12 (0x1E0000000000B001 + 0x100 * 2 ^ 64) (.li f96 (ri 11 0 256)) = true ∧
    reads 8 0x1A80020003081000 (.fadd f0 { rr 1 2 3 0 with ty := .f32 }) = true ∧
    reads 8 0x1F02009000081000 (.fcvt f0 { rr 1 2 0 0 with var := 4, ty := .i32, rnd := .rz }) = true := by decide +kernel

/-- R211: class 001; listings of the programs. -/
theorem test_decode_memory : reads 8 0x2000003000043000 (.ld f0 (rm 3 1 0)) = true ∧ reads 8 0x2000003018046000 (.ld f0 (rm 6 1 24)) = true ∧
    reads 8 0x20000CB000108000 (.ldAcq f0 { rm 8 4 0 with sp := 1, sc := 3 }) = true ∧ reads 8 0x208000300818A000 (.st f0 (rm 10 6 8)) = true ∧
    reads 8 0x20800CB008109000 (.stRel f0 { rm 9 4 8 with sp := 1, sc := 3 }) = true ∧
    reads 8 0x2180000183009000 (.stl f0 { rm 9 0 0x183 with sz := .byte }) = true ∧ reads 8 0x24800000001C0000 (.clre f0 (rr 0 7 0 0)) = true := by decide +kernel

/-- R212: class 010; listings of the programs, and CSRX by the table of R198. -/
theorem test_decode_control : reads 8 0x40BFFFFF80000000 (.b f0 ⟨-8, .always, 0, 0⟩) = true ∧ reads 8 0x41800000821C8000 (.bcmp f0 ⟨8, .eq, 7, 8⟩) = true ∧
    reads 8 0x4000000000000000 (.nop f0 r0) = true ∧
    reads 12 0x4000000000000001 (.nop f96 r0) = true ∧ reads 16 0x4000000000000002 (.nop f128 r0) = true ∧
    reads 8 0x4500000000000000 (.tend f0 r0) = true ∧ reads 8 0x480000004300C000 (.csrr f0 (ri 12 0 0x043)) = true ∧
    reads 8 0x490080000C143000 (.csrxSet f0 { ri 3 5 0x00C with var := 1 }) = true ∧ reads 8 0x4D80000007180000 (.dbginj f0 (rr 0 6 7 0)) = true ∧
    reads 12 0x4D80000007180001 (.dbginj f96 (rr 0 6 7 0)) = true := by decide +kernel

/-- R213: class 011; listings of the programs, and CHS, TSPAWN and WAITCNT by the tables of R197 and R201. -/
theorem test_decode_sync : reads 8 0x610000000810A000 (.waita f0 (rr 10 4 8 0)) = true ∧ reads 8 0x618000000E10F000 (.wake f0 (rr 15 4 14 0)) = true ∧
    reads 8 0x60008C0000000000 (.fenceRel f0 { r0 with var := 1, sc := 3 }) = true ∧ reads 8 0x60000C0000000000 (.fenceAcq f0 { r0 with sc := 3 }) = true ∧
    reads 8 0x620000000020C000 (.bar f0 (rr 12 8 0 0)) = true ∧ reads 8 0x6C0083FFF0000000 (.rgbegin f0 { ri 0 0 (-16) with var := 1 }) = true ∧
    reads 8 0x6C80000000000000 (.rgend f0 r0) = true ∧ reads 8 0x6800000009100000 (.chs f0 (rr 0 4 9 0)) = true ∧
    reads 8 0x70000000C2040000 (.tspawn f0 (rr 0 1 2 3)) = true ∧ reads 8 0x6080000108204000 (.waitcnt f0 ⟨1, 2, 2, 4⟩) = true := by decide +kernel

/-- R214: class 100; listings of the programs, and TZERO and CPY by the tables of R197 and R202. -/
theorem test_decode_tile_memory : reads 8 0x80039C0141430000 (.tld f0 { m0 with rows := 7, fm := some .f16, gb := 5, ga := 3 }) = true ∧
    reads 8 0x80801C0160063000 (.tst f0 { m0 with cols := 0, rows := 7, ga := 6, t := 3 }) = true ∧
    reads 12 (0x80801C0160065001 + 0x20 * 2 ^ 64) (.tst f96 { m0 with cols := 0, rows := 7, ga := 6, t := 5, off := 0x20 }) = true ∧
    reads 8 0x820FFC0161852000 (.trede f0 { m0 with cols := 31, rows := 31, gb := 6, ga := 5, t := 2 }) = true ∧
    reads 8 0x828FFC0161853000 (.trde f0 { m0 with cols := 31, rows := 31, gb := 6, ga := 5, t := 3 }) = true ∧
    reads 8 0x803FFC0040030000 (.tld f0 { m0 with cols := 127, rows := 31, fm := some (.b8 3), ga := 3 }) = true ∧
    reads 12 (0x84000B0000001001 + 0x41 * 2 ^ 64) (.tzero f96 { t0 with fa := none, tb := 0, td := 1, rowsm1 := 1, colsm1 := 2 }) = true ∧
    reads 8 0x8800000000040000 (.cpy f0 (rr 0 1 0 0)) = true := by decide +kernel

/-- R215: classes 101 and 110; listings of the programs. -/
theorem test_decode_matrix : reads 8 0xA4000000C0040000 (.tchk f0 { t0 with fa := none, fd := none, ga := 12, tb := 0, ta := 4, td := 0 }) = true ∧
    reads 8 0xC0000A5000214000 (.tadd f0 { t0 with fa := some .f16, fd := some .f16, ta := 1, tb := 2, td := 4 }) = true ∧
    reads 8 0xCA800A5000002000 (.ttrn f0 { t0 with fa := some .f16, fd := some .f16, tb := 0 }) = true ∧
    reads 8 0xCB000B5000023000 (.tredr f0 { t0 with fa := some .f16, tb := 0, ta := 2, td := 3 }) = true ∧
    reads 8 0xA404000080023000 (.tchkFix f0 { t0 with fa := none, fd := none, var := 1, ga := 8, tb := 0, ta := 2, td := 3 }) = true := by decide +kernel

/-- R192, R196, R197, R210 to R216: words that are no instruction. -/
theorem test_decode_refused : refusedAs 16 0x4000000000000003 .len11 = true ∧ refusedAs 8 0xE000000000000000 .classX = true ∧
    refusedAs 8 0x4580000000000000 .unlisted = true ∧ refusedAs 8 0x0000000005249800 .field = true ∧ refusedAs 8 0x0010000005249000 .field = true ∧
    refusedAs 8 0x4000000000000001 .short = true ∧ refusedAs 12 (0x4000000000000001 + 2 ^ 64) .field = true := by decide +kernel

/-! ### Single steps: results from the rules and the examples of the specification -/

/-- Executing i at s gives a next state of which p holds. -/
def gives (i : Instr) (s : State) (p : State → Bool) : Bool :=
  match exec i s with
  | .next t => p t
  | _ => false

/-- A context with the registers listed. -/
def sregs (g : Tab Word) : State := at0 (leaf 0) (runs g)

/-- A context with the tiles listed. -/
def stiles (l : Tab Tile) : State := at0 (leaf 0) { runs regs0 with tiles := l }

/-- A tile of one row. -/
def oneRow (f : Fmt) (l : List Nat) : Tile := Tile.withChecks ⟨true, 1, l.length, some f, false, l, [], [], []⟩

/-- A tile of one column. -/
def oneCol (f : Fmt) (l : List Nat) : Tile := Tile.withChecks ⟨true, l.length, 1, some f, false, l, [], [], []⟩

/-- R234: the sum wraps; the PC moves past the instruction. -/
theorem test_add_wraps : gives (.add f0 (rr 8 2 3 0)) s0 (fun t => t.ctx.reg 8 == 4 && t.ctx.pc == 8) = true := by decide +kernel

/-- R236: the example of DIV, with and without .i32. -/
theorem test_div_overflow : gives (.div f0 { rr 4 5 6 0 with ty := .i32 }) (sregs [(5, 0xFFFFFFFF80000000), (6, -1)]) (fun t => t.ctx.reg 4 == 0xFFFFFFFF80000000) = true ∧
    gives (.div f0 (rr 4 5 6 0)) (sregs [(5, 0xFFFFFFFF80000000), (6, -1)]) (fun t => t.ctx.reg 4 == 0x80000000) = true := by decide +kernel

/-- R236: the remainder of a division by zero is the dividend. -/
theorem test_remu_zero : gives (.remu f0 (rr 4 2 0 0)) s0 (fun t => t.ctx.reg 4 == 5) = true := by decide +kernel

/-- R234: the high half of (−1) × (−1), signed and unsigned. -/
theorem test_mulh : gives (.mulh f0 (rr 4 3 3 0)) s0 (fun t => t.ctx.reg 4 == 0) = true ∧
    gives (.mulhu f0 (rr 4 3 3 0)) s0 (fun t => t.ctx.reg 4 == 0xFFFFFFFFFFFFFFFE) = true := by decide +kernel

/-- R237: CLZ of zero at both widths. -/
theorem test_clz : gives (.clz f0 (rr 4 0 0 0)) s0 (fun t => t.ctx.reg 4 == 64) = true ∧
    gives (.clz f0 { rr 4 0 0 0 with ty := .i32 }) s0 (fun t => t.ctx.reg 4 == 32) = true := by decide +kernel

/-- R241: the table 0x4 gives pA and not pB. -/
theorem test_plogic : gives (.plogic f0 { rr 1 0 2 0 with var := 4 }) s0 (fun t => t.ctx.pred 1 == true) = true ∧
    gives (.plogic f0 { rr 1 2 0 0 with var := 4 }) s0 (fun t => t.ctx.pred 1 == false) = true := by decide +kernel

/-- R247: FCVT.f32.i32.rz of −7.9 gives −7 and sets NX. -/
theorem test_fcvt_rz : gives (.fcvt f0 { rr 1 2 0 0 with var := 4, ty := .i32, rnd := .rz }) (sregs [(2, 0xC0FCCCCD)])
    (fun t => t.ctx.reg 1 == -7 && t.ctx.fpsr != 0) = true := by decide +kernel

/-- R247: FCVT.f32.i32 of 3.0e10 gives 0x7FFFFFFF. -/
theorem test_fcvt_overflow : gives (.fcvt f0 { rr 1 2 0 0 with var := 4, ty := .i32 }) (sregs [(2, 0x50DF8476)])
    (fun t => t.ctx.reg 1 == 0x7FFFFFFF) = true := by decide +kernel

/-- R252: with D = A the target is the value before the write. -/
theorem test_callr_same : gives (.callr f0 (rr 1 1 0 0)) s0 (fun t => t.ctx.pc == 0x1000 && t.ctx.reg 1 == 8) = true := by decide +kernel

/-- R196: a disabled instruction only moves on; R232: g0 discards a write. -/
theorem test_disabled : gives (.add { f0 with pr := 1 } (rr 8 2 3 0)) s0 (fun t => t.ctx.reg 8 == 0 && t.ctx.pc == 8) = true ∧
    gives (.add f0 (rr 0 2 3 0)) s0 (fun t => t.ctx.reg 0 == 0) = true := by decide +kernel

/-- R254, R255: the example `REPT #4, #3, #1`. -/
theorem test_rept : gives (.rept f0 { ri 0 0 4 with var := 2, sc := 1 }) s0 (fun t => t.ctx.reptst == 0x0000000400010200 && t.ctx.reptpc == 8) = true := by
  decide +kernel

/-- R265, R267: a store places the low byte first, and a load reads it with its sign. -/
theorem test_store_load : gives (.st f0 { rm 3 1 8 with sz := .half }) s0 (fun t => memBytes t 0x100008 3 == [0xFF, 0xFF, 0]) = true ∧
    gives (.ld f0 { rm 5 1 0 with sz := .byteSx }) (physWrite s0 0x100000 [0x80]) (fun t => t.ctx.reg 5 == 0xFFFFFFFFFFFFFF80) = true := by decide +kernel

/-- R270, R271: AMO.add returns the old value and leaves the sum. -/
theorem test_amo_add : gives (.amo f0 (rr 4 1 2 0)) (physWrite s0 0x100000 [7]) (fun t => t.ctx.reg 4 == 7 && memBytes t 0x100000 2 == [12, 0]) = true := by
  decide +kernel

/-- R271: AMO.cas with another old value writes nothing. -/
theorem test_amo_cas : gives (.amo f0 { rr 4 1 2 3 with var := 9 }) (physWrite s0 0x100000 [7])
    (fun t => t.ctx.reg 4 == 7 && memBytes t 0x100000 1 == [7]) = true := by decide +kernel

/-- R353: CSRX.clr gives the value as it stood and clears the bits named. -/
theorem test_csrx_clr : gives (.csrxClr f0 { ri 4 2 0x001 with var := 2 }) (at0 (leaf 0) { runs regs0 with fpsr := 7 })
    (fun t => t.ctx.reg 4 == 7 && t.ctx.fpsr == 2) = true := by decide +kernel

/-- R403: ERET enters PMODE at FPC and clears INTRAP. -/
theorem test_eret : gives (.eret f0 (rr 0 0 0 0)) (at0 (leaf 0) { runs regs0 with mode := .firmware, estat := 5, fpc := 0x1000 })
    (fun t => t.ctx.mode == .supervisor && t.ctx.pc == 0x1000 && !bitOf t.ctx.estat 2) = true := by decide +kernel

/-- R39, R209: ERET of user code raises PRIV, code 0x01, which the trap takes in supervisor mode. -/
theorem test_eret_user : gives (.eret f0 (rr 0 0 0 0)) s0 (fun t => t.ctx.mode == .supervisor && fieldOf t.ctx.fcause 0 8 == 1 && t.ctx.fpc == 0) = true := by
  decide +kernel

/-- R307: TGET reads the element of row 1, column 0. -/
theorem test_tget : gives (.tget f0 { t0 with fa := none, fd := none, ga := 8, ta := 0, tb := 0, td := 0 })
    (at0 (leaf 0) { runs [(9, 128)] with tiles := [(0, oneCol .f16 [1, 2])] }) (fun t => t.ctx.reg 8 == 2) = true := by decide +kernel

/-- R318, R324: 1.0 + 1.0 in FP16 is 2.0. -/
theorem test_tadd : gives (.tadd f0 { t0 with fa := some .f16, fd := some .f16 }) (stiles [(0, oneRow .f16 [0x3C00]), (1, oneRow .f16 [0x3C00])])
    (fun t => (t.ctx.tile 2).elems == [0x4000]) = true := by decide +kernel

/-- R308, R311: the sparse row of the section on MMASP, and the same with its first group at fault and forgiven. -/
theorem test_mmasp : gives (.mmasp f0 { t0 with fa := some (.b8 3), ta := 0, tb := 2, tc := 4, td := 6 })
      (stiles [(0, oneRow (.b8 3) [0x40, 0x48, 0x38, 0xC0]), (2, oneRow (.b8 3) [0x40, 0x40, 0x40, 0x40]), (3, oneRow (.b8 3) [0x48, 0x48, 0x48, 0x48]),
        (4, oneRow .ui8 [0xCD]), (6, oneRow .f32 [0])]) (fun t => (t.ctx.tile 6).elems == [0x40000000]) = true := by decide +kernel

/-- R441: HALT sets bit 1 of the core's debug control. -/
theorem test_halt : gives (.debugHalt 3) s0 (fun t => (t.core 3).dbgctl == 2) = true := by decide +kernel

end Sys2Proof.Tests
end

section
/-!
SUPPORT. What reset holds, and the statement about it (O58).
-/
namespace Sys2Proof.Machine
open Sys2Proof.Spec

/-! ### The state at reset -/

@[simp] theorem reset_core (n : Nat) : State.reset.core n = Core.reset := rfl

@[simp] theorem reset_ctxAt (n x : Nat) : State.reset.ctxAt n x = Ctx.reset := by
  unfold State.ctxAt Core.ctx
  split <;> rfl

@[simp] theorem reset_slotAt (b : Buf) (i : Nat) : slotAt Core.reset b i = Tile.empty := by
  cases b <;> rfl

/-- A buffer without a valid slot has an empty mask. -/
theorem validMask_of_empty {k : Core} {b : Buf} (h : ∀ i, (slotAt k b i).valid = false) : validMask k b = 0 := by
  unfold validMask
  simp only [h, Bool.false_eq_true, if_false]
  generalize upTo (slotCount b) = l
  induction l with
  | nil => rfl
  | cons _ _ ih => exact ih

/-- The status registers of R9 whose reset value is zero, of any core and context. -/
theorem reset_csrRead_zero (core x : Nat) :
    ∀ n ∈ [0x001, 0x002, 0x00C, 0x00D, 0x010, 0x011, 0x012, 0x105, 0x110, 0x111, 0x400, 0x4C0, 0x4C1, 0x4C2, 0x4C3],
      csrRead State.reset core x n = 0 := by
  have hv (b : Buf) : validMask Core.reset b = 0 := validMask_of_empty fun i => by rw [reset_slotAt]; rfl
  simp only [csrRead, reset_ctxAt, List.forall_mem_cons]
  refine ⟨rfl, rfl, rfl, rfl, rfl, rfl, rfl, rfl, rfl, rfl, rfl, rfl, hv .w, hv .a, hv .c, ?_⟩
  exact List.forall_mem_nil _

/-- Settles O58: every clause reads off the tables of reset, which list nothing. -/
theorem resetState : Obligations.ResetState := by
  unfold Obligations.ResetState
  refine ⟨?ctx, ?csr, ?slots, fun _ _ => rfl, fun _ => rfl, rfl, rfl, rfl, fun _ => rfl, reset_memWf⟩
  case ctx =>
    rintro n x _ rfl
    rw [reset_ctxAt]
    exact ⟨rfl, rfl, rfl, rfl, rfl, rfl⟩
  case csr => exact fun core _ x _ => reset_csrRead_zero core x
  case slots => exact fun n b i => reset_slotAt b i

end Sys2Proof.Machine
end

section
/-!
SUPPORT. The status registers: which numbers are assigned and who may reach them, what a read returns, what a write of a register of the
context changes and leaves, and the instructions that read and write them (O16).
-/
namespace Sys2Proof.Machine
open Sys2Proof.Spec

/-! ### Numbers and rights (R38, R39, R362) -/

theorem csrAssigned_iff (n : Nat) : csrAssigned n = true ↔ Assigned n := by
  simp only [csrAssigned, Assigned, csrRanges, Bool.or_eq_true, Bool.and_eq_true, beq_iff_eq, decide_eq_true_eq,
    List.mem_cons, List.not_mem_nil, or_false, exists_eq_or_imp, exists_eq_left]
  omega

theorem csrMayRead_iff (m : Mode) (n : Nat) : csrMayRead m n = true ↔ MayRead m n := by
  unfold csrMayRead MayRead
  split
  case isTrue h => simp [h]
  case isFalse h =>
    split
    case isTrue h' => cases m <;> simp [h, h', Mode.atLeast, Mode.code]
    case isFalse h' => cases m <;> simp [h, h']

theorem csrReadOnly_iff {n : Nat} (h : Assigned n) : csrReadOnly n = true ↔ ReadOnly n := by
  rw [← csrAssigned_iff] at h
  simp only [csrAssigned, Bool.or_eq_true, Bool.and_eq_true, beq_iff_eq, decide_eq_true_eq] at h
  simp only [csrReadOnly, ReadOnly, readOnlyRanges, Bool.or_eq_true, Bool.and_eq_true, beq_iff_eq, decide_eq_true_eq,
    List.mem_cons, List.not_mem_nil, or_false, exists_eq_or_imp, exists_eq_left]
  omega

theorem csrMayWrite_iff {m : Mode} {n : Nat} (h : Assigned n) : csrMayWrite m n = true ↔ MayWrite m n := by
  have hro : csrReadOnly n = false ↔ ¬ReadOnly n := by rw [← csrReadOnly_iff h, Bool.not_eq_true]
  have huser : (m.atLeast .supervisor || !(n == 0x00C || n == 0x00D || n ≥ 0x100)) = true ↔
      (m = .user → n < 0x100 ∧ n ≠ 0x00C ∧ n ≠ 0x00D) := by
    cases m <;> simp [Mode.atLeast, Mode.code]
    omega
  unfold csrMayWrite MayWrite
  rw [Bool.and_eq_true, Bool.and_eq_true, Bool.not_eq_true', hro, csrMayRead_iff, huser, and_assoc, and_left_comm]

/-! ### The frame of the instructions (R39, R196, R218) -/

/-- A status-register instruction with the right to its number runs its body. -/
theorem csrInstr_enabled {f : Frame} {n : Nat} {write : Bool} {body : M Fin'} {s : State} (ha : Assigned n)
    (hm : if write then MayWrite s.ctx.mode n else MayRead s.ctx.mode n) (h : Enabled f s) :
    csrInstr f n write body s = .next (runBody s f.len.bytes body) := by
  unfold csrInstr
  rw [(csrAssigned_iff n).mpr ha, Bool.not_true, if_neg Bool.false_ne_true]
  refine privInstr_enabled ?_ h
  cases write
  case false => simpa using (csrMayRead_iff _ _).mpr hm
  case true => simpa using (csrMayWrite_iff ha).mpr hm

/-! ### Reading -/

theorem csrRead_of_csr {s : State} {core x n : Nat} {w : Word} (h : (s.ctxAt core x).csr n = some w) : csrRead s core x n = w := by
  unfold csrRead
  rw [h]

/-- The registers of a context by number (R362). -/
theorem csr_ctxRegs (c : Ctx) : ∀ p ∈ ctxRegs, c.csr p.1 = some (p.2 c) := by
  simp only [ctxRegs, List.forall_mem_cons, List.not_mem_nil, false_implies, implies_true, and_true]
  and_intros <;> rfl

/-- The counters of a core by number (R443). -/
theorem csrRead_pmc (s : State) (core x i : Nat) (h : i < 8) : csrRead s core x (0x120 + i) = tget (s.core core).pmc i 0 := by
  match i, h with
  | 0, _ | 1, _ | 2, _ | 3, _ | 4, _ | 5, _ | 6, _ | 7, _ => rfl

/-- Their selections by number (R443). -/
theorem csrRead_pmsel (s : State) (core x i : Nat) (h : i < 8) : csrRead s core x (0x480 + i) = tget (s.core core).pmsel i 0 := by
  match i, h with
  | 0, _ | 1, _ | 2, _ | 3, _ | 4, _ | 5, _ | 6, _ | 7, _ => rfl

theorem estatWord_eq (c : Ctx) : c.estatWord = estatRead c := by
  have hm : maskOf 4 2 = 0x30#64 := by decide
  unfold Ctx.estatWord estatRead mergeMask
  rw [hm, BitVec.or_comm]
  cases c.mode <;> rfl

/-! ### Words merged under a mask -/

theorem mergeMask_and_self (m new old : Word) : mergeMask m new old &&& m = new &&& m := by
  ext i hi
  simp only [mergeMask, BitVec.getElem_and, BitVec.getElem_or, BitVec.getElem_not]
  cases m[i] <;> simp

theorem mergeMask_and_disjoint {m k : Word} (h : m &&& k = 0) (new old : Word) : mergeMask m new old &&& k = old &&& k := by
  ext i hi
  have hmk : (m[i] && k[i]) = false := by
    rw [← BitVec.getElem_and, h]
    exact BitVec.getElem_zero hi
  simp only [mergeMask, BitVec.getElem_and, BitVec.getElem_or, BitVec.getElem_not]
  cases hm : m[i]
  case false => simp
  case true =>
    have hk : k[i] = false := by rwa [hm, Bool.true_and] at hmk
    simp [hk]

theorem mergeMask_of_and_eq {m new old : Word} (h : new &&& m = old &&& m) : mergeMask m new old = old := by
  unfold mergeMask
  rw [h, ← BitVec.and_or_distrib_left, BitVec.or_not_self, BitVec.and_allOnes]

/-! ### A context's registers after a write -/

/-- A write of one register leaves the others: of the pairs of numbers, those with m = n contradict `h`. -/
theorem csr_csrPut_ne (c : Ctx) {n m : Nat} (h : m ≠ n) (w clear : Word) : (c.csrPut n w clear).csr m = c.csr m := by
  unfold Ctx.csrPut
  split
  all_goals
    unfold Ctx.csr
    split <;> trivial

/-- The masks of the statement are those of the model. -/
theorem csrMask_writeMasks : ∀ p ∈ writeMasks, csrMask p.1 = p.2 := by decide

theorem csr_csrPut_self (c : Ctx) (w clear : Word) : ∀ p ∈ writeMasks,
    (c.csrPut p.1 w clear).csr p.1 = some (if p.1 = 0x415 then ({ c with estat := fixPmode w } : Ctx).estatWord else w) := by
  simp only [writeMasks, List.forall_mem_cons, List.not_mem_nil, false_implies, implies_true, and_true]
  and_intros <;> rfl

theorem csr_isSome_of_writeMasks (c : Ctx) : ∀ p ∈ writeMasks, (c.csr p.1).isSome := by
  simp only [writeMasks, List.forall_mem_cons, List.not_mem_nil, false_implies, implies_true, and_true]
  and_intros <;> rfl

/-- PMODE 11 is written as 00 (R399). -/
theorem fixPmode_eq (w : Word) : fixPmode w = if w &&& 3 = 3 then w &&& ~~~3 else w := by
  have hf : fieldOf w 0 2 = (w &&& 3).toNat := by
    rw [BitVec.toNat_and]
    exact (congrArg (· % 4) (Nat.div_one _)).trans (Nat.and_two_pow_sub_one_eq_mod w.toNat 2).symm
  have he : (fieldOf w 0 2 == 3) = true ↔ w &&& 3 = 3 := by
    rw [hf, beq_iff_eq]
    exact BitVec.toNat_inj (y := 3#64)
  unfold fixPmode
  simp only [he]
  rfl

/-- A write of ESTAT leaves MODE, which is the current mode (R399). -/
theorem estatWord_csrPut (c : Ctx) (v : Word) :
    ({ c with estat := fixPmode (mergeMask 0x87 v c.estatWord) } : Ctx).estatWord = written 0x415 0x87 c.estatWord v := by
  have hmode : mergeMask 0x87 v c.estatWord &&& maskOf 4 2 = atBit 4 c.mode.code &&& maskOf 4 2 := by
    rw [mergeMask_and_disjoint (by decide)]
    exact mergeMask_and_self ..
  have hfix : fixPmode (mergeMask 0x87 v c.estatWord) &&& maskOf 4 2 = mergeMask 0x87 v c.estatWord &&& maskOf 4 2 := by
    rw [fixPmode_eq]
    split
    · rw [BitVec.and_assoc]; rfl
    · rfl
  calc ({ c with estat := fixPmode (mergeMask 0x87 v c.estatWord) } : Ctx).estatWord
      = fixPmode (mergeMask 0x87 v c.estatWord) := mergeMask_of_and_eq (hfix.trans hmode).symm
    _ = written 0x415 0x87 c.estatWord v := by
        rw [fixPmode_eq]
        unfold written
        simp only [true_and]
        rfl

/-- What a register of a context holds after a write (R8, R353). -/
theorem csr_csrPut_written {c : Ctx} {old : Word} {p : Nat × Word} (hp : p ∈ writeMasks) (ho : c.csr p.1 = some old) (v clear : Word) :
    (c.csrPut p.1 (mergeMask p.2 v old) clear).csr p.1 = some (written p.1 p.2 old v) := by
  rw [csr_csrPut_self c _ clear p hp]
  congr 1
  split
  case isTrue h =>
    obtain ⟨n, m⟩ := p
    obtain rfl : n = 0x415 := h
    obtain rfl : m = 0x87 := (csrMask_writeMasks _ hp).symm.trans (show csrMask 0x415 = 0x87 by decide)
    obtain rfl : c.estatWord = old := Option.some.inj ho
    exact estatWord_csrPut c v
  case isFalse h => exact (if_neg fun hc => h hc.1).symm

/-! ### What a write of a register leaves unchanged -/

/-- A write of a status register touches nothing else of its context but the pinned rows of a load. -/
theorem csrPut_rest (c : Ctx) (n : Nat) (w clear : Word) :
    (c.csrPut n w clear).g = c.g ∧ (c.csrPut n w clear).p = c.p ∧ (c.csrPut n w clear).tiles = c.tiles ∧
    (c.csrPut n w clear).pc = c.pc ∧ (c.csrPut n w clear).mode = c.mode ∧ (c.csrPut n w clear).retired = c.retired ∧
    (c.csrPut n w clear).hold = c.hold ∧ (c.csrPut n w clear).task = c.task := by
  unfold Ctx.csrPut
  split <;> exact ⟨rfl, rfl, rfl, rfl, rfl, rfl, rfl, rfl⟩

theorem csrPut_pc (c : Ctx) (n : Nat) (w clear : Word) : (c.csrPut n w clear).pc = c.pc := by
  obtain ⟨-, -, -, hpc, -⟩ := csrPut_rest c n w clear
  exact hpc

theorem csrPut_reptst (c : Ctx) {n : Nat} (h : n ≠ 0x00C) (w clear : Word) : (c.csrPut n w clear).reptst = c.reptst := by
  unfold Ctx.csrPut
  split <;> trivial

/-- Under the hold REPTST may change; elsewhere it stays outside a block (R255, R464). -/
theorem inBlock_csrPut {c : Ctx} {n : Nat} (h : if n = 0x00C then c.hold = true else c.inBlock = false) (w clear : Word) :
    (c.csrPut n w clear).inBlock = false := by
  obtain ⟨-, -, -, -, -, -, hhold, -⟩ := csrPut_rest c n w clear
  unfold Ctx.inBlock at h ⊢
  rw [hhold]
  split at h
  case isTrue => rw [h]; rfl
  case isFalse hn => rw [csrPut_reptst c hn]; exact h

/-! ### The state after a write -/

/-- The acting context is updated, and the launch unit's record of jobs may be (log entry 21); nothing else is. -/
def CtxAndJobs (G : Ctx → Ctx) (s t : State) : Prop :=
  ∃ jobs, t = (s.modCtx G).modLaunch fun l => { l with jobs := jobs }

namespace CtxAndJobs

variable {G : Ctx → Ctx} {s t : State}

theorem of_modCtx (G : Ctx → Ctx) (s : State) : CtxAndJobs G s (s.modCtx G) := ⟨s.launch.jobs, rfl⟩

theorem modCtx (h : CtxAndJobs G s t) (F : Ctx → Ctx) : CtxAndJobs (fun c => F (G c)) s (t.modCtx F) := by
  obtain ⟨jobs, rfl⟩ := h
  exact ⟨jobs, congrArg (fun u : State => u.modLaunch fun l => { l with jobs := jobs }) (State.modCtx_modCtx s G F)⟩

theorem cur (h : CtxAndJobs G s t) : t.cur = s.cur := by
  obtain ⟨jobs, rfl⟩ := h
  rfl

theorem ctx (h : CtxAndJobs G s t) : t.ctx = G s.ctx := by
  obtain ⟨jobs, rfl⟩ := h
  exact State.modCtx_ctx s G

theorem noStep (h : CtxAndJobs G s t) (hs : NoStep s) : NoStep t := by
  obtain ⟨jobs, rfl⟩ := h
  exact noStep_modCtx hs G

theorem bytesKept (h : CtxAndJobs G s t) : BytesKept s t := by
  obtain ⟨jobs, rfl⟩ := h
  exact fun _ => rfl

end CtxAndJobs

theorem noteJob_jobs (s : State) (core cx n : Nat) :
    ∃ jobs, noteJob s core cx n = s.modLaunch fun l => { l with jobs := jobs } := by
  unfold noteJob
  split
  · exact ⟨_, rfl⟩
  · exact ⟨s.launch.jobs, rfl⟩

/-- A write of a register of the acting context. -/
theorem csrPut_of_csr {s : State} {n : Nat} {old : Word} (h : s.ctx.csr n = some old) (v clear : Word) :
    CtxAndJobs (fun c => c.csrPut n (mergeMask (csrMask n) v old) clear) s (csrPut s s.me s.mycx n v clear) := by
  have hc : (s.ctxAt s.me s.mycx).csr n = some old := h
  unfold csrPut
  rw [csrRead_of_csr hc, hc]
  exact noteJob_jobs ..

/-- An update of the acting context that keeps its task keeps every context's task. -/
theorem task_modCtx {s : State} {G : Ctx → Ctx} (h : (G s.ctx).task = s.ctx.task) (n x : Nat) :
    ((s.modCtx G).ctxAt n x).task = (s.ctxAt n x).task := by
  rw [State.modCtx_eq, State.modCtxAt_ctxAt]
  split
  case isTrue hn =>
    obtain ⟨rfl, hx⟩ := hn
    have : s.ctxAt s.me s.mycx = s.ctxAt s.me x := by
      unfold State.ctxAt Core.ctx
      simp only [hx]
    rw [← this]
    exact h
  case isFalse => rfl

theorem holdCount_modCtx {s : State} {G : Ctx → Ctx} (h : (G s.ctx).task = s.ctx.task) : holdCount (s.modCtx G) = holdCount s := by
  have hd : die1Tasks (s.modCtx G) = die1Tasks s := by
    have h0 (n : Nat) : ((s.modCtx G).core n).c0.task = (s.core n).c0.task := task_modCtx h n 0
    have h1 (n : Nat) : ((s.modCtx G).core n).c1.task = (s.core n).c1.task := task_modCtx h n 1
    unfold die1Tasks
    exact congrArg (fun count : Nat → Nat => ((upTo 64).map count).foldl (· + ·) 0) (funext fun i => by rw [h0, h1])
  unfold holdCount
  rw [hd]
  rfl

/-- The registers of the core, the sorus and the device do not depend on a context, but for the tasks that HOLD counts (R359). -/
theorem sharedCsr_modCtx {s : State} {G : Ctx → Ctx} (h : (G s.ctx).task = s.ctx.task) (core cx n : Nat) :
    sharedCsr (s.modCtx G) core cx n = sharedCsr s core cx n := by
  unfold sharedCsr
  rw [holdCount_modCtx h, State.modCtx_core]
  by_cases hc : core = s.me
  · subst hc
    rw [if_pos rfl]
    unfold Core.setCtx
    by_cases hx : s.mycx = 0
    · rw [if_pos hx]; rfl
    · rw [if_neg hx]; rfl
  · rw [if_neg hc]; rfl

theorem CtxAndJobs.sharedCsr_eq {G : Ctx → Ctx} {s t : State} (h : CtxAndJobs G s t) (ht : (G s.ctx).task = s.ctx.task) (core cx n : Nat) :
    sharedCsr t core cx n = sharedCsr s core cx n := by
  obtain ⟨jobs, rfl⟩ := h
  exact sharedCsr_modCtx ht core cx n

/-- A status register reads as before where the context's update keeps it. -/
theorem CtxAndJobs.csrRead_eq {G : Ctx → Ctx} {s t : State} (h : CtxAndJobs G s t) (ht : (G s.ctx).task = s.ctx.task) {n : Nat}
    (hn : (G s.ctx).csr n = s.ctx.csr n) : csrRead t t.me t.mycx n = csrRead s s.me s.mycx n := by
  have hc : (t.ctxAt t.me t.mycx).csr n = (s.ctxAt s.me s.mycx).csr n := (congrArg (Ctx.csr · n) h.ctx).trans hn
  have hme : t.me = s.me := by unfold State.me; rw [h.cur]
  have hcx : t.mycx = s.mycx := by unfold State.mycx; rw [h.cur]
  unfold csrRead
  rw [hc, hme, hcx, h.sharedCsr_eq ht]

/-- A status-register instruction whose body changes its context and not the PC retires to the next instruction. -/
theorem csrInstr_next {f : Frame} {n : Nat} {write : Bool} {body : M Fin'} {G : Ctx → Ctx} {s t : State} (he : Enabled f s)
    (hs : NoStep s) (ha : Assigned n) (hm : if write then MayWrite s.ctx.mode n else MayRead s.ctx.mode n)
    (hb : body.run s = .ok .fall t) (ht : CtxAndJobs G s t) (hpc : (G s.ctx).pc = s.ctx.pc) :
    csrInstr f n write body s = .next (t.modCtx fun c => c.retire (afterPc f s)) := by
  have hafter : t.ctx.pc + wordOf f.len.bytes = afterPc f s := by rw [ht.ctx, hpc]; rfl
  rw [csrInstr_enabled ha hm he, runBody_ok hb, finish_fall (ht.noStep hs), ← hafter]
  rfl

/-! ### CSRR (R353) -/

theorem run_csrOld (n : Nat) (s : State) : (csrOld n).run s = .ok (csrRead s s.me s.mycx n) s := rfl

/-- A body that writes one scalar register and no flag, then retires. -/
theorem setsReg_retire {f : Frame} {s : State} (d : Nat) (v : Word) :
    SetsReg (afterPc f s) s (s.modCtx fun c => (c.setReg d v).retire (afterPc f s)) d v 0 :=
  setsReg_of rfl (scalarOnly_setReg ..) (regsAre_setReg _ _ _) (setReg_gue ..) ⟨setReg_p .., setReg_pue ..⟩ (by simp)

theorem exec_csrr {f : Frame} {r : FmtI} {s : State} (he : Enabled f s) (hs : NoStep s) (ha : Assigned r.imm.toNat)
    (hm : MayRead s.ctx.mode r.imm.toNat) :
    exec (.csrr f r) s = .next (s.modCtx fun c => (c.setReg r.d.val (csrRead s s.me s.mycx r.imm.toNat)).retire (afterPc f s)) := by
  have ht := CtxAndJobs.of_modCtx (fun c => c.setReg r.d.val (csrRead s s.me s.mycx r.imm.toNat)) s
  refine (csrInstr_next (write := false) he hs ha hm ?_ ht (setReg_pc ..)).trans (congrArg Host.Outcome.next (State.modCtx_modCtx ..))
  rfl

/-- CSRR puts the register that its number names in gD, and nothing else changes. -/
theorem csrr_reads {f : Frame} {r : FmtI} {s : State} (he : Enabled f s) (hs : NoStep s) (ha : Assigned r.imm.toNat)
    (hm : MayRead s.ctx.mode r.imm.toNat) :
    ∃ t v, exec (.csrr f r) s = .next t ∧ SetsReg (afterPc f s) s t r.d.val v 0 ∧
      (∀ p ∈ ctxRegs, r.imm.toNat = p.1 → v = p.2 s.ctx) ∧ (r.imm.toNat = 0x415 → v = estatRead s.ctx) ∧
      (r.imm.toNat = 0x110 → v = s.myCore.cyc) ∧ (r.imm.toNat = 0x111 → v = s.myCore.ncyc) ∧
      (∀ i, i < 8 → r.imm.toNat = 0x120 + i → v = tget s.myCore.pmc i 0) ∧
      (∀ i, i < 8 → r.imm.toNat = 0x480 + i → v = tget s.myCore.pmsel i 0) ∧
      (r.imm.toNat = 0x4C0 → v = s.myCore.bufpart) := by
  refine ⟨_, _, exec_csrr he hs ha hm, setsReg_retire .., ?_, ?_, ?_, ?_, ?_, ?_, ?_⟩
  · intro p hp hn
    rw [hn]
    exact csrRead_of_csr (csr_ctxRegs s.ctx p hp)
  · intro hn
    rw [hn, ← estatWord_eq]
    exact csrRead_of_csr rfl
  · intro hn; rw [hn]; rfl
  · intro hn; rw [hn]; rfl
  · intro i hi hn; rw [hn]; exact csrRead_pmc s _ _ i hi
  · intro i hi hn; rw [hn]; exact csrRead_pmsel s _ _ i hi
  · intro hn; rw [hn]; rfl

/-! ### CSRW, CSRX (R353) -/

theorem run_forbidInRegion {s : State} (h : NoRegion s) : forbidInRegion.run s = .ok ⟨⟩ s := by
  show (if s.ctx.regionOpen then throw (.abort 4 0) else pure () : M Unit).run s = _
  rw [h]
  rfl

/-- Only BUFPART and the VALID registers wait for engine work (R34, R35). -/
theorem run_csrWait {n : Nat} (h : ¬(0x4C0 ≤ n ∧ n ≤ 0x4C3)) (s : State) : (csrWait n).run s = .ok ⟨⟩ s := by
  have hn : ¬((decide (0x4C0 ≤ n) && decide (n ≤ 0x4C3) && anySlotBusy s.myCore) = true) := by
    simp only [Bool.and_eq_true, decide_eq_true_eq]
    exact fun hc => h hc.1
  unfold csrWait
  rw [run_get_bind, if_neg hn, run_pure]

/-- The state after CSRW or CSRX of a register: v and `clear` are written, gD (none with d = 0) takes the old value, and the instruction
retires. -/
def afterCsrWrite (f : Frame) (s : State) (n : Nat) (v clear : Word) (d : Nat) : State :=
  (csrPut s s.me s.mycx n v clear).modCtx fun c => (c.setReg d (csrRead s s.me s.mycx n)).retire (afterPc f s)

section
variable {f : Frame} {r : FmtI} {s : State} {old : Word}
variable (he : Enabled f s) (hs : NoStep s) (hr : NoRegion s) (ha : Assigned r.imm.toNat) (hm : MayWrite s.ctx.mode r.imm.toNat)
  (hw : ¬(0x4C0 ≤ r.imm.toNat ∧ r.imm.toNat ≤ 0x4C3)) (hg : s.ctx.readable r.a.val = true) (ho : s.ctx.csr r.imm.toNat = some old)
include he hs hr ha hm hw hg ho

theorem exec_csrw :
    exec (.csrw f r) s = .next (afterCsrWrite f s r.imm.toNat (s.ctx.reg r.a.val) (s.ctx.reg r.a.val) 0) := by
  refine csrInstr_next (write := true) he hs ha hm ?_ (csrPut_of_csr ho (s.ctx.reg r.a.val) (s.ctx.reg r.a.val)) (csrPut_pc ..)
  rw [run_bind_ok (run_forbidInRegion hr), run_bind_ok (run_getG hg), run_bind_ok (run_csrWait hw s)]
  rfl

theorem csrx_next (new : Word → Word → Word) (clear : Word → Word) :
    csrx new clear f r s = .next (afterCsrWrite f s r.imm.toNat (new (csrRead s s.me s.mycx r.imm.toNat) (s.ctx.reg r.a.val))
      (clear (s.ctx.reg r.a.val)) r.d.val) := by
  have ht := (csrPut_of_csr ho (new (csrRead s s.me s.mycx r.imm.toNat) (s.ctx.reg r.a.val)) (clear (s.ctx.reg r.a.val))).modCtx
    fun c => c.setReg r.d.val (csrRead s s.me s.mycx r.imm.toNat)
  refine (csrInstr_next (write := true) he hs ha hm ?_ ht ((setReg_pc ..).trans (csrPut_pc ..))).trans
    (congrArg Host.Outcome.next (State.modCtx_modCtx ..))
  rw [run_bind_ok (run_forbidInRegion hr), run_bind_ok (run_getG hg), run_bind_ok (run_csrWait hw s)]
  rfl

end

/-- Outside a block retirement moves to the next instruction and ends a wait. -/
theorem retire_of_not_inBlock {c : Ctx} (h : c.inBlock = false) (next : Word) :
    c.retire next = { c with pc := next, retired := c.retired + 1, wait := none, fwdGot := [], pageGot := [] } := by
  unfold Ctx.retire Ctx.stepRept
  rw [h]
  rfl

theorem csr_setReg (c : Ctx) (d : Nat) (v : Word) (n : Nat) : (c.setReg d v).csr n = c.csr n := by
  unfold Ctx.setReg
  split <;> rfl

theorem csr_retire {c : Ctx} (h : c.inBlock = false) (next : Word) (n : Nat) : (c.retire next).csr n = c.csr n := by
  rw [retire_of_not_inBlock h]
  rfl

theorem inBlock_setReg (c : Ctx) (d : Nat) (v : Word) : (c.setReg d v).inBlock = c.inBlock := by
  obtain ⟨hhold, hrept, -⟩ := scalarOnly_fields (scalarOnly_setReg c d v)
  unfold Ctx.inBlock
  rw [hhold, hrept]

theorem setReg_rest (c : Ctx) (d : Nat) (v : Word) :
    (c.setReg d v).task = c.task ∧ (c.setReg d v).mode = c.mode ∧ (c.setReg d v).tiles = c.tiles := by
  unfold Ctx.setReg
  split <;> exact ⟨rfl, rfl, rfl⟩

/-- A context outside a block that takes a value in one scalar register and retires. -/
theorem setReg_retire {c : Ctx} (h : c.inBlock = false) (d : Nat) (v next : Word) :
    (∀ n, ((c.setReg d v).retire next).csr n = c.csr n) ∧ ((c.setReg d v).retire next).task = c.task ∧
    ((c.setReg d v).retire next).pc = next ∧ ((c.setReg d v).retire next).mode = c.mode ∧
    ((c.setReg d v).retire next).retired = c.retired + 1 ∧ RegsAre c ((c.setReg d v).retire next) d v ∧
    ((c.setReg d v).retire next).p = c.p ∧ ((c.setReg d v).retire next).tiles = c.tiles := by
  have hin : (c.setReg d v).inBlock = false := (inBlock_setReg ..).trans h
  obtain ⟨htask, hmode, htiles⟩ := setReg_rest c d v
  refine ⟨fun n => (csr_retire hin next n).trans (csr_setReg ..), ?task, ?pc, ?mode, ?retired,
    fun j => (retire_reg ..).trans (setReg_reg ..), ?p, ?tiles⟩
  all_goals rw [retire_of_not_inBlock hin]
  case task => exact htask
  case mode => exact hmode
  case retired => exact congrArg (· + 1) (setReg_retired ..)
  case p => exact setReg_p ..
  case tiles => exact htiles

section
variable {f : Frame} {s : State} {p : Nat × Word} {old : Word} (hp : p ∈ writeMasks) (ho : s.ctx.csr p.1 = some old)
include hp ho

theorem afterCsrWrite_ctxAndJobs (v clear : Word) (d : Nat) :
    CtxAndJobs (fun c => ((c.csrPut p.1 (mergeMask p.2 v old) clear).setReg d old).retire (afterPc f s)) s
      (afterCsrWrite f s p.1 v clear d) := by
  have hread : csrRead s s.me s.mycx p.1 = old := csrRead_of_csr ho
  have h := csrPut_of_csr ho v clear
  rw [csrMask_writeMasks p hp] at h
  unfold afterCsrWrite
  rw [hread]
  exact h.modCtx _

/-- What CSRW or CSRX of a register of the context leaves. -/
theorem afterCsrWrite_spec (hb : if p.1 = 0x00C then s.ctx.hold = true else s.ctx.inBlock = false) {v clear : Word} {d : Nat}
    {t : State} (ht : t = afterCsrWrite f s p.1 v clear d) :
    csrRead t t.me t.mycx p.1 = written p.1 p.2 old v ∧
    (∀ n, n ≠ p.1 → csrRead t t.me t.mycx n = csrRead s s.me s.mycx n) ∧
    t.ctx.pc = afterPc f s ∧ t.ctx.mode = s.ctx.mode ∧ t.ctx.retired = s.ctx.retired + 1 ∧
    RegsAre s.ctx t.ctx d old ∧ t.ctx.p = s.ctx.p ∧ t.ctx.tiles = s.ctx.tiles ∧ BytesKept s t := by
  subst ht
  have hj := afterCsrWrite_ctxAndJobs (f := f) hp ho v clear d
  obtain ⟨hg, hpr, htl, -, hmode, hret, -, htask⟩ := csrPut_rest s.ctx p.1 (mergeMask p.2 v old) clear
  obtain ⟨hcsr', htask', hpc', hmode', hret', hregs', hpr', htl'⟩ :=
    setReg_retire (inBlock_csrPut hb (mergeMask p.2 v old) clear) d old (afterPc f s)
  refine ⟨?self, ?others, ?_⟩
  case self =>
    exact csrRead_of_csr ((congrArg (Ctx.csr · p.1) hj.ctx).trans ((hcsr' p.1).trans (csr_csrPut_written hp ho v clear)))
  case others =>
    exact fun n hn => hj.csrRead_eq (htask'.trans htask) ((hcsr' n).trans (csr_csrPut_ne _ hn _ _))
  rw [hj.ctx]
  refine ⟨hpc', hmode'.trans hmode, hret'.trans (congrArg (· + 1) hret), fun j => ?_, hpr'.trans hpr, htl'.trans htl, hj.bytesKept⟩
  rw [hregs' j]
  unfold Ctx.reg
  rw [hg]
end

/-- The registers that can be written are assigned, and none is BUFPART or a VALID register. -/
theorem writeMasks_numbers : ∀ p ∈ writeMasks, csrAssigned p.1 = true ∧ ¬(0x4C0 ≤ p.1 ∧ p.1 ≤ 0x4C3) := by decide

/-- Settles O16: a read leaves the context's own write of gD, and CSRW and the forms of CSRX leave one state, `afterCsrWrite`. -/
theorem statusRegisterAccess : Obligations.StatusRegisterAccess := by
  unfold Obligations.StatusRegisterAccess
  refine ⟨fun f r s he hs ha hm => csrr_reads he hs ha hm, ?_⟩
  rintro f r s he hs hr hg ⟨n, m⟩ hp (rfl : r.imm.toNat = n) hm hb old rfl
  obtain ⟨ha, hw⟩ := writeMasks_numbers _ hp
  obtain ⟨old, ho⟩ := Option.isSome_iff_exists.mp (csr_isSome_of_writeMasks s.ctx _ hp)
  have ha' : Assigned r.imm.toNat := (csrAssigned_iff _).mp ha
  have hx := csrx_next he hs hr ha' hm hw hg ho
  have hread : csrRead s s.me s.mycx r.imm.toNat = old := csrRead_of_csr ho
  rw [hread] at hx
  simp only [List.forall_mem_cons, hread]
  exact ⟨⟨_, exec_csrw he hs hr ha' hm hw hg ho, afterCsrWrite_spec hp ho hb rfl⟩, ⟨_, hx _ _, afterCsrWrite_spec hp ho hb rfl⟩,
    ⟨_, hx _ _, afterCsrWrite_spec hp ho hb rfl⟩, ⟨_, hx _ _, afterCsrWrite_spec hp ho hb rfl⟩, List.forall_mem_nil _⟩

end Sys2Proof.Machine
end
